-- ==== Sys2Proof/Word.lean ====
section
/-! DEFINITION. The word types of the PCC (spec/00_scope.md R7, R8, R12; spec/30_encoding.md R100). Every value is
unsigned. -/

namespace Sys2Proof

/-- One byte of a byte channel. -/
abbrev Byte := BitVec 8

/-- A register of the host window, and a frequency-table entry (FREQ_WIDTH = 32, R7). -/
abbrev Word := BitVec 32

/-- A command word (R100). -/
abbrev Command := BitVec 64

/-- A symbol, zero-extended to the 16 bits of the A field; with W = 8 a symbol is below 256 (log 13). -/
abbrev Symbol := BitVec 16

/-- A node's count (COUNT_WIDTH = 64, R8). -/
abbrev Count := BitVec 64

end Sys2Proof
end

