-- ==== Sys2Proof/Config.lean ====
section
/-! DEFINITION. What an instance of the PCC fixes (spec/00_scope.md R5 to R9), the sizes that follow from it (R6), and
the free values (spec/93_implementation_defined.md U9; log 6, log 7). -/

namespace Sys2Proof

/-- The symbol width of an instance (R5). -/
inductive Width where
  | w8
  | w16
deriving DecidableEq, Repr, Inhabited

/-- W. -/
def Width.bits : Width → Nat
  | .w8 => 8
  | .w16 => 16

/-- N = 2^W, the alphabet's size and the most leaves a tree can have (R6). -/
def Width.alphabet (w : Width) : Nat := 2 ^ w.bits

/-- LMAX, the most leaves a tree can have (R6). -/
def Width.leafMax (w : Width) : Nat := w.alphabet

/-- IDX_W, the width of a node index (R6). The model's indices are naturals below NODE_MAX (log 8). -/
def Width.indexBits (w : Width) : Nat := w.bits + 1

/-- NODE_MAX (R6). -/
def Width.nodeMax (w : Width) : Nat := 2 * w.alphabet - 1

/-- CODE_MAX, the longest code word in bits (R6). -/
def Width.codeMax (w : Width) : Nat := w.alphabet - 1

/-- ShapeLen(L) (spec/43_shape.md R233). -/
def Width.shapeLen (w : Width) : Nat → Nat
  | 0 => 0
  | 1 => w.bits
  | l + 2 => (l + 2) * (w.bits + 2) - 2

/-- SHAPE_MAX (R6, R233). -/
def Width.shapeMax (w : Width) : Nat := w.alphabet * (w.bits + 2) - 2

/-- FREQ_WIDTH as CONFIG reports it (R7, spec/10_state.md R29). -/
def freqWidth : Nat := 32

/-- The parameters of one instance. No step changes them (R5, R9; spec/10_state.md R29, R30). -/
structure Params where
  /-- W. -/
  width : Width
  /-- IN_DEPTH, the capacity of the input channel in bytes. -/
  inDepth : Nat
  /-- OUT_DEPTH, the capacity of the output channel in bytes. -/
  outDepth : Nat
  /-- PCC_BASE, the host address of the register window. -/
  base : Nat
deriving DecidableEq, Repr

/-- The range R9 gives the depths. -/
def Params.wf (p : Params) : Bool :=
  decide (1 ≤ p.inDepth ∧ p.inDepth ≤ 65535 ∧ 1 ≤ p.outDepth ∧ p.outDepth ≤ 65535)

/-- The tree classes of spec/10_state.md R41. -/
inductive TreeClass where
  | empty
  | single
  | full
deriving DecidableEq, Repr, Inhabited

/-- What STATUS.TREE reads while BUSY: any class (R26, U9); the value 3 is never read (U16). -/
opaque Config.freeTree : Nat → TreeClass

/-- What STATUS.WN reads while BUSY: any value (R26, U9). -/
opaque Config.freeWn : Nat → Fin 8

/-- What STATUS.RCUR reads while BUSY: any cursor (R26, U9); 9..15 are never read (U16). -/
opaque Config.freeRcur : Nat → Option (Fin 8)

/-- Which of the two causes ERR_INFO names when INQ is both full and closed: true for k = 1, full (R261; log 7). -/
opaque Config.freeNamesFull : Nat → Bool

end Sys2Proof
end

