-- ==== Sys2Proof/Syntax.lean ====
section
/-! DEFINITION. The fourteen commands (spec/30_encoding.md R104). An operand is the field's raw value; its range (R108)
is checked when the command runs, and by WellFormed. -/

namespace Sys2Proof

/-- One constructor per row of spec/opcode_table.json. -/
inductive Instr where
  /-- WBITS n, v (R134). -/
  | wbits (n : BitVec 16) (v : Word)
  /-- FLUSH (R135). -/
  | flush
  /-- RBITS n (R136). -/
  | rbits (n : BitVec 16)
  /-- RRST (R137). -/
  | rrst
  /-- CLRF (R160). -/
  | clrf
  /-- SETF s, c (R161). -/
  | setf (s : Symbol) (c : Word)
  /-- GETF s (R162). -/
  | getf (s : Symbol)
  /-- BUILD (R166). -/
  | build
  /-- CLRT (R169). -/
  | clrt
  /-- NLEAF (R170). -/
  | nleaf
  /-- ENC s (R201). -/
  | enc (s : Symbol)
  /-- DEC (R202). -/
  | dec
  /-- SER (R232). -/
  | ser
  /-- RECON L (R234). -/
  | recon (leaves : Word)
deriving DecidableEq, Repr

end Sys2Proof
end

