-- ==== Sys2Proof/WellFormed.lean ====
section
/-! DEFINITION. The operand ranges (spec/30_encoding.md R103, R108). -/

namespace Sys2Proof

/-- A bit count n is in 1..32. -/
def bitCountOk (n : BitVec 16) : Bool := decide (1 ≤ n.toNat ∧ n.toNat ≤ 32)

/-- A symbol is below N. -/
def symbolOk (w : Width) (s : Symbol) : Bool := decide (s.toNat < w.alphabet)

/-- A leaf count is at most N. -/
def leafCountOk (w : Width) (l : Word) : Bool := decide (l.toNat ≤ w.alphabet)

/-- RangeOK of R113: the range checks of R108. -/
def Instr.wellFormed (w : Width) : Instr → Bool
  | .wbits n _ => bitCountOk n
  | .flush => true
  | .rbits n => bitCountOk n
  | .rrst => true
  | .clrf => true
  | .setf s _ => symbolOk w s
  | .getf s => symbolOk w s
  | .build => true
  | .clrt => true
  | .nleaf => true
  | .enc s => symbolOk w s
  | .dec => true
  | .ser => true
  | .recon l => leafCountOk w l

end Sys2Proof
end

