-- ==== Sys2Proof/Decode.lean ====
section
/-! DEFINITION. The decoder and the encoder (spec/30_encoding.md R101 to R107, R113). The decoder rejects by name; the
ranges of R108 depend on the instance's W and are checked when the command runs (log 14). -/

namespace Sys2Proof

/-- Why a word selects no command: the first failing check in the order of R113. -/
inductive DecodeError where
  /-- OP is 0x0 or 0xF (R105). -/
  | illegalOpcode (op : BitVec 4)
  /-- RSV is not 0 (R106). -/
  | reservedBits
  /-- A field the format does not use is not 0 (R107). -/
  | unusedField
deriving DecidableEq, Repr

/-- OP = w[63:60]. -/
def opField (w : Command) : BitVec 4 := w.extractLsb' 60 4

/-- RSV = w[59:48]. -/
def rsvField (w : Command) : BitVec 12 := w.extractLsb' 48 12

/-- A = w[47:32]. -/
def aField (w : Command) : BitVec 16 := w.extractLsb' 32 16

/-- B = w[31:0]. -/
def bField (w : Command) : Word := w.extractLsb' 0 32

/-- Format N: A and B must be 0 (R102, R107). -/
def decodeN (i : Instr) (w : Command) : Except DecodeError Instr :=
  if aField w = 0 ∧ bField w = 0 then .ok i else .error .unusedField

/-- Format A: B must be 0. -/
def decodeA (f : BitVec 16 → Instr) (w : Command) : Except DecodeError Instr :=
  if bField w = 0 then .ok (f (aField w)) else .error .unusedField

/-- Format B: A must be 0. -/
def decodeB (f : Word → Instr) (w : Command) : Except DecodeError Instr :=
  if aField w = 0 then .ok (f (bField w)) else .error .unusedField

/-- Format AB: both fields are operands. -/
def decodeAB (f : BitVec 16 → Word → Instr) (w : Command) : Except DecodeError Instr :=
  .ok (f (aField w) (bField w))

/-- The opcode map (R104), for a word whose RSV field is 0. -/
def decodeOp (w : Command) : Except DecodeError Instr :=
  match (opField w).toNat with
  | 0x1 => decodeAB .wbits w
  | 0x2 => decodeN .flush w
  | 0x3 => decodeA .rbits w
  | 0x4 => decodeN .rrst w
  | 0x5 => decodeN .clrf w
  | 0x6 => decodeAB .setf w
  | 0x7 => decodeA .getf w
  | 0x8 => decodeN .build w
  | 0x9 => decodeN .clrt w
  | 0xA => decodeN .nleaf w
  | 0xB => decodeA .enc w
  | 0xC => decodeN .dec w
  | 0xD => decodeN .ser w
  | 0xE => decodeB .recon w
  | _ => .error (.illegalOpcode (opField w))

/-- The checks of R113 in their order: opcode, RSV, unused fields. -/
def decode (w : Command) : Except DecodeError Instr :=
  if opField w = 0x0 ∨ opField w = 0xF then .error (.illegalOpcode (opField w))
  else if rsvField w ≠ 0 then .error .reservedBits
  else decodeOp w

/-- A command word from its fields (R101), RSV = 0. -/
def commandWord (op : BitVec 4) (a : BitVec 16) (b : Word) : Command := op ++ 0#12 ++ a ++ b

/-- The word of a command (R101, R102, R104). -/
def encode : Instr → Command
  | .wbits n v => commandWord 0x1 n v
  | .flush => commandWord 0x2 0 0
  | .rbits n => commandWord 0x3 n 0
  | .rrst => commandWord 0x4 0 0
  | .clrf => commandWord 0x5 0 0
  | .setf s c => commandWord 0x6 s c
  | .getf s => commandWord 0x7 s 0
  | .build => commandWord 0x8 0 0
  | .clrt => commandWord 0x9 0 0
  | .nleaf => commandWord 0xA 0 0
  | .enc s => commandWord 0xB s 0
  | .dec => commandWord 0xC 0 0
  | .ser => commandWord 0xD 0 0
  | .recon l => commandWord 0xE 0 l

/-- The command word of `nbits` table bits `w` (spec/opcode_table.json counts bit 0 of CMD_LO as bit 0). -/
def tableWord (nbits w : Nat) : Command := BitVec.ofNat 64 (w % 2 ^ nbits)

/-- What the decoder reads from a table row's word. -/
def decodeTableWord (nbits w : Nat) : Option Instr :=
  match decode (tableWord nbits w) with
  | .ok i => some i
  | .error _ => none

/-- A row of spec/opcode_table.json: a word matches when its masked bits equal the match value. -/
structure OpcodeRow where
  mask : Command
  pattern : Command
deriving DecidableEq, Repr

/-- A word matches a row (R109). -/
def OpcodeRow.accepts (r : OpcodeRow) (w : Command) : Bool := decide (w &&& r.mask = r.pattern)

/-- The rows of spec/opcode_table.json, in its order. -/
def opcodeRows : List OpcodeRow :=
  [⟨0xFFFF000000000000, 0x1000000000000000⟩, ⟨0xFFFFFFFFFFFFFFFF, 0x2000000000000000⟩,
   ⟨0xFFFF0000FFFFFFFF, 0x3000000000000000⟩, ⟨0xFFFFFFFFFFFFFFFF, 0x4000000000000000⟩,
   ⟨0xFFFFFFFFFFFFFFFF, 0x5000000000000000⟩, ⟨0xFFFF000000000000, 0x6000000000000000⟩,
   ⟨0xFFFF0000FFFFFFFF, 0x7000000000000000⟩, ⟨0xFFFFFFFFFFFFFFFF, 0x8000000000000000⟩,
   ⟨0xFFFFFFFFFFFFFFFF, 0x9000000000000000⟩, ⟨0xFFFFFFFFFFFFFFFF, 0xA000000000000000⟩,
   ⟨0xFFFF0000FFFFFFFF, 0xB000000000000000⟩, ⟨0xFFFFFFFFFFFFFFFF, 0xC000000000000000⟩,
   ⟨0xFFFFFFFFFFFFFFFF, 0xD000000000000000⟩, ⟨0xFFFFFFFF00000000, 0xE000000000000000⟩]

end Sys2Proof
end

