-- ==== Sys2Proof/Machine/State.lean ====
section
/-! DEFINITION. The machine's state (spec/10_state.md), the host's side of the interface (spec/20_memory.md R64), and the
reasons a step can stop. -/

namespace Sys2Proof.Machine

/-- A table by key, held as the rising list of its entries that differ from the reset value (log 9). -/
abbrev Table (α : Type) := List (Nat × α)

/-- MODE (R22). -/
inductive Mode where
  | idle
  | busy
  | halted
deriving DecidableEq, Repr

/-- The error codes of spec/60_exceptions.md R260. -/
inductive ErrorCode where
  | noError
  | illegalOpcode
  | illegalOperand
  | unknownSymbol
  | emptyTree
  | endOfStream
  | shapeError
  | cmdOverrun
  | inputProtocol
deriving DecidableEq, Repr

/-- One node of the arena (R37). NIL is `none` (log 8). -/
structure Node where
  count : Count
  sym : Symbol
  zero : Option Nat
  one : Option Nat
  parent : Option Nat
  isz : Bool
deriving DecidableEq, Repr

/-- The node arena and the tree registers (R37, R38). `nodes` lists NODE[0..NFREE-1] in index order: the entries from
NFREE on are released, unspecified and unobservable (log 8). -/
structure Tree where
  nodes : List Node
  /-- ROOT. -/
  root : Option Nat
  /-- LEAF: a symbol that is not listed has the entry NIL. -/
  leaf : Table Nat
  /-- NLEAVES. -/
  nleaves : Nat
deriving DecidableEq, Repr

/-- NFREE, the next arena index to allocate (R38, R39). -/
def Tree.nfree (t : Tree) : Nat := t.nodes.length

/-- The tree registers after reset and after ClearTree (R38, R163). -/
def Tree.cleared : Tree := { nodes := [], root := none, leaf := [], nleaves := 0 }

/-- What a reading command does with the next bit: its transient state (R46). -/
inductive Reader where
  /-- RBITS: `left` bits to read, `acc` the bits read so far (spec/40_bit_io.md R133). -/
  | field (left : Nat) (acc : Word)
  /-- DEC at an internal node (spec/42_encode_decode.md R202). -/
  | walk (node : Nat)
  /-- RECON 1: `left` symbol bits to read (spec/43_shape.md R234). -/
  | single (left : Nat) (acc : Symbol)
  /-- RECON at the head of its loop: L, nint and cur. -/
  | marker (leaves nint cur : Nat)
  /-- RECON inside a leaf's symbol: L, nint, cur, symbol bits to read, symbol so far. -/
  | leaf (leaves nint cur left : Nat) (acc : Symbol)
deriving DecidableEq, Repr

/-- The transient state of the command in progress (R46): what its next micro-step does (log 4). -/
inductive Job where
  /-- WriteBit of the first of `bits`; with no bit left, return. For ENC and SER the list is the path buffer and the
  rest of the traversal (log 10). -/
  | put (bits : List Bool)
  /-- At OutPush(WBUF) (spec/20_memory.md R63), with `bits` to write after it. -/
  | push (bits : List Bool)
  /-- RRST at INQ <- empty (spec/40_bit_io.md R137). -/
  | emptyInput
  /-- RRST at IN_CLOSED <- 0. -/
  | reopenInput
  /-- At ReadBit (spec/40_bit_io.md R132), `nread` bits read before it. -/
  | read (reader : Reader) (nread : Nat)
deriving DecidableEq, Repr

/-- The width of a host access (spec/20_memory.md R71). -/
inductive AccessSize where
  | bits8
  | bits16
  | bits32
  | bits64
deriving DecidableEq, Repr

/-- A host transaction (spec/20_memory.md R64): a register access at a host address, or the reset input. -/
inductive HostOp where
  | write (addr : Nat) (size : AccessSize) (v : Word)
  | read (addr : Nat) (size : AccessSize)
  | resetInput
deriving DecidableEq, Repr

/-- Who moves next (spec/20_memory.md R76; log 2). -/
inductive Turn where
  /-- One host transaction. -/
  | host (op : HostOp)
  /-- One core micro-step. -/
  | core
  /-- Core micro-steps until the command ends or holds, with no host transaction between them. -/
  | run
deriving DecidableEq, Repr

/-- The state of one PCC and of the host's side of it. -/
structure State where
  /-- W, IN_DEPTH, OUT_DEPTH, PCC_BASE: CONFIG and FIFO_CONFIG read them (R29, R30). -/
  params : Params
  /-- MODE (R22). -/
  mode : Mode
  /-- The command word in progress while BUSY (spec/60_exceptions.md R261), else 0. -/
  cmd : Command
  /-- The command's transient state (R46); `none` while BUSY: the word is issued and not yet checked (R113). -/
  job : Option Job
  /-- CMD_LO (R24). -/
  cmdLo : Word
  /-- CMD_HI (R25). -/
  cmdHi : Word
  /-- RESULT (R27). -/
  result : Word
  /-- STATUS.ERR (R26). -/
  err : ErrorCode
  /-- ERR_INFO (R28). -/
  errInfo : Word
  /-- ERR_CMD_LO (R28). -/
  errCmdLo : Word
  /-- ERR_CMD_HI (R28). -/
  errCmdHi : Word
  /-- PEND (R45). -/
  pend : Bool
  /-- PEND_CODE (R45). -/
  pendCode : ErrorCode
  /-- PEND_INFO (R45). -/
  pendInfo : Word
  /-- PEND_CMD (R45). -/
  pendCmd : Command
  /-- FREQ (R36): a symbol that is not listed has the entry 0. -/
  freq : Table Word
  /-- NODE, ROOT, LEAF, NLEAVES, NFREE (R37, R38). -/
  tree : Tree
  /-- WBUF (R42). -/
  wbuf : Byte
  /-- WN (R42). -/
  wn : Fin 8
  /-- RBUF (R43). -/
  rbuf : Byte
  /-- RCUR (R43); `none` is EMPTY. -/
  rcur : Option (Fin 8)
  /-- INQ, oldest byte first (R44). -/
  inq : List Byte
  /-- IN_CLOSED (R44). -/
  inClosed : Bool
  /-- OUTQ, oldest byte first (R44). -/
  outq : List Byte
  /-- The model's own: the turns still to come (log 2). -/
  agenda : List Turn
  /-- The model's own: what the host's reads returned, oldest first (spec/20_memory.md R91; log 2). -/
  seen : List Word
  /-- The model's own: how many free values have been drawn (log 6). -/
  draws : Nat
deriving DecidableEq, Repr

/-- The values of R48 for an instance, with nothing on the host's side. -/
def State.resetWith (p : Params) : State where
  params := p
  mode := .idle
  cmd := 0
  job := none
  cmdLo := 0
  cmdHi := 0
  result := 0
  err := .noError
  errInfo := 0
  errCmdLo := 0
  errCmdHi := 0
  pend := false
  pendCode := .noError
  pendInfo := 0
  pendCmd := 0
  freq := []
  tree := Tree.cleared
  wbuf := 0
  wn := 0
  rbuf := 0
  rcur := none
  inq := []
  inClosed := false
  outq := []
  agenda := []
  seen := []
  draws := 0

/-- The instance State.reset is of: W = 8, both channels 256 bytes deep, window at 0 (DESIGN CHOICE, log 1). -/
def defaultParams : Params := { width := .w8, inDepth := 256, outDepth := 256, base := 0 }

/-- The machine right after reset (R48). -/
def State.reset : State := State.resetWith defaultParams

/-- Why the machine stops with a fault. -/
inductive Fault where
  /-- ENC, DEC, SER or RECON met a NIL or absent node where the tree invariants of R40 give one: the model must stop
  and not return a value (spec/42_encode_decode.md R206, U4). Safe; unreachable from reset (log 11). -/
  | walkedOffTree
deriving DecidableEq, Repr

/-- Why the model gives no meaning. -/
inductive Refusal where
  /-- An instruction that has no meaning yet: raised by exec's refused arms alone. Safe; no arm raises it. -/
  | notModelled (mnemonic : String)
  /-- A host access that is not an aligned 32-bit access inside the window: raised by a host turn, the spec gives it
  no meaning and asks for a refusal (spec/20_memory.md R71, U11). Safe. -/
  | accessWithoutMeaning
deriving DecidableEq, Repr

end Sys2Proof.Machine
end

