-- ==== Sys2Proof/Machine/Tables.lean ====
section
/-! DEFINITION. Tables in canonical form: reading and writing an entry (spec/10_state.md R36, R38; log 9). -/

namespace Sys2Proof.Machine

/-- The listed entry of a key. -/
def Table.find {α : Type} : Table α → Nat → Option α
  | [], _ => none
  | (k', v) :: rest, k => if k = k' then some v else Table.find rest k

/-- Lists the entry (k, v), in place of any earlier one. -/
def Table.insert {α : Type} : Table α → Nat → α → Table α
  | [], k, v => [(k, v)]
  | (k', v') :: rest, k, v =>
    if k < k' then (k, v) :: (k', v') :: rest
    else if k = k' then (k, v) :: rest
    else (k', v') :: Table.insert rest k v

/-- Lists no entry for k. -/
def Table.erase {α : Type} : Table α → Nat → Table α
  | [], _ => []
  | (k', v') :: rest, k => if k = k' then rest else (k', v') :: Table.erase rest k

/-- Keys strictly rising. -/
def Table.rising {α : Type} : Table α → Bool
  | [] => true
  | [_] => true
  | (k, _) :: (k', v') :: rest => decide (k < k') && Table.rising ((k', v') :: rest)

/-- Every key is below n. -/
def Table.below {α : Type} (t : Table α) (n : Nat) : Bool := t.all fun e => decide (e.1 < n)

/-- What an unlisted FREQ entry reads as: the reset value (R36, R48). -/
def freqDefault : Word := 0

/-- FREQ[s]. -/
def getFreq (f : Table Word) (s : Symbol) : Word := (Table.find f s.toNat).getD freqDefault

/-- FREQ[s] <- c: writing the value an unlisted entry reads as removes the entry. -/
def setFreq (f : Table Word) (s : Symbol) (c : Word) : Table Word :=
  if c = freqDefault then Table.erase f s.toNat else Table.insert f s.toNat c

/-- LEAF[s]; `none` is NIL. -/
def Tree.leafAt (t : Tree) (s : Symbol) : Option Nat := Table.find t.leaf s.toNat

/-- FREQ in canonical form. -/
def freqWf (w : Width) (f : Table Word) : Bool :=
  Table.rising f && Table.below f w.alphabet && f.all fun e => decide (e.2 ≠ freqDefault)

/-- LEAF in canonical form. -/
def leafWf (w : Width) (l : Table Nat) : Bool := Table.rising l && Table.below l w.alphabet

/-- The canonical form of the machine's tables, which are its memory (spec/20_memory.md R60): equal tables are equal
data. -/
def Memory.wf (s : State) : Bool := freqWf s.params.width s.freq && leafWf s.params.width s.tree.leaf

end Sys2Proof.Machine
end

