-- ==== Sys2Proof/Machine/Operands.lean ====
section
/-! DEFINITION. Bits, fields and operand assembly (spec/00_scope.md R12; spec/20_memory.md R65 to R67;
spec/30_encoding.md R103). -/

namespace Sys2Proof.Machine

/-- The low n bits of v in stream order: bit n-1 first, bit 0 last (R67, spec/40_bit_io.md R131). -/
def msbBits : Nat → Nat → List Bool
  | 0, _ => []
  | n + 1, v => v.testBit n :: msbBits n v

/-- The value of bits in stream order: the first bit is the most significant (spec/40_bit_io.md R133). -/
def bitsValue (bits : List Bool) : Nat := bits.foldl (fun v b => 2 * v + b.toNat) 0

/-- The eight bits of a byte in stream order (R65, R66). -/
def byteBits (b : Byte) : List Bool := msbBits 8 b.toNat

/-- `b[i] <- v`. -/
def setBit (b : Byte) (i : Nat) (v : Bool) : Byte :=
  if v then b ||| (1#8 <<< i) else b &&& ~~~(1#8 <<< i)

/-- `(v << 1) | bit`, w bits wide. -/
def shiftIn {w : Nat} (v : BitVec w) (bit : Bool) : BitVec w := (v <<< 1) ||| (BitVec.ofBool bit).setWidth w

/-- The bits WBITS n, v writes: v[n-1:0], MSB first; v[31:n] is ignored (spec/40_bit_io.md R134). -/
def fieldBits (n : BitVec 16) (v : Word) : List Bool := msbBits n.toNat v.toNat

/-- The W bits of a symbol, MSB first (spec/43_shape.md R231). -/
def symbolBits (w : Width) (s : Symbol) : List Bool := msbBits w.bits s.toNat

/-- `{hi, lo}`. -/
def joinWords (hi lo : Word) : Command := hi ++ lo

/-- Bits [31:0]. -/
def lowWord (c : Command) : Word := c.extractLsb' 0 32

/-- Bits [63:32]. -/
def highWord (c : Command) : Word := c.extractLsb' 32 32

end Sys2Proof.Machine
end

