-- ==== Sys2Proof/Machine/Flags.lean ====
section
/-! DEFINITION. The STATUS word and the flags it shows (spec/10_state.md R26, R41; spec/20_memory.md R62, R63). -/

namespace Sys2Proof.Machine

/-- NODE[i]. -/
def nodeAt (t : Tree) (i : Nat) : Option Node := t.nodes[i]?

/-- The tree class (R41). A ROOT that names no allocated node breaks R40; it reads as FULL here and no rule uses it. -/
def Tree.kind (t : Tree) : TreeClass :=
  match t.root with
  | none => .empty
  | some r =>
    match nodeAt t r with
    | some n => if n.zero = none then .single else .full
    | none => .full

/-- The 2-bit code of a tree class (R26). -/
def treeCode : TreeClass → BitVec 2
  | .empty => 0
  | .single => 1
  | .full => 2

/-- The 4-bit error code (spec/60_exceptions.md R260). -/
def errorCode : ErrorCode → BitVec 4
  | .noError => 0
  | .illegalOpcode => 1
  | .illegalOperand => 2
  | .unknownSymbol => 3
  | .emptyTree => 4
  | .endOfStream => 5
  | .shapeError => 6
  | .cmdOverrun => 7
  | .inputProtocol => 8

/-- RCUR as STATUS shows it: EMPTY reads as 8 (R43). -/
def cursorCode : Option (Fin 8) → BitVec 4
  | none => 8
  | some c => BitVec.ofNat 4 c.val

/-- STATUS.BUSY. -/
def isBusy (s : State) : Bool := decide (s.mode = .busy)

/-- STATUS.HALTED. -/
def isHalted (s : State) : Bool := decide (s.mode = .halted)

/-- The command stands at InPop: the next micro-step needs a byte of INQ. -/
def atInPop (s : State) : Bool :=
  match s.job with
  | some (.read _ _) => decide (s.rcur = none)
  | _ => false

/-- The command stands at OutPush. -/
def atOutPush (s : State) : Bool :=
  match s.job with
  | some (.push _) => true
  | _ => false

/-- STATUS.HOLD_IN: BUSY, at InPop, and INQ empty and open (spec/20_memory.md R62; log 5). -/
def holdIn (s : State) : Bool := isBusy s && atInPop s && s.inq.isEmpty && !s.inClosed

/-- STATUS.HOLD_OUT: BUSY, at OutPush, and OUTQ full (spec/20_memory.md R63; log 5). -/
def holdOut (s : State) : Bool := isBusy s && atOutPush s && !decide (s.outq.length < s.params.outDepth)

/-- The STATUS word with given TREE, WN and RCUR fields; bits [31:19] read 0 (R26). -/
def statusWith (s : State) (tree : TreeClass) (wn : Fin 8) (rcur : Option (Fin 8)) : Word :=
  0#13 ++ BitVec.ofBool s.pend ++ BitVec.ofBool (holdOut s) ++ BitVec.ofBool (holdIn s) ++ BitVec.ofBool s.inClosed ++
    cursorCode rcur ++ BitVec.ofNat 3 wn.val ++ treeCode tree ++ errorCode s.err ++ BitVec.ofBool (isHalted s) ++
    BitVec.ofBool (isBusy s)

/-- What a read of STATUS returns: exact when not BUSY; while BUSY the three fields are free (R26, U9; log 6). -/
def statusWord (s : State) : Word :=
  if s.mode = .busy then
    statusWith s (Config.freeTree s.draws) (Config.freeWn s.draws) (Config.freeRcur s.draws)
  else statusWith s s.tree.kind s.wn s.rcur

/-- CONFIG (R29). -/
def configWord (p : Params) : Word :=
  0#16 ++ BitVec.ofNat 8 freqWidth ++ 0#3 ++ BitVec.ofNat 5 p.width.bits

/-- FIFO_CONFIG (R30). -/
def fifoConfigWord (p : Params) : Word := BitVec.ofNat 16 p.outDepth ++ BitVec.ofNat 16 p.inDepth

/-- FIFO_STATUS (R31). -/
def fifoStatusWord (s : State) : Word := BitVec.ofNat 16 s.outq.length ++ BitVec.ofNat 16 s.inq.length

end Sys2Proof.Machine
end

