-- ==== Sys2Proof/Machine/TreeOps.lean ====
section
/-! DEFINITION. The operations on the node arena: allocation and attaching (spec/10_state.md R39; spec/43_shape.md R234),
BUILD's merge (spec/41_table_build.md R164 to R166), the code word (spec/42_encode_decode.md R200, R201) and the shape
(spec/43_shape.md R231). An answer `none` says that a node the invariants of R40 promise is not there. -/

namespace Sys2Proof.Machine

/-- NewNode(c, s) (R39): the new node's index is NFREE, `t.nfree`. -/
def newNode (c : Count) (s : Symbol) (t : Tree) : Tree :=
  { t with nodes := t.nodes ++ [{ count := c, sym := s, zero := none, one := none, parent := none, isz := false }] }

/-- An index register of IDX_W bits: NIL is all ones (spec/10_state.md R37, R38; log 8). -/
def indexWord (w : Width) : Option Nat → BitVec w.indexBits
  | none => BitVec.allOnes w.indexBits
  | some i => BitVec.ofNat w.indexBits i

/-- Changes the fields of NODE[i]. -/
def setNode (ns : List Node) (i : Nat) (f : Node → Node) : List Node :=
  match ns[i]? with
  | some n => ns.set i (f n)
  | none => ns

/-- LEAF[s] <- i; NLEAVES <- NLEAVES + 1. -/
def listLeaf (s : Symbol) (i : Nat) (t : Tree) : Tree :=
  { t with leaf := Table.insert t.leaf s.toNat i, nleaves := t.nleaves + 1 }

/-! BUILD -/

/-- before(x, y): the smaller count, and of equal counts the larger symbol (R164). -/
def before (ns : List Node) (x y : Nat) : Bool :=
  match ns[x]?, ns[y]? with
  | some a, some b => decide (a.count < b.count) || (decide (a.count = b.count) && decide (b.sym < a.sym))
  | _, _ => false

/-- The node of the queue that is before all others. -/
def firstOf (ns : List Node) : List Nat → Option Nat
  | [] => none
  | x :: q =>
    match firstOf ns q with
    | none => some x
    | some y => if before ns y x then some y else some x

/-- Takes the node that is before all others out of the queue. -/
def dequeue (ns : List Node) (q : List Nat) : Option (Nat × List Nat) :=
  match firstOf ns q with
  | none => none
  | some x => some (x, q.erase x)

/-- One pass of BUILD's first loop: a leaf for a symbol whose count is not 0. -/
def addLeaf (tq : Tree × List Nat) (entry : Nat × Word) : Tree × List Nat :=
  if entry.2 = 0 then tq
  else
    let s := BitVec.ofNat 16 entry.1
    (listLeaf s tq.1.nfree (newNode (entry.2.setWidth 64) s tq.1), tq.2 ++ [tq.1.nfree])

/-- The internal node p = NFREE over x (zero-child) and y (one-child): count their sum, symbol y's (R166). -/
def joinNodes (x y : Nat) (t : Tree) : Tree :=
  match nodeAt t x, nodeAt t y with
  | some a, some b =>
    let p := t.nfree
    let ns := (newNode (a.count + b.count) b.sym t).nodes
    let ns := setNode ns p fun n => { n with zero := some x, one := some y }
    let ns := setNode ns x fun n => { n with parent := some p, isz := true }
    let ns := setNode ns y fun n => { n with parent := some p, isz := false }
    { t with nodes := ns }
  | _, _ => t

/-- BUILD's merge loop; the first argument bounds its passes by the leaves there are. -/
def mergeQueue : Nat → Tree → List Nat → Tree
  | 0, t, _ => t
  | k + 1, t, q =>
    match dequeue t.nodes q with
    | none => t
    | some (x, q1) =>
      match dequeue t.nodes q1 with
      | none => { t with root := some x }
      | some (y, q2) => mergeQueue k (joinNodes x y t) (q2 ++ [t.nfree])

/-- BUILD (R166): the tree of a frequency table, from ClearTree. The table lists its symbols in increasing order. -/
def buildTree (freq : Table Word) : Tree :=
  let tq := freq.foldl addLeaf (Tree.cleared, [])
  mergeQueue tq.2.length tq.1 tq.2

/-! ENC -/

/-- ENC's walk from node i up to ROOT: the edge bits, root first, before those of `path` (R200, R201). -/
def walkUp (t : Tree) : Nat → Nat → List Bool → Option (List Bool)
  | 0, _, _ => none
  | k + 1, i, path =>
    if t.root = some i then some path
    else
      match nodeAt t i with
      | none => none
      | some n =>
        match n.parent with
        | none => none
        | some p => walkUp t k p ((!n.isz) :: path)

/-- code(s) for the leaf i of s: one 0 bit on a SINGLE tree, else the edge bits from ROOT (R200). -/
def codeWord (t : Tree) (i : Nat) : Option (List Bool) :=
  if t.root = some i then some [false] else walkUp t (t.nfree + 1) i []

/-! SER -/

/-- Item(c) of R231, given what Sub answers. -/
def itemBits (w : Width) (t : Tree) (sub : Nat → Option (List Bool)) (c : Nat) : Option (List Bool) :=
  match nodeAt t c with
  | none => none
  | some n =>
    if n.zero = none then some (true :: symbolBits w n.sym)
    else
      match sub c with
      | none => none
      | some bits => some (false :: bits)

/-- Sub(n) of R231: the zero side, then the one side. The first argument bounds the depth by the nodes there are. -/
def subBits (w : Width) (t : Tree) : Nat → Nat → Option (List Bool)
  | 0, _ => none
  | k + 1, i =>
    match nodeAt t i with
    | none => none
    | some n =>
      match n.zero, n.one with
      | some z, some o =>
        match itemBits w t (subBits w t k) z, itemBits w t (subBits w t k) o with
        | some bz, some bo => some (bz ++ bo)
        | _, _ => none
      | _, _ => none

/-- Shape(tree) (R231). -/
def shapeBits (w : Width) (t : Tree) : Option (List Bool) :=
  match t.root with
  | none => some []
  | some r =>
    match nodeAt t r with
    | none => none
    | some n => if n.zero = none then some (symbolBits w n.sym) else subBits w t t.nfree r

/-! RECON -/

/-- Attach(p, n): the zero slot first (R234). -/
def attach (p n : Nat) (t : Tree) : Option Tree :=
  match nodeAt t p with
  | none => none
  | some a =>
    let inZero := decide (a.zero = none)
    let ns := setNode t.nodes n fun m => { m with parent := some p, isz := inZero }
    let ns := setNode ns p fun m => if inZero then { m with zero := some n } else { m with one := some n }
    some { t with nodes := ns }

/-- RECON's backtracking: while cur ≠ NIL and NODE[cur].one ≠ NIL, cur <- NODE[cur].parent (R234). -/
def climb (t : Tree) : Nat → Option Nat → Option (Option Nat)
  | _, none => some none
  | 0, some _ => none
  | k + 1, some c =>
    match nodeAt t c with
    | none => none
    | some n => if n.one = none then some (some c) else climb t k n.parent

/-- The tree with one leaf, of symbol s (RECON 1, R234). -/
def singleTree (s : Symbol) (t : Tree) : Tree :=
  listLeaf s t.nfree { newNode 0 s t with root := some t.nfree }

end Sys2Proof.Machine
end

