-- ==== Sys2Proof/Machine/Ops.lean ====
section
/-! DEFINITION. The operations the commands share: the error entry and the return (spec/60_exceptions.md R262, R266),
reset (spec/70_reset_and_hazards.md R301), the bit streams and their channels (spec/40_bit_io.md R130 to R133;
spec/20_memory.md R62, R63), one core micro-step, and running micro-steps. -/

namespace Sys2Proof.Machine

/-! ## The error entry, the return, reset -/

/-- TakeError(code, info, cmd) (R262): the only way MODE becomes HALTED. -/
def takeError (code : ErrorCode) (info : Word) (cmd : Command) (s : State) : State :=
  { s with err := code, errInfo := info, errCmdLo := lowWord cmd, errCmdHi := highWord cmd, pend := false,
           mode := .halted, job := none, cmd := 0 }

/-- `raise E(info)` inside a command: TakeError with the command word in progress (R262). -/
def raise (code : ErrorCode) (info : Word) (s : State) : State := takeError code info s.cmd s

/-- The command's return: a latched host-protocol error is taken, else MODE <- IDLE (spec/30_encoding.md R113, R266). -/
def finish (s : State) : State :=
  if s.pend then takeError s.pendCode s.pendInfo s.pendCmd s else { s with mode := .idle, job := none, cmd := 0 }

/-- HostProtocolError (R266): ignored when HALTED, taken when IDLE, latched when BUSY. -/
def hostProtocolError (code : ErrorCode) (info : Word) (cmd : Command) (s : State) : State :=
  match s.mode with
  | .halted => s
  | .idle => takeError code info cmd s
  | .busy => if s.pend then s else { s with pend := true, pendCode := code, pendInfo := info, pendCmd := cmd }

/-- Reset, the only way out of HALTED (spec/60_exceptions.md R265; R301): every item of R48 at its reset value, the
parameters unchanged. The host's own agenda and observations are not the core's and stay (log 2). -/
def resetCore (s : State) : State :=
  { State.resetWith s.params with agenda := s.agenda, seen := s.seen, draws := s.draws }

/-- ClearTree() (spec/41_table_build.md R163). -/
def clearTree (s : State) : State := { s with tree := Tree.cleared }

/-! ## One micro-step -/

/-- What the core does when it gets a turn. -/
inductive CoreStep where
  /-- It takes a micro-step. -/
  | moved (s : State)
  /-- It holds: no micro-step is enabled. -/
  | waiting
  /-- The model stops (R206). -/
  | broken (f : Fault)
deriving DecidableEq, Repr

/-- WriteBit(b) up to its OutPush (R130), with `bits` to write after it. -/
def writeBit (b : Bool) (bits : List Bool) (s : State) : State :=
  let w := setBit s.wbuf (7 - s.wn.val) b
  if s.wn = 7 then { s with wbuf := w, job := some (.push bits) }
  else { s with wbuf := w, wn := s.wn + 1, job := some (.put bits) }

/-- OutPush(WBUF); WBUF <- 0; WN <- 0 (R63, R130, R135). -/
def outPush (bits : List Bool) (s : State) : CoreStep :=
  if s.outq.length < s.params.outDepth then
    .moved { s with outq := s.outq ++ [s.wbuf], wbuf := 0, wn := 0, job := some (.put bits) }
  else .waiting

/-- Whether a reading command is RECON, whose errors clear the tree first (spec/43_shape.md R234). -/
def Reader.isRecon : Reader → Bool
  | .field _ _ => false
  | .walk _ => false
  | .single _ _ => true
  | .marker _ _ _ => true
  | .leaf _ _ _ _ _ => true

/-- `raise` inside RECON: ClearTree(), then the error entry (spec/43_shape.md R234). -/
def raiseRecon (code : ErrorCode) (info : Word) (s : State) : State := raise code info (clearTree s)

/-- END_OF_STREAM(nread) (R132). -/
def endOfStream (r : Reader) (nread : Nat) (s : State) : State :=
  if r.isRecon then raiseRecon .endOfStream (BitVec.ofNat 32 nread) s else raise .endOfStream (BitVec.ofNat 32 nread) s

/-- RESULT <- v, with the return in the same micro-step (spec/10_state.md R27, spec/70_reset_and_hazards.md R305; log 4). -/
def finishWith (v : Word) (s : State) : State := finish { s with result := v }

/-- DEC's step from internal node i along a bit (spec/42_encode_decode.md R202). -/
def decStep (i : Nat) (bit : Bool) (nread : Nat) (s : State) : CoreStep :=
  match nodeAt s.tree i with
  | none => .broken .walkedOffTree
  | some n =>
    match (if bit then n.one else n.zero) with
    | none => .broken .walkedOffTree
    | some c =>
      match nodeAt s.tree c with
      | none => .broken .walkedOffTree
      | some m =>
        if m.zero = none then .moved (finishWith (m.sym.setWidth 32) s)
        else .moved { s with job := some (.read (.walk c) nread) }

/-- RECON's bit 0: create an internal node and descend (spec/43_shape.md R234). -/
def reconInternal (leaves nint cur nread : Nat) (s : State) : CoreStep :=
  if nint = leaves - 1 then .moved (raiseRecon .shapeError 1 s)
  else
    match attach cur s.tree.nfree (newNode 0 0 s.tree) with
    | none => .broken .walkedOffTree
    | some t => .moved { s with tree := t, job := some (.read (.marker leaves (nint + 1) s.tree.nfree) nread) }

/-- RECON after a leaf is attached at cur: backtrack, then the tree is closed early, complete, or has an open slot
(spec/43_shape.md R234). -/
def reconNext (leaves nint cur nread : Nat) (s : State) : CoreStep :=
  match climb s.tree s.tree.nfree (some cur) with
  | none => .broken .walkedOffTree
  | some none => if s.tree.nleaves < leaves then .moved (raiseRecon .shapeError 2 s) else .moved (finish s)
  | some (some c) =>
    if s.tree.nleaves < leaves then .moved { s with job := some (.read (.marker leaves nint c) nread) }
    else .moved (finish s)

/-- RECON with a leaf's symbol read: attach it and go on (spec/43_shape.md R234). -/
def reconLeaf (leaves nint cur : Nat) (sym : Symbol) (nread : Nat) (s : State) : CoreStep :=
  if s.tree.leafAt sym ≠ none then .moved (raiseRecon .shapeError 3 s)
  else
    match attach cur s.tree.nfree (newNode 0 sym s.tree) with
    | none => .broken .walkedOffTree
    | some t => reconNext leaves nint cur nread { s with tree := listLeaf sym s.tree.nfree t }

/-- What a reading command does with a bit; `nread` counts it. -/
def deliver (r : Reader) (bit : Bool) (nread : Nat) (s : State) : CoreStep :=
  match r with
  | .field left acc =>
    if left ≤ 1 then .moved (finishWith (shiftIn acc bit) s)
    else .moved { s with job := some (.read (.field (left - 1) (shiftIn acc bit)) nread) }
  | .walk i => decStep i bit nread s
  | .single left acc =>
    if left ≤ 1 then .moved (finish { s with tree := singleTree (shiftIn acc bit) s.tree })
    else .moved { s with job := some (.read (.single (left - 1) (shiftIn acc bit)) nread) }
  | .marker leaves nint cur =>
    if bit then .moved { s with job := some (.read (.leaf leaves nint cur s.params.width.bits 0) nread) }
    else reconInternal leaves nint cur nread s
  | .leaf leaves nint cur left acc =>
    if left ≤ 1 then reconLeaf leaves nint cur (shiftIn acc bit) nread s
    else .moved { s with job := some (.read (.leaf leaves nint cur (left - 1) (shiftIn acc bit)) nread) }

/-- ReadBit() (R132): the refill by InPop (R62) is one micro-step, taking a bit of RBUF is another. -/
def readBit (r : Reader) (nread : Nat) (s : State) : CoreStep :=
  match s.rcur with
  | none =>
    match s.inq with
    | b :: q => .moved { s with rbuf := b, rcur := some 7, inq := q }
    | [] => if s.inClosed then .moved (endOfStream r nread s) else .waiting
  | some c =>
    deliver r (s.rbuf.getLsbD c.val) (nread + 1) { s with rcur := if c = 0 then none else some (c - 1) }

/-- The next micro-step of a command that has begun. -/
def advance (j : Job) (s : State) : CoreStep :=
  match j with
  | .put [] => .moved (finish s)
  | .put (b :: bits) => .moved (writeBit b bits s)
  | .push bits => outPush bits s
  | .emptyInput => .moved { s with inq := [], job := some .reopenInput }
  | .reopenInput => .moved (finish { s with inClosed := false })
  | .read r nread => readBit r nread s

/-! ## Running micro-steps -/

/-- The unread bits of RBUF. -/
def unreadBits (s : State) : Nat :=
  match s.rcur with
  | none => 0
  | some c => c.val + 1

/-- More micro-steps than the command in progress can take before it ends or holds. -/
def stepBound (s : State) : Nat :=
  match s.job with
  | none => 0
  | some (.put bits) => 2 * bits.length + 1
  | some (.push bits) => 2 * bits.length + 2
  | some .emptyInput => 2
  | some .reopenInput => 1
  | some (.read _ _) => 9 * s.inq.length + unreadBits s + 1

/-- At most k micro-steps of a command that has begun, stopping at its end or at a hold. -/
def runSteps : Nat → State → Host.Outcome State Fault Refusal
  | 0, s => .next s
  | k + 1, s =>
    match s.job with
    | none => .next s
    | some j =>
      match advance j s with
      | .moved s' => runSteps k s'
      | .waiting => .next s
      | .broken f => .fault f

/-- The command in progress until it ends or holds. -/
def runJob (s : State) : Host.Outcome State Fault Refusal := runSteps (stepBound s) s

/-- A command's meaning, from what its first micro-step answers. -/
def runFrom (c : CoreStep) (s : State) : Host.Outcome State Fault Refusal :=
  match c with
  | .moved s' => runJob s'
  | .waiting => .next s
  | .broken f => .fault f

/-- The range check of R108, the last check of R113: ILLEGAL_OPERAND(3). -/
def checkRange (ok : Bool) (body : State → CoreStep) (s : State) : CoreStep :=
  if ok then body s else .moved (raise .illegalOperand 3 s)

end Sys2Proof.Machine
end

