-- ==== Sys2Proof/Machine/BitIO.lean ====
section
/-! DEFINITION. WBITS, FLUSH, RBITS, RRST (spec/40_bit_io.md). `start…` is the command's first micro-step, `exec…` the
command until it ends or holds (log 4). -/

namespace Sys2Proof.Machine

/-- WBITS n, v (R134). -/
def startWbits (n : BitVec 16) (v : Word) (s : State) : CoreStep :=
  checkRange (bitCountOk n) (fun s => .moved { s with job := some (.put (fieldBits n v)) }) s

/-- WBITS n, v (R134). -/
def execWbits (n : BitVec 16) (v : Word) (s : State) : Host.Outcome State Fault Refusal :=
  runFrom (startWbits n v s) s

/-- FLUSH (R135): with WN = 0 nothing is pushed. -/
def startFlush (s : State) : CoreStep :=
  if s.wn = 0 then .moved (finish s) else .moved { s with job := some (.push []) }

/-- FLUSH (R135). -/
def execFlush (s : State) : Host.Outcome State Fault Refusal := runFrom (startFlush s) s

/-- RBITS n (R136). -/
def startRbits (n : BitVec 16) (s : State) : CoreStep :=
  checkRange (bitCountOk n) (fun s => .moved { s with job := some (.read (.field n.toNat 0) 0) }) s

/-- RBITS n (R136). -/
def execRbits (n : BitVec 16) (s : State) : Host.Outcome State Fault Refusal := runFrom (startRbits n s) s

/-- RRST (R137): RCUR <- EMPTY; RBUF <- 0, then INQ <- empty, then IN_CLOSED <- 0. -/
def startRrst (s : State) : CoreStep := .moved { s with rcur := none, rbuf := 0, job := some .emptyInput }

/-- RRST (R137). -/
def execRrst (s : State) : Host.Outcome State Fault Refusal := runFrom (startRrst s) s

end Sys2Proof.Machine
end

