-- ==== Sys2Proof/Machine/Coding.lean ====
section
/-! DEFINITION. ENC and DEC (spec/42_encode_decode.md). -/

namespace Sys2Proof.Machine

/-- ENC's body (R201): the leaf is looked up before any bit is written. -/
def encBody (sym : Symbol) (s : State) : CoreStep :=
  match s.tree.leafAt sym with
  | none => .moved (raise .unknownSymbol (sym.setWidth 32) s)
  | some i =>
    match codeWord s.tree i with
    | none => .broken .walkedOffTree
    | some bits => .moved { s with job := some (.put bits) }

/-- ENC s (R201). -/
def startEnc (sym : Symbol) (s : State) : CoreStep := checkRange (symbolOk s.params.width sym) (encBody sym) s

/-- ENC s (R201). -/
def execEnc (sym : Symbol) (s : State) : Host.Outcome State Fault Refusal := runFrom (startEnc sym s) s

/-- DEC (R202): EMPTY raises, SINGLE reads no bit, FULL walks from ROOT. -/
def startDec (s : State) : CoreStep :=
  match s.tree.root with
  | none => .moved (raise .emptyTree 0 s)
  | some r =>
    match nodeAt s.tree r with
    | none => .broken .walkedOffTree
    | some n =>
      if n.zero = none then .moved (finishWith (n.sym.setWidth 32) s)
      else .moved { s with job := some (.read (.walk r) 0) }

/-- DEC (R202). -/
def execDec (s : State) : Host.Outcome State Fault Refusal := runFrom (startDec s) s

end Sys2Proof.Machine
end

