-- ==== Sys2Proof/Machine/Shape.lean ====
section
/-! DEFINITION. SER and RECON (spec/43_shape.md). -/

namespace Sys2Proof.Machine

/-- SER (R232): the bits of Shape(tree), in order. -/
def startSer (s : State) : CoreStep :=
  match shapeBits s.params.width s.tree with
  | none => .broken .walkedOffTree
  | some bits => .moved { s with job := some (.put bits) }

/-- SER (R232). -/
def execSer (s : State) : Host.Outcome State Fault Refusal := runFrom (startSer s) s

/-- RECON's body (R234): ClearTree(), then by L: nothing, one symbol, or the implicit root and the loop. -/
def reconBody (leaves : Nat) (s : State) : CoreStep :=
  let s := clearTree s
  if leaves = 0 then .moved (finish s)
  else if leaves = 1 then .moved { s with job := some (.read (.single s.params.width.bits 0) 0) }
  else
    let r := s.tree.nfree
    .moved { s with tree := { newNode 0 0 s.tree with root := some r }, job := some (.read (.marker leaves 1 r) 0) }

/-- RECON L (R234). -/
def startRecon (leaves : Word) (s : State) : CoreStep :=
  checkRange (leafCountOk s.params.width leaves) (reconBody leaves.toNat) s

/-- RECON L (R234). -/
def execRecon (leaves : Word) (s : State) : Host.Outcome State Fault Refusal := runFrom (startRecon leaves s) s

end Sys2Proof.Machine
end

