-- ==== Sys2Proof/Machine/TableBuild.lean ====
section
/-! DEFINITION. CLRF, SETF, GETF, BUILD, CLRT, NLEAF (spec/41_table_build.md). Each is one micro-step: its table and tree
work is never seen in a partial state (spec/20_memory.md R73; log 4). -/

namespace Sys2Proof.Machine

/-- CLRF (R160). -/
def startClrf (s : State) : CoreStep := .moved (finish { s with freq := [] })

/-- CLRF (R160). -/
def execClrf (s : State) : Host.Outcome State Fault Refusal := runFrom (startClrf s) s

/-- SETF s, c (R161). -/
def startSetf (sym : Symbol) (c : Word) (s : State) : CoreStep :=
  checkRange (symbolOk s.params.width sym) (fun s => .moved (finish { s with freq := setFreq s.freq sym c })) s

/-- SETF s, c (R161). -/
def execSetf (sym : Symbol) (c : Word) (s : State) : Host.Outcome State Fault Refusal :=
  runFrom (startSetf sym c s) s

/-- GETF s (R162). -/
def startGetf (sym : Symbol) (s : State) : CoreStep :=
  checkRange (symbolOk s.params.width sym) (fun s => .moved (finishWith (getFreq s.freq sym) s)) s

/-- GETF s (R162). -/
def execGetf (sym : Symbol) (s : State) : Host.Outcome State Fault Refusal := runFrom (startGetf sym s) s

/-- BUILD (R166). -/
def startBuild (s : State) : CoreStep := .moved (finish { s with tree := buildTree s.freq })

/-- BUILD (R166). -/
def execBuild (s : State) : Host.Outcome State Fault Refusal := runFrom (startBuild s) s

/-- CLRT (R169). -/
def startClrt (s : State) : CoreStep := .moved (finish (clearTree s))

/-- CLRT (R169). -/
def execClrt (s : State) : Host.Outcome State Fault Refusal := runFrom (startClrt s) s

/-- NLEAF (R170). -/
def startNleaf (s : State) : CoreStep := .moved (finishWith (BitVec.ofNat 32 s.tree.nleaves) s)

/-- NLEAF (R170). -/
def execNleaf (s : State) : Host.Outcome State Fault Refusal := runFrom (startNleaf s) s

end Sys2Proof.Machine
end

