-- ==== Sys2Proof/Machine/Dispatch.lean ====
section
/-! DEFINITION. One arm per command. -/

namespace Sys2Proof.Machine

def exec (i : Instr) (s : State) : Host.Outcome State Fault Refusal :=
  match i with
  | .wbits n v => Sys2Proof.Machine.execWbits n v s
  | .flush => Sys2Proof.Machine.execFlush s
  | .rbits n => Sys2Proof.Machine.execRbits n s
  | .rrst => Sys2Proof.Machine.execRrst s
  | .clrf => Sys2Proof.Machine.execClrf s
  | .setf sym c => Sys2Proof.Machine.execSetf sym c s
  | .getf sym => Sys2Proof.Machine.execGetf sym s
  | .build => Sys2Proof.Machine.execBuild s
  | .clrt => Sys2Proof.Machine.execClrt s
  | .nleaf => Sys2Proof.Machine.execNleaf s
  | .enc sym => Sys2Proof.Machine.execEnc sym s
  | .dec => Sys2Proof.Machine.execDec s
  | .ser => Sys2Proof.Machine.execSer s
  | .recon leaves => Sys2Proof.Machine.execRecon leaves s

end Sys2Proof.Machine
end

