-- ==== Sys2Proof/Machine/HostWindow.lean ====
section
/-! DEFINITION. The host register window and the host's transactions (spec/10_state.md R23 to R35, R49;
spec/20_memory.md R64, R71, R72). -/

namespace Sys2Proof.Machine

/-- The registers of the window (R23). -/
inductive Reg where
  | cmdLo
  | cmdHi
  | status
  | result
  | errInfo
  | errCmdLo
  | errCmdHi
  | config
  | fifoConfig
  | fifoStatus
  | inData
  | inCtrl
  | outData
  | ctrl
  | reserved
deriving DecidableEq, Repr

/-- The register at a byte offset; only a multiple of 4 in 0x00..0x3C names one (R23, R71). -/
def regAt (off : Nat) : Option Reg :=
  match off with
  | 0x00 => some .cmdLo
  | 0x04 => some .cmdHi
  | 0x08 => some .status
  | 0x0C => some .result
  | 0x10 => some .errInfo
  | 0x14 => some .errCmdLo
  | 0x18 => some .errCmdHi
  | 0x1C => some .config
  | 0x20 => some .fifoConfig
  | 0x24 => some .fifoStatus
  | 0x28 => some .inData
  | 0x2C => some .inCtrl
  | 0x30 => some .outData
  | 0x34 => some .ctrl
  | 0x38 => some .reserved
  | 0x3C => some .reserved
  | _ => none

/-- The register a host access reaches: 32 bits wide, aligned, inside the window at PCC_BASE (R71, R74). -/
def accessed (p : Params) (addr : Nat) (size : AccessSize) : Option Reg :=
  if size = .bits32 ∧ p.base ≤ addr then regAt (addr - p.base) else none

/-- A CMD_HI write (R25): stores the value; IDLE issues {CMD_HI, CMD_LO}; BUSY latches CMD_OVERRUN for the rejected
word; HALTED does nothing more. -/
def writeCmdHi (v : Word) (s : State) : State :=
  let s := { s with cmdHi := v }
  match s.mode with
  | .idle => { s with mode := .busy, cmd := joinWords v s.cmdLo, job := none }
  | .busy => hostProtocolError .cmdOverrun 0 (joinWords v s.cmdLo) s
  | .halted => s

/-- Which cause ERR_INFO names for a discarded byte: 1 for INQ full, 2 for input closed; when both hold, a free choice
of the two (spec/60_exceptions.md R261; log 7). -/
def pushCause (s : State) : Nat :=
  if s.inClosed then (if s.inq.length < s.params.inDepth then 2 else if Config.freeNamesFull s.draws then 1 else 2) else 1

/-- The command an INPUT_PROTOCOL error is charged to: the one in progress, or 0 if there is none (R261). -/
def commandInProgress (s : State) : Command := if s.mode = .busy then s.cmd else 0

/-- H_PUSH(b) (R64): into a full or closed INQ it discards b and raises INPUT_PROTOCOL
(spec/60_exceptions.md R266). -/
def pushByte (b : Byte) (s : State) : State :=
  if s.inq.length < s.params.inDepth ∧ s.inClosed = false then { s with inq := s.inq ++ [b] }
  else
    hostProtocolError .inputProtocol (BitVec.ofNat 32 (b.toNat * 256 + pushCause s)) (commandInProgress s)
      { s with draws := s.draws + 1 }

/-- A register write (R23 to R35, R49). -/
def writeReg (r : Reg) (v : Word) (s : State) : State :=
  match r with
  | .cmdLo => { s with cmdLo := v }
  | .cmdHi => writeCmdHi v s
  | .inData => pushByte (v.setWidth 8) s
  | .inCtrl => if v.getLsbD 0 then { s with inClosed := true } else s
  | .ctrl => if v.getLsbD 0 then resetCore s else s
  | .status => s
  | .result => s
  | .errInfo => s
  | .errCmdLo => s
  | .errCmdHi => s
  | .config => s
  | .fifoConfig => s
  | .fifoStatus => s
  | .outData => s
  | .reserved => s

/-- The value a register read returns (R24 to R35, R49). -/
def readValue (r : Reg) (s : State) : Word :=
  match r with
  | .cmdLo => s.cmdLo
  | .cmdHi => s.cmdHi
  | .status => statusWord s
  | .result => s.result
  | .errInfo => s.errInfo
  | .errCmdLo => s.errCmdLo
  | .errCmdHi => s.errCmdHi
  | .config => configWord s.params
  | .fifoConfig => fifoConfigWord s.params
  | .fifoStatus => fifoStatusWord s
  | .inData => 0
  | .inCtrl => 0
  | .outData =>
    match s.outq with
    | [] => 0
    | b :: _ => 0x100 ||| b.setWidth 32
  | .ctrl => 0
  | .reserved => 0

/-- What a register read changes: OUT_DATA pops (R34); a STATUS read draws its free fields anew each time (U9; log 6);
every other read changes nothing (R72). -/
def readEffect (r : Reg) (s : State) : State :=
  match r with
  | .outData => { s with outq := s.outq.tail }
  | .status => { s with draws := s.draws + 1 }
  | .cmdLo => s
  | .cmdHi => s
  | .result => s
  | .errInfo => s
  | .errCmdLo => s
  | .errCmdHi => s
  | .config => s
  | .fifoConfig => s
  | .fifoStatus => s
  | .inData => s
  | .inCtrl => s
  | .ctrl => s
  | .reserved => s

/-- One host transaction (R64); an access R71 gives no meaning to is refused. The value a read returns is the host's
observation (R91). -/
def hostTurn (op : HostOp) (s : State) : Host.Outcome State Fault Refusal :=
  match op with
  | .write addr size v =>
    match accessed s.params addr size with
    | none => .refused .accessWithoutMeaning
    | some r => .next (writeReg r v s)
  | .read addr size =>
    match accessed s.params addr size with
    | none => .refused .accessWithoutMeaning
    | some r => .next { readEffect r s with seen := s.seen ++ [readValue r s] }
  | .resetInput => .next (resetCore s)

end Sys2Proof.Machine
end

