-- ==== Sys2Proof/Machine/Turns.lean ====
section
/-! DEFINITION. The core's turns: checking and beginning an issued word (spec/30_encoding.md R113), one micro-step, and a
run to the end or the next hold (spec/00_scope.md R10; spec/20_memory.md R76; log 2, log 4). -/

namespace Sys2Proof.Machine

/-- The error of a word that selects no command (R105 to R107, R113). -/
def raiseDecode (e : DecodeError) (s : State) : State :=
  match e with
  | .illegalOpcode op => raise .illegalOpcode (op.setWidth 32) s
  | .reservedBits => raise .illegalOperand 1 s
  | .unusedField => raise .illegalOperand 2 s

/-- A command's first micro-step: the range check of R113 and the start of its rule. -/
def startInstr (i : Instr) (s : State) : CoreStep :=
  match i with
  | .wbits n v => startWbits n v s
  | .flush => startFlush s
  | .rbits n => startRbits n s
  | .rrst => startRrst s
  | .clrf => startClrf s
  | .setf sym c => startSetf sym c s
  | .getf sym => startGetf sym s
  | .build => startBuild s
  | .clrt => startClrt s
  | .nleaf => startNleaf s
  | .enc sym => startEnc sym s
  | .dec => startDec s
  | .ser => startSer s
  | .recon leaves => startRecon leaves s

/-- Execute(w) up to the command's first micro-step (R113). -/
def beginCommand (s : State) : CoreStep :=
  match decode s.cmd with
  | .ok i => startInstr i s
  | .error e => .moved (raiseDecode e s)

/-- The core's next micro-step while BUSY. -/
def microStep (s : State) : CoreStep :=
  match s.job with
  | none => beginCommand s
  | some j => advance j s

/-- A turn of one micro-step. When not BUSY, and while it holds, the core stays as it is. -/
def coreTurn (s : State) : Host.Outcome State Fault Refusal :=
  if s.mode = .busy then
    match microStep s with
    | .moved s' => .next s'
    | .waiting => .next s
    | .broken f => .fault f
  else .next s

/-- A turn that runs the command in progress until it ends or holds. An issued word is checked and executed; a command
that has begun goes on. When not BUSY the core stays as it is. -/
def runTurn (s : State) : Host.Outcome State Fault Refusal :=
  if s.mode = .busy then
    match s.job with
    | some _ => runJob s
    | none =>
      match decode s.cmd with
      | .ok i => exec i s
      | .error e => .next (raiseDecode e s)
  else .next s

/-- The turn at the head of the agenda; with none left the host is silent and the core runs (log 2). -/
def takeTurn (s : State) : Host.Outcome State Fault Refusal :=
  match s.agenda with
  | [] => runTurn s
  | .host op :: rest => hostTurn op { s with agenda := rest }
  | .core :: rest => coreTurn { s with agenda := rest }
  | .run :: rest => runTurn { s with agenda := rest }

/-- The state in which the host has just issued a word to an idle core and the core is to run it: H_ISSUE (R64) done,
and a run turn next (log 3). -/
def issueNext (c : Command) (s : State) : State :=
  { s with cmdLo := lowWord c, cmdHi := highWord c, mode := .busy, cmd := c, job := none, agenda := .run :: s.agenda }

end Sys2Proof.Machine
end

