-- ==== Sys2Proof/Safety.lean ====
section
/-! DEFINITION. The terms the statements use: the bit streams a state holds, prefix trees as values, the invariants of
the machine (spec/10_state.md R22, R40 to R45) and sequences of commands. -/

namespace Sys2Proof.Machine

/-! ## Bit streams -/

/-- The output bit stream so far: the bytes of OUTQ and the bits pending in WBUF (spec/10_state.md R42,
spec/20_memory.md R65). -/
def outBits (s : State) : List Bool := s.outq.flatMap byteBits ++ (byteBits s.wbuf).take s.wn.val

/-- The input bit stream still to read: the unread bits of RBUF and the bytes of INQ (spec/10_state.md R43,
spec/20_memory.md R66). -/
def inBits (s : State) : List Bool := msbBits (unreadBits s) s.rbuf.toNat ++ s.inq.flatMap byteBits

/-- OUTQ has room for every byte that writing k more bits completes. -/
def hasRoom (s : State) (k : Nat) : Prop := s.outq.length + (s.wn.val + k) / 8 ≤ s.params.outDepth

/-- The bytes a command that reads k bits takes from INQ: a byte only when a bit of it is needed
(spec/40_bit_io.md R132). -/
def bytesFor (s : State) (k : Nat) : Nat := (k - unreadBits s + 7) / 8

/-- The unused low bits of WBUF are 0 (spec/10_state.md R42); at OutPush the byte's last bit may stand in bit 7 - WN. -/
def padded (s : State) : Bool := decide (s.wbuf.toNat % 2 ^ (if atOutPush s then 7 - s.wn.val else 8 - s.wn.val) = 0)

/-! ## Prefix trees -/

/-- A prefix tree with the arena index of each node. -/
inductive PTree where
  | leaf (i : Nat) (sym : Symbol)
  | node (i : Nat) (zero one : PTree)
deriving DecidableEq, Repr

/-- The arena index of the root. -/
def PTree.index : PTree → Nat
  | .leaf i _ => i
  | .node i _ _ => i

/-- Whether the tree is one leaf (SINGLE). -/
def PTree.isLeaf : PTree → Bool
  | .leaf _ _ => true
  | .node _ _ _ => false

/-- The arena indices of all nodes. -/
def PTree.indices : PTree → List Nat
  | .leaf i _ => [i]
  | .node i z o => i :: (z.indices ++ o.indices)

/-- The number of internal nodes. -/
def PTree.internals : PTree → Nat
  | .leaf _ _ => 0
  | .node _ z o => z.internals + o.internals + 1

/-- The leaves, zero side first: symbol and arena index. -/
def PTree.leaves : PTree → List (Symbol × Nat)
  | .leaf i s => [(s, i)]
  | .node _ z o => z.leaves ++ o.leaves

/-- The leaf symbols, zero side first. -/
def PTree.symbols (p : PTree) : List Symbol := p.leaves.map Prod.fst

/-- The edge bits from the root to the leaf of a symbol: 0 to a zero-child, 1 to a one-child
(spec/42_encode_decode.md R200). -/
def PTree.path : PTree → Symbol → Option (List Bool)
  | .leaf _ s, x => if s = x then some [] else none
  | .node _ z o, x =>
    match z.path x with
    | some bits => some (false :: bits)
    | none => (o.path x).map (true :: ·)

/-- code(s): the path on a FULL tree, one 0 bit on a SINGLE tree (spec/42_encode_decode.md R200). -/
def PTree.code (p : PTree) (x : Symbol) : Option (List Bool) :=
  match p with
  | .leaf _ s => if s = x then some [false] else none
  | .node _ _ _ => p.path x

/-- Item of spec/43_shape.md R231. -/
def PTree.item (w : Width) : PTree → List Bool
  | .leaf _ s => true :: symbolBits w s
  | .node _ z o => false :: (z.item w ++ o.item w)

/-- Shape of spec/43_shape.md R231 for a tree that is not EMPTY. -/
def PTree.shape (w : Width) : PTree → List Bool
  | .leaf _ s => symbolBits w s
  | .node _ z o => z.item w ++ o.item w

/-- The count of a node, 0 where there is none. -/
def countAt (t : Tree) (i : Nat) : Count :=
  match nodeAt t i with
  | some n => n.count
  | none => 0

/-- The arena holds the tree `p` below a parent, on its zero side or not: both children or none, parents, isZeroChild,
and counts the sum of the children's (spec/10_state.md R40). -/
def spells (t : Tree) (parent : Option Nat) (isz : Bool) : PTree → Bool
  | .leaf i s =>
    match nodeAt t i with
    | some n => decide (n.sym = s ∧ n.zero = none ∧ n.one = none ∧ n.parent = parent ∧ n.isz = isz)
    | none => false
  | .node i z o =>
    (match nodeAt t i with
     | some n => decide (n.zero = some z.index ∧ n.one = some o.index ∧ n.parent = parent ∧ n.isz = isz ∧
         n.count = countAt t z.index + countAt t o.index)
     | none => false) && spells t (some i) true z && spells t (some i) false o

/-- LEAF and NLEAVES name exactly the given leaves, of distinct symbols (spec/10_state.md R40). -/
def leavesListed (w : Width) (t : Tree) (ls : List (Symbol × Nat)) : Bool :=
  leafWf w t.leaf && decide (t.leaf.length = ls.length) && decide (t.nleaves = ls.length) &&
    decide (ls.map Prod.fst).Nodup && ls.all fun e => decide (t.leafAt e.1 = some e.2)

/-- The tree registers hold the tree `p`, and no node besides (spec/10_state.md R39, R40). -/
def isTree (w : Width) (t : Tree) (p : PTree) : Bool :=
  decide (t.root = some p.index) && spells t none false p && decide p.indices.Nodup &&
    decide (t.nfree = p.indices.length) && leavesListed w t p.leaves

/-- The tree registers hold a tree: EMPTY, or some prefix tree (spec/10_state.md R40, R41). -/
def treeOk (w : Width) (t : Tree) : Prop := t = Tree.cleared ∨ ∃ p, isTree w t p = true

/-! ## The merge of R166, without the arena -/

/-- A node in the queue of spec/41_table_build.md R166: its exact count, its symbol and the tree below it. -/
structure Queued where
  count : Nat
  sym : Symbol
  tree : PTree
deriving DecidableEq, Repr

/-- The leaves of a table in increasing symbol order, at indices from i on (spec/41_table_build.md R167). -/
def queuedLeaves : Nat → Table Word → List Queued
  | _, [] => []
  | i, (s, c) :: f =>
    { count := c.toNat, sym := BitVec.ofNat 16 s, tree := .leaf i (BitVec.ofNat 16 s) } :: queuedLeaves (i + 1) f

/-- The order of spec/41_table_build.md R164. -/
def Queued.comesBefore (x y : Queued) : Bool :=
  decide (x.count < y.count ∨ x.count = y.count ∧ y.sym.toNat < x.sym.toNat)

/-- The queued node that comes before every other, and the rest. -/
def takeFirst : List Queued → Option (Queued × List Queued)
  | [] => none
  | x :: q =>
    match takeFirst q with
    | none => some (x, [])
    | some (y, rest) => if y.comesBefore x then some (y, x :: rest) else some (x, q)

/-- The merge loop of spec/41_table_build.md R166; internal nodes stand at indices from n on. The first argument bounds
its passes. -/
def mergeQueued : Nat → Nat → List Queued → Option PTree
  | 0, _, _ => none
  | k + 1, n, q =>
    match takeFirst q with
    | none => none
    | some (x, q1) =>
      match takeFirst q1 with
      | none => some x.tree
      | some (y, q2) =>
        mergeQueued k (n + 1) ({ count := x.count + y.count, sym := y.sym, tree := .node n x.tree y.tree } :: q2)

/-- The tree of a table by R166; `none` for the empty table. -/
def mergedTree (f : Table Word) : Option PTree := mergeQueued f.length f.length (queuedLeaves 0 f)

/-! ## RECON in progress -/

/-- A node on the way from RECON's open slot up to ROOT. -/
inductive Frame where
  /-- The way goes through its zero slot; its one slot is open. -/
  | inZero (i : Nat)
  /-- Its zero side is the tree `zero`; the way goes through its one slot. -/
  | inOne (i : Nat) (zero : PTree)
deriving DecidableEq, Repr

/-- The node's arena index. -/
def Frame.index : Frame → Nat
  | .inZero i => i
  | .inOne i _ => i

/-- The finished trees of the frames, innermost first. -/
def doneTrees : List Frame → List PTree
  | [] => []
  | .inZero _ :: fs => doneTrees fs
  | .inOne _ z :: fs => z :: doneTrees fs

/-- The parent that a node below these frames has. -/
def parentOf : List Frame → Option Nat
  | [] => none
  | f :: _ => some f.index

/-- isZeroChild of a node below these frames. -/
def isZeroBelow : List Frame → Bool
  | .inZero _ :: _ => true
  | _ => false

/-- The arena holds the frames, with `below` in the slot the way goes through (spec/43_shape.md R234). -/
def spine (t : Tree) (below : Option Nat) : List Frame → Bool
  | [] => decide (t.root = below)
  | .inZero i :: fs =>
    decide (nodeAt t i = some { count := 0, sym := 0, zero := below, one := none, parent := parentOf fs, isz := isZeroBelow fs })
      && spine t (some i) fs
  | .inOne i z :: fs =>
    decide (nodeAt t i = some { count := 0, sym := 0, zero := some z.index, one := below, parent := parentOf fs,
                                isz := isZeroBelow fs })
      && spells t (some i) true z && spine t (some i) fs

/-- RECON's loop at its head, with the frames of its open slot: cur is the innermost, nint the internal nodes made, and
every count is 0 (spec/43_shape.md R234). -/
def reconFrames (w : Width) (t : Tree) (leaves nint cur : Nat) (fs : List Frame) : Bool :=
  decide (parentOf fs = some cur) && spine t none fs &&
    decide (fs.map Frame.index ++ (doneTrees fs).flatMap PTree.indices).Nodup &&
    decide (t.nfree = (fs.map Frame.index ++ (doneTrees fs).flatMap PTree.indices).length) &&
    leavesListed w t ((doneTrees fs).flatMap PTree.leaves) &&
    decide (nint = fs.length + ((doneTrees fs).map PTree.internals).sum) &&
    decide (2 ≤ leaves ∧ leaves ≤ w.alphabet ∧ t.nleaves < leaves ∧ nint < leaves) &&
    t.nodes.all fun n => decide (n.count = 0)

/-- RECON is in its loop. -/
def reconOk (w : Width) (t : Tree) (leaves nint cur : Nat) : Prop := ∃ fs, reconFrames w t leaves nint cur fs = true

/-- The tree registers in every state a run reaches: a tree when no command changes it, RECON's part of one while RECON
runs (spec/10_state.md R40; spec/43_shape.md R234). -/
def treeInv (s : State) : Prop :=
  match s.job with
  | some (.read (.single _ _) _) => s.tree = Tree.cleared
  | some (.read (.marker leaves nint cur) _) => reconOk s.params.width s.tree leaves nint cur
  | some (.read (.leaf leaves nint cur _ _) _) => reconOk s.params.width s.tree leaves nint cur
  | some (.read (.walk i) _) =>
    treeOk s.params.width s.tree ∧ ∃ n, nodeAt s.tree i = some n ∧ n.zero ≠ none
  | _ => treeOk s.params.width s.tree

/-! ## A shape as it is read -/

/-- One item of a shape in the order RECON reads it: an internal node or a leaf (spec/43_shape.md R234). -/
inductive Marker where
  | internal
  | leaf (sym : Symbol)
deriving DecidableEq, Repr

/-- The bits of an item. -/
def Marker.bits (w : Width) : Marker → List Bool
  | .internal => [false]
  | .leaf x => true :: symbolBits w x

/-- The internal nodes among the items. -/
def internalCount (ms : List Marker) : Nat := ms.countP fun m => decide (m = .internal)

/-- The leaf symbols among the items. -/
def markedSymbols (ms : List Marker) : List Symbol :=
  ms.filterMap fun m => match m with
    | .internal => none
    | .leaf x => some x

/-- The open slots after the items, from n open ones; `none` when an item has no slot to go to. The implicit root opens
two (spec/43_shape.md R234, R235). -/
def openSlots : Nat → List Marker → Option Nat
  | n, [] => some n
  | 0, _ :: _ => none
  | n + 1, .internal :: ms => openSlots (n + 2) ms
  | n + 1, .leaf _ :: ms => openSlots n ms

/-- RECON L has read the items and reads on: a slot is open, fewer than L leaves, all different and below N, and the root
and the items are at most L - 1 internal nodes. -/
def underWay (w : Width) (leaves : Nat) (ms : List Marker) : Prop :=
  (∃ n, openSlots 2 ms = some (n + 1)) ∧ (markedSymbols ms).Nodup ∧ (∀ x ∈ markedSymbols ms, x.toNat < w.alphabet) ∧
    (markedSymbols ms).length < leaves ∧ internalCount ms + 2 ≤ leaves

/-! ## The machine's invariant -/

/-- The transient state is one of this command's (spec/10_state.md R46). -/
def Job.belongsTo (j : Job) (i : Instr) : Bool :=
  match i, j with
  | .wbits _ _, .put _ => true
  | .wbits _ _, .push _ => true
  | .flush, .put bits => bits.isEmpty
  | .flush, .push bits => bits.isEmpty
  | .rbits _, .read (.field _ _) _ => true
  | .rrst, .emptyInput => true
  | .rrst, .reopenInput => true
  | .enc _, .put _ => true
  | .enc _, .push _ => true
  | .dec, .read (.walk _) _ => true
  | .ser, .put _ => true
  | .ser, .push _ => true
  | .recon _, .read (.single _ _) _ => true
  | .recon _, .read (.marker _ _ _) _ => true
  | .recon _, .read (.leaf _ _ _ _ _) _ => true
  | _, _ => false

/-- A symbol part-read has room for its remaining bits in W bits. -/
def symbolPart (w : Width) (left : Nat) (acc : Symbol) : Bool :=
  decide (1 ≤ left ∧ left ≤ w.bits ∧ acc.toNat < 2 ^ (w.bits - left))

/-- The bits still to read are within the field's width. -/
def Job.inRange (w : Width) : Job → Bool
  | .read (.field left _) _ => decide (1 ≤ left ∧ left ≤ 32)
  | .read (.single left acc) _ => symbolPart w left acc
  | .read (.leaf _ _ _ left acc) _ => symbolPart w left acc
  | _ => true

/-- The command in progress is a legal command and its transient state is one of its own. -/
def jobLegal (s : State) : Bool :=
  match s.job with
  | none => true
  | some j =>
    j.inRange s.params.width &&
      match decode s.cmd with
      | .ok i => i.wellFormed s.params.width && j.belongsTo i
      | .error _ => false

/-- Channel levels are within their depths (spec/10_state.md R44). -/
def channelsOk (s : State) : Bool :=
  decide (s.inq.length ≤ s.params.inDepth ∧ s.outq.length ≤ s.params.outDepth)

/-- Only a BUSY core has a command word and transient state; a latched error is one of the two host-protocol errors and
only a BUSY core has one; ERR is NONE exactly when the core is not HALTED (spec/10_state.md R22, R45;
spec/60_exceptions.md R260, R262, R266). -/
def modeOk (s : State) : Bool :=
  decide ((s.mode ≠ .busy → s.job = none ∧ s.cmd = 0 ∧ s.pend = false) ∧
    (s.pend = true → s.pendCode = .cmdOverrun ∨ s.pendCode = .inputProtocol) ∧
    (s.err = .noError ↔ s.mode ≠ .halted))

/-- What holds of every state a run reaches, the tree registers apart. -/
def machineOk (s : State) : Bool :=
  s.params.wf && Memory.wf s && channelsOk s && modeOk s && padded s && jobLegal s

/-! ## Runs -/

/-- The word in CMD is issued and not yet checked (spec/30_encoding.md R113). -/
def issued (s : State) : Prop := s.mode = .busy ∧ s.job = none

/-- The core holds (spec/00_scope.md R14). -/
def holds (s : State) : Prop := holdIn s = true ∨ holdOut s = true

/-- k core turns in a row. -/
def coreTurns : Nat → State → Host.Outcome State Fault Refusal
  | 0, s => .next s
  | k + 1, s =>
    match coreTurn s with
    | .next s' => coreTurns k s'
    | .fault f => .fault f
    | .refused r => .refused r

/-- Run turns with pops between them: before each, the host pops as many bytes as the list says, or all there are. The
bytes popped, and the state at the end. -/
def runPopping : List Nat → State → Option (List Byte × State)
  | [], s => some ([], s)
  | k :: ks, s =>
    match runTurn { s with outq := s.outq.drop k } with
    | .next t => (runPopping ks t).map fun r => (s.outq.take k ++ r.1, r.2)
    | .fault _ => none
    | .refused _ => none

/-- Commands in a row, each issued when the one before has ended; `none` when one faults, errors or holds. -/
def runCommands : List Instr → State → Option State
  | [], s => some s
  | i :: is, s =>
    match exec i { s with mode := .busy, cmd := encode i, job := none } with
    | .next s' => if s'.mode = .idle then runCommands is s' else none
    | .fault _ => none
    | .refused _ => none

/-- k DECs in a row, each to its end: the values of RESULT, and the state after the last. -/
def decodeMany : Nat → State → Option (List Word × State)
  | 0, s => some ([], s)
  | k + 1, s =>
    match runCommands [.dec] s with
    | none => none
    | some s' =>
      match decodeMany k s' with
      | none => none
      | some (vs, t) => some (s'.result :: vs, t)

/-- Whether a turn is one of the two reset sources (spec/70_reset_and_hazards.md R300). -/
def isReset (p : Params) : Turn → Bool
  | .host .resetInput => true
  | .host (.write addr size v) => decide (accessed p addr size = some .ctrl) && v.getLsbD 0
  | _ => false

end Sys2Proof.Machine
end

