-- ==== Sys2Proof/Machine/Container.lean ====
section
/-! DEFINITION. The container (spec/20_memory.md R80 to R87) and the host's procedures that write and read it (R88 to R90),
as turns of the machine (log 15). A procedure answers `none` when a step faults or is refused or a command never ends. -/

namespace Sys2Proof.Machine

/-! ## The layout -/

/-- F of R88: how often each symbol occurs, the host's own count. -/
def countSymbols (xs : List Symbol) : Table Word := xs.foldl (fun f x => setFreq f x (getFreq f x + 1)) []

/-- PAYLOAD (R85): the code words of the symbols, in order. -/
def payloadBits (p : PTree) (xs : List Symbol) : List Bool := xs.flatMap fun x => (p.code x).getD []

/-- The fields of R80 but PAD, in order: TOTAL, and when T > 0 LCOUNT, SHAPE and PAYLOAD. -/
def containerFields (w : Width) (xs : List Symbol) : List (List Bool) :=
  msbBits 32 xs.length ::
    match mergedTree (countSymbols xs) with
    | none => []
    | some p => [msbBits w.bits (p.symbols.length - 1), p.shape w, payloadBits p xs]

/-- PAD (R86): zero bits up to the next byte boundary. -/
def padBits (n : Nat) : List Bool := List.replicate ((8 - n % 8) % 8) false

/-- The container's bits: its fields with nothing between them (R87), then PAD. -/
def containerBits (w : Width) (xs : List Symbol) : List Bool :=
  (containerFields w xs).flatten ++ padBits (containerFields w xs).flatten.length

/-- Bits as bytes, eight by eight. -/
def packBytes : List Bool → List Byte
  | a :: b :: c :: d :: e :: f :: g :: h :: rest => BitVec.ofNat 8 (bitsValue [a, b, c, d, e, f, g, h]) :: packBytes rest
  | _ => []

/-- The container of a symbol sequence. -/
def container (w : Width) (xs : List Symbol) : List Byte := packBytes (containerBits w xs)

/-! ## Host transactions, each one step -/

/-- The machine takes this turn next. -/
def turnNow (turn : Turn) (s : State) : Option State :=
  match step { s with agenda := turn :: s.agenda } with
  | .next t => some t
  | .fault _ => none
  | .refused _ => none

/-- A register write at a byte offset. -/
def hostWrite (off : Nat) (v : Word) (s : State) : Option State :=
  turnNow (.host (.write (s.params.base + off) .bits32 v)) s

/-- A register read at a byte offset, and what it returned. -/
def hostRead (off : Nat) (s : State) : Option (Word × State) :=
  (turnNow (.host (.read (s.params.base + off) .bits32)) s).bind fun t => t.seen.getLast?.map fun v => (v, t)

/-- H_ISSUE (R64): CMD_LO, then CMD_HI. -/
def issueCommand (i : Instr) (s : State) : Option State :=
  (hostWrite 0x00 (lowWord (encode i)) s).bind (hostWrite 0x04 (highWord (encode i)))

/-- k H_POPs, as many as are VALID. -/
def popBytes : Nat → State → Option (List Byte × State)
  | 0, s => some ([], s)
  | k + 1, s =>
    (hostRead 0x30 s).bind fun r =>
      if r.1.getLsbD 8 then (popBytes k r.2).map fun q => (r.1.setWidth 8 :: q.1, q.2) else some ([], r.2)

/-- H_PUSH of the bytes as INQ has room, and H_CLOSE when none is left and the input is still open; the bytes not pushed
yet. DESIGN CHOICE (log 15): the host sees room by INQ's length and an open input by IN_CLOSED, with no read of FIFO_STATUS
or STATUS. -/
def feedBytes : List Byte → State → Option (List Byte × State)
  | [], s => if s.inClosed then some ([], s) else (hostWrite 0x2C 1 s).map fun t => ([], t)
  | b :: c, s =>
    if s.inq.length < s.params.inDepth then (hostWrite 0x28 (b.setWidth 32) s).bind (feedBytes c) else some (b :: c, s)

/-! ## Compress (R88) -/

/-- Pops OUTQ empty and lets the core run on, until BUSY = 0. DESIGN CHOICE (log 15): the host sees how many bytes there are
by OUTQ's length and BUSY by MODE, with no read of FIFO_STATUS or STATUS. -/
def drain : Nat → State → Option (List Byte × State)
  | 0, _ => none
  | k + 1, s =>
    (popBytes s.outq.length s).bind fun r =>
      if r.2.mode = .busy then
        (turnNow .run r.2).bind fun u => (drain k u).map fun q => (r.1 ++ q.1, q.2)
      else some r

/-- Issues a command and waits for BUSY = 0, popping throughout. -/
def writeCommand (i : Instr) (s : State) : Option (List Byte × State) :=
  (issueCommand i s).bind fun t => (turnNow .run t).bind fun u => drain (stepBound u + 1) u

/-- Issues commands one after the other. -/
def writeCommands : List Instr → State → Option (List Byte × State)
  | [], s => some ([], s)
  | i :: is, s => (writeCommand i s).bind fun r => (writeCommands is r.2).map fun q => (r.1 ++ q.1, q.2)

/-- The commands that load F. -/
def loadTable (f : Table Word) : List Instr := .clrf :: f.map fun e => .setf (BitVec.ofNat 16 e.1) e.2

/-- W as a bit count. -/
def symbolBitCount (s : State) : BitVec 16 := BitVec.ofNat 16 s.params.width.bits

/-- The compress procedure: the bytes popped, and the state at its end. -/
def compress (xs : List Symbol) (s : State) : Option (List Byte × State) :=
  (writeCommands (loadTable (countSymbols xs) ++ [.build, .wbits 32 (BitVec.ofNat 32 xs.length)]) s).bind fun r =>
    if xs = [] then some r
    else
      (writeCommand .nleaf r.2).bind fun n =>
        (hostRead 0x0C n.2).bind fun l =>
          (writeCommands (.wbits (symbolBitCount s) (l.1 - 1) :: .ser :: xs.map .enc ++ [.flush]) l.2).map fun q =>
            (r.1 ++ n.1 ++ q.1, q.2)

/-! ## Decompress (R89) -/

/-- Pushes what INQ has room for, and while BUSY lets the core run on and pushes again: bytes go in as space allows also
when no command waits for them. DESIGN CHOICE (log 15): when it looks, and BUSY by MODE. -/
def serve : Nat → List Byte → State → Option (List Byte × State)
  | 0, _, _ => none
  | k + 1, c, s =>
    (feedBytes c s).bind fun r => if r.2.mode = .busy then (turnNow .run r.2).bind (serve k r.1) else some r

/-- Issues a command and waits for BUSY = 0, pushing the bytes c as space allows; the bytes not pushed yet. -/
def readCommand (i : Instr) (c : List Byte) (s : State) : Option (List Byte × State) :=
  (issueCommand i s).bind fun t => (turnNow .run t).bind (serve (c.length + 2) c)

/-- Issues a command and goes on, unless the core is HALTED: the procedure then ends with no more output
(log 15, DESIGN CHOICE). No register is read. -/
def commandThen (i : Instr) (c : List Byte) (s : State) (go : List Byte → State → Option (List Symbol × State)) :
    Option (List Symbol × State) :=
  (readCommand i c s).bind fun r => if r.2.mode = .halted then some ([], r.2) else go r.1 r.2

/-- Issues a command whose RESULT R89 takes, and goes on with that RESULT. -/
def readThen (i : Instr) (c : List Byte) (s : State) (go : Word → List Byte → State → Option (List Symbol × State)) :
    Option (List Symbol × State) :=
  commandThen i c s fun c s => (hostRead 0x0C s).bind fun v => go v.1 c v.2

/-- T DECs: RESULT[W-1:0] of each is the output. -/
def readSymbols : Nat → List Byte → State → Option (List Symbol × State)
  | 0, _, s => some ([], s)
  | k + 1, c, s =>
    readThen .dec c s fun v c s =>
      (readSymbols k c s).map fun q => (BitVec.ofNat 16 (v.toNat % 2 ^ s.params.width.bits) :: q.1, q.2)

/-- The decompress procedure: the symbols output, and the state at its end. -/
def decompress (c : List Byte) (s : State) : Option (List Symbol × State) :=
  if c = [] then some ([], s)
  else
    ((issueCommand .rrst s).bind (turnNow .run)).bind fun r =>
      (feedBytes c r).bind fun u =>
        readThen (.rbits 32) u.1 u.2 fun total c s =>
          if total = 0 then some ([], s)
          else
            readThen (.rbits (symbolBitCount s)) c s fun lcount c s =>
              commandThen (.recon (lcount + 1)) c s fun c s => readSymbols total.toNat c s

end Sys2Proof.Machine
end

