-- ==== Sys2Proof/Certificates/Slice0/Obligations.lean ====
section
/-! DEFINITION. The statements about the machine. A statement that gives a command's next state by an equation
`exec i s = .next { s with … }` says its frame at once: every field not named is unchanged. `finish` is the return of
R113 with R266: MODE becomes IDLE, or the latched host-protocol error is taken. -/

open Sys2Proof Sys2Proof.Machine

/-! ## Encoding -/

/-- The worked encodings of spec/30_encoding.md R114. -/
def Obligations.DecodesTheWorkedEncodings : Prop :=
  decode 0x100000200000000A = .ok (.wbits 32 10) ∧ decode 0x2000000000000000 = .ok .flush ∧
  decode 0x3000000800000000 = .ok (.rbits 8) ∧ decode 0x4000000000000000 = .ok .rrst ∧
  decode 0x5000000000000000 = .ok .clrf ∧ decode 0x6000006100000002 = .ok (.setf 0x61 2) ∧
  decode 0x7000006200000000 = .ok (.getf 0x62) ∧ decode 0x8000000000000000 = .ok .build ∧
  decode 0x9000000000000000 = .ok .clrt ∧ decode 0xA000000000000000 = .ok .nleaf ∧
  decode 0xB000006300000000 = .ok (.enc 0x63) ∧ decode 0xC000000000000000 = .ok .dec ∧
  decode 0xD000000000000000 = .ok .ser ∧ decode 0xE000000000000003 = .ok (.recon 3)

/-- Decoding a command's word gives the command back, every operand at every value of its field, and a word that
decodes is the word of what it decodes to (R101, R102, R104). -/
def Obligations.DecodeAndEncodeAgree : Prop :=
  (∀ i : Instr, decode (encode i) = .ok i) ∧ ∀ (w : Command) (i : Instr), decode w = .ok i → encode i = w

/-- R109: every word selects a command with legal fields or raises ILLEGAL_OPCODE or ILLEGAL_OPERAND, and the legal
words are the rows of the opcode table, no two of which share a word, with the range checks of R108. -/
def Obligations.EveryWordIsLegalOrRaises : Prop :=
  (∀ w : Command, (∃ i, decode w = .ok i) ↔ ∃ r ∈ opcodeRows, r.accepts w = true) ∧
  (∀ w : Command, ∀ r ∈ opcodeRows, ∀ r' ∈ opcodeRows, r.accepts w = true → r'.accepts w = true → r = r') ∧
  ∀ s : State, issued s →
    ((∃ i, decode s.cmd = .ok i ∧ i.wellFormed s.params.width = true) ∨
      ∃ info, runTurn s = .next (takeError .illegalOpcode info s.cmd s) ∨
        runTurn s = .next (takeError .illegalOperand info s.cmd s))

/-- R105, R106, R107 in the order of R113: OP 0x0 or 0xF raises ILLEGAL_OPCODE with info = OP; else a nonzero RSV raises
ILLEGAL_OPERAND with info = 1; else a nonzero field that the format does not use raises it with info = 2. It is one step
of a core turn, of a run turn and of an empty agenda (the model's grain: log 2, log 4), and changes only the error state. -/
def Obligations.IllegalWordsRaise : Prop :=
  ∀ (s : State) (rest : List Turn), issued s →
    s.agenda = .core :: rest ∨ s.agenda = .run :: rest ∨ (s.agenda = [] ∧ rest = []) →
    let u := { s with agenda := rest }
    let op := opField s.cmd
    (op = 0x0 ∨ op = 0xF → step s = .next (takeError .illegalOpcode (op.setWidth 32) s.cmd u)) ∧
    (op ≠ 0x0 → op ≠ 0xF → rsvField s.cmd ≠ 0 → step s = .next (takeError .illegalOperand 1 s.cmd u)) ∧
    (op ≠ 0x0 → op ≠ 0xF → rsvField s.cmd = 0 →
      (op ∈ [0x2#4, 0x4#4, 0x5#4, 0x8#4, 0x9#4, 0xA#4, 0xC#4, 0xD#4, 0xE#4] ∧ aField s.cmd ≠ 0) ∨
        (op ∈ [0x2#4, 0x3#4, 0x4#4, 0x5#4, 0x7#4, 0x8#4, 0x9#4, 0xA#4, 0xB#4, 0xC#4, 0xD#4] ∧ bField s.cmd ≠ 0) →
      step s = .next (takeError .illegalOperand 2 s.cmd u))

/-- R108: an operand out of range raises ILLEGAL_OPERAND with info = 3 and changes only the error state. For W = 16 every
value of A is a valid symbol, and ENC of a symbol in range with no leaf raises UNKNOWN_SYMBOL. -/
def Obligations.OutOfRangeOperandsRaise : Prop :=
  ∀ s : State,
    let bad := Host.Outcome.next (φ := Fault) (ρ := Refusal) (takeError .illegalOperand 3 s.cmd s)
    (∀ (n : BitVec 16) (v : Word), n.toNat < 1 ∨ 32 < n.toNat → exec (.wbits n v) s = bad ∧ exec (.rbits n) s = bad) ∧
    (∀ (x : Symbol) (c : Word), s.params.width.alphabet ≤ x.toNat →
      exec (.setf x c) s = bad ∧ exec (.getf x) s = bad ∧ exec (.enc x) s = bad) ∧
    (∀ l : Word, s.params.width.alphabet < l.toNat → exec (.recon l) s = bad) ∧
    (s.params.width = .w16 → ∀ x : Symbol, x.toNat < s.params.width.alphabet) ∧
    (∀ x : Symbol, x.toNat < s.params.width.alphabet → s.tree.leafAt x = none →
      exec (.enc x) s = .next (takeError .unknownSymbol (x.setWidth 32) s.cmd s))

/-! ## The step -/

/-- An issued word that decodes runs as exec of its command, on a run turn and when the agenda is empty; on a core turn
it takes the command's first micro-step (R113, R76; log 2, log 4). -/
def Obligations.StepRunsTheIssuedCommand : Prop :=
  ∀ (s : State) (i : Instr), issued s → decode s.cmd = .ok i →
    (s.agenda = [] → step s = exec i s) ∧
    (∀ rest, s.agenda = .run :: rest → step s = exec i { s with agenda := rest }) ∧
    (∀ rest, s.agenda = .core :: rest →
      (∀ t, startInstr i { s with agenda := rest } = .moved t → step s = .next t) ∧
      (∀ f, startInstr i { s with agenda := rest } = .broken f → step s = .fault f))

/-- The model's convention for the next instruction (log 3): with a command's word put where the machine takes its next
command from, the next step is exec of it. -/
def Obligations.FetchWordRunsNext : Prop :=
  ∀ (s : State) (i : Instr),
    step (s.withFetchWord 64 (encode i).toNat) =
      exec i { s with cmdLo := lowWord (encode i), cmdHi := highWord (encode i), mode := .busy, cmd := encode i, job := none }

/-- A command run to its end or its hold is its micro-steps in a row (R10, R75): for some k, k core turns reach the state
that the run turn reaches, or fault as it does. -/
def Obligations.RunTurnIsCoreTurns : Prop :=
  ∀ s : State, (∀ t, runTurn s = .next t → ∃ k, coreTurns k s = .next t) ∧
    (∀ f, runTurn s = .fault f → ∃ k, coreTurns k s = .fault f)

/-- A run turn always ends (R14, R313): the core is then not BUSY, or it holds at InPop or at OutPush. -/
def Obligations.RunTurnEndsOrHolds : Prop :=
  ∀ s t : State, s.mode = .busy → runTurn s = .next t → t.mode ≠ .busy ∨ holds t

/-- A hold on input is transparent (R62, R14): a command that holds for want of bytes, given the bytes q and a run turn,
reaches what it reaches when q stood in INQ behind the other bytes from the start. -/
def Obligations.HeldReadsResume : Prop :=
  ∀ (i : Instr) (s t : State) (q : List Byte), s.mode = .busy → exec i s = .next t → holdIn t = true →
    runTurn { t with inq := q } = exec i { s with inq := s.inq ++ q }

/-- Holds on output are transparent (R63, R14) and no result depends on OUT_DEPTH (R9): a command that holds any number of
times, run on after each pop of any number of bytes until it ends, leaves what it leaves where the channel is deep enough
for all its bytes from the start, the popped bytes apart, and those are the channel's bytes in order. -/
def Obligations.HeldWritesResume : Prop :=
  ∀ (i : Instr) (s t v : State) (pops : List Nat) (popped : List Byte), s.mode = .busy → exec i s = .next t →
    runPopping pops t = some (popped, v) → v.mode ≠ .busy →
    let deep := { s.params with outDepth := popped.length + v.outq.length }
    exec i { s with params := deep } = .next { v with outq := popped ++ v.outq, params := deep }

/-! ## Bit I/O -/

/-- WBITS n, v (R134) appends v[n-1:0] to the output bits, most significant first, when OUTQ has room: each byte that
fills is pushed, WN is the bits left over, the unused bits of WBUF stay 0, and nothing else changes. -/
def Obligations.WbitsAppendsTheField : Prop :=
  ∀ (s : State) (n : BitVec 16) (v : Word), 1 ≤ n.toNat → n.toNat ≤ 32 → hasRoom s n.toNat →
    ∃ (q : List Byte) (b : Byte) (k : Fin 8),
      let t := { s with outq := q, wbuf := b, wn := k }
      exec (.wbits n v) s = .next (finish t) ∧
      outBits t = outBits s ++ (List.range n.toNat).map (fun j => v.getLsbD (n.toNat - 1 - j)) ∧
      k.val = (s.wn.val + n.toNat) % 8 ∧ q.length = s.outq.length + (s.wn.val + n.toNat) / 8 ∧
      (s.wbuf.toNat % 2 ^ (8 - s.wn.val) = 0 → b.toNat % 2 ^ (8 - k.val) = 0)

/-- FLUSH (R135): with WN = 0 nothing is pushed or changed; with WN > 0 and room in OUTQ it pushes WBUF, whose unused bits
are 0, and empties the writer. -/
def Obligations.FlushPushesThePartialByte : Prop :=
  ∀ s : State,
    (s.wn = 0 → exec .flush s = .next (finish s)) ∧
    (s.wn ≠ 0 → s.outq.length < s.params.outDepth →
      exec .flush s = .next (finish { s with outq := s.outq ++ [s.wbuf], wbuf := 0, wn := 0 })) ∧
    (s.wbuf.toNat % 2 ^ (8 - s.wn.val) = 0 →
      byteBits s.wbuf = (byteBits s.wbuf).take s.wn.val ++ List.replicate (8 - s.wn.val) false)

/-- RBITS n (R136) with n bits there to read: RESULT is those bits, first bit most significant; they are consumed, bytes
are taken from INQ only as needed, and nothing else changes. -/
def Obligations.RbitsReadsTheField : Prop :=
  ∀ (s : State) (n : BitVec 16), 1 ≤ n.toNat → n.toNat ≤ 32 → n.toNat ≤ (inBits s).length →
    ∃ (b : Byte) (c : Option (Fin 8)) (q : List Byte),
      let t := { s with rbuf := b, rcur := c, inq := q }
      exec (.rbits n) s = .next (finish { t with result := BitVec.ofNat 32 (bitsValue ((inBits s).take n.toNat)) }) ∧
      inBits t = (inBits s).drop n.toNat ∧ q = s.inq.drop (bytesFor s n.toNat)

/-- RBITS n (R136, R263) with fewer than n bits in a closed input: END_OF_STREAM with the number of bits read; the input
is consumed, RCUR is EMPTY, and RESULT, the tree, FREQ and the writer are unchanged. -/
def Obligations.RbitsRaisesAtEndOfStream : Prop :=
  ∀ (s : State) (n : BitVec 16), 1 ≤ n.toNat → n.toNat ≤ 32 → (inBits s).length < n.toNat → s.inClosed = true →
    ∃ b : Byte, exec (.rbits n) s =
      .next (takeError .endOfStream (BitVec.ofNat 32 (inBits s).length) s.cmd { s with rbuf := b, rcur := none, inq := [] })

/-- RRST (R137): the unread bits and bytes are discarded, the new stream is open, and nothing else changes. -/
def Obligations.RrstOpensANewStream : Prop :=
  ∀ s : State, exec .rrst s = .next (finish { s with rcur := none, rbuf := 0, inq := [], inClosed := false })

/-- R62: at InPop the core takes the oldest byte of INQ; with INQ empty and closed it meets the end of the stream; with
INQ empty and open it holds, STATUS.HOLD_IN reads 1, and a turn of the core changes nothing (log 5). It is the only read
of INQ: no other micro-step of the core changes INQ, but RRST's, which empties it. -/
def Obligations.InPopTakesHoldsOrEnds : Prop :=
  (∀ (s : State) (r : Reader) (k : Nat), s.mode = .busy → s.job = some (.read r k) →
    (s.rcur = none →
      (∀ b q, s.inq = b :: q → coreTurn s = .next { s with rbuf := b, rcur := some 7, inq := q }) ∧
      (s.inq = [] → s.inClosed = true → coreTurn s = .next (endOfStream r k s)) ∧
      (s.inq = [] → s.inClosed = false → coreTurn s = .next s ∧ holdIn s = true) ∧
      (s.inq ≠ [] ∨ s.inClosed = true → holdIn s = false)) ∧
    (s.rcur ≠ none → holdIn s = false)) ∧
  ∀ s t : State, coreTurn s = .next t →
    t.inq = s.inq ∨
    (∃ r k b, s.job = some (.read r k) ∧ s.rcur = none ∧ s.inq = b :: t.inq ∧ t.rbuf = b ∧ t.rcur = some 7) ∨
    (s.job = some .emptyInput ∧ t.inq = [])

/-- R63: at OutPush the core appends the byte when OUTQ has room; else it holds, STATUS.HOLD_OUT reads 1, and a turn of the
core changes nothing (log 5); a pop by the host lifts the hold. It is the only write of OUTQ: every other micro-step of the
core leaves OUTQ as it is. -/
def Obligations.OutPushAppendsOrHolds : Prop :=
  (∀ (s : State) (bits : List Bool), s.mode = .busy → s.job = some (.push bits) →
    (s.outq.length < s.params.outDepth →
      coreTurn s = .next { s with outq := s.outq ++ [s.wbuf], wbuf := 0, wn := 0, job := some (.put bits) } ∧
        holdOut s = false) ∧
    (s.params.outDepth ≤ s.outq.length → coreTurn s = .next s ∧ holdOut s = true) ∧
    (s.outq.length = s.params.outDepth → 1 ≤ s.params.outDepth →
      ∃ t, hostTurn (.read (s.params.base + 0x30) .bits32) s = .next t ∧ holdOut t = false)) ∧
  ∀ s t : State, coreTurn s = .next t →
    t.outq = s.outq ∨ ∃ bits, s.job = some (.push bits) ∧ s.outq.length < s.params.outDepth ∧ t.outq = s.outq ++ [s.wbuf]

/-- R138: bits written by WBITS commands from WN = 0 and then flushed are ceil(k/8) bytes that hold the bits in order and
then fewer than 8 zero bits; pushed into a new input stream, they are the bits a reader gets. -/
def Obligations.WrittenBitsReadBack : Prop :=
  ∀ (s t u : State) (fields : List (BitVec 16 × Word)),
    s.wn = 0 → s.wbuf = 0 → s.outq = [] → u.rcur = none →
    runCommands (fields.map (fun f => .wbits f.1 f.2) ++ [.flush]) s = some t →
    let bits := fields.flatMap fun f => fieldBits f.1 f.2
    t.outq.length = (bits.length + 7) / 8 ∧
    inBits { u with inq := t.outq } = bits ++ List.replicate (8 * t.outq.length - bits.length) false

/-! ## Frequency table and tree -/

/-- CLRF, SETF and GETF (R160 to R162), on a table in canonical form: CLRF makes every entry 0; SETF writes the one entry
and keeps the form; GETF answers the entry in RESULT; nothing else changes. -/
def Obligations.FrequencyCommandsReadAndWriteEntries : Prop :=
  ∀ s : State, freqWf s.params.width s.freq = true →
    (∃ f, exec .clrf s = .next (finish { s with freq := f }) ∧ ∀ y, getFreq f y = 0) ∧
    ∀ x : Symbol, x.toNat < s.params.width.alphabet →
      (∀ c : Word, ∃ f, exec (.setf x c) s = .next (finish { s with freq := f }) ∧
        freqWf s.params.width f = true ∧ ∀ y, getFreq f y = if y = x then c else getFreq s.freq y) ∧
      exec (.getf x) s = .next (finish { s with result := getFreq s.freq x })

/-- CLRT and NLEAF (R169, R170): the tree registers take the values of ClearTree (R163); RESULT takes NLEAVES. -/
def Obligations.ClrtAndNleaf : Prop :=
  ∀ s : State,
    exec .clrt s = .next (finish { s with tree := { nodes := [], root := none, leaf := [], nleaves := 0 } }) ∧
    exec .nleaf s = .next (finish { s with result := BitVec.ofNat 32 s.tree.nleaves })

/-- R164 and R165: of a queue of nodes with pairwise distinct symbols, the dequeued node is in the queue and before every
other: its count is smaller, or equal with a larger symbol. -/
def Obligations.DequeueTakesTheFirstNode : Prop :=
  ∀ (ns : List Node) (q rest : List Nat) (x : Nat), dequeue ns q = some (x, rest) →
    (∀ y ∈ q, ∃ n, ns[y]? = some n) →
    (∀ y ∈ q, ∀ z ∈ q, ∀ m n, ns[y]? = some m → ns[z]? = some n → m.sym = n.sym → y = z) →
    x ∈ q ∧ rest = q.erase x ∧
    ∀ y ∈ q, y ≠ x → ∀ m n, ns[x]? = some m → ns[y]? = some n →
      m.count.toNat < n.count.toNat ∨ (m.count = n.count ∧ n.sym.toNat < m.sym.toNat)

/-- BUILD (R166, R167): it completes with a tree that meets the invariants of R40, whose leaves are exactly the symbols of
count above 0, each leaf with its count; EMPTY when there is none; nothing else changes. -/
def Obligations.BuildMakesTheTreeOfTheTable : Prop :=
  ∀ s : State, freqWf s.params.width s.freq = true →
    ∃ t : Tree, exec .build s = .next (finish { s with tree := t }) ∧ treeOk s.params.width t ∧
      t.nleaves = s.freq.length ∧
      (∀ x, t.leafAt x ≠ none ↔ 0 < (getFreq s.freq x).toNat) ∧
      (∀ x i n, t.leafAt x = some i → nodeAt t i = some n → n.count = (getFreq s.freq x).setWidth 64) ∧
      (s.freq = [] → t.kind = .empty) ∧ (s.freq.length = 1 → t.kind = .single) ∧ (2 ≤ s.freq.length → t.kind = .full)

/-- R166, R164 and the allocation order of R167, said without the arena: BUILD's tree is the one that joining, again and
again, the two nodes that come first makes, the first as zero-child; EMPTY for an empty table. -/
def Obligations.BuildJoinsTheTwoFirstNodes : Prop :=
  ∀ (w : Width) (f : Table Word), freqWf w f = true →
    (f = [] → buildTree f = Tree.cleared) ∧
    (f ≠ [] → ∃ p, mergedTree f = some p ∧ isTree w (buildTree f) p = true)

/-- R168: a built leaf's count is its FREQ entry; as numbers, an internal node's count is the sum of its children's and the
root's is the sum of all entries; every count is below 2^48, so none wraps. -/
def Obligations.BuiltCountsNeverWrap : Prop :=
  ∀ (w : Width) (f : Table Word), freqWf w f = true →
    let t := buildTree f
    (∀ x i n, t.leafAt x = some i → nodeAt t i = some n → n.count = (getFreq f x).setWidth 64) ∧
    (∀ r n, t.root = some r → nodeAt t r = some n → n.count.toNat = (f.map fun e => e.2.toNat).sum) ∧
    ∀ n ∈ t.nodes, n.count.toNat < 2 ^ 48 ∧
      ∀ z o a b, n.zero = some z → n.one = some o → nodeAt t z = some a → nodeAt t o = some b →
        n.count.toNat = a.count.toNat + b.count.toNat

/-! ## Encode and decode -/

/-- ENC s (R201) of a symbol with a leaf appends code(s) to the output bits when OUTQ has room; the tree, RESULT and all
else are unchanged. -/
def Obligations.EncAppendsTheCodeWord : Prop :=
  ∀ (s : State) (p : PTree) (x : Symbol) (bits : List Bool), isTree s.params.width s.tree p = true →
    x.toNat < s.params.width.alphabet → p.code x = some bits → hasRoom s bits.length →
    ∃ (q : List Byte) (b : Byte) (k : Fin 8),
      let t := { s with outq := q, wbuf := b, wn := k }
      exec (.enc x) s = .next (finish t) ∧ outBits t = outBits s ++ bits ∧
      k.val = (s.wn.val + bits.length) % 8 ∧ q.length = s.outq.length + (s.wn.val + bits.length) / 8

/-- R200 and R204: every leaf's symbol has a code word and no other symbol has; a SINGLE tree's is the bit 0; on a FULL tree
of L leaves its length is in 1..L-1. -/
def Obligations.CodeWordLengths : Prop :=
  ∀ (w : Width) (t : Tree) (p : PTree), isTree w t p = true →
    ∀ x : Symbol, (t.leafAt x = none → p.code x = none) ∧
      ∀ i, t.leafAt x = some i → ∃ bits, p.code x = some bits ∧ codeWord t i = some bits ∧
        (t.kind = .single → bits = [false]) ∧
        (t.kind = .full → 1 ≤ bits.length ∧ bits.length ≤ t.nleaves - 1) ∧ bits.length ≤ w.codeMax

/-- R203: on a FULL tree no code word is a prefix of another; so DEC, reading the bits of code(x), stops exactly at their
last bit and answers x. -/
def Obligations.CodeWordsArePrefixFree : Prop :=
  ∀ (s : State) (p : PTree), isTree s.params.width s.tree p = true → s.tree.kind = .full →
    (∀ (x y : Symbol) (bx byy : List Bool), p.code x = some bx → p.code y = some byy → bx <+: byy → x = y) ∧
    ∀ (x : Symbol) (bx rest : List Bool), p.code x = some bx → inBits s = bx ++ rest →
      ∃ t, exec .dec s = .next t ∧ t.result = x.setWidth 32 ∧ inBits t = rest

/-- DEC (R202, R203): on an EMPTY tree it raises EMPTY_TREE and reads nothing; on a SINGLE tree it answers the symbol and
reads nothing; on a FULL tree with code(x) next in the input RESULT is x and exactly the code word's bits are consumed.
Nothing else changes. -/
def Obligations.DecReadsOneCodeWord : Prop :=
  ∀ s : State,
    (s.tree.root = none → exec .dec s = .next (takeError .emptyTree 0 s.cmd s)) ∧
    (∀ i x, isTree s.params.width s.tree (.leaf i x) = true →
      exec .dec s = .next (finish { s with result := x.setWidth 32 })) ∧
    ∀ (p : PTree) (x : Symbol) (bits rest : List Bool), isTree s.params.width s.tree p = true →
      p.isLeaf = false → p.code x = some bits → inBits s = bits ++ rest →
      ∃ (b : Byte) (c : Option (Fin 8)) (q : List Byte),
        let t := { s with rbuf := b, rcur := c, inq := q }
        exec .dec s = .next (finish { t with result := x.setWidth 32 }) ∧ inBits t = rest ∧
        q = s.inq.drop (bytesFor s bits.length)

/-- DEC (R202, R263) on a FULL tree whose closed input ends inside a code word: END_OF_STREAM with the bits read; they are
consumed, and RESULT and the tree are unchanged. -/
def Obligations.DecRaisesAtEndOfStream : Prop :=
  ∀ (s : State) (p : PTree), isTree s.params.width s.tree p = true → p.isLeaf = false → s.inClosed = true →
    (∀ x bits, p.code x = some bits → ¬ bits <+: inBits s) →
    ∃ b : Byte, exec .dec s =
      .next (takeError .endOfStream (BitVec.ofNat 32 (inBits s).length) s.cmd { s with rbuf := b, rcur := none, inq := [] })

/-- R205: the symbols of a sequence encoded one after the other and flushed, fed to a fresh input stream of a core that
holds the same tree, or any tree with the same code words (as RECON rebuilds, R236), are what as many DECs return, in order;
for a SINGLE tree they read no bit. -/
def Obligations.DecodeInvertsEncode : Prop :=
  ∀ (s t u : State) (p p' : PTree) (xs : List Symbol), isTree s.params.width s.tree p = true → xs ≠ [] →
    s.wn = 0 → s.outq = [] → runCommands (xs.map .enc ++ [.flush]) s = some t →
    u.params.width = s.params.width → isTree u.params.width u.tree p' = true → (∀ x, p'.code x = p.code x) →
    u.rcur = none → u.inq = t.outq → u.pend = false →
    ∃ v, decodeMany xs.length u = some (xs.map (·.setWidth 32), v) ∧
      (p.isLeaf = true → v.rcur = none ∧ v.rbuf = u.rbuf ∧ v.inq = u.inq)

/-! ## Shape -/

/-- SER (R231, R232) appends Shape(tree) to the output bits when OUTQ has room: nothing for EMPTY, the W symbol bits for
SINGLE, the pre-order of R231 for FULL; the tree and all else are unchanged. -/
def Obligations.SerAppendsTheShape : Prop :=
  ∀ s : State,
    (s.tree.root = none → exec .ser s = .next (finish s)) ∧
    ∀ p : PTree, isTree s.params.width s.tree p = true → hasRoom s (p.shape s.params.width).length →
      ∃ (q : List Byte) (b : Byte) (k : Fin 8),
        let t := { s with outq := q, wbuf := b, wn := k }
        exec .ser s = .next (finish t) ∧ outBits t = outBits s ++ p.shape s.params.width ∧
        k.val = (s.wn.val + (p.shape s.params.width).length) % 8 ∧
        q.length = s.outq.length + (s.wn.val + (p.shape s.params.width).length) / 8

/-- R233: the shape of a tree of L leaves has ShapeLen(L) bits: 0, W, or L(W+2)-2; at most SHAPE_MAX. -/
def Obligations.ShapeHasShapeLenBits : Prop :=
  ∀ (w : Width) (t : Tree), treeOk w t →
    ∃ bits, shapeBits w t = some bits ∧
      bits.length = (if t.nleaves = 0 then 0 else if t.nleaves = 1 then w.bits else t.nleaves * (w.bits + 2) - 2) ∧
      bits.length ≤ w.alphabet * (w.bits + 2) - 2

/-- RECON L (R234, R235, R237) of the shape of a tree of L leaves of distinct symbols completes: the core holds a tree of
that shape and those symbols, every count 0; it reads the shape and no bit past it; nothing else changes. RECON 0 clears the tree and reads no bit. -/
def Obligations.ReconRebuildsTheShape : Prop :=
  (∀ s : State, exec (.recon 0) s =
    .next (finish { s with tree := { nodes := [], root := none, leaf := [], nleaves := 0 } })) ∧
  ∀ (s : State) (p : PTree) (rest : List Bool) (l : Word), l.toNat = p.symbols.length → p.symbols.Nodup →
    (∀ x ∈ p.symbols, x.toNat < s.params.width.alphabet) → inBits s = p.shape s.params.width ++ rest →
    ∃ (t : Tree) (b : Byte) (c : Option (Fin 8)) (q : List Byte),
      let u := { s with tree := t, rbuf := b, rcur := c, inq := q }
      exec (.recon l) s = .next (finish u) ∧ inBits u = rest ∧
      q = s.inq.drop (bytesFor s (p.shape s.params.width).length) ∧
      (∃ p', isTree s.params.width t p' = true ∧ p'.isLeaf = p.isLeaf ∧ p'.symbols = p.symbols ∧
        p'.shape s.params.width = p.shape s.params.width ∧ ∀ x, p'.code x = p.code x) ∧
      ∀ n ∈ t.nodes, n.count = 0

/-- R235: for L in 1..N, RECON completes exactly when the next input bits are the shape of a tree of L leaves of distinct
symbols, and the core then holds a tree; any other bits, in a closed input, raise SHAPE_ERROR (for L ≥ 2) or
END_OF_STREAM. -/
def Obligations.ReconAcceptsOnlyShapes : Prop :=
  ∀ (s : State) (l : Word), s.mode = .busy → s.pend = false → 1 ≤ l.toNat → l.toNat ≤ s.params.width.alphabet →
    let fits : PTree → List Bool → Prop := fun p rest =>
      p.symbols.length = l.toNat ∧ p.symbols.Nodup ∧ (∀ x ∈ p.symbols, x.toNat < s.params.width.alphabet) ∧
        inBits s = p.shape s.params.width ++ rest
    (∀ t, exec (.recon l) s = .next t → t.mode = .idle → treeOk t.params.width t.tree ∧ ∃ p, fits p (inBits t)) ∧
    ((∃ p rest, fits p rest) → ∃ t, exec (.recon l) s = .next t ∧ t.mode = .idle) ∧
    (s.inClosed = true → ¬ (∃ p rest, fits p rest) →
      ∃ t, exec (.recon l) s = .next t ∧ t.mode = .halted ∧ ((t.err = .shapeError ∧ 2 ≤ l.toNat) ∨ t.err = .endOfStream))

/-- RECON's run-time errors (R234, R261, R263, R264), charged to the RECON word, with the tree EMPTY and RESULT, FREQ and the
writer unchanged. With items read so far: a bit 0 that would be an L-th internal node is SHAPE_ERROR 1; a leaf that closes
the tree before L leaves is 2; a leaf of a symbol that has one is 3; a closed input that ends before L leaves is
END_OF_STREAM with the bits read; RECON 1 raises it alone, on fewer than W bits. There are no others, and a latched host-protocol error, which they drop, is taken only
where RECON completes. -/
def Obligations.ReconErrorsLeaveNoTree : Prop :=
  (∀ (s : State) (l : Word) (ms : List Marker) (rest : List Bool), 2 ≤ l.toNat → l.toNat ≤ s.params.width.alphabet →
    underWay s.params.width l.toNat ms →
    let read := ms.flatMap (·.bits s.params.width)
    let raises : ErrorCode → Word → Prop := fun e info => ∃ (b : Byte) (c : Option (Fin 8)) (q : List Byte),
      let u := { s with tree := Tree.cleared, rbuf := b, rcur := c, inq := q }
      exec (.recon l) s = .next (takeError e info s.cmd u) ∧ inBits u = rest
    (internalCount ms + 2 = l.toNat → inBits s = read ++ false :: rest → raises .shapeError 1) ∧
    (∀ x : Symbol, x.toNat < s.params.width.alphabet → inBits s = read ++ Marker.bits s.params.width (.leaf x) ++ rest →
      (x ∉ markedSymbols ms → openSlots 2 ms = some 1 → (markedSymbols ms).length + 1 < l.toNat → raises .shapeError 2) ∧
      (x ∈ markedSymbols ms → raises .shapeError 3)) ∧
    (∀ part, s.inClosed = true → rest = [] → part.length < s.params.width.bits →
      inBits s = read ∨ inBits s = read ++ true :: part →
      raises .endOfStream (BitVec.ofNat 32 (inBits s).length))) ∧
  (∀ s : State, s.inClosed = true → (inBits s).length < s.params.width.bits →
    ∃ b : Byte, exec (.recon 1) s = .next (takeError .endOfStream (BitVec.ofNat 32 (inBits s).length) s.cmd
      { s with tree := Tree.cleared, rbuf := b, rcur := none, inq := [] })) ∧
  ∀ (s t : State) (l : Word), l.toNat ≤ s.params.width.alphabet → s.mode = .busy → exec (.recon l) s = .next t →
    t.mode = .halted →
    t.result = s.result ∧ t.freq = s.freq ∧ t.wbuf = s.wbuf ∧ t.wn = s.wn ∧ t.outq = s.outq ∧
    ((t.tree = Tree.cleared ∧ joinWords t.errCmdHi t.errCmdLo = s.cmd ∧
        ((t.err = .shapeError ∧ 2 ≤ l.toNat ∧ (t.errInfo = 1 ∨ t.errInfo = 2 ∨ t.errInfo = 3)) ∨
          (t.err = .endOfStream ∧ 1 ≤ l.toNat ∧ t.rcur = none ∧ t.inq = [] ∧ t.errInfo = BitVec.ofNat 32 (inBits s).length))) ∨
      (s.pend = true ∧ t = takeError s.pendCode s.pendInfo s.pendCmd t ∧ treeOk t.params.width t.tree ∧
        t.tree.nleaves = l.toNat))

/-- R236: SER of a tree, flushed and fed to a fresh input stream, and RECON with its leaf count give a tree of the same
shape and leaf symbols, so of the same code words and as many leaves; with an EMPTY tree SER writes nothing and RECON 0
leaves the tree EMPTY. -/
def Obligations.ShapeRoundTrip : Prop :=
  ∀ (s t u : State) (l : Word), l.toNat = s.tree.nleaves → s.wn = 0 → s.outq = [] →
    runCommands [.ser, .flush] s = some t →
    u.params.width = s.params.width → u.rcur = none → u.inq = t.outq → u.pend = false →
    (∀ p : PTree, isTree s.params.width s.tree p = true →
      ∃ v p', runCommands [.recon l] u = some v ∧ isTree v.params.width v.tree p' = true ∧
        p'.shape v.params.width = p.shape s.params.width ∧ p'.symbols = p.symbols ∧
        v.tree.nleaves = s.tree.nleaves ∧ ∀ x, p'.code x = p.code x) ∧
    (s.tree = Tree.cleared → t.outq = [] ∧ ∃ v, runCommands [.recon l] u = some v ∧ v.tree = Tree.cleared)

/-! ## The container -/

/-- R80 to R88: the compress procedure, from an idle core whose writer and OUTQ are empty, pops exactly the container's
bytes: its fields in order with nothing between them, then the zero bits of PAD. An empty input gives the four bytes 0; any
other gives ceil((32 + W + ShapeLen(L) + the code words' lengths) / 8) bytes (the host's turns: log 15). -/
def Obligations.CompressMakesTheContainer : Prop :=
  ∀ (s : State) (xs : List Symbol), machineOk s = true → s.mode = .idle → s.wn = 0 → s.outq = [] →
    (∀ x ∈ xs, x.toNat < s.params.width.alphabet) → xs.length < 2 ^ 32 →
    let w := s.params.width
    (∃ t, compress xs s = some (container w xs, t) ∧ t.mode = .idle ∧ t.wn = 0 ∧ t.outq = []) ∧
    (container w xs).flatMap byteBits = containerBits w xs ∧
    (xs = [] → container w xs = [0, 0, 0, 0]) ∧
    (xs ≠ [] → ∃ p, mergedTree (countSymbols xs) = some p ∧
      (∀ x ∈ xs, ∃ bits, p.code x = some bits) ∧
      containerBits w xs = msbBits 32 xs.length ++ msbBits w.bits (p.symbols.length - 1) ++ p.shape w ++
        (xs.flatMap fun x => (p.code x).getD []) ++ padBits (containerFields w xs).flatten.length ∧
      (container w xs).length =
        (32 + w.bits + w.shapeLen p.symbols.length + (xs.map fun x => ((p.code x).getD []).length).sum + 7) / 8)

/-- R89, R90, R205: the decompress procedure on the container of a symbol sequence, from any idle core, outputs the sequence.
It reads the fields up to the last code word and no bit after it (of a SINGLE tree no payload bit); every other byte is in
INQ in order and the input is closed, unless INQ is full and the rest cannot be pushed. A container of no bytes is empty
output too (the host's turns: log 15). -/
def Obligations.DecompressInvertsCompress : Prop :=
  ∀ (s : State) (xs : List Symbol), machineOk s = true → s.mode = .idle →
    (∀ x ∈ xs, x.toNat < s.params.width.alphabet) → xs.length < 2 ^ 32 →
    let w := s.params.width
    let read := match mergedTree (countSymbols xs) with
      | none => 32
      | some p => 32 + w.bits + (p.shape w).length + (if p.isLeaf then 0 else (payloadBits p xs).length)
    (∃ (t : State) (rest : List Byte), decompress (container w xs) s = some (xs, t) ∧ t.mode = .idle ∧
      (containerBits w xs).drop read = inBits t ++ rest.flatMap byteBits ∧
      (t.inClosed = true ↔ rest = []) ∧ (rest ≠ [] → t.inq.length = t.params.inDepth)) ∧
    decompress [] s = some ([], s)

/-- R89: a container whose bytes run out before T symbols are decoded ends in END_OF_STREAM, with the symbols before it
output (the host's turns: log 15). -/
def Obligations.ShortContainersEndInEndOfStream : Prop :=
  ∀ (s : State) (xs : List Symbol) (p : PTree) (c : List Byte), machineOk s = true → s.mode = .idle →
    (∀ x ∈ xs, x.toNat < s.params.width.alphabet) → xs.length < 2 ^ 32 →
    mergedTree (countSymbols xs) = some p → c ≠ [] → c <+: container s.params.width xs →
    8 * c.length < 32 + s.params.width.bits + (p.shape s.params.width).length +
      (if p.isLeaf then 0 else (payloadBits p xs).length) →
    ∃ ys t, decompress c s = some (ys, t) ∧ t.mode = .halted ∧ t.err = .endOfStream ∧ ys <+: xs ∧ ys ≠ xs

/-! ## What commands change -/

/-- The writers of each piece of state (R27, R36, R42 to R44, R139): in whatever way a command ends (completed, error or
hold), FREQ is written only by CLRF and SETF; the tree only by BUILD, CLRT and RECON; the writer and OUTQ only by WBITS,
FLUSH, ENC and SER; the reader and INQ only by RBITS, RRST, DEC and RECON; IN_CLOSED only by RRST; RESULT only by GETF,
NLEAF, RBITS and DEC; the instance, CMD_LO and CMD_HI, and the host's side by none. -/
def Obligations.CommandsWriteOnlyTheirState : Prop :=
  ∀ (i : Instr) (s t : State), exec i s = .next t →
    t.params = s.params ∧ t.cmdLo = s.cmdLo ∧ t.cmdHi = s.cmdHi ∧ t.pendCode = s.pendCode ∧ t.pendInfo = s.pendInfo ∧
    t.pendCmd = s.pendCmd ∧ t.agenda = s.agenda ∧ t.seen = s.seen ∧ t.draws = s.draws ∧
    (i ≠ .clrf → (∀ x c, i ≠ .setf x c) → t.freq = s.freq) ∧
    (i ≠ .build → i ≠ .clrt → (∀ l, i ≠ .recon l) → t.tree = s.tree) ∧
    ((∀ n v, i ≠ .wbits n v) → i ≠ .flush → (∀ x, i ≠ .enc x) → i ≠ .ser →
      t.wbuf = s.wbuf ∧ t.wn = s.wn ∧ t.outq = s.outq) ∧
    ((∀ n, i ≠ .rbits n) → i ≠ .rrst → i ≠ .dec → (∀ l, i ≠ .recon l) →
      t.rbuf = s.rbuf ∧ t.rcur = s.rcur ∧ t.inq = s.inq) ∧
    (i ≠ .rrst → t.inClosed = s.inClosed) ∧
    ((∀ x, i ≠ .getf x) → i ≠ .nleaf → (∀ n, i ≠ .rbits n) → i ≠ .dec → t.result = s.result)

/-- RESULT changes only when GETF, NLEAF, RBITS or DEC completes, in the step in which BUSY falls, or at reset (R27,
R305). Completing is the command's return (R14): IDLE, or the latched host-protocol error taken, with nothing but RESULT
and the reader changed; so a command that errors leaves RESULT as it is. -/
def Obligations.ResultChangesOnlyAtCompletion : Prop :=
  ∀ s t : State, machineOk s = true → step s = .next t → t.result ≠ s.result →
    (∃ turn rest, s.agenda = turn :: rest ∧ isReset s.params turn = true ∧ t.result = 0) ∨
    (s.mode = .busy ∧ t.mode ≠ .busy ∧
      (∃ i, decode s.cmd = .ok i ∧ ((∃ x, i = .getf x) ∨ i = .nleaf ∨ (∃ n, i = .rbits n) ∨ i = .dec)) ∧
      t = finish { s with agenda := t.agenda, rbuf := t.rbuf, rcur := t.rcur, inq := t.inq, result := t.result } ∧
      (s.pend = false → t.mode = .idle ∧ t.err = .noError) ∧
      (s.pend = true → t = takeError s.pendCode s.pendInfo s.pendCmd t ∧
        (s.pendCode = .cmdOverrun ∨ s.pendCode = .inputProtocol)))

/-! ## Errors, the host, reset -/

/-- The error entry and the return (R262, R266): TakeError records code, info and the command word, drops PEND, halts the
core and discards the transient state; the return takes a latched error instead of IDLE; a host-protocol error is
ignored when HALTED, taken when IDLE, latched when BUSY unless one is latched already. -/
def Obligations.ErrorEntryAndReturn : Prop :=
  (∀ (code : ErrorCode) (info : Word) (cmd : Command) (s : State),
    takeError code info cmd s =
      { s with err := code, errInfo := info, errCmdHi := cmd.extractLsb' 32 32, errCmdLo := cmd.extractLsb' 0 32,
               pend := false, mode := .halted, job := none, cmd := 0 } ∧
    (s.mode = .halted → hostProtocolError code info cmd s = s) ∧
    (s.mode = .idle → hostProtocolError code info cmd s = takeError code info cmd s) ∧
    (s.mode = .busy → s.pend = true → hostProtocolError code info cmd s = s) ∧
    (s.mode = .busy → s.pend = false →
      hostProtocolError code info cmd s = { s with pend := true, pendCode := code, pendInfo := info, pendCmd := cmd })) ∧
  ∀ s : State, (s.pend = false → finish s = { s with mode := .idle, job := none, cmd := 0 }) ∧
    (s.pend = true → finish s = takeError s.pendCode s.pendInfo s.pendCmd s)

/-- R262: the error entry is the only way MODE becomes HALTED: the state after such a step is what TakeError leaves, with
a real error code. -/
def Obligations.OnlyTheErrorEntryHalts : Prop :=
  ∀ s t : State, machineOk s = true → step s = .next t → s.mode ≠ .halted → t.mode = .halted →
    t.err ≠ .noError ∧ t = takeError t.err t.errInfo (joinWords t.errCmdHi t.errCmdLo) t

/-- R265: only reset leaves HALTED. Any other step keeps MODE, every error register, RESULT, FREQ, the tree, and the bit
buffers: no command runs and no error is taken, and only CMD_LO, CMD_HI and the channels can change. -/
def Obligations.HaltedUntilReset : Prop :=
  ∀ s t : State, s.mode = .halted → step s = .next t →
    (∃ turn rest, s.agenda = turn :: rest ∧ isReset s.params turn = true ∧ t = resetCore { s with agenda := rest }) ∨
    t = { s with cmdLo := t.cmdLo, cmdHi := t.cmdHi, inq := t.inq, inClosed := t.inClosed, outq := t.outq,
                 agenda := t.agenda, seen := t.seen, draws := t.draws }

/-- R300 and R301: in every mode, and with the same effect, the reset input and a CTRL write of bit 0 set every item of R48
to its reset value and leave CONFIG and FIFO_CONFIG; the host's side goes on. -/
def Obligations.ResetGivesTheResetValues : Prop :=
  ∀ (s : State) (rest : List Turn) (turn : Turn), s.agenda = turn :: rest →
    turn = .host .resetInput ∨ (∃ v : Word, turn = .host (.write (s.params.base + 0x34) .bits32 v) ∧ v.getLsbD 0 = true) →
    ∃ t, step s = .next t ∧ t.mode = .idle ∧ t.cmd = 0 ∧ t.job = none ∧ t.cmdLo = 0 ∧ t.cmdHi = 0 ∧ t.result = 0 ∧
      t.err = .noError ∧ t.errInfo = 0 ∧ t.errCmdLo = 0 ∧ t.errCmdHi = 0 ∧ t.pend = false ∧ t.pendCode = .noError ∧
      t.pendInfo = 0 ∧ t.pendCmd = 0 ∧ (∀ x, getFreq t.freq x = 0) ∧ t.tree.root = none ∧ (∀ x, t.tree.leafAt x = none) ∧
      t.tree.nleaves = 0 ∧ t.tree.nfree = 0 ∧ t.wbuf = 0 ∧ t.wn = 0 ∧ t.rbuf = 0 ∧ t.rcur = none ∧ t.inq = [] ∧
      t.inClosed = false ∧ t.outq = [] ∧ t.params = s.params ∧ t.agenda = rest ∧ t.seen = s.seen ∧ t.draws = s.draws ∧
      statusWord t = 0x00004000 ∧ fifoStatusWord t = 0

/-- The sixteen registers of R23 and what a read of each returns (R24 to R35, R49): one step, which adds the value to the
host's observation; a read of OUT_DATA pops, one of STATUS draws its free values (log 6), and nothing else changes
(R72, R91; log 2). -/
def Obligations.HostReadsAreObserved : Prop :=
  ∀ (s : State) (rest : List Turn) (off : Nat) (v : Word),
    (off, v) ∈ [(0x00, s.cmdLo), (0x04, s.cmdHi), (0x08, statusWord s), (0x0C, s.result), (0x10, s.errInfo),
      (0x14, s.errCmdLo), (0x18, s.errCmdHi), (0x1C, configWord s.params), (0x20, fifoConfigWord s.params),
      (0x24, fifoStatusWord s), (0x28, 0), (0x2C, 0),
      (0x30, match s.outq with | [] => 0 | b :: _ => 0x100 ||| b.setWidth 32), (0x34, 0), (0x38, 0), (0x3C, 0)] →
    s.agenda = .host (.read (s.params.base + off) .bits32) :: rest →
    step s = .next { s with agenda := rest, seen := s.seen ++ [v],
                            outq := if off = 0x30 then s.outq.tail else s.outq,
                            draws := if off = 0x08 then s.draws + 1 else s.draws }

/-- R24 and R25. A CMD_LO write stores the value, and never issues a command nor disturbs one. A CMD_HI write stores the
value; when IDLE it issues {CMD_HI, CMD_LO} and MODE is BUSY in the same transaction; when BUSY it latches CMD_OVERRUN for
the rejected word, which is not executed; when HALTED nothing more. Both read back the last value written: nothing but such
a write and reset changes them. Reset makes both 0. -/
def Obligations.CommandRegistersStoreIssueOrOverrun : Prop :=
  (∀ (s : State) (rest : List Turn) (v : Word), s.agenda = .host (.write s.params.base .bits32 v) :: rest →
    step s = .next { s with agenda := rest, cmdLo := v }) ∧
  (∀ (s : State) (rest : List Turn) (v : Word), s.agenda = .host (.write (s.params.base + 4) .bits32 v) :: rest →
    let u := { s with agenda := rest, cmdHi := v }
    (s.mode = .idle → step s = .next { u with mode := .busy, cmd := v ++ s.cmdLo, job := none }) ∧
    (s.mode = .busy → s.pend = false →
      step s = .next { u with pend := true, pendCode := .cmdOverrun, pendInfo := 0, pendCmd := v ++ s.cmdLo }) ∧
    (s.mode = .busy → s.pend = true → step s = .next u) ∧
    (s.mode = .halted → step s = .next u)) ∧
  (∀ (s : State) (rest : List Turn),
    (s.agenda = .host (.read s.params.base .bits32) :: rest →
      step s = .next { s with agenda := rest, seen := s.seen ++ [s.cmdLo] }) ∧
    (s.agenda = .host (.read (s.params.base + 4) .bits32) :: rest →
      step s = .next { s with agenda := rest, seen := s.seen ++ [s.cmdHi] })) ∧
  (∀ a b : State, step a = .next b →
    (b.cmdLo ≠ a.cmdLo → ∃ turn later, a.agenda = turn :: later ∧
      (isReset a.params turn = true ∨ ∃ w, turn = .host (.write a.params.base .bits32 w))) ∧
    (b.cmdHi ≠ a.cmdHi → ∃ turn later, a.agenda = turn :: later ∧
      (isReset a.params turn = true ∨ ∃ w, turn = .host (.write (a.params.base + 4) .bits32 w)))) ∧
  ∀ s : State, (resetCore s).cmdLo = 0 ∧ (resetCore s).cmdHi = 0

/-- The H_PUSH row of R64, with R32, R261 and R266: with room in an open INQ the byte v[7:0] is appended; otherwise it is
discarded and INPUT_PROTOCOL is raised, with info b * 256 + 1 for a full and b * 256 + 2 for a closed INQ (either when it is
both: log 7), charged to the command in progress, or to 0 when IDLE. -/
def Obligations.PushAppendsOrRaises : Prop :=
  ∀ (s : State) (rest : List Turn) (v : Word), s.agenda = .host (.write (s.params.base + 0x28) .bits32 v) :: rest →
    let u := { s with agenda := rest }
    (s.inq.length < s.params.inDepth → s.inClosed = false → step s = .next { u with inq := s.inq ++ [v.setWidth 8] }) ∧
    (s.params.inDepth ≤ s.inq.length ∨ s.inClosed = true → ∃ k : Nat,
      (k = 1 ∧ s.params.inDepth ≤ s.inq.length ∨ k = 2 ∧ s.inClosed = true) ∧
      step s = .next (hostProtocolError .inputProtocol (BitVec.ofNat 32 (v.toNat % 256 * 256 + k))
        (if s.mode = .busy then s.cmd else 0) { u with draws := s.draws + 1 }))

/-- R34: a read of OUT_DATA returns 0x100 | b for the oldest byte b and removes it; with OUTQ empty it returns 0 and
changes nothing. Writes are ignored. -/
def Obligations.OutDataPopsTheOldestByte : Prop :=
  ∀ (s : State) (rest : List Turn),
    (∀ b q, s.agenda = .host (.read (s.params.base + 0x30) .bits32) :: rest → s.outq = b :: q →
      step s = .next { s with agenda := rest, outq := q, seen := s.seen ++ [0x100 ||| b.setWidth 32] }) ∧
    (s.agenda = .host (.read (s.params.base + 0x30) .bits32) :: rest → s.outq = [] →
      step s = .next { s with agenda := rest, seen := s.seen ++ [0] }) ∧
    (∀ v, s.agenda = .host (.write (s.params.base + 0x30) .bits32 v) :: rest → step s = .next { s with agenda := rest })

/-- R23, R33, R49: writes to the read-only registers and the reserved offsets, and IN_CTRL and CTRL writes with bit 0 = 0,
have no effect; IN_CTRL with bit 0 = 1 closes the input; write-only registers and reserved offsets read 0. -/
def Obligations.IgnoredWritesAndZeroReads : Prop :=
  ∀ (s : State) (rest : List Turn) (off : Nat) (v : Word),
    s.agenda = .host (.write (s.params.base + off) .bits32 v) :: rest →
    (off ∈ [0x08, 0x0C, 0x10, 0x14, 0x18, 0x1C, 0x20, 0x24, 0x30, 0x38, 0x3C] → step s = .next { s with agenda := rest }) ∧
    (off ∈ [0x2C, 0x34] → v.getLsbD 0 = false → step s = .next { s with agenda := rest }) ∧
    (off = 0x2C → v.getLsbD 0 = true → step s = .next { s with agenda := rest, inClosed := true }) ∧
    (∀ off' ∈ [0x28, 0x2C, 0x34, 0x38, 0x3C], ∃ r, regAt off' = some r ∧ readValue r s = 0)

/-- R71: an access that is not 32 bits wide, not at a multiple of 4, or not inside the window has no meaning and is
refused; every other access of the host is one step. -/
def Obligations.MeaninglessAccessesAreRefused : Prop :=
  ∀ (s : State) (rest : List Turn) (op : HostOp) (addr : Nat) (size : AccessSize),
    s.agenda = .host op :: rest → (∃ v, op = .write addr size v) ∨ op = .read addr size →
    (size ≠ .bits32 ∨ addr < s.params.base ∨ (addr - s.params.base) % 4 ≠ 0 ∨ s.params.base + 0x40 ≤ addr →
      step s = .refused .accessWithoutMeaning) ∧
    (size = .bits32 → s.params.base ≤ addr → (addr - s.params.base) % 4 = 0 → addr < s.params.base + 0x40 →
      ∃ t, step s = .next t)

/-- R26, R41, R43, R260: the fields of STATUS, ERR by its nine code numbers. BUSY, HALTED, ERR, IN_CLOSED, HOLD_IN, HOLD_OUT, PEND and the reserved bits are
exact at all times; TREE, WN and RCUR are exact when BUSY = 0; while BUSY, TREE is never 3 and RCUR never above 8. -/
def Obligations.StatusShowsTheState : Prop :=
  ∀ s : State,
    let w := statusWord s
    w.getLsbD 0 = decide (s.mode = .busy) ∧ w.getLsbD 1 = decide (s.mode = .halted) ∧
    (∀ n : Nat, (s.err, n) ∈ [(ErrorCode.noError, 0), (.illegalOpcode, 1), (.illegalOperand, 2), (.unknownSymbol, 3),
      (.emptyTree, 4), (.endOfStream, 5), (.shapeError, 6), (.cmdOverrun, 7), (.inputProtocol, 8)] →
      (w.extractLsb' 2 4).toNat = n) ∧ w.getLsbD 15 = s.inClosed ∧ w.getLsbD 16 = holdIn s ∧
    w.getLsbD 17 = holdOut s ∧ w.getLsbD 18 = s.pend ∧ w.extractLsb' 19 13 = 0 ∧
    (w.extractLsb' 6 2).toNat ≤ 2 ∧ (w.extractLsb' 11 4).toNat ≤ 8 ∧
    (s.mode ≠ .busy →
      (w.extractLsb' 8 3).toNat = s.wn.val ∧
      (w.extractLsb' 11 4).toNat = (match s.rcur with | none => 8 | some c => c.val) ∧
      (s.tree.root = none → w.extractLsb' 6 2 = 0) ∧
      (∀ r n, s.tree.root = some r → nodeAt s.tree r = some n →
        w.extractLsb' 6 2 = if n.zero = none then 1 else 2))

/-- R29, R30, R31: CONFIG holds W and FREQ_WIDTH = 32, FIFO_CONFIG the depths, FIFO_STATUS the levels, each in its field;
reserved bits read 0; reset leaves the first two and makes the levels 0. -/
def Obligations.ConfigAndFifoRegisters : Prop :=
  ∀ s : State, s.params.wf = true → channelsOk s = true →
    let c := configWord s.params
    (c.extractLsb' 0 5).toNat = s.params.width.bits ∧ c.extractLsb' 5 3 = 0 ∧ (c.extractLsb' 8 8).toNat = 32 ∧
    c.extractLsb' 16 16 = 0 ∧
    ((fifoConfigWord s.params).extractLsb' 0 16).toNat = s.params.inDepth ∧
    ((fifoConfigWord s.params).extractLsb' 16 16).toNat = s.params.outDepth ∧
    ((fifoStatusWord s).extractLsb' 0 16).toNat = s.inq.length ∧
    ((fifoStatusWord s).extractLsb' 16 16).toNat = s.outq.length ∧
    readValue .config s = c ∧ readValue .fifoConfig s = fifoConfigWord s.params ∧ readValue .fifoStatus s = fifoStatusWord s ∧
    readValue .config (resetCore s) = c ∧ readValue .fifoConfig (resetCore s) = fifoConfigWord s.params ∧
    readValue .fifoStatus (resetCore s) = 0

/-- No step changes the instance, and every step keeps the canonical form of the frequency table (R5, R9, R29; log 9). -/
def Obligations.StepKeepsInstanceAndFrequencyForm : Prop :=
  ∀ s t : State, step s = .next t →
    t.params = s.params ∧ (freqWf s.params.width s.freq = true → freqWf t.params.width t.freq = true)

/-! ## Invariants -/

/-- Reset meets the invariants, for every instance (R48). -/
def Obligations.ResetMeetsTheInvariants : Prop :=
  (∀ p : Params, p.wf = true → machineOk (State.resetWith p) = true ∧ treeInv (State.resetWith p)) ∧
    machineOk State.reset = true ∧ treeInv State.reset

/-- Every step keeps the machine's invariant: the tables stay canonical, the channels within their depths, the unused bits
of WBUF 0, MODE, ERR and PEND agree, and the transient state belongs to a legal command in progress (R22, R40 to R46). -/
def Obligations.StepKeepsTheMachineInvariant : Prop :=
  ∀ s t : State, machineOk s = true → treeInv s → step s = .next t → machineOk t = true

/-- Every step keeps the tree invariants of R40: whenever no RECON is under way the tree registers hold a tree. -/
def Obligations.StepKeepsTheTreeInvariant : Prop :=
  ∀ s t : State, machineOk s = true → treeInv s → step s = .next t → treeInv t

/-- R206: no step from a state that meets the invariants walks off the tree: it answers a next state, or refuses, and then
the turn is a host access that has no meaning (R71). -/
def Obligations.NoStepWalksOffTheTree : Prop :=
  ∀ s : State, machineOk s = true → treeInv s →
    (∃ t, step s = .next t) ∨
    (step s = .refused .accessWithoutMeaning ∧ ∃ op rest, s.agenda = .host op :: rest ∧
      ((∃ addr size v, op = .write addr size v ∧ accessed s.params addr size = none) ∨
        ∃ addr size, op = .read addr size ∧ accessed s.params addr size = none))

/-- R40 in its own words, whenever MODE ≠ BUSY: a node has both children or none; an internal node's count is the sum of
its children's; isZeroChild and parent agree with the parent's child links; LEAF names the one leaf of each symbol that has
one; NLEAVES is the number of LEAF entries that are not NIL. With it R41's classes by the number of leaves, and R6's widths:
at most LMAX leaves and NODE_MAX nodes, whose indices fit in IDX_W bits and are not the all-ones NIL (R37, R38). -/
def Obligations.TreeInvariantsOfEveryNode : Prop :=
  (∀ s : State, machineOk s = true → treeInv s → s.mode ≠ .busy → treeOk s.params.width s.tree) ∧
  ∀ (w : Width) (t : Tree), treeOk w t →
    (∀ i n, nodeAt t i = some n →
      (n.zero = none ↔ n.one = none) ∧
      (∀ z o a b, n.zero = some z → n.one = some o → nodeAt t z = some a → nodeAt t o = some b →
        n.count = a.count + b.count) ∧
      (∀ c, n.zero = some c → ∃ m, nodeAt t c = some m ∧ m.parent = some i ∧ m.isz = true) ∧
      (∀ c, n.one = some c → ∃ m, nodeAt t c = some m ∧ m.parent = some i ∧ m.isz = false) ∧
      (n.parent = none ↔ t.root = some i) ∧
      (n.zero = none → t.leafAt n.sym = some i)) ∧
    (∀ x i, t.leafAt x = some i → ∃ n, nodeAt t i = some n ∧ n.sym = x ∧ n.zero = none) ∧
    t.nleaves = t.leaf.length ∧ t.nleaves ≤ w.leafMax ∧ t.nfree ≤ w.nodeMax ∧
    t.nleaves < 2 ^ (w.bits + 1) ∧ t.nfree < 2 ^ w.indexBits ∧
    (∀ i n, nodeAt t i = some n → (indexWord w (some i)).toNat = i ∧ indexWord w (some i) ≠ indexWord w none) ∧
    (t.kind = .empty ↔ t.nleaves = 0) ∧ (t.kind = .single ↔ t.nleaves = 1) ∧ (t.kind = .full ↔ 2 ≤ t.nleaves)
end

