-- ==== Sys2Proof/Laws/Bits.lean ====
section
/-! SUPPORT. Bits in stream order: lengths, and that a value's bits give the value back. -/

namespace Sys2Proof.Machine

@[simp] theorem msbBits_zero (v : Nat) : msbBits 0 v = [] := rfl

@[simp] theorem msbBits_succ (n v : Nat) : msbBits (n + 1) v = v.testBit n :: msbBits n v := rfl

@[simp] theorem msbBits_length (n v : Nat) : (msbBits n v).length = n := by
  induction n with
  | zero => rfl
  | succ n ih => simp [ih]

@[simp] theorem byteBits_length (b : Byte) : (byteBits b).length = 8 := msbBits_length ..

@[simp] theorem fieldBits_length (n : BitVec 16) (v : Word) : (fieldBits n v).length = n.toNat := msbBits_length ..

@[simp] theorem symbolBits_length (w : Width) (s : Symbol) : (symbolBits w s).length = w.bits := msbBits_length ..

theorem flatMap_byteBits_length (q : List Byte) : (q.flatMap byteBits).length = 8 * q.length := by
  induction q with
  | nil => rfl
  | cons b q ih => simp [ih]; omega

/-- The j-th bit in stream order is bit n-1-j. -/
theorem msbBits_eq_map (n v : Nat) : msbBits n v = (List.range n).map fun j => v.testBit (n - 1 - j) := by
  induction n with
  | zero => rfl
  | succ n ih =>
    rw [msbBits_succ, List.range_succ_eq_map, List.map_cons, List.map_map, ih]
    simp only [Nat.add_one_sub_one, Nat.sub_zero, List.cons.injEq, true_and]
    refine List.map_congr_left fun j _ => ?_
    have : n - 1 - j = n - (j + 1) := by omega
    simp [this]

theorem bitsValue_append (xs : List Bool) (b : Bool) : bitsValue (xs ++ [b]) = 2 * bitsValue xs + b.toNat := by
  simp [bitsValue]

theorem foldl_bits (xs : List Bool) (a : Nat) :
    xs.foldl (fun v b => 2 * v + b.toNat) a = a * 2 ^ xs.length + bitsValue xs := by
  induction xs generalizing a with
  | nil => simp [bitsValue]
  | cons b xs ih =>
    simp only [List.foldl_cons, bitsValue, List.length_cons]
    rw [ih, ih (2 * 0 + b.toNat)]
    ring

theorem bitsValue_cons (b : Bool) (xs : List Bool) : bitsValue (b :: xs) = b.toNat * 2 ^ xs.length + bitsValue xs := by
  have := foldl_bits xs (2 * 0 + b.toNat)
  simpa [bitsValue] using this

theorem bitsValue_lt (xs : List Bool) : bitsValue xs < 2 ^ xs.length := by
  induction xs with
  | nil => simp [bitsValue]
  | cons b xs ih =>
    rw [bitsValue_cons, List.length_cons, Nat.pow_succ]
    cases b <;> simp <;> omega

/-- The low n bits of v, written and read most significant first, are v mod 2^n. -/
theorem bitsValue_msbBits (n v : Nat) : bitsValue (msbBits n v) = v % 2 ^ n := by
  induction n with
  | zero => simp [bitsValue, Nat.mod_one]
  | succ n ih =>
    rw [msbBits_succ, bitsValue_cons, ih, msbBits_length, Nat.mod_pow_succ, Nat.testBit_eq_decide_div_mod_eq]
    rcases Nat.mod_two_eq_zero_or_one (v / 2 ^ n) with h | h <;> simp [h]; omega

/-- `(v << 1) | bit` as numbers, when the shift drops nothing. -/
theorem shiftIn_toNat {w : Nat} (v : BitVec w) (b : Bool) (h : 2 * v.toNat + 1 < 2 ^ w) :
    (shiftIn v b).toNat = 2 * v.toNat + b.toNat := by
  have hw : 1 < 2 ^ w := by omega
  have hs : (v <<< 1).toNat = 2 * v.toNat := by
    rw [BitVec.toNat_shiftLeft, Nat.shiftLeft_eq, Nat.mod_eq_of_lt (by omega)]; omega
  have hb : ((BitVec.ofBool b).setWidth w).toNat = b.toNat := by
    rw [BitVec.toNat_setWidth, BitVec.toNat_ofBool]
    rw [Nat.mod_eq_of_lt]
    exact Nat.lt_of_le_of_lt b.toNat_le hw
  rw [shiftIn, BitVec.toNat_or, hs, hb]
  cases b
  · simp
  · simp only [Bool.toNat_true]
    rw [← Nat.two_pow_add_eq_or_of_lt (i := 1) (by simp) v.toNat]

/-- `{hi, lo}` taken apart. -/
@[simp] theorem lowWord_joinWords (hi lo : Word) : lowWord (joinWords hi lo) = lo := by
  apply BitVec.eq_of_getLsbD_eq
  intro i hi'
  have h := BitVec.getLsbD_append (x := hi) (y := lo) (i := i)
  simp only [lowWord, joinWords, BitVec.getLsbD_extractLsb', hi', Nat.zero_add]
  simpa [hi'] using h

@[simp] theorem highWord_joinWords (hi lo : Word) : highWord (joinWords hi lo) = hi := by
  apply BitVec.eq_of_getLsbD_eq
  intro i hi'
  have h := BitVec.getLsbD_append (x := hi) (y := lo) (i := 32 + i)
  simp only [highWord, joinWords, BitVec.getLsbD_extractLsb', hi']
  simpa [hi'] using h

@[simp] theorem joinWords_high_low (c : Command) : joinWords (highWord c) (lowWord c) = c := by
  apply BitVec.eq_of_getLsbD_eq
  intro i hi'
  simp only [lowWord, highWord, joinWords, BitVec.getLsbD_append, BitVec.getLsbD_extractLsb']
  by_cases h : i < 32
  · simp [h]
  · have h1 : i - 32 < 32 := by omega
    have h2 : 32 + (i - 32) = i := by omega
    simp [h, h1, h2]

end Sys2Proof.Machine
end

