-- ==== Sys2Proof/Laws/State.lean ====
section
/-! SUPPORT. Each field after each named update of the state, so that no later proof unfolds a record update. -/

namespace Sys2Proof.Machine

/-! takeError -/

@[simp] theorem takeError_params (e : ErrorCode) (i : Word) (c : Command) (s : State) :
    (takeError e i c s).params = s.params := rfl

@[simp] theorem takeError_mode (e : ErrorCode) (i : Word) (c : Command) (s : State) :
    (takeError e i c s).mode = .halted := rfl

@[simp] theorem takeError_cmd (e : ErrorCode) (i : Word) (c : Command) (s : State) :
    (takeError e i c s).cmd = 0 := rfl

@[simp] theorem takeError_job (e : ErrorCode) (i : Word) (c : Command) (s : State) :
    (takeError e i c s).job = none := rfl

@[simp] theorem takeError_cmdLo (e : ErrorCode) (i : Word) (c : Command) (s : State) :
    (takeError e i c s).cmdLo = s.cmdLo := rfl

@[simp] theorem takeError_cmdHi (e : ErrorCode) (i : Word) (c : Command) (s : State) :
    (takeError e i c s).cmdHi = s.cmdHi := rfl

@[simp] theorem takeError_result (e : ErrorCode) (i : Word) (c : Command) (s : State) :
    (takeError e i c s).result = s.result := rfl

@[simp] theorem takeError_err (e : ErrorCode) (i : Word) (c : Command) (s : State) :
    (takeError e i c s).err = e := rfl

@[simp] theorem takeError_errInfo (e : ErrorCode) (i : Word) (c : Command) (s : State) :
    (takeError e i c s).errInfo = i := rfl

@[simp] theorem takeError_errCmdLo (e : ErrorCode) (i : Word) (c : Command) (s : State) :
    (takeError e i c s).errCmdLo = lowWord c := rfl

@[simp] theorem takeError_errCmdHi (e : ErrorCode) (i : Word) (c : Command) (s : State) :
    (takeError e i c s).errCmdHi = highWord c := rfl

@[simp] theorem takeError_pend (e : ErrorCode) (i : Word) (c : Command) (s : State) :
    (takeError e i c s).pend = false := rfl

@[simp] theorem takeError_pendCode (e : ErrorCode) (i : Word) (c : Command) (s : State) :
    (takeError e i c s).pendCode = s.pendCode := rfl

@[simp] theorem takeError_pendInfo (e : ErrorCode) (i : Word) (c : Command) (s : State) :
    (takeError e i c s).pendInfo = s.pendInfo := rfl

@[simp] theorem takeError_pendCmd (e : ErrorCode) (i : Word) (c : Command) (s : State) :
    (takeError e i c s).pendCmd = s.pendCmd := rfl

@[simp] theorem takeError_freq (e : ErrorCode) (i : Word) (c : Command) (s : State) :
    (takeError e i c s).freq = s.freq := rfl

@[simp] theorem takeError_tree (e : ErrorCode) (i : Word) (c : Command) (s : State) :
    (takeError e i c s).tree = s.tree := rfl

@[simp] theorem takeError_wbuf (e : ErrorCode) (i : Word) (c : Command) (s : State) :
    (takeError e i c s).wbuf = s.wbuf := rfl

@[simp] theorem takeError_wn (e : ErrorCode) (i : Word) (c : Command) (s : State) :
    (takeError e i c s).wn = s.wn := rfl

@[simp] theorem takeError_rbuf (e : ErrorCode) (i : Word) (c : Command) (s : State) :
    (takeError e i c s).rbuf = s.rbuf := rfl

@[simp] theorem takeError_rcur (e : ErrorCode) (i : Word) (c : Command) (s : State) :
    (takeError e i c s).rcur = s.rcur := rfl

@[simp] theorem takeError_inq (e : ErrorCode) (i : Word) (c : Command) (s : State) :
    (takeError e i c s).inq = s.inq := rfl

@[simp] theorem takeError_inClosed (e : ErrorCode) (i : Word) (c : Command) (s : State) :
    (takeError e i c s).inClosed = s.inClosed := rfl

@[simp] theorem takeError_outq (e : ErrorCode) (i : Word) (c : Command) (s : State) :
    (takeError e i c s).outq = s.outq := rfl

@[simp] theorem takeError_agenda (e : ErrorCode) (i : Word) (c : Command) (s : State) :
    (takeError e i c s).agenda = s.agenda := rfl

@[simp] theorem takeError_seen (e : ErrorCode) (i : Word) (c : Command) (s : State) :
    (takeError e i c s).seen = s.seen := rfl

@[simp] theorem takeError_draws (e : ErrorCode) (i : Word) (c : Command) (s : State) :
    (takeError e i c s).draws = s.draws := rfl

/-! raise: the error entry with the command word in progress -/

@[simp] theorem raise_params (e : ErrorCode) (i : Word) (s : State) : (raise e i s).params = s.params := rfl

@[simp] theorem raise_mode (e : ErrorCode) (i : Word) (s : State) : (raise e i s).mode = .halted := rfl

@[simp] theorem raise_cmd (e : ErrorCode) (i : Word) (s : State) : (raise e i s).cmd = 0 := rfl

@[simp] theorem raise_job (e : ErrorCode) (i : Word) (s : State) : (raise e i s).job = none := rfl

@[simp] theorem raise_cmdLo (e : ErrorCode) (i : Word) (s : State) : (raise e i s).cmdLo = s.cmdLo := rfl

@[simp] theorem raise_cmdHi (e : ErrorCode) (i : Word) (s : State) : (raise e i s).cmdHi = s.cmdHi := rfl

@[simp] theorem raise_result (e : ErrorCode) (i : Word) (s : State) : (raise e i s).result = s.result := rfl

@[simp] theorem raise_err (e : ErrorCode) (i : Word) (s : State) : (raise e i s).err = e := rfl

@[simp] theorem raise_errInfo (e : ErrorCode) (i : Word) (s : State) : (raise e i s).errInfo = i := rfl

@[simp] theorem raise_errCmdLo (e : ErrorCode) (i : Word) (s : State) : (raise e i s).errCmdLo = lowWord s.cmd := rfl

@[simp] theorem raise_errCmdHi (e : ErrorCode) (i : Word) (s : State) : (raise e i s).errCmdHi = highWord s.cmd := rfl

@[simp] theorem raise_pend (e : ErrorCode) (i : Word) (s : State) : (raise e i s).pend = false := rfl

@[simp] theorem raise_pendCode (e : ErrorCode) (i : Word) (s : State) : (raise e i s).pendCode = s.pendCode := rfl

@[simp] theorem raise_pendInfo (e : ErrorCode) (i : Word) (s : State) : (raise e i s).pendInfo = s.pendInfo := rfl

@[simp] theorem raise_pendCmd (e : ErrorCode) (i : Word) (s : State) : (raise e i s).pendCmd = s.pendCmd := rfl

@[simp] theorem raise_freq (e : ErrorCode) (i : Word) (s : State) : (raise e i s).freq = s.freq := rfl

@[simp] theorem raise_tree (e : ErrorCode) (i : Word) (s : State) : (raise e i s).tree = s.tree := rfl

@[simp] theorem raise_wbuf (e : ErrorCode) (i : Word) (s : State) : (raise e i s).wbuf = s.wbuf := rfl

@[simp] theorem raise_wn (e : ErrorCode) (i : Word) (s : State) : (raise e i s).wn = s.wn := rfl

@[simp] theorem raise_rbuf (e : ErrorCode) (i : Word) (s : State) : (raise e i s).rbuf = s.rbuf := rfl

@[simp] theorem raise_rcur (e : ErrorCode) (i : Word) (s : State) : (raise e i s).rcur = s.rcur := rfl

@[simp] theorem raise_inq (e : ErrorCode) (i : Word) (s : State) : (raise e i s).inq = s.inq := rfl

@[simp] theorem raise_inClosed (e : ErrorCode) (i : Word) (s : State) : (raise e i s).inClosed = s.inClosed := rfl

@[simp] theorem raise_outq (e : ErrorCode) (i : Word) (s : State) : (raise e i s).outq = s.outq := rfl

@[simp] theorem raise_agenda (e : ErrorCode) (i : Word) (s : State) : (raise e i s).agenda = s.agenda := rfl

@[simp] theorem raise_seen (e : ErrorCode) (i : Word) (s : State) : (raise e i s).seen = s.seen := rfl

@[simp] theorem raise_draws (e : ErrorCode) (i : Word) (s : State) : (raise e i s).draws = s.draws := rfl

/-! clearTree -/

@[simp] theorem clearTree_params (s : State) : (clearTree s).params = s.params := rfl

@[simp] theorem clearTree_mode (s : State) : (clearTree s).mode = s.mode := rfl

@[simp] theorem clearTree_cmd (s : State) : (clearTree s).cmd = s.cmd := rfl

@[simp] theorem clearTree_job (s : State) : (clearTree s).job = s.job := rfl

@[simp] theorem clearTree_cmdLo (s : State) : (clearTree s).cmdLo = s.cmdLo := rfl

@[simp] theorem clearTree_cmdHi (s : State) : (clearTree s).cmdHi = s.cmdHi := rfl

@[simp] theorem clearTree_result (s : State) : (clearTree s).result = s.result := rfl

@[simp] theorem clearTree_err (s : State) : (clearTree s).err = s.err := rfl

@[simp] theorem clearTree_errInfo (s : State) : (clearTree s).errInfo = s.errInfo := rfl

@[simp] theorem clearTree_errCmdLo (s : State) : (clearTree s).errCmdLo = s.errCmdLo := rfl

@[simp] theorem clearTree_errCmdHi (s : State) : (clearTree s).errCmdHi = s.errCmdHi := rfl

@[simp] theorem clearTree_pend (s : State) : (clearTree s).pend = s.pend := rfl

@[simp] theorem clearTree_pendCode (s : State) : (clearTree s).pendCode = s.pendCode := rfl

@[simp] theorem clearTree_pendInfo (s : State) : (clearTree s).pendInfo = s.pendInfo := rfl

@[simp] theorem clearTree_pendCmd (s : State) : (clearTree s).pendCmd = s.pendCmd := rfl

@[simp] theorem clearTree_freq (s : State) : (clearTree s).freq = s.freq := rfl

@[simp] theorem clearTree_tree (s : State) : (clearTree s).tree = Tree.cleared := rfl

@[simp] theorem clearTree_wbuf (s : State) : (clearTree s).wbuf = s.wbuf := rfl

@[simp] theorem clearTree_wn (s : State) : (clearTree s).wn = s.wn := rfl

@[simp] theorem clearTree_rbuf (s : State) : (clearTree s).rbuf = s.rbuf := rfl

@[simp] theorem clearTree_rcur (s : State) : (clearTree s).rcur = s.rcur := rfl

@[simp] theorem clearTree_inq (s : State) : (clearTree s).inq = s.inq := rfl

@[simp] theorem clearTree_inClosed (s : State) : (clearTree s).inClosed = s.inClosed := rfl

@[simp] theorem clearTree_outq (s : State) : (clearTree s).outq = s.outq := rfl

@[simp] theorem clearTree_agenda (s : State) : (clearTree s).agenda = s.agenda := rfl

@[simp] theorem clearTree_seen (s : State) : (clearTree s).seen = s.seen := rfl

@[simp] theorem clearTree_draws (s : State) : (clearTree s).draws = s.draws := rfl

/-! finish: the fields a return never changes, and the ones it always sets -/

@[simp] theorem finish_params (s : State) : (finish s).params = s.params := by unfold finish; split <;> rfl

@[simp] theorem finish_cmd (s : State) : (finish s).cmd = 0 := by unfold finish; split <;> rfl

@[simp] theorem finish_job (s : State) : (finish s).job = none := by unfold finish; split <;> rfl

@[simp] theorem finish_cmdLo (s : State) : (finish s).cmdLo = s.cmdLo := by unfold finish; split <;> rfl

@[simp] theorem finish_cmdHi (s : State) : (finish s).cmdHi = s.cmdHi := by unfold finish; split <;> rfl

@[simp] theorem finish_result (s : State) : (finish s).result = s.result := by unfold finish; split <;> rfl

@[simp] theorem finish_pend (s : State) : (finish s).pend = false := by unfold finish; split <;> simp_all

@[simp] theorem finish_pendCode (s : State) : (finish s).pendCode = s.pendCode := by unfold finish; split <;> rfl

@[simp] theorem finish_pendInfo (s : State) : (finish s).pendInfo = s.pendInfo := by unfold finish; split <;> rfl

@[simp] theorem finish_pendCmd (s : State) : (finish s).pendCmd = s.pendCmd := by unfold finish; split <;> rfl

@[simp] theorem finish_freq (s : State) : (finish s).freq = s.freq := by unfold finish; split <;> rfl

@[simp] theorem finish_tree (s : State) : (finish s).tree = s.tree := by unfold finish; split <;> rfl

@[simp] theorem finish_wbuf (s : State) : (finish s).wbuf = s.wbuf := by unfold finish; split <;> rfl

@[simp] theorem finish_wn (s : State) : (finish s).wn = s.wn := by unfold finish; split <;> rfl

@[simp] theorem finish_rbuf (s : State) : (finish s).rbuf = s.rbuf := by unfold finish; split <;> rfl

@[simp] theorem finish_rcur (s : State) : (finish s).rcur = s.rcur := by unfold finish; split <;> rfl

@[simp] theorem finish_inq (s : State) : (finish s).inq = s.inq := by unfold finish; split <;> rfl

@[simp] theorem finish_inClosed (s : State) : (finish s).inClosed = s.inClosed := by unfold finish; split <;> rfl

@[simp] theorem finish_outq (s : State) : (finish s).outq = s.outq := by unfold finish; split <;> rfl

@[simp] theorem finish_agenda (s : State) : (finish s).agenda = s.agenda := by unfold finish; split <;> rfl

@[simp] theorem finish_seen (s : State) : (finish s).seen = s.seen := by unfold finish; split <;> rfl

@[simp] theorem finish_draws (s : State) : (finish s).draws = s.draws := by unfold finish; split <;> rfl

/-! resetCore -/

@[simp] theorem resetCore_params (s : State) : (resetCore s).params = s.params := rfl

@[simp] theorem resetCore_mode (s : State) : (resetCore s).mode = .idle := rfl

@[simp] theorem resetCore_cmd (s : State) : (resetCore s).cmd = 0 := rfl

@[simp] theorem resetCore_job (s : State) : (resetCore s).job = none := rfl

@[simp] theorem resetCore_cmdLo (s : State) : (resetCore s).cmdLo = 0 := rfl

@[simp] theorem resetCore_cmdHi (s : State) : (resetCore s).cmdHi = 0 := rfl

@[simp] theorem resetCore_result (s : State) : (resetCore s).result = 0 := rfl

@[simp] theorem resetCore_err (s : State) : (resetCore s).err = .noError := rfl

@[simp] theorem resetCore_errInfo (s : State) : (resetCore s).errInfo = 0 := rfl

@[simp] theorem resetCore_errCmdLo (s : State) : (resetCore s).errCmdLo = 0 := rfl

@[simp] theorem resetCore_errCmdHi (s : State) : (resetCore s).errCmdHi = 0 := rfl

@[simp] theorem resetCore_pend (s : State) : (resetCore s).pend = false := rfl

@[simp] theorem resetCore_pendCode (s : State) : (resetCore s).pendCode = .noError := rfl

@[simp] theorem resetCore_pendInfo (s : State) : (resetCore s).pendInfo = 0 := rfl

@[simp] theorem resetCore_pendCmd (s : State) : (resetCore s).pendCmd = 0 := rfl

@[simp] theorem resetCore_freq (s : State) : (resetCore s).freq = [] := rfl

@[simp] theorem resetCore_tree (s : State) : (resetCore s).tree = Tree.cleared := rfl

@[simp] theorem resetCore_wbuf (s : State) : (resetCore s).wbuf = 0 := rfl

@[simp] theorem resetCore_wn (s : State) : (resetCore s).wn = 0 := rfl

@[simp] theorem resetCore_rbuf (s : State) : (resetCore s).rbuf = 0 := rfl

@[simp] theorem resetCore_rcur (s : State) : (resetCore s).rcur = none := rfl

@[simp] theorem resetCore_inq (s : State) : (resetCore s).inq = [] := rfl

@[simp] theorem resetCore_inClosed (s : State) : (resetCore s).inClosed = false := rfl

@[simp] theorem resetCore_outq (s : State) : (resetCore s).outq = [] := rfl

@[simp] theorem resetCore_agenda (s : State) : (resetCore s).agenda = s.agenda := rfl

@[simp] theorem resetCore_seen (s : State) : (resetCore s).seen = s.seen := rfl

@[simp] theorem resetCore_draws (s : State) : (resetCore s).draws = s.draws := rfl

end Sys2Proof.Machine
end

