-- ==== Sys2Proof/Laws/Ops.lean ====
section
/-! SUPPORT. What each shared operation can do, said once: the return, a host-protocol error, the channel accesses, one
micro-step and running micro-steps. -/

namespace Sys2Proof.Machine

/-! ## The return and host-protocol errors -/

theorem finish_of_not_pend {s : State} (h : s.pend = false) :
    finish s = { s with mode := .idle, job := none, cmd := 0 } := by simp [finish, h]

theorem finish_of_pend {s : State} (h : s.pend = true) : finish s = takeError s.pendCode s.pendInfo s.pendCmd s := by
  simp [finish, h]

/-- A return leaves BUSY. -/
theorem finish_mode (s : State) : (finish s).mode = .idle ∧ s.pend = false ∨ (finish s).mode = .halted ∧ s.pend = true := by
  cases h : s.pend
  · exact .inl ⟨by rw [finish_of_not_pend h], rfl⟩
  · exact .inr ⟨by rw [finish_of_pend h]; rfl, rfl⟩

theorem finish_not_busy (s : State) : (finish s).mode ≠ .busy := by
  rcases finish_mode s with ⟨h, -⟩ | ⟨h, -⟩ <;> simp [h]

/-- A return forgets the transient state it returns from. -/
@[simp] theorem finish_with_job (s : State) (j : Option Job) : finish { s with job := j } = finish s := by
  cases h : s.pend <;> simp [finish, h, takeError]

/-- The three answers to a host-protocol error (spec/60_exceptions.md R266). -/
theorem hostProtocolError_cases (e : ErrorCode) (i : Word) (c : Command) (s : State) :
    (hostProtocolError e i c s = s ∧ (s.mode = .halted ∨ s.mode = .busy ∧ s.pend = true)) ∨
    (hostProtocolError e i c s = takeError e i c s ∧ s.mode = .idle) ∨
    (hostProtocolError e i c s = { s with pend := true, pendCode := e, pendInfo := i, pendCmd := c } ∧
      s.mode = .busy ∧ s.pend = false) := by
  unfold hostProtocolError
  split
  · exact .inl ⟨rfl, .inl ‹_›⟩
  · exact .inr (.inl ⟨rfl, ‹_›⟩)
  · split
    · exact .inl ⟨rfl, .inr ⟨‹_›, ‹_›⟩⟩
    · rename_i hm hp
      exact .inr (.inr ⟨rfl, hm, by simpa using hp⟩)

/-! ## The range check -/

theorem checkRange_true (body : State → CoreStep) (s : State) : checkRange true body s = body s := rfl

theorem checkRange_false (body : State → CoreStep) (s : State) :
    checkRange false body s = .moved (raise .illegalOperand 3 s) := rfl

/-! ## The channels -/

theorem outPush_moved {bits : List Bool} {s t : State} (h : outPush bits s = .moved t) :
    s.outq.length < s.params.outDepth ∧
      t = { s with outq := s.outq ++ [s.wbuf], wbuf := 0, wn := 0, job := some (.put bits) } := by
  unfold outPush at h
  split at h
  · cases h; exact ⟨‹_›, rfl⟩
  · cases h

theorem outPush_waiting {bits : List Bool} {s : State} (h : outPush bits s = .waiting) :
    s.params.outDepth ≤ s.outq.length := by
  unfold outPush at h
  split at h
  · cases h
  · exact Nat.le_of_not_lt ‹_›

/-- WriteBit sets its bit and either counts it or goes to OutPush. -/
theorem writeBit_cases (b : Bool) (bits : List Bool) (s : State) :
    (s.wn = 7 ∧ writeBit b bits s = { s with wbuf := setBit s.wbuf (7 - s.wn.val) b, job := some (.push bits) }) ∨
    (s.wn ≠ 7 ∧
      writeBit b bits s = { s with wbuf := setBit s.wbuf (7 - s.wn.val) b, wn := s.wn + 1, job := some (.put bits) }) := by
  unfold writeBit
  split
  · exact .inl ⟨‹_›, rfl⟩
  · exact .inr ⟨‹_›, rfl⟩

/-- ReadBit takes a byte, meets the end of the stream, holds, or delivers a bit of RBUF. -/
theorem readBit_cases (r : Reader) (k : Nat) (s : State) :
    (∃ b q, s.rcur = none ∧ s.inq = b :: q ∧ readBit r k s = .moved { s with rbuf := b, rcur := some 7, inq := q }) ∨
    (s.rcur = none ∧ s.inq = [] ∧ s.inClosed = true ∧ readBit r k s = .moved (endOfStream r k s)) ∨
    (s.rcur = none ∧ s.inq = [] ∧ s.inClosed = false ∧ readBit r k s = .waiting) ∨
    (∃ c, s.rcur = some c ∧ readBit r k s =
      deliver r (s.rbuf.getLsbD c.val) (k + 1) { s with rcur := if c = 0 then none else some (c - 1) }) := by
  unfold readBit
  split
  · rename_i hr
    split
    · rename_i b q hq; exact .inl ⟨b, q, hr, hq, rfl⟩
    · rename_i hq
      split
      · exact .inr (.inl ⟨hr, hq, ‹_›, rfl⟩)
      · rename_i hc; exact .inr (.inr (.inl ⟨hr, hq, by simpa using hc, rfl⟩))
  · rename_i c hr; exact .inr (.inr (.inr ⟨c, hr, rfl⟩))

theorem endOfStream_eq (r : Reader) (k : Nat) (s : State) :
    endOfStream r k s = raise .endOfStream (BitVec.ofNat 32 k) (if r.isRecon then clearTree s else s) := by
  unfold endOfStream raiseRecon
  split <;> rfl

/-! ## What a delivered bit can do -/

/-- A micro-step's answer is either a broken tree or a state made from `s` in which the command has ended, or goes on
reading: what `Delivered` says of it is all a bit can change. -/
def Delivered (s t : State) : Prop :=
  (∃ tree result, t = finish { s with tree := tree, result := result }) ∨
  (∃ e i, t = raise e i s) ∨
  (∃ tree e i, t = raise e i { s with tree := tree }) ∨
  ∃ tree r n, t = { s with tree := tree, job := some (.read r n) }

theorem decStep_moved {i : Nat} {b : Bool} {k : Nat} {s t : State} (h : decStep i b k s = .moved t) :
    (∃ x : Word, t = finishWith x s) ∨ ∃ c, t = { s with job := some (.read (.walk c) k) } := by
  unfold decStep at h
  split at h
  · cases h
  · split at h
    · cases h
    · split at h
      · cases h
      · split at h
        · cases h; exact .inl ⟨_, rfl⟩
        · cases h; exact .inr ⟨_, rfl⟩

theorem reconInternal_moved {l n c k : Nat} {s t : State} (h : reconInternal l n c k s = .moved t) :
    (n = l - 1 ∧ t = raiseRecon .shapeError 1 s) ∨
    (n ≠ l - 1 ∧ ∃ tree, attach c s.tree.nfree (newNode 0 0 s.tree) = some tree ∧
      t = { s with tree := tree, job := some (.read (.marker l (n + 1) s.tree.nfree) k) }) := by
  unfold reconInternal at h
  split at h
  · cases h; exact .inl ⟨‹_›, rfl⟩
  · split at h
    · cases h
    · cases h; exact .inr ⟨‹_›, _, ‹_›, rfl⟩

/-- After a leaf is attached: closed early, complete, or an open slot found. -/
theorem reconNext_moved {l n c k : Nat} {s t : State} (h : reconNext l n c k s = .moved t) :
    (climb s.tree s.tree.nfree (some c) = some none ∧ s.tree.nleaves < l ∧ t = raiseRecon .shapeError 2 s) ∨
    (l ≤ s.tree.nleaves ∧ t = finish s) ∨
    (s.tree.nleaves < l ∧ ∃ c', climb s.tree s.tree.nfree (some c) = some (some c') ∧
      t = { s with job := some (.read (.marker l n c') k) }) := by
  unfold reconNext at h
  split at h
  · cases h
  · split at h
    · cases h; exact .inl ⟨‹_›, ‹_›, rfl⟩
    · cases h; exact .inr (.inl ⟨Nat.le_of_not_lt ‹_›, rfl⟩)
  · split at h
    · cases h; exact .inr (.inr ⟨‹_›, _, ‹_›, rfl⟩)
    · cases h; exact .inr (.inl ⟨Nat.le_of_not_lt ‹_›, rfl⟩)

/-- RECON with a leaf's symbol read: the duplicate check, or the attached leaf and what follows. -/
theorem reconLeaf_moved {l n c : Nat} {x : Symbol} {k : Nat} {s t : State} (h : reconLeaf l n c x k s = .moved t) :
    (s.tree.leafAt x ≠ none ∧ t = raiseRecon .shapeError 3 s) ∨
    (s.tree.leafAt x = none ∧ ∃ tree, attach c s.tree.nfree (newNode 0 x s.tree) = some tree ∧
      reconNext l n c k { s with tree := listLeaf x s.tree.nfree tree } = .moved t) := by
  unfold reconLeaf at h
  split at h
  · cases h; exact .inl ⟨‹_›, rfl⟩
  · rename_i hx
    split at h
    · cases h
    · exact .inr ⟨by simpa using hx, _, ‹_›, h⟩

theorem delivered_of_deliver {r : Reader} {b : Bool} {k : Nat} {s t : State} (h : deliver r b k s = .moved t) :
    Delivered s t := by
  cases r with
  | field left acc =>
    simp only [deliver] at h
    split at h
    · cases h; exact .inl ⟨s.tree, _, rfl⟩
    · cases h; exact .inr (.inr (.inr ⟨s.tree, _, _, rfl⟩))
  | walk i =>
    rcases decStep_moved h with ⟨x, rfl⟩ | ⟨c, rfl⟩
    · exact .inl ⟨s.tree, x, rfl⟩
    · exact .inr (.inr (.inr ⟨s.tree, _, _, rfl⟩))
  | single left acc =>
    simp only [deliver] at h
    split at h
    · cases h; exact .inl ⟨_, s.result, rfl⟩
    · cases h; exact .inr (.inr (.inr ⟨s.tree, _, _, rfl⟩))
  | marker l n c =>
    simp only [deliver] at h
    split at h
    · cases h; exact .inr (.inr (.inr ⟨s.tree, _, _, rfl⟩))
    · rcases reconInternal_moved h with ⟨-, rfl⟩ | ⟨-, tree, -, rfl⟩
      · exact .inr (.inr (.inl ⟨Tree.cleared, _, _, rfl⟩))
      · exact .inr (.inr (.inr ⟨tree, _, _, rfl⟩))
  | leaf l n c left acc =>
    simp only [deliver] at h
    split at h
    · rcases reconLeaf_moved h with ⟨-, rfl⟩ | ⟨-, tree, -, hh⟩
      · exact .inr (.inr (.inl ⟨Tree.cleared, _, _, rfl⟩))
      · rcases reconNext_moved hh with ⟨-, -, rfl⟩ | ⟨-, rfl⟩ | ⟨-, c', -, rfl⟩
        · exact .inr (.inr (.inl ⟨Tree.cleared, _, _, rfl⟩))
        · exact .inl ⟨_, s.result, rfl⟩
        · exact .inr (.inr (.inr ⟨_, _, _, rfl⟩))
    · cases h; exact .inr (.inr (.inr ⟨s.tree, _, _, rfl⟩))

/-- Only a read can hold at InPop, and only a push at OutPush; nothing else waits. -/
theorem deliver_ne_waiting (r : Reader) (b : Bool) (k : Nat) (s : State) : deliver r b k s ≠ .waiting := by
  cases r <;> simp only [deliver, decStep, reconInternal, reconLeaf, reconNext] <;> (repeat' split) <;> simp

theorem advance_waiting {j : Job} {s : State} (h : advance j s = .waiting) :
    (∃ bits, j = .push bits ∧ s.params.outDepth ≤ s.outq.length) ∨
    (∃ r k, j = .read r k ∧ s.rcur = none ∧ s.inq = [] ∧ s.inClosed = false) := by
  cases j with
  | put bits => cases bits <;> simp [advance] at h
  | push bits => exact .inl ⟨bits, rfl, outPush_waiting h⟩
  | emptyInput => simp [advance] at h
  | reopenInput => simp [advance] at h
  | read r k =>
    simp only [advance] at h
    rcases readBit_cases r k s with ⟨_, _, _, _, e⟩ | ⟨_, _, _, e⟩ | ⟨hr, hq, hc, _⟩ | ⟨_, _, e⟩
    · rw [e] at h; cases h
    · rw [e] at h; cases h
    · exact .inr ⟨r, k, rfl, hr, hq, hc⟩
    · rw [e] at h; exact (deliver_ne_waiting _ _ _ _ h).elim

/-! ## Micro-steps end -/

theorem stepBound_of_job_none {s : State} (h : s.job = none) : stepBound s = 0 := by simp [stepBound, h]

theorem stepBound_delivered {s t : State} (h : Delivered s t) : stepBound t ≤ 9 * s.inq.length + unreadBits s + 1 := by
  rcases h with ⟨_, _, rfl⟩ | ⟨_, _, rfl⟩ | ⟨_, _, _, rfl⟩ | ⟨_, _, _, rfl⟩
  · rw [stepBound_of_job_none (by simp)]; omega
  · rw [stepBound_of_job_none (by simp)]; omega
  · rw [stepBound_of_job_none (by simp)]; omega
  · simp [stepBound, unreadBits]

/-- Every micro-step of a command that has begun lowers the bound. -/
theorem advance_lowers {j : Job} {s t : State} (hj : s.job = some j) (h : advance j s = .moved t) :
    stepBound t < stepBound s := by
  cases j with
  | put bits =>
    cases bits with
    | nil =>
      simp only [advance] at h; cases h
      rw [stepBound_of_job_none (by simp)]; simp [stepBound, hj]
    | cons b bits =>
      simp only [advance] at h; cases h
      rcases writeBit_cases b bits s with ⟨-, e⟩ | ⟨-, e⟩ <;> rw [e] <;> simp [stepBound, hj]; omega
  | push bits =>
    obtain ⟨-, rfl⟩ := outPush_moved h
    simp [stepBound, hj]
  | emptyInput => simp only [advance] at h; cases h; simp [stepBound, hj]
  | reopenInput =>
    simp only [advance] at h; cases h
    rw [stepBound_of_job_none (by simp)]; simp [stepBound, hj]
  | read r k =>
    simp only [advance] at h
    have hs : stepBound s = 9 * s.inq.length + unreadBits s + 1 := by simp [stepBound, hj]
    rcases readBit_cases r k s with ⟨b, q, hr, hq, e⟩ | ⟨_, _, _, e⟩ | ⟨_, _, _, e⟩ | ⟨c, hr, e⟩
    · rw [e] at h; cases h
      simp [stepBound, hj, hq, unreadBits, hr]; omega
    · rw [e, endOfStream_eq] at h; cases h
      rw [stepBound_of_job_none (by simp)]; omega
    · rw [e] at h; cases h
    · rw [e] at h
      refine Nat.lt_of_le_of_lt (stepBound_delivered (delivered_of_deliver h)) ?_
      rw [hs]
      simp only [unreadBits, hr]
      split
      · rename_i hc; split at hc <;> simp_all
      · rename_i c' hc
        split at hc
        · cases hc
        · rename_i h0
          cases hc
          have : c.val ≠ 0 := fun hv => h0 (Fin.ext hv)
          have hv : (c - 1).val = c.val - 1 := by omega
          omega

/-- More passes than the bound change nothing. -/
theorem runSteps_stable (k : Nat) : ∀ s : State, stepBound s ≤ k → runSteps k s = runSteps (stepBound s) s := by
  induction k using Nat.strong_induction_on with
  | _ k ih =>
    intro s hk
    cases hj : s.job with
    | none =>
      rw [stepBound_of_job_none hj]
      cases k with
      | zero => rfl
      | succ k => simp [runSteps, hj]
    | some j =>
      have hpos : 0 < stepBound s := by
        cases j <;> simp [stepBound, hj]
      obtain ⟨m, hm⟩ := Nat.exists_eq_succ_of_ne_zero (Nat.ne_of_gt hpos)
      obtain ⟨k', rfl⟩ := Nat.exists_eq_succ_of_ne_zero (n := k) (by omega)
      rw [hm]
      simp only [runSteps, hj]
      cases ha : advance j s with
      | waiting => rfl
      | broken f => rfl
      | moved t =>
        have hlt := advance_lowers hj ha
        show runSteps k' t = runSteps m t
        rw [ih k' (by omega) t (by omega), ih m (by omega) t (by omega)]

/-- Running a command: one micro-step, then the rest. The bound is out of sight. -/
theorem runJob_eq (s : State) :
    runJob s =
      match s.job with
      | none => .next s
      | some j =>
        match advance j s with
        | .moved t => runJob t
        | .waiting => .next s
        | .broken f => .fault f := by
  cases hj : s.job with
  | none => simp [runJob, stepBound_of_job_none hj, runSteps]
  | some j =>
    have hpos : 0 < stepBound s := by
      cases j <;> simp [stepBound, hj]
    obtain ⟨m, hm⟩ := Nat.exists_eq_succ_of_ne_zero (Nat.ne_of_gt hpos)
    simp only [runJob, hm, runSteps, hj]
    cases ha : advance j s with
    | waiting => rfl
    | broken f => rfl
    | moved t =>
      have hlt := advance_lowers hj ha
      exact runSteps_stable m t (by omega)

theorem runJob_of_job_none {s : State} (h : s.job = none) : runJob s = .next s := by rw [runJob_eq]; simp [h]

@[simp] theorem runJob_finish (s : State) : runJob (finish s) = .next (finish s) := runJob_of_job_none (by simp)

@[simp] theorem runJob_raise (e : ErrorCode) (i : Word) (s : State) : runJob (raise e i s) = .next (raise e i s) :=
  runJob_of_job_none rfl

/-- Induction along the micro-steps of a command: a property that every micro-step carries back from its result, that an
ended command has, and that a holding one has, holds of every state whose run answers next. -/
theorem runJob_induction {P : State → State → Prop}
    (ended : ∀ s, s.job = none → P s s)
    (held : ∀ s j, s.job = some j → advance j s = .waiting → P s s)
    (moved : ∀ s j u t, s.job = some j → advance j s = .moved u → runJob u = .next t → P u t → P s t)
    {s t : State} (h : runJob s = .next t) : P s t := by
  induction hb : stepBound s using Nat.strong_induction_on generalizing s with
  | _ b ih =>
    rw [runJob_eq] at h
    cases hj : s.job with
    | none => simp only [hj] at h; cases h; exact ended _ hj
    | some j =>
      simp only [hj] at h
      cases ha : advance j s with
      | waiting => simp only [ha] at h; cases h; exact held _ j hj ha
      | broken f => simp only [ha] at h; cases h
      | moved u =>
        simp only [ha] at h
        exact moved s j u t hj ha h (ih _ (hb ▸ advance_lowers hj ha) h rfl)

end Sys2Proof.Machine
end

