-- ==== Sys2Proof/Laws/Streams.lean ====
section
/-! SUPPORT. The bit streams of a state: what one written bit, one push, one refill and one read bit do to them. -/

namespace Sys2Proof.Machine

theorem byteBits_take_setBit : ∀ (b : Byte) (k : Fin 8) (v : Bool),
    (byteBits (setBit b (7 - k.val) v)).take (k.val + 1) = (byteBits b).take k.val ++ [v] := by
  intro b k v
  fin_cases k <;> cases v <;>
    simp [byteBits, msbBits, setBit, BitVec.testBit_toNat] <;> simp [Nat.testBit]

theorem msbBits_cursor : ∀ (b : Byte) (c : Fin 8), msbBits (c.val + 1) b.toNat = b.getLsbD c.val :: msbBits c.val b.toNat :=
  fun _ _ => rfl

/-- A written bit that does not fill the byte. -/
theorem outBits_written {s : State} (b : Bool) (j : Option Job) (h : s.wn ≠ 7) :
    outBits { s with wbuf := setBit s.wbuf (7 - s.wn.val) b, wn := s.wn + 1, job := j } = outBits s ++ [b] := by
  have hv : (s.wn + 1).val = s.wn.val + 1 := by
    have : s.wn.val ≠ 7 := fun e => h (Fin.ext e)
    have : s.wn.val < 8 := s.wn.isLt
    rw [Fin.val_add_one_of_lt' (by omega)]
  simp only [outBits, hv, byteBits_take_setBit, List.append_assoc]

/-- A written bit that fills the byte, pushed. -/
theorem outBits_pushed {s : State} (b : Bool) (j : Option Job) (h : s.wn = 7) :
    outBits { s with outq := s.outq ++ [setBit s.wbuf (7 - s.wn.val) b], wbuf := 0, wn := 0, job := j } = outBits s ++ [b] := by
  have hb := byteBits_take_setBit s.wbuf s.wn b
  have h7 : s.wn.val + 1 = (byteBits (setBit s.wbuf (7 - s.wn.val) b)).length := by rw [h]; rfl
  rw [h7, List.take_length] at hb
  simp only [outBits, List.flatMap_append, List.flatMap_cons, List.flatMap_nil, List.append_nil, hb, Fin.val_zero,
    List.take_zero, List.append_assoc]

/-- A refill moves the oldest byte from INQ to RBUF: the stream is the same. -/
theorem inBits_refill {s : State} {b : Byte} {q : List Byte} (hr : s.rcur = none) (hq : s.inq = b :: q) :
    inBits { s with rbuf := b, rcur := some 7, inq := q } = inBits s := by
  simp [inBits, unreadBits, hr, hq, byteBits]

/-- A bit taken from RBUF is the stream's first. -/
theorem inBits_read {s : State} {c : Fin 8} (hr : s.rcur = some c) :
    inBits s = s.rbuf.getLsbD c.val :: inBits { s with rcur := if c = 0 then none else some (c - 1) } := by
  have hs : unreadBits { s with rcur := if c = 0 then none else some (c - 1) } = c.val := by
    unfold unreadBits
    split
    · rename_i h; split at h <;> simp_all
    · rename_i c' h
      split at h
      · cases h
      · rename_i h0
        cases h
        have : c.val ≠ 0 := fun e => h0 (Fin.ext e)
        omega
  unfold inBits
  rw [hs]
  simp only [unreadBits, hr, msbBits_cursor, List.cons_append]

/-- The stream is empty exactly when there is no unread bit and no byte. -/
theorem inBits_length (s : State) : (inBits s).length = unreadBits s + 8 * s.inq.length := by
  simp only [inBits, List.length_append, msbBits_length, flatMap_byteBits_length]

theorem outBits_length (s : State) : (outBits s).length = 8 * s.outq.length + s.wn.val := by
  have : s.wn.val < 8 := s.wn.isLt
  simp only [outBits, List.length_append, List.length_take, byteBits_length, flatMap_byteBits_length]
  omega

end Sys2Proof.Machine
end

