-- ==== Sys2Proof/Laws/Tables.lean ====
section
/-! SUPPORT. The tables: reading after writing, and that every operation keeps the canonical form. -/

namespace Sys2Proof.Machine

variable {α : Type}

@[simp] theorem find_nil (k : Nat) : Table.find ([] : Table α) k = none := rfl

theorem find_cons (k' : Nat) (v : α) (t : Table α) (k : Nat) :
    Table.find ((k', v) :: t) k = if k = k' then some v else Table.find t k := rfl

theorem find_insert_self (t : Table α) (k : Nat) (v : α) : Table.find (Table.insert t k v) k = some v := by
  induction t with
  | nil => simp [Table.insert, find_cons]
  | cons e t ih =>
    obtain ⟨k', v'⟩ := e
    unfold Table.insert
    split
    · simp [find_cons]
    · split
      · simp [find_cons]
      · rename_i h; simp [find_cons, h, ih]

theorem find_insert_other (t : Table α) {k j : Nat} (v : α) (h : j ≠ k) :
    Table.find (Table.insert t k v) j = Table.find t j := by
  induction t with
  | nil => simp [Table.insert, find_cons, h]
  | cons e t ih =>
    obtain ⟨k', v'⟩ := e
    unfold Table.insert
    split
    · simp [find_cons, h]
    · split
      · rename_i he; subst he; simp [find_cons, h]
      · simp [find_cons, ih]

/-- The keys of a rising table are above a bound its first key is above. -/
theorem rising_tail {e : Nat × α} {t : Table α} (h : Table.rising (e :: t) = true) : Table.rising t = true := by
  cases t with
  | nil => rfl
  | cons e' t => obtain ⟨k, v⟩ := e; obtain ⟨k', v'⟩ := e'; simp [Table.rising] at h; exact h.2

theorem rising_cons_iff {k : Nat} {v : α} {t : Table α} :
    Table.rising ((k, v) :: t) = true ↔ (∀ e ∈ t, k < e.1) ∧ Table.rising t = true := by
  induction t generalizing k v with
  | nil => simp [Table.rising]
  | cons e t ih =>
    obtain ⟨k', v'⟩ := e
    constructor
    · intro h
      have ht := rising_tail h
      simp only [Table.rising, Bool.and_eq_true, decide_eq_true_eq] at h
      refine ⟨?_, ht⟩
      intro e he
      rcases List.mem_cons.mp he with rfl | he
      · exact h.1
      · exact Nat.lt_trans h.1 ((ih.mp ht).1 e he)
    · rintro ⟨h, ht⟩
      simp only [Table.rising, Bool.and_eq_true, decide_eq_true_eq]
      exact ⟨h (k', v') (List.mem_cons_self ..), ht⟩

theorem find_none_of_above {t : Table α} {k : Nat} (h : ∀ e ∈ t, k < e.1) : Table.find t k = none := by
  induction t with
  | nil => rfl
  | cons e t ih =>
    obtain ⟨k', v⟩ := e
    have hk : k < k' := h (k', v) (List.mem_cons_self ..)
    rw [find_cons, if_neg (Nat.ne_of_lt hk)]
    exact ih fun e he => h e (List.mem_cons_of_mem _ he)

/-- In a rising table the listed entry of a key is the pair that stands in the list. -/
theorem find_eq_some_iff_mem {t : Table α} (h : Table.rising t = true) {k : Nat} {v : α} :
    Table.find t k = some v ↔ (k, v) ∈ t := by
  induction t with
  | nil => simp
  | cons e t ih =>
    obtain ⟨k', v'⟩ := e
    have ⟨ha, ht⟩ := rising_cons_iff.mp h
    rw [find_cons]
    split
    · rename_i he
      subst he
      constructor
      · intro hv; cases hv; exact List.mem_cons_self ..
      · intro hm
        rcases List.mem_cons.mp hm with hm | hm
        · cases hm; rfl
        · exact absurd (ha _ hm) (Nat.lt_irrefl _)
    · rename_i he
      rw [ih ht]
      constructor
      · exact List.mem_cons_of_mem _
      · intro hm
        rcases List.mem_cons.mp hm with hm | hm
        · cases hm; exact absurd rfl he
        · exact hm

theorem mem_insert {t : Table α} {k : Nat} {v : α} {e : Nat × α} (h : e ∈ Table.insert t k v) : e = (k, v) ∨ e ∈ t := by
  induction t with
  | nil => simpa [Table.insert] using h
  | cons e' t ih =>
    obtain ⟨k', v'⟩ := e'
    unfold Table.insert at h
    split at h
    · simpa using h
    · split at h
      · rcases List.mem_cons.mp h with h | h
        · exact .inl h
        · exact .inr (List.mem_cons_of_mem _ h)
      · rcases List.mem_cons.mp h with h | h
        · exact .inr (by simp [h])
        · exact (ih h).imp_right (List.mem_cons_of_mem _)

theorem mem_erase {t : Table α} {k : Nat} {e : Nat × α} (h : e ∈ Table.erase t k) : e ∈ t := by
  induction t with
  | nil => simp [Table.erase] at h
  | cons e' t ih =>
    obtain ⟨k', v'⟩ := e'
    unfold Table.erase at h
    split at h
    · exact List.mem_cons_of_mem _ h
    · rcases List.mem_cons.mp h with h | h
      · simp [h]
      · exact List.mem_cons_of_mem _ (ih h)

theorem rising_insert {t : Table α} (h : Table.rising t = true) (k : Nat) (v : α) :
    Table.rising (Table.insert t k v) = true := by
  induction t with
  | nil => rfl
  | cons e t ih =>
    obtain ⟨k', v'⟩ := e
    have ⟨ha, ht⟩ := rising_cons_iff.mp h
    unfold Table.insert
    split
    · rename_i hk
      refine rising_cons_iff.mpr ⟨?_, h⟩
      intro e he
      rcases List.mem_cons.mp he with rfl | he
      · exact hk
      · exact Nat.lt_trans hk (ha e he)
    · split
      · rename_i hk; subst hk; exact rising_cons_iff.mpr ⟨ha, ht⟩
      · rename_i h1 h2
        refine rising_cons_iff.mpr ⟨?_, ih ht⟩
        intro e he
        rcases mem_insert he with rfl | he
        · simp only; omega
        · exact ha e he

theorem rising_erase {t : Table α} (h : Table.rising t = true) (k : Nat) : Table.rising (Table.erase t k) = true := by
  induction t with
  | nil => rfl
  | cons e t ih =>
    obtain ⟨k', v'⟩ := e
    have ⟨ha, ht⟩ := rising_cons_iff.mp h
    unfold Table.erase
    split
    · exact ht
    · exact rising_cons_iff.mpr ⟨fun e he => ha e (mem_erase he), ih ht⟩

theorem find_erase_self {t : Table α} (h : Table.rising t = true) (k : Nat) : Table.find (Table.erase t k) k = none := by
  induction t with
  | nil => rfl
  | cons e t ih =>
    obtain ⟨k', v'⟩ := e
    have ⟨ha, ht⟩ := rising_cons_iff.mp h
    unfold Table.erase
    split
    · rename_i hk; subst hk; exact find_none_of_above ha
    · rename_i hk; rw [find_cons, if_neg hk, ih ht]

theorem find_erase_other (t : Table α) {k j : Nat} (h : j ≠ k) : Table.find (Table.erase t k) j = Table.find t j := by
  induction t with
  | nil => rfl
  | cons e t ih =>
    obtain ⟨k', v'⟩ := e
    unfold Table.erase
    split
    · rename_i hk; subst hk; rw [find_cons, if_neg h]
    · simp [find_cons, ih]

theorem below_iff {t : Table α} {n : Nat} : Table.below t n = true ↔ ∀ e ∈ t, e.1 < n := by
  simp [Table.below]

theorem below_insert {t : Table α} {n k : Nat} (v : α) (h : Table.below t n = true) (hk : k < n) :
    Table.below (Table.insert t k v) n = true :=
  below_iff.mpr fun e he => by
    rcases mem_insert he with rfl | he
    · exact hk
    · exact below_iff.mp h e he

theorem below_erase {t : Table α} {n : Nat} (k : Nat) (h : Table.below t n = true) :
    Table.below (Table.erase t k) n = true :=
  below_iff.mpr fun e he => below_iff.mp h e (mem_erase he)

/-- What the canonical form of FREQ says. -/
theorem freqWf_iff {w : Width} {f : Table Word} :
    freqWf w f = true ↔ Table.rising f = true ∧ (∀ e ∈ f, e.1 < w.alphabet) ∧ ∀ e ∈ f, e.2 ≠ 0 := by
  simp only [freqWf, Bool.and_eq_true, below_iff, List.all_eq_true, decide_eq_true_eq, and_assoc]
  exact Iff.rfl

theorem leafWf_iff {w : Width} {l : Table Nat} :
    leafWf w l = true ↔ Table.rising l = true ∧ ∀ e ∈ l, e.1 < w.alphabet := by
  simp only [leafWf, Bool.and_eq_true, below_iff]

/-- SETF keeps the canonical form. -/
theorem freqWf_setFreq {w : Width} {f : Table Word} (h : freqWf w f = true) {x : Symbol} (hx : x.toNat < w.alphabet)
    (c : Word) : freqWf w (setFreq f x c) = true := by
  obtain ⟨hr, hb, hn⟩ := freqWf_iff.mp h
  unfold setFreq
  split
  · exact freqWf_iff.mpr ⟨rising_erase hr _, fun e he => hb e (mem_erase he), fun e he => hn e (mem_erase he)⟩
  · rename_i hc
    refine freqWf_iff.mpr ⟨rising_insert hr _ _, fun e he => ?_, fun e he => ?_⟩
    · rcases mem_insert he with rfl | he
      · exact hx
      · exact hb e he
    · rcases mem_insert he with rfl | he
      · exact hc
      · exact hn e he

/-- BUILD's and RECON's LEAF writes keep the canonical form. -/
theorem leafWf_insert {w : Width} {l : Table Nat} (h : leafWf w l = true) {k : Nat} (hk : k < w.alphabet) (i : Nat) :
    leafWf w (Table.insert l k i) = true := by
  obtain ⟨hr, hb⟩ := leafWf_iff.mp h
  refine leafWf_iff.mpr ⟨rising_insert hr _ _, fun e he => ?_⟩
  rcases mem_insert he with rfl | he
  · exact hk
  · exact hb e he

theorem getFreq_setFreq_same {w : Width} {f : Table Word} (h : freqWf w f = true) (x : Symbol) (c : Word) :
    getFreq (setFreq f x c) x = c := by
  unfold getFreq setFreq
  split
  · rename_i hc; rw [find_erase_self (freqWf_iff.mp h).1]; simp [hc]
  · rw [find_insert_self]; rfl

theorem getFreq_setFreq_other (f : Table Word) {x y : Symbol} (h : y ≠ x) (c : Word) :
    getFreq (setFreq f x c) y = getFreq f y := by
  have hk : y.toNat ≠ x.toNat := fun he => h (BitVec.eq_of_toNat_eq he)
  unfold getFreq setFreq
  split
  · rw [find_erase_other _ hk]
  · rw [find_insert_other _ _ hk]

@[simp] theorem getFreq_nil (x : Symbol) : getFreq [] x = 0 := rfl

/-- An entry of a canonical table is not 0 exactly when the table lists it. -/
theorem getFreq_ne_zero_iff {w : Width} {f : Table Word} (h : freqWf w f = true) (x : Symbol) :
    getFreq f x ≠ 0 ↔ ∃ c, (x.toNat, c) ∈ f := by
  obtain ⟨hr, _, hn⟩ := freqWf_iff.mp h
  unfold getFreq
  cases hf : Table.find f x.toNat with
  | none =>
    simp only [Option.getD_none, freqDefault, ne_eq, not_true_eq_false, false_iff]
    rintro ⟨c, hc⟩
    rw [(find_eq_some_iff_mem hr).mpr hc] at hf
    cases hf
  | some c =>
    have hm := (find_eq_some_iff_mem hr).mp hf
    exact ⟨fun _ => ⟨c, hm⟩, fun _ => hn _ hm⟩

/-- Reset's tables are in canonical form. -/
theorem memory_wf_resetWith (p : Params) : Memory.wf (State.resetWith p) = true := rfl

end Sys2Proof.Machine
end

