-- ==== Sys2Proof/Laws/TreeOps.lean ====
section
/-! SUPPORT. The arena operations: what each reads and leaves alone, and that every operation on the tables and the tree
keeps the canonical form. -/

namespace Sys2Proof.Machine

/-! ## Allocation -/

@[simp] theorem nfree_cleared : Tree.cleared.nfree = 0 := rfl

@[simp] theorem newNode_nfree (c : Count) (x : Symbol) (t : Tree) : (newNode c x t).nfree = t.nfree + 1 := by
  simp [newNode, Tree.nfree]

@[simp] theorem newNode_root (c : Count) (x : Symbol) (t : Tree) : (newNode c x t).root = t.root := rfl

@[simp] theorem newNode_leaf (c : Count) (x : Symbol) (t : Tree) : (newNode c x t).leaf = t.leaf := rfl

@[simp] theorem newNode_nleaves (c : Count) (x : Symbol) (t : Tree) : (newNode c x t).nleaves = t.nleaves := rfl

/-- The new node stands at NFREE. -/
@[simp] theorem nodeAt_newNode_new (c : Count) (x : Symbol) (t : Tree) : nodeAt (newNode c x t) t.nfree =
    some { count := c, sym := x, zero := none, one := none, parent := none, isz := false } := by
  simp [nodeAt, newNode, Tree.nfree]

/-- Every other node is what it was. -/
theorem nodeAt_newNode_old (c : Count) (x : Symbol) (t : Tree) {i : Nat} (h : i ≠ t.nfree) :
    nodeAt (newNode c x t) i = nodeAt t i := by
  simp only [nodeAt, newNode, Tree.nfree] at *
  rcases Nat.lt_or_gt_of_ne h with h | h
  · exact List.getElem?_append_left h
  · rw [List.getElem?_eq_none (by simp; omega), List.getElem?_eq_none (by omega)]

theorem nodeAt_lt_nfree {t : Tree} {i : Nat} {n : Node} (h : nodeAt t i = some n) : i < t.nfree :=
  (List.getElem?_eq_some_iff.mp h).1

theorem nodeAt_of_lt {t : Tree} {i : Nat} (h : i < t.nfree) : ∃ n, nodeAt t i = some n :=
  ⟨_, List.getElem?_eq_getElem h⟩

/-! ## Changing a node -/

@[simp] theorem setNode_length (ns : List Node) (i : Nat) (f : Node → Node) : (setNode ns i f).length = ns.length := by
  unfold setNode; split <;> simp

@[simp] theorem setNode_getElem?_self (ns : List Node) (i : Nat) (f : Node → Node) : (setNode ns i f)[i]? = ns[i]?.map f := by
  unfold setNode
  split
  · rename_i n hn
    obtain ⟨hlt, rfl⟩ := List.getElem?_eq_some_iff.mp hn
    simp [hlt]
  · rename_i hn; simp [hn]

theorem setNode_getElem?_other (ns : List Node) {i j : Nat} (f : Node → Node) (h : j ≠ i) : (setNode ns i f)[j]? = ns[j]? := by
  unfold setNode
  split
  · exact List.getElem?_set_ne (Ne.symm h)
  · rfl

/-! ## LEAF -/

@[simp] theorem listLeaf_nodes (x : Symbol) (i : Nat) (t : Tree) : (listLeaf x i t).nodes = t.nodes := rfl

@[simp] theorem listLeaf_root (x : Symbol) (i : Nat) (t : Tree) : (listLeaf x i t).root = t.root := rfl

@[simp] theorem listLeaf_nleaves (x : Symbol) (i : Nat) (t : Tree) : (listLeaf x i t).nleaves = t.nleaves + 1 := rfl

@[simp] theorem nodeAt_listLeaf (x : Symbol) (i j : Nat) (t : Tree) : nodeAt (listLeaf x i t) j = nodeAt t j := rfl

@[simp] theorem leafAt_listLeaf_self (x : Symbol) (i : Nat) (t : Tree) : (listLeaf x i t).leafAt x = some i :=
  find_insert_self ..

theorem leafAt_listLeaf_other {x y : Symbol} (h : y ≠ x) (i : Nat) (t : Tree) : (listLeaf x i t).leafAt y = t.leafAt y :=
  find_insert_other _ _ fun e => h (BitVec.eq_of_toNat_eq e)

/-! ## Attach and joinNodes -/

/-- Attach answers unless the parent is absent; it changes NODE[p]'s slot and NODE[n]'s parent and nothing else. -/
theorem attach_some {p n : Nat} {t u : Tree} (h : attach p n t = some u) :
    (∃ a, nodeAt t p = some a ∧
      (n ≠ p → nodeAt u p = some (if a.zero = none then { a with zero := some n } else { a with one := some n })) ∧
      (n ≠ p → nodeAt u n = (nodeAt t n).map fun m => { m with parent := some p, isz := decide (a.zero = none) })) ∧
    (∀ i, i ≠ p → i ≠ n → nodeAt u i = nodeAt t i) ∧
    u.root = t.root ∧ u.leaf = t.leaf ∧ u.nleaves = t.nleaves ∧ u.nfree = t.nfree := by
  unfold attach at h
  split at h
  · cases h
  · rename_i a ha
    cases h
    refine ⟨⟨a, ha, fun hnp => ?_, fun hnp => ?_⟩, fun i hip hin => ?_, rfl, rfl, rfl, by simp [Tree.nfree]⟩
    · have hp : t.nodes[p]? = some a := ha
      simp only [nodeAt, setNode_getElem?_self, setNode_getElem?_other _ _ (Ne.symm hnp), hp, Option.map_some]
      cases a.zero <;> rfl
    · simp only [nodeAt, setNode_getElem?_other _ _ hnp, setNode_getElem?_self]
    · simp only [nodeAt, setNode_getElem?_other _ _ hip, setNode_getElem?_other _ _ hin]

theorem attach_answers {p n : Nat} {t : Tree} (h : p < t.nfree) : ∃ u, attach p n t = some u := by
  obtain ⟨a, ha⟩ := nodeAt_of_lt h
  exact ⟨_, by unfold attach; rw [ha]⟩

@[simp] theorem joinNodes_leaf (x y : Nat) (t : Tree) : (joinNodes x y t).leaf = t.leaf := by
  unfold joinNodes; split <;> rfl

@[simp] theorem joinNodes_root (x y : Nat) (t : Tree) : (joinNodes x y t).root = t.root := by
  unfold joinNodes; split <;> rfl

@[simp] theorem joinNodes_nleaves (x y : Nat) (t : Tree) : (joinNodes x y t).nleaves = t.nleaves := by
  unfold joinNodes; split <;> rfl

/-- The merge of two present nodes: the new parent at NFREE, the two children under it, the rest unchanged. -/
theorem joinNodes_nodes {x y : Nat} {t : Tree} {a b : Node} (hx : nodeAt t x = some a) (hy : nodeAt t y = some b)
    (hxy : x ≠ y) :
    (joinNodes x y t).nfree = t.nfree + 1 ∧
    nodeAt (joinNodes x y t) t.nfree = some { count := a.count + b.count, sym := b.sym, zero := some x, one := some y,
                                              parent := none, isz := false } ∧
    nodeAt (joinNodes x y t) x = some { a with parent := some t.nfree, isz := true } ∧
    nodeAt (joinNodes x y t) y = some { b with parent := some t.nfree, isz := false } ∧
    ∀ i, i ≠ x → i ≠ y → i ≠ t.nfree → nodeAt (joinNodes x y t) i = nodeAt t i := by
  have hxn : x ≠ t.nfree := Nat.ne_of_lt (nodeAt_lt_nfree hx)
  have hyn : y ≠ t.nfree := Nat.ne_of_lt (nodeAt_lt_nfree hy)
  have hnew := nodeAt_newNode_new (a.count + b.count) b.sym t
  have hold := fun i => nodeAt_newNode_old (a.count + b.count) b.sym t (i := i)
  simp only [nodeAt] at hnew hold
  have hx' := (hold x hxn).trans hx
  have hy' := (hold y hyn).trans hy
  refine ⟨?_, ?_, ?_, ?_, fun i hix hiy hin => ?_⟩ <;> simp only [joinNodes, hx, hy]
  · simp [Tree.nfree, newNode]
  · simp only [nodeAt, setNode_getElem?_other _ _ (Ne.symm hyn), setNode_getElem?_other _ _ (Ne.symm hxn),
      setNode_getElem?_self, hnew, Option.map_some]
  · simp only [nodeAt, setNode_getElem?_other _ _ hxy, setNode_getElem?_self, setNode_getElem?_other _ _ hxn, hx',
      Option.map_some]
  · simp only [nodeAt, setNode_getElem?_self, setNode_getElem?_other _ _ (Ne.symm hxy), setNode_getElem?_other _ _ hyn, hy',
      Option.map_some]
  · simp only [nodeAt, setNode_getElem?_other _ _ hiy, setNode_getElem?_other _ _ hix, setNode_getElem?_other _ _ hin]
    exact hold i hin

/-! ## The canonical form -/

@[simp] theorem mergeQueue_leaf (k : Nat) (t : Tree) (q : List Nat) : (mergeQueue k t q).leaf = t.leaf := by
  induction k generalizing t q with
  | zero => rfl
  | succ k ih =>
    unfold mergeQueue
    split
    · rfl
    · split
      · rfl
      · rw [ih, joinNodes_leaf]

theorem leafWf_addLeaf {w : Width} {tq : Tree × List Nat} {e : Nat × Word} (h : leafWf w tq.1.leaf = true)
    (he : e.1 < w.alphabet) : leafWf w (addLeaf tq e).1.leaf = true := by
  unfold addLeaf
  split
  · exact h
  · refine leafWf_insert h ?_ _
    exact Nat.lt_of_le_of_lt (by simpa using Nat.mod_le _ _) he

/-- BUILD keeps the tables canonical. -/
theorem leafWf_buildTree {w : Width} {f : Table Word} (h : freqWf w f = true) : leafWf w (buildTree f).leaf = true := by
  have hb := (freqWf_iff.mp h).2.1
  have : ∀ (f : Table Word) (tq : Tree × List Nat), leafWf w tq.1.leaf = true → (∀ e ∈ f, e.1 < w.alphabet) →
      leafWf w (f.foldl addLeaf tq).1.leaf = true := by
    intro f
    induction f with
    | nil => intro tq h _; exact h
    | cons e f ih =>
      intro tq h hf
      exact ih _ (leafWf_addLeaf h (hf e (by simp))) fun e' he' => hf e' (by simp [he'])
  simpa [buildTree] using this f _ (by rfl) hb

theorem memory_wf_iff {s : State} : Memory.wf s = true ↔
    freqWf s.params.width s.freq = true ∧ leafWf s.params.width s.tree.leaf = true := by
  simp [Memory.wf]

theorem memory_wf_clrf {s : State} (h : Memory.wf s = true) : Memory.wf { s with freq := [] } = true :=
  memory_wf_iff.mpr ⟨rfl, (memory_wf_iff.mp h).2⟩

theorem memory_wf_setf {s : State} (h : Memory.wf s = true) {x : Symbol} (hx : x.toNat < s.params.width.alphabet)
    (c : Word) : Memory.wf { s with freq := setFreq s.freq x c } = true :=
  memory_wf_iff.mpr ⟨freqWf_setFreq (memory_wf_iff.mp h).1 hx c, (memory_wf_iff.mp h).2⟩

theorem memory_wf_build {s : State} (h : Memory.wf s = true) : Memory.wf { s with tree := buildTree s.freq } = true :=
  memory_wf_iff.mpr ⟨(memory_wf_iff.mp h).1, leafWf_buildTree (memory_wf_iff.mp h).1⟩

theorem memory_wf_clearTree {s : State} (h : Memory.wf s = true) : Memory.wf (clearTree s) = true :=
  memory_wf_iff.mpr ⟨(memory_wf_iff.mp h).1, rfl⟩

/-- RECON's own update: a leaf of a symbol below N is listed. -/
theorem memory_wf_listLeaf {s : State} (h : Memory.wf s = true) {x : Symbol} (hx : x.toNat < s.params.width.alphabet)
    (i : Nat) {t : Tree} (ht : t.leaf = s.tree.leaf) : Memory.wf { s with tree := listLeaf x i t } = true :=
  memory_wf_iff.mpr ⟨(memory_wf_iff.mp h).1, leafWf_insert (ht ▸ (memory_wf_iff.mp h).2) hx i⟩

@[simp] theorem memory_wf_finish (s : State) : Memory.wf (finish s) = Memory.wf s := by
  unfold finish; split <;> rfl

@[simp] theorem memory_wf_takeError (e : ErrorCode) (i : Word) (c : Command) (s : State) :
    Memory.wf (takeError e i c s) = Memory.wf s := rfl

end Sys2Proof.Machine
end

