-- ==== Sys2Proof/Laws/Turns.lean ====
section
/-! SUPPORT. One step: what each kind of turn answers, the host's register accesses by offset, and how a command's meaning
starts. -/

namespace Sys2Proof.Machine

/-! ## Turns -/

theorem step_of_agenda_nil {s : State} (h : s.agenda = []) : step s = runTurn s := by simp [step, takeTurn, h]

theorem step_of_host {s : State} {op : HostOp} {rest : List Turn} (h : s.agenda = .host op :: rest) :
    step s = hostTurn op { s with agenda := rest } := by simp [step, takeTurn, h]

theorem step_of_core {s : State} {rest : List Turn} (h : s.agenda = .core :: rest) :
    step s = coreTurn { s with agenda := rest } := by simp [step, takeTurn, h]

theorem step_of_run {s : State} {rest : List Turn} (h : s.agenda = .run :: rest) :
    step s = runTurn { s with agenda := rest } := by simp [step, takeTurn, h]

theorem runTurn_not_busy {s : State} (h : s.mode ≠ .busy) : runTurn s = .next s := by simp [runTurn, h]

theorem coreTurn_not_busy {s : State} (h : s.mode ≠ .busy) : coreTurn s = .next s := by simp [coreTurn, h]

theorem runTurn_begun {s : State} {j : Job} (h : s.mode = .busy) (hj : s.job = some j) : runTurn s = runJob s := by
  simp [runTurn, h, hj]

theorem runTurn_issued {s : State} {i : Instr} (h : s.mode = .busy) (hj : s.job = none) (hd : decode s.cmd = .ok i) :
    runTurn s = exec i s := by simp [runTurn, h, hj, hd]

theorem runTurn_illegal {s : State} {e : DecodeError} (h : s.mode = .busy) (hj : s.job = none)
    (hd : decode s.cmd = .error e) : runTurn s = .next (raiseDecode e s) := by simp [runTurn, h, hj, hd]

theorem coreTurn_begun {s : State} {j : Job} (h : s.mode = .busy) (hj : s.job = some j) :
    coreTurn s = match advance j s with | .moved t => .next t | .waiting => .next s | .broken f => .fault f := by
  cases ha : advance j s <;> simp [coreTurn, h, microStep, hj, ha]

theorem raiseDecode_eq (e : DecodeError) (s : State) : ∃ code info, raiseDecode e s = takeError code info s.cmd s := by
  cases e <;> exact ⟨_, _, rfl⟩

/-- Every command's meaning is its first micro-step and then the run to its end or hold. -/
theorem exec_eq_runFrom (i : Instr) (s : State) : exec i s = runFrom (startInstr i s) s := by cases i <;> rfl

/-- The first micro-step never holds. -/
theorem startInstr_ne_waiting (i : Instr) (s : State) : startInstr i s ≠ .waiting := by
  cases i <;> simp only [startInstr, startWbits, startFlush, startRbits, startRrst, startClrf, startSetf, startGetf,
    startBuild, startClrt, startNleaf, startEnc, startDec, startSer, startRecon, checkRange, encBody, reconBody] <;>
    (repeat' split) <;> simp

/-! ## Host accesses -/

/-- An aligned 32-bit access inside the window reaches the register at its offset. -/
theorem accessed_offset (p : Params) (off : Nat) : accessed p (p.base + off) .bits32 = regAt off := by
  simp [accessed]

theorem hostTurn_write {s : State} {off : Nat} {r : Reg} (h : regAt off = some r) (v : Word) :
    hostTurn (.write (s.params.base + off) .bits32 v) s = .next (writeReg r v s) := by
  simp [hostTurn, accessed_offset, h]

theorem hostTurn_read {s : State} {off : Nat} {r : Reg} (h : regAt off = some r) :
    hostTurn (.read (s.params.base + off) .bits32) s = .next { readEffect r s with seen := s.seen ++ [readValue r s] } := by
  simp [hostTurn, accessed_offset, h]

/-- A read changes OUTQ by OUT_DATA's pop, the draws by STATUS, and nothing else. -/
theorem readEffect_eq (r : Reg) (s : State) :
    readEffect r s = { s with outq := if r = .outData then s.outq.tail else s.outq,
                              draws := if r = .status then s.draws + 1 else s.draws } := by
  cases r <;> rfl

/-- A push is taken, or discarded with an INPUT_PROTOCOL error. -/
theorem pushByte_cases (b : Byte) (s : State) :
    (s.inq.length < s.params.inDepth ∧ s.inClosed = false ∧ pushByte b s = { s with inq := s.inq ++ [b] }) ∨
    ((s.params.inDepth ≤ s.inq.length ∨ s.inClosed = true) ∧
      ∃ i, pushByte b s = hostProtocolError .inputProtocol i (commandInProgress s) { s with draws := s.draws + 1 }) := by
  unfold pushByte
  split
  · rename_i h; exact .inl ⟨h.1, h.2, rfl⟩
  · rename_i h
    refine .inr ⟨?_, _, rfl⟩
    cases hc : s.inClosed
    · exact .inl (Nat.le_of_not_lt fun hl => h ⟨hl, hc⟩)
    · exact .inr rfl

/-- The three answers to a CMD_HI write. -/
theorem writeCmdHi_cases (v : Word) (s : State) :
    (s.mode = .idle ∧ writeCmdHi v s = { s with cmdHi := v, mode := .busy, cmd := joinWords v s.cmdLo, job := none }) ∨
    (s.mode = .busy ∧ writeCmdHi v s = hostProtocolError .cmdOverrun 0 (joinWords v s.cmdLo) { s with cmdHi := v }) ∨
    (s.mode = .halted ∧ writeCmdHi v s = { s with cmdHi := v }) := by
  cases h : s.mode <;> simp [writeCmdHi, h]

end Sys2Proof.Machine
end

