-- ==== Sys2Proof/Laws/Container.lean ====
section
/-! SUPPORT. The host's procedures: what each host transaction does as a turn, the host's count, and packing bits. -/

namespace Sys2Proof.Machine

/-! ## Turns -/

/-- A turn taken now leaves the agenda behind it as it was. -/
theorem turnNow_host (op : HostOp) (s : State) : turnNow (.host op) s =
    match hostTurn op s with | .next t => some t | .fault _ => none | .refused _ => none := rfl

theorem turnNow_run (s : State) : turnNow .run s =
    match runTurn s with | .next t => some t | .fault _ => none | .refused _ => none := rfl

theorem hostWrite_eq {off : Nat} {r : Reg} (h : regAt off = some r) (v : Word) (s : State) :
    hostWrite off v s = some (writeReg r v s) := by
  rw [hostWrite, turnNow_host, hostTurn_write h]

theorem hostRead_eq {off : Nat} {r : Reg} (h : regAt off = some r) (s : State) :
    hostRead off s = some (readValue r s, { readEffect r s with seen := s.seen ++ [readValue r s] }) := by
  simp [hostRead, turnNow_host, hostTurn_read h]

/-- Issuing to an idle core: the word is in progress and not yet checked. -/
theorem issueCommand_idle {s : State} (h : s.mode = .idle) (i : Instr) : issueCommand i s =
    some { s with cmdLo := lowWord (encode i), cmdHi := highWord (encode i), mode := .busy, cmd := encode i, job := none } := by
  have hi : (issueCommand i s) =
      (hostWrite 0x00 (lowWord (encode i)) s).bind (hostWrite 0x04 (highWord (encode i))) := rfl
  rw [hi, hostWrite_eq (off := 0x00) (r := .cmdLo) rfl, Option.bind_some, hostWrite_eq (off := 0x04) (r := .cmdHi) rfl]
  simp [writeReg, writeCmdHi, h]

/-- Popping as many bytes as there are empties OUTQ and gives its bytes. -/
theorem popBytes_all (q : List Byte) : ∀ s : State, s.outq = q →
    ∃ seen, popBytes q.length s = some (q, { s with outq := [], seen := seen }) := by
  induction q with
  | nil =>
    intro s h
    exact ⟨s.seen, by rw [show { s with outq := [], seen := s.seen } = s by rw [← h]]; rfl⟩
  | cons b q ih =>
    intro s h
    have hv : (0x100#32 ||| b.setWidth 32).getLsbD 8 = true := by
      simp
    have hb : (0x100#32 ||| b.setWidth 32).setWidth 8 = b := by
      ext i hi; simp
    obtain ⟨seen, e⟩ := ih { s with outq := q, seen := s.seen ++ [0x100#32 ||| b.setWidth 32] } rfl
    have hr : hostRead 0x30 s = some (0x100#32 ||| b.setWidth 32,
        { s with outq := q, seen := s.seen ++ [0x100#32 ||| b.setWidth 32] }) := by
      rw [hostRead_eq (off := 0x30) (r := .outData) rfl]; simp [readValue, readEffect, h]
    exact ⟨seen, by simp only [List.length_cons, popBytes, hr, Option.bind_some, hv, if_true, e, hb, Option.map_some]⟩

/-- Pushing into an open input: the bytes there is room for, in order, and H_CLOSE when those are all. -/
theorem feedBytes_open (c : List Byte) : ∀ s : State, s.inClosed = false →
    feedBytes c s = some (c.drop (s.params.inDepth - s.inq.length),
      { s with inq := s.inq ++ c.take (s.params.inDepth - s.inq.length),
               inClosed := decide (c.length ≤ s.params.inDepth - s.inq.length) }) := by
  induction c with
  | nil =>
    intro s h
    simp only [feedBytes, h, Bool.false_eq_true, if_false]
    rw [hostWrite_eq (off := 0x2C) (r := .inCtrl) rfl]
    simp [writeReg]
  | cons b c ih =>
    intro s h
    by_cases hr : s.inq.length < s.params.inDepth
    · obtain ⟨k, hk⟩ := Nat.exists_eq_add_of_lt hr
      have h1 : s.params.inDepth - s.inq.length = k + 1 := by omega
      have h2 : s.params.inDepth - (s.inq ++ [b]).length = k := by simp; omega
      have hw : hostWrite 0x28 (b.setWidth 32) s = some { s with inq := s.inq ++ [b] } := by
        rw [hostWrite_eq (off := 0x28) (r := .inData) rfl]; simp [writeReg, pushByte, hr, h]
      simp only [feedBytes, hr, if_true, hw, Option.bind_some]
      rw [ih { s with inq := s.inq ++ [b] } h, h1]
      simp only [h2]
      simp
    · have h0 : s.params.inDepth - s.inq.length = 0 := by omega
      simp only [feedBytes, hr, if_false, h0, List.drop_zero, List.take_zero, List.append_nil, List.length_cons]
      rw [show decide (c.length + 1 ≤ 0) = s.inClosed by rw [h]; simp]

/-! ## The host's count -/

theorem freqWf_count {w : Width} {f : Table Word} (hf : freqWf w f = true) {xs : List Symbol}
    (h : ∀ x ∈ xs, x.toNat < w.alphabet) :
    freqWf w (xs.foldl (fun f x => setFreq f x (getFreq f x + 1)) f) = true := by
  induction xs generalizing f with
  | nil => exact hf
  | cons x xs ih =>
    exact ih (freqWf_setFreq hf (h x (by simp)) _) fun y hy => h y (by simp [hy])

/-- F is a table in canonical form. -/
theorem freqWf_countSymbols {w : Width} {xs : List Symbol} (h : ∀ x ∈ xs, x.toNat < w.alphabet) :
    freqWf w (countSymbols xs) = true := freqWf_count rfl h

theorem getFreq_count {w : Width} {f : Table Word} (hf : freqWf w f = true) {xs : List Symbol}
    (h : ∀ x ∈ xs, x.toNat < w.alphabet) (y : Symbol) :
    getFreq (xs.foldl (fun f x => setFreq f x (getFreq f x + 1)) f) y = getFreq f y + BitVec.ofNat 32 (xs.count y) := by
  induction xs generalizing f with
  | nil => simp
  | cons x xs ih =>
    rw [List.foldl_cons, ih (freqWf_setFreq hf (h x (by simp)) _) fun y hy => h y (by simp [hy])]
    by_cases hy : y = x
    · subst hy
      rw [getFreq_setFreq_same hf, List.count_cons_self, BitVec.ofNat_add, BitVec.add_assoc, BitVec.add_comm 1]; rfl
    · rw [getFreq_setFreq_other _ hy, List.count_cons_of_ne (Ne.symm hy)]

/-- F[y] is the number of occurrences of y, which a sequence of fewer than 2^32 symbols does not wrap. -/
theorem getFreq_countSymbols {w : Width} {xs : List Symbol} (h : ∀ x ∈ xs, x.toNat < w.alphabet) (y : Symbol) :
    getFreq (countSymbols xs) y = BitVec.ofNat 32 (xs.count y) := by
  have := getFreq_count (w := w) (f := []) rfl h y
  simpa [countSymbols] using this

/-! ## Packing -/

theorem byteBits_pack (a b c d e f g h : Bool) :
    byteBits (BitVec.ofNat 8 (bitsValue [a, b, c, d, e, f, g, h])) = [a, b, c, d, e, f, g, h] := by
  revert a b c d e f g h; decide +kernel

/-- Bits that fill whole bytes are what the bytes hold. -/
theorem flatMap_packBytes (bits : List Bool) (h : bits.length % 8 = 0) : (packBytes bits).flatMap byteBits = bits := by
  induction bits using packBytes.induct with
  | case1 a b c d e f g h' rest ih =>
    have : rest.length % 8 = 0 := by simp only [List.length_cons] at h; omega
    simp [packBytes, byteBits_pack, ih this]
  | case2 bits hb =>
    match bits, h, hb with
    | [], _, _ => rfl
    | a :: b :: c :: d :: e :: f :: g :: i :: rest, _, hb => exact (hb a b c d e f g i rest rfl).elim
    | [_], h, _ => simp at h
    | [_, _], h, _ => simp at h
    | [_, _, _], h, _ => simp at h
    | [_, _, _, _], h, _ => simp at h
    | [_, _, _, _, _], h, _ => simp at h
    | [_, _, _, _, _, _], h, _ => simp at h
    | [_, _, _, _, _, _, _], h, _ => simp at h

/-- PAD fills the last byte. -/
theorem padBits_fills (n : Nat) : (n + (padBits n).length) % 8 = 0 := by simp [padBits]; omega

end Sys2Proof.Machine
end

