-- ==== Sys2Proof/Laws/PerInstr.lean ====
section
/-! SUPPORT. Statements made once per command: the word an encoder writes has its reserved bits 0
(spec/30_encoding.md R106). -/

namespace Sys2Proof.Laws.ReservedZero

/-- RSV of a command's word is 0. -/
def Statement (i : Instr) : Prop := rsvField (encode i) = 0

/-- A word put together from its fields has RSV = 0. -/
theorem rsvField_commandWord (op : BitVec 4) (a : BitVec 16) (b : Word) : rsvField (commandWord op a b) = 0 := by
  apply BitVec.eq_of_getLsbD_eq
  intro i hi
  simp only [rsvField, commandWord, BitVec.getLsbD_extractLsb', BitVec.getLsbD_append, hi]
  have h1 : ¬ 48 + i < 32 := by omega
  have h2 : ¬ 48 + i - 32 < 16 := by omega
  have h3 : 48 + i - 32 - 16 < 12 := by omega
  simp [h1, h2, h3]

theorem wbits (n : BitVec 16) (v : Word) : Statement (.wbits n v) := rsvField_commandWord ..
theorem flush : Statement .flush := rsvField_commandWord ..
theorem rbits (n : BitVec 16) : Statement (.rbits n) := rsvField_commandWord ..
theorem rrst : Statement .rrst := rsvField_commandWord ..
theorem clrf : Statement .clrf := rsvField_commandWord ..
theorem setf (s : Symbol) (c : Word) : Statement (.setf s c) := rsvField_commandWord ..
theorem getf (s : Symbol) : Statement (.getf s) := rsvField_commandWord ..
theorem build : Statement .build := rsvField_commandWord ..
theorem clrt : Statement .clrt := rsvField_commandWord ..
theorem nleaf : Statement .nleaf := rsvField_commandWord ..
theorem enc (s : Symbol) : Statement (.enc s) := rsvField_commandWord ..
theorem dec : Statement .dec := rsvField_commandWord ..
theorem ser : Statement .ser := rsvField_commandWord ..
theorem recon (l : Word) : Statement (.recon l) := rsvField_commandWord ..

end Sys2Proof.Laws.ReservedZero
end

