-- ==== Sys2Proof/Tests/Slice0.lean ====
section
/-! SUPPORT. Tests of the model on values taken from spec/95_test_vectors.md and spec/30_encoding.md, and for each
statement a state and operands that meet its hypotheses (`witness_<statement>`). -/

namespace Sys2Proof.Tests

set_option Elab.async false

open Sys2Proof Sys2Proof.Machine

/-! ## Helpers -/

/-- A BUSY core from reset, its command issued. -/
def ready : State := { State.reset with mode := .busy, cmd := 0x2000000000000000 }

/-- A ready core with the bytes q in a closed input. -/
def fed (q : List Byte) : State := { ready with inq := q, inClosed := true }

/-- A W = 16 core. -/
def wide : State := { State.resetWith { defaultParams with width := .w16 } with mode := .busy }

/-- The next state of an outcome. -/
def nextOf (o : Host.Outcome State Fault Refusal) : Option State :=
  match o with
  | .next t => some t
  | .fault _ => none
  | .refused _ => none

/-- Why an outcome stops. -/
def stopOf (o : Host.Outcome State Fault Refusal) : Option (Fault ⊕ Refusal) :=
  match o with
  | .next _ => none
  | .fault f => some (.inl f)
  | .refused r => some (.inr r)

/-- The state after a command, if it answers one. -/
def after (i : Instr) (s : State) : Option State := nextOf (exec i s)

/-- The state after a step, if it answers one. -/
def stepped (s : State) : Option State := nextOf (step s)

/-- STATUS.HALTED, ERR, ERR_INFO and the erring command of a state. -/
def errorOf (s : State) : Bool × ErrorCode × Word × Command :=
  (isHalted s, s.err, s.errInfo, joinWords s.errCmdHi s.errCmdLo)

/-- The error a word from reset ends with. -/
def errorFrom (s : State) (w : Command) : Option (Bool × ErrorCode × Word × Command) :=
  (stepped (issueNext w s)).map errorOf

/-- The frequency table of V1. -/
def freqV1 : Table Word := [(0x61, 2), (0x62, 3), (0x63, 5)]

/-- The tree of V1: 'c' = "0", 'a' = "10", 'b' = "11". -/
def treeV1 : PTree := .node 4 (.leaf 2 0x63) (.node 3 (.leaf 0 0x61) (.leaf 1 0x62))

/-- A ready core that holds the tree of V1. -/
def coreV1 : State := { ready with freq := freqV1, tree := buildTree freqV1 }

/-- A ready core that holds the SINGLE tree of V2. -/
def coreV2 : State := { ready with freq := [(0x61, 10)], tree := buildTree [(0x61, 10)] }

/-- A ready core whose ROOT names no node. -/
def broken : State := { ready with tree := { Tree.cleared with root := some 0 } }

/-- Reset with one host turn and then nothing. -/
def hosted (op : HostOp) : State := { State.reset with agenda := [.host op] }

/-! ## Decoding, from the words of spec/30_encoding.md R114 written by R101 and R104: OP, RSV, A, B -/

theorem test_decode_wbits :
    decode (0b0001#4 ++ 0b000000000000#12 ++ 0b0000000000100000#16 ++ 0b00000000000000000000000000001010#32) =
      .ok (.wbits 32 10) := by decide +kernel

theorem test_decode_flush : decode (0b0010#4 ++ 0#12 ++ 0#16 ++ 0#32) = .ok .flush := by decide +kernel

theorem test_decode_rbits : decode (0b0011#4 ++ 0#12 ++ 0b0000000000001000#16 ++ 0#32) = .ok (.rbits 8) := by decide +kernel

theorem test_decode_rrst : decode (0b0100#4 ++ 0#12 ++ 0#16 ++ 0#32) = .ok .rrst := by decide +kernel

theorem test_decode_clrf : decode (0b0101#4 ++ 0#12 ++ 0#16 ++ 0#32) = .ok .clrf := by decide +kernel

theorem test_decode_setf :
    decode (0b0110#4 ++ 0#12 ++ 0b0000000001100001#16 ++ 0b00000000000000000000000000000010#32) = .ok (.setf 0x61 2) := by
  decide +kernel

theorem test_decode_getf : decode (0b0111#4 ++ 0#12 ++ 0b0000000001100010#16 ++ 0#32) = .ok (.getf 0x62) := by decide +kernel

theorem test_decode_build : decode (0b1000#4 ++ 0#12 ++ 0#16 ++ 0#32) = .ok .build := by decide +kernel

theorem test_decode_clrt : decode (0b1001#4 ++ 0#12 ++ 0#16 ++ 0#32) = .ok .clrt := by decide +kernel

theorem test_decode_nleaf : decode (0b1010#4 ++ 0#12 ++ 0#16 ++ 0#32) = .ok .nleaf := by decide +kernel

theorem test_decode_enc : decode (0b1011#4 ++ 0#12 ++ 0b0000000001100011#16 ++ 0#32) = .ok (.enc 0x63) := by decide +kernel

theorem test_decode_dec : decode (0b1100#4 ++ 0#12 ++ 0#16 ++ 0#32) = .ok .dec := by decide +kernel

theorem test_decode_ser : decode (0b1101#4 ++ 0#12 ++ 0#16 ++ 0#32) = .ok .ser := by decide +kernel

theorem test_decode_recon :
    decode (0b1110#4 ++ 0#12 ++ 0#16 ++ 0b00000000000000000000000000000011#32) = .ok (.recon 3) := by decide +kernel

/-- The table's bit numbering: bit 0 is bit 0 of CMD_LO. -/
theorem test_decode_table_word : decodeTableWord 64 0x6000006100000002 = some (.setf 0x61 2) := by decide +kernel

/-- R105 to R107 from the error rows of L2 "Command words". -/
theorem test_decode_rejects :
    decode 0x0000000000000000 = .error (.illegalOpcode 0x0) ∧ decode 0xF000000000000000 = .error (.illegalOpcode 0xF) ∧
    decode 0x2001000000000000 = .error .reservedBits ∧ decode 0x1800000800000000 = .error .reservedBits ∧
    decode 0x2000000100000000 = .error .unusedField ∧ decode 0x2000000000000001 = .error .unusedField ∧
    decode 0xB000006100000001 = .error .unusedField ∧ decode 0xE000000100000003 = .error .unusedField := by decide +kernel

/-! ## WellFormed refuses an ill-formed term of each check -/

theorem test_wellFormed_bitCount :
    (Instr.wbits 0 0).wellFormed .w8 = false ∧ (Instr.wbits 33 0).wellFormed .w8 = false ∧
    (Instr.rbits 0).wellFormed .w16 = false ∧ (Instr.rbits 33).wellFormed .w16 = false ∧
    (Instr.wbits 1 0).wellFormed .w8 = true ∧ (Instr.rbits 32).wellFormed .w8 = true := by decide +kernel

theorem test_wellFormed_symbol :
    (Instr.setf 0x100 5).wellFormed .w8 = false ∧ (Instr.getf 0x100).wellFormed .w8 = false ∧
    (Instr.enc 0x100).wellFormed .w8 = false ∧ (Instr.enc 0xFF).wellFormed .w8 = true ∧
    (Instr.enc 0xFFFF).wellFormed .w16 = true := by decide +kernel

theorem test_wellFormed_leafCount :
    (Instr.recon 257).wellFormed .w8 = false ∧ (Instr.recon 65537).wellFormed .w16 = false ∧
    (Instr.recon 256).wellFormed .w8 = true ∧ (Instr.recon 65536).wellFormed .w16 = true := by decide +kernel

/-! ## Error words of L2 "Command words", each from reset, as one step -/

theorem test_error_words :
    errorFrom State.reset 0xF000000000000000 = some (true, .illegalOpcode, 0xF, 0xF000000000000000) ∧
    errorFrom State.reset 0x2001000000000000 = some (true, .illegalOperand, 1, 0x2001000000000000) ∧
    errorFrom State.reset 0xE000000100000003 = some (true, .illegalOperand, 2, 0xE000000100000003) ∧
    errorFrom State.reset 0x3000002100000000 = some (true, .illegalOperand, 3, 0x3000002100000000) := by decide +kernel

/-! ## One step of each command -/

/-- L2 "Bit I/O": the high bits of v are ignored. -/
theorem test_wbits_field : (after (.wbits 4 0xFFFFFFF3) ready).map (fun t => (t.wbuf, t.wn, t.outq)) = some (0x30, 4, []) := by
  decide +kernel

theorem test_wbits_bytes : (after (.wbits 32 0xDEADBEEF) ready).map (fun t => (t.outq, t.wn, t.mode)) =
    some ([0xDE, 0xAD, 0xBE, 0xEF], 0, .idle) := by decide +kernel

theorem test_flush_partial : (after .flush { ready with wbuf := 0xA0, wn := 3 }).map (fun t => (t.outq, t.wbuf, t.wn)) =
    some ([0xA0], 0, 0) := by decide +kernel

/-- spec/90_conflicts.md C1. -/
theorem test_flush_nothing : (after .flush ready).map (fun t => (t.outq, t.wn)) = some ([], 0) := by decide +kernel

theorem test_rbits_crosses_bytes : (after (.rbits 8) { fed [0xFF] with rbuf := 0xA0, rcur := some 4 }).map
    (fun t => (t.result, t.rcur, t.inq)) = some (0x07, some 4, []) := by decide +kernel

theorem test_rbits_end : (after (.rbits 16) (fed [0xA0])).map (fun t => (t.err, t.errInfo, t.result, t.rcur)) =
    some (.endOfStream, 8, 0, none) := by decide +kernel

theorem test_rrst : (after .rrst { fed [0x12] with rbuf := 0xA0, rcur := some 4 }).map
    (fun t => (t.rcur, t.rbuf, t.inq, t.inClosed)) = some (none, 0, [], false) := by decide +kernel

theorem test_clrf : (after .clrf { ready with freq := [(0x61, 2)] }).map (fun t => getFreq t.freq 0x61) = some 0 := by
  decide +kernel

theorem test_setf : (after (.setf 0x61 7) { ready with freq := [(0x61, 2), (0x62, 3)] }).map
    (fun t => (getFreq t.freq 0x61, getFreq t.freq 0x62)) = some (7, 3) := by decide +kernel

theorem test_getf : (after (.getf 0x62) { ready with freq := [(0x62, 3)] }).map (·.result) = some 3 := by decide +kernel

/-- L2 "Frequency table and build": of equal counts the larger symbol is the zero-child. -/
theorem test_build_tie_break :
    (after .build { ready with freq := [(0x61, 1), (0x62, 1), (0x63, 1)] }).map
      (fun t => [0x61, 0x62, 0x63].map fun x => (t.tree.leafAt x).bind (codeWord t.tree)) =
    some [some [false], some [true, true], some [true, false]] := by decide +kernel

/-- V1: the root's count and symbol. -/
theorem test_build_v1 : (after .build { ready with freq := freqV1 }).map
    (fun t => (t.tree.nleaves, (t.tree.root.bind (nodeAt t.tree)).map fun n => (n.count, n.sym))) =
    some (3, some (10, 0x62)) := by decide +kernel

theorem test_clrt : (after .clrt coreV1).map (fun t => (t.tree.kind, t.tree.nleaves)) = some (.empty, 0) := by decide +kernel

theorem test_nleaf : (after .nleaf coreV1).map (·.result) = some 3 := by decide +kernel

/-- V1: ENC 'a' writes "10". -/
theorem test_enc_v1 : (after (.enc 0x61) coreV1).map outBits = some [true, false] := by decide +kernel

/-- V4: ENC on the empty tree. -/
theorem test_enc_empty : (after (.enc 0x61) ready).map (fun t => (t.err, t.errInfo, t.wn)) =
    some (.unknownSymbol, 0x61, 0) := by decide +kernel

/-- V1: DEC of "11" answers 'b' and reads 2 bits. -/
theorem test_dec_v1 : (after .dec { coreV1 with inq := [0xC0] }).map (fun t => (t.result, t.rcur)) =
    some (0x62, some 5) := by decide +kernel

/-- V2: DEC on a SINGLE tree reads no bit. -/
theorem test_dec_single : (after .dec { coreV2 with inq := [0x00] }).map (fun t => (t.result, t.inq, t.rcur)) =
    some (0x61, [0x00], none) := by decide +kernel

/-- V5. -/
theorem test_ser_v1 : (after .ser coreV1).map (fun t => (t.outq, t.wbuf, t.wn)) = some ([0xB1, 0xAC, 0x36], 0x20, 4) := by
  decide +kernel

theorem test_ser_single : (after .ser coreV2).map (fun t => (t.outq, t.wn)) = some ([0x61], 0) := by decide +kernel

/-- V6. -/
theorem test_recon_v1 : (after (.recon 3) (fed [0xB1, 0xAC, 0x36, 0x20])).map
    (fun t => (t.tree.kind, t.tree.nleaves, t.rcur, t.inq)) = some (.full, 3, some 3, []) := by decide +kernel

/-- A second leaf of a symbol: SHAPE_ERROR 3, and no tree. -/
theorem test_recon_duplicate : (after (.recon 2) (fed [0xB1, 0x58, 0x80])).map
    (fun t => (t.err, t.errInfo, t.tree.kind)) = some (.shapeError, 3, .empty) := by decide +kernel

/-! ## The host -/

/-- R26 and R48: STATUS after reset is 0x00004000. -/
theorem test_status_reset : statusWord State.reset = 0x00004000 := by decide +kernel

/-- L3: the host's observation of one OUT_DATA read. -/
theorem test_out_data : (stepped { hosted (.read 0x30 .bits32) with outq := [0x12, 0x34] }).map (fun t => (t.seen, t.outq)) =
    some ([0x112], [0x34]) := by decide +kernel

/-- A CMD_HI write issues the word; the next turn runs it. -/
theorem test_issue : (stepped { hosted (.write 0x04 .bits32 0xA0000000) with cmdLo := 0 }).map (fun t => (t.mode, t.cmd)) =
    some (.busy, 0xA000000000000000) := by decide +kernel

/-- A CMD_HI write while BUSY latches CMD_OVERRUN. -/
theorem test_overrun : (stepped { ready with agenda := [.host (.write 0x04 .bits32 0xC0000000)] }).map
    (fun t => (t.pend, t.pendCode, t.pendCmd, t.mode)) = some (true, .cmdOverrun, 0xC000000000000000, .busy) := by
  decide +kernel

theorem test_refusal : stopOf (step (hosted (.read 0x02 .bits32))) = some (.inr .accessWithoutMeaning) := by decide +kernel

/-! ## Witnesses: the hypotheses of every statement are met -/

theorem witness_DecodeAndEncodeAgree : decode 0xE00000000000FFFF = .ok (.recon 0xFFFF) := by decide +kernel

theorem witness_EveryWordIsLegalOrRaises :
    issued ready ∧ issued { ready with cmd := 0 } ∧
    ∃ r ∈ opcodeRows, r.accepts 0xE0000000FFFFFFFF = true :=
  ⟨⟨rfl, rfl⟩, ⟨rfl, rfl⟩, ⟨0xFFFFFFFF00000000, 0xE000000000000000⟩, by decide +kernel, by decide +kernel⟩

theorem witness_IllegalWordsRaise :
    issued { ready with cmd := 0, agenda := [.core] } ∧ issued { ready with cmd := 0, agenda := [.run] } ∧
    issued { ready with cmd := 0 } ∧ ready.agenda = [] ∧
    opField 0 = 0x0 ∧ opField 0xF000000000000000 = 0xF ∧
    rsvField 0xE800000000000000 ≠ 0 ∧ opField 0xE800000000000000 ∉ [0x0#4, 0xF#4] ∧
    (opField 0xE000000100000003 = 0xE ∧ rsvField 0xE000000100000003 = 0 ∧ aField 0xE000000100000003 ≠ 0) ∧
    (opField 0xB000006180000000 = 0xB ∧ rsvField 0xB000006180000000 = 0 ∧ bField 0xB000006180000000 ≠ 0) :=
  ⟨⟨rfl, rfl⟩, ⟨rfl, rfl⟩, ⟨rfl, rfl⟩, by decide +kernel⟩

/-- The boundary values of each range: 0 and 33 bits, symbol N, N + 1 leaves; for W = 16 symbol 0xFFFF is in range. -/
theorem witness_OutOfRangeOperandsRaise :
    (0#16).toNat < 1 ∧ 32 < (33#16).toNat ∧ ready.params.width.alphabet ≤ (0x100 : Symbol).toNat ∧
    ready.params.width.alphabet < (257 : Word).toNat ∧ wide.params.width = .w16 ∧
    wide.params.width.alphabet < (65537 : Word).toNat ∧
    (0xFFFF : Symbol).toNat < wide.params.width.alphabet ∧ wide.tree.leafAt 0xFFFF = none := by decide +kernel

theorem witness_StepRunsTheIssuedCommand :
    issued ready ∧ decode ready.cmd = .ok .flush ∧ ready.agenda = [] ∧
    issued { ready with agenda := [.run] } ∧
    startInstr .flush { ready with agenda := [] } = .moved (finish ready) ∧
    issued { broken with cmd := 0xC000000000000000, agenda := [.core] } ∧
    startInstr .dec { broken with cmd := 0xC000000000000000 } = .broken .walkedOffTree :=
  ⟨⟨rfl, rfl⟩, by decide +kernel, rfl, ⟨rfl, rfl⟩, by decide +kernel, ⟨rfl, rfl⟩, by decide +kernel⟩

theorem witness_RunTurnIsCoreTurns :
    nextOf (runTurn ready) = some (finish ready) ∧ stopOf (runTurn { broken with cmd := 0xC000000000000000 }) = some (.inl .walkedOffTree) := by
  decide +kernel

/-- A run that ends, and one that holds. -/
theorem witness_RunTurnEndsOrHolds :
    ready.mode = .busy ∧ nextOf (runTurn ready) = some (finish ready) ∧
    (let s := { ready with cmd := 0x3000000800000000 }
     nextOf (runTurn s) = some { s with job := some (.read (.field 8 0) 0) }) := by decide +kernel

theorem witness_HeldReadsResume :
    ready.mode = .busy ∧ after (.rbits 8) ready = some { ready with job := some (.read (.field 8 0) 0) } ∧
    holdIn { ready with job := some (.read (.field 8 0) 0) } = true := by decide +kernel

/-- Four bytes into a channel two deep, popped one at a time: two holds after the first. -/
theorem witness_HeldWritesResume :
    let s : State := { ready with params := { defaultParams with outDepth := 2 } }
    s.mode = .busy ∧
    ((after (.wbits 32 0xABCDEF01) s).bind fun t => (runPopping [1, 1] t).map fun r => (r.1, r.2.outq, r.2.mode)) =
      some ([0xAB, 0xCD], [0xEF, 0x01], .idle) := by decide +kernel

/-- Both ends of the range of n; the field that just fits a channel with one free byte. -/
theorem witness_WbitsAppendsTheField :
    (1#16).toNat = 1 ∧ (32#16).toNat = 32 ∧ hasRoom ready 1 ∧ hasRoom ready 32 ∧
    hasRoom { ready with wn := 1, outq := List.replicate 255 0 } 14 ∧
    ready.wbuf.toNat % 2 ^ (8 - ready.wn.val) = 0 := by
  unfold hasRoom; decide +kernel

theorem witness_FlushPushesThePartialByte :
    ready.wn = 0 ∧ ({ ready with wn := 7, wbuf := 0xFE } : State).wn ≠ 0 ∧ ready.outq.length < ready.params.outDepth ∧
    (0xFE : Byte).toNat % 2 ^ (8 - 7) = 0 := by decide +kernel

theorem witness_RbitsReadsTheField :
    (1#16).toNat ≤ (inBits (fed [0xA0])).length ∧ (8#16).toNat = (inBits (fed [0xA0])).length ∧
    (32#16).toNat ≤ (inBits { fed [1, 2, 3, 4] with rcur := some 0 }).length := by decide +kernel

theorem witness_RbitsRaisesAtEndOfStream :
    (inBits (fed [])).length < (1#16).toNat ∧ (inBits (fed [0xA0])).length < (9#16).toNat ∧ (fed []).inClosed = true := by
  decide +kernel

/-- A core at InPop: with bytes, at the end of the stream, and holding; and RRST's emptying micro-step. -/
theorem witness_InPopTakesHoldsOrEnds :
    let j := some (Job.read (.field 8 0) 0)
    ready.mode = .busy ∧ ready.rcur = none ∧ ({ fed [0xA0] with job := j } : State).inq = [0xA0] ∧
    ({ fed [] with job := j } : State).inClosed = true ∧ ({ ready with job := j } : State).inq = [] ∧
    ready.inClosed = false ∧ ({ ready with rcur := some 0, job := j } : State).rcur ≠ none ∧
    (nextOf (coreTurn { fed [0xA0] with job := j })).map (·.inq) = some [] ∧
    (nextOf (coreTurn { fed [0xA0] with job := some .emptyInput })).map (·.inq) = some [] ∧
    (nextOf (coreTurn { fed [0xA0] with job := some (.put [true]) })).map (·.inq) = some [0xA0] := by decide +kernel

theorem witness_OutPushAppendsOrHolds :
    let s : State := { ready with wn := 7, job := some (.push []) }
    s.mode = .busy ∧ s.job = some (.push []) ∧ s.outq.length < s.params.outDepth ∧
    ({ s with outq := List.replicate 256 0 } : State).outq.length = s.params.outDepth ∧ 1 ≤ s.params.outDepth ∧
    (nextOf (coreTurn s)).map (·.outq) = some [0] := by decide +kernel

theorem witness_WrittenBitsReadBack :
    ready.wn = 0 ∧ ready.wbuf = 0 ∧ ready.outq = [] ∧ ready.rcur = none ∧
    (runCommands ([(3, 5), (2, 2)].map (fun f => .wbits f.1 f.2) ++ [.flush]) ready).map (·.outq) = some [0xB0] := by
  decide +kernel

/-- The empty table, and the largest symbol of W = 8 and of W = 16. -/
theorem witness_FrequencyCommandsReadAndWriteEntries :
    freqWf .w8 ready.freq = true ∧ freqWf .w16 [(0, 1), (0xFFFF, 0xFFFFFFFF)] = true ∧
    (0xFF : Symbol).toNat < ready.params.width.alphabet ∧ (0xFFFF : Symbol).toNat < wide.params.width.alphabet := by
  decide +kernel

theorem witness_DequeueTakesTheFirstNode :
    let ns := [2, 3, 3].zip [0x61, 0x62, 0x63] |>.map fun e =>
      ({ count := e.1, sym := e.2, zero := none, one := none, parent := none, isz := false } : Node)
    dequeue ns [1, 2] = some (2, [1]) ∧ (∀ y ∈ [1, 2], (ns[y]?).isSome = true) ∧
    (∀ y ∈ [1, 2], ∀ z ∈ [1, 2], (ns[y]?).map (·.sym) = (ns[z]?).map (·.sym) → y = z) := by decide +kernel

theorem witness_BuildMakesTheTreeOfTheTable :
    freqWf .w8 [] = true ∧ freqWf .w8 [(0x61, 10)] = true ∧ freqWf .w8 freqV1 = true ∧
    (buildTree freqV1).leafAt 0x61 = some 0 ∧ (nodeAt (buildTree freqV1) 0).isSome = true := by decide +kernel

theorem witness_BuildJoinsTheTwoFirstNodes :
    freqWf .w8 [] = true ∧ freqWf .w8 freqV1 = true ∧ freqV1 ≠ [] ∧ mergedTree freqV1 = some treeV1 := by decide +kernel

theorem witness_BuiltCountsNeverWrap :
    freqWf .w8 [(0x61, 0xFFFFFFFF), (0x62, 0xFFFFFFFF), (0x63, 1)] = true ∧
    ∃ n ∈ (buildTree [(0x61, 0xFFFFFFFF), (0x62, 0xFFFFFFFF), (0x63, 1)]).nodes,
      n.zero = some 0 ∧ n.one = some 3 ∧ n.count = 0x1FFFFFFFF := by decide +kernel

/-- V1's tree and V2's. -/
theorem witness_isTree :
    isTree .w8 coreV1.tree treeV1 = true ∧ isTree .w8 coreV2.tree (.leaf 0 0x61) = true ∧
    coreV1.tree.kind = .full ∧ coreV2.tree.kind = .single := by decide +kernel

theorem witness_EncAppendsTheCodeWord :
    isTree coreV1.params.width coreV1.tree treeV1 = true ∧ (0x61 : Symbol).toNat < coreV1.params.width.alphabet ∧
    treeV1.code 0x61 = some [true, false] ∧ hasRoom coreV1 2 ∧
    isTree coreV2.params.width coreV2.tree (.leaf 0 0x61) = true ∧ (PTree.leaf 0 0x61).code 0x61 = some [false] := by
  unfold hasRoom; decide +kernel

theorem witness_CodeWordLengths :
    isTree .w8 coreV1.tree treeV1 = true ∧ coreV1.tree.leafAt 0x64 = none ∧ coreV1.tree.leafAt 0x62 = some 1 ∧
    coreV1.tree.kind = .full ∧ coreV2.tree.kind = .single ∧ coreV2.tree.leafAt 0x61 = some 0 := by decide +kernel

theorem witness_CodeWordsArePrefixFree :
    isTree .w8 coreV1.tree treeV1 = true ∧ coreV1.tree.kind = .full ∧ treeV1.code 0x61 = some [true, false] ∧
    [true, false] <+: [true, false] := by decide +kernel

/-- An EMPTY tree, a SINGLE tree, and a FULL tree with a code word next. -/
theorem witness_DecReadsOneCodeWord :
    ready.tree.root = none ∧ isTree coreV2.params.width coreV2.tree (.leaf 0 0x61) = true ∧
    isTree coreV1.params.width coreV1.tree treeV1 = true ∧ treeV1.isLeaf = false ∧
    treeV1.code 0x62 = some [true, true] ∧
    inBits { coreV1 with inq := [0xC0] } = [true, true] ++ List.replicate 6 false := by decide +kernel

/-- The input is the one bit 1, the start of two code words. -/
theorem witness_DecRaisesAtEndOfStream :
    let s : State := { coreV1 with rbuf := 1, rcur := some 0, inClosed := true }
    isTree s.params.width s.tree treeV1 = true ∧ treeV1.isLeaf = false ∧ s.inClosed = true ∧ inBits s = [true] ∧
    ∀ x bits, treeV1.code x = some bits → ¬ bits <+: [true] := by
  refine ⟨by decide +kernel, rfl, rfl, by decide +kernel, ?_⟩
  intro x bits h hp
  simp only [treeV1, PTree.code, PTree.path] at h
  repeat' split at h
  all_goals simp_all
  all_goals subst h; simp at hp

theorem witness_DecodeInvertsEncode :
    coreV1.wn = 0 ∧ coreV1.outq = [] ∧ coreV1.pend = false ∧ coreV1.rcur = none ∧
    isTree coreV1.params.width coreV1.tree treeV1 = true ∧
    (runCommands ([0x61, 0x62, 0x63].map .enc ++ [.flush]) coreV1).map (·.outq) = some [0xB0] ∧
    isTree coreV2.params.width coreV2.tree (.leaf 0 0x61) = true ∧
    (runCommands [.enc 0x61, .flush] coreV2).map (·.outq) = some [0x00] ∧
    (decodeMany 3 { coreV1 with inq := [0xB0] }).map (·.1) = some [0x61, 0x62, 0x63] := by decide +kernel

theorem witness_SerAppendsTheShape :
    ready.tree.root = none ∧ isTree coreV1.params.width coreV1.tree treeV1 = true ∧ (treeV1.shape .w8).length = 28 ∧
    hasRoom coreV1 28 := by
  unfold hasRoom; decide +kernel

theorem witness_ShapeHasShapeLenBits : treeOk .w8 coreV1.tree ∧ treeOk .w8 coreV2.tree ∧ treeOk .w8 ready.tree :=
  ⟨.inr ⟨treeV1, by decide +kernel⟩, .inr ⟨.leaf 0 0x61, by decide +kernel⟩, .inl rfl⟩

/-- A tree of three leaves, and of one. -/
theorem witness_ReconRebuildsTheShape :
    (3 : Word).toNat = treeV1.symbols.length ∧ treeV1.symbols.Nodup ∧
    treeV1.symbols.all (fun x => decide (x.toNat < (fed []).params.width.alphabet)) = true ∧
    inBits (fed [0xB1, 0xAC, 0x36, 0x20]) = treeV1.shape .w8 ++ List.replicate 4 false ∧
    (1 : Word).toNat = (PTree.leaf 0 0xFF).symbols.length ∧
    inBits (fed [0xFF]) = (PTree.leaf 0 0xFF).shape .w8 ++ [] := by decide +kernel

theorem test_recon_zero : (after (.recon 0) coreV1).map (fun t => (t.tree.kind, t.mode)) = some (.empty, .idle) := by
  decide +kernel

theorem witness_ReconAcceptsOnlyShapes :
    ready.mode = .busy ∧ ready.pend = false ∧ (256 : Word).toNat = ready.params.width.alphabet ∧
    (after (.recon 3) (fed [0xB1, 0xAC, 0x36, 0x20])).map (·.mode) = some .idle ∧
    inBits (fed [0xB1, 0xAC, 0x36, 0x20]) = treeV1.shape .w8 ++ List.replicate 4 false ∧
    (after (.recon 1) (fed [0xFF])).map (·.mode) = some .idle ∧ (fed []).inClosed = true ∧
    inBits (fed []) = [] := by decide +kernel

/-- No shape of two leaves begins with a bit 0: the third clause's hypothesis. -/
theorem witness_ReconAcceptsOnlyShapes_not :
    ¬ ∃ p rest, (PTree.symbols p).length = (2 : Word).toNat ∧ inBits (fed []) = PTree.shape .w8 p ++ rest := by
  rintro ⟨p, rest, hp, hb⟩
  have he : inBits (fed []) = [] := by decide +kernel
  rw [he] at hb
  cases p with
  | leaf i x => simp [PTree.symbols, PTree.leaves] at hp
  | node i z o =>
    cases z <;> simp [PTree.shape, PTree.item] at hb

/-- Items read so far, and the input that meets each clause: L = 3 after a leaf (one slot open, no second internal node
yet), then a bit 0 and once more a bit 0; a second leaf that closes the tree; the same symbol again; and the end of the
stream. Then one RECON for each cause, the error dropping a latched host-protocol error. -/
theorem witness_ReconErrorsLeaveNoTree_items :
    (let ms := [Marker.leaf 0x63, .internal]
     openSlots 2 ms = some 2 ∧ (markedSymbols ms).Nodup ∧ (markedSymbols ms).all (fun x => decide (x.toNat < 256)) = true ∧
     (markedSymbols ms).length < 3 ∧ internalCount ms + 2 = 3) ∧
    (let ms := [Marker.leaf 0x63]
     openSlots 2 ms = some 1 ∧ (markedSymbols ms).length + 1 < 3 ∧ internalCount ms + 2 ≤ 3 ∧
     (0x62 : Symbol) ∉ markedSymbols ms ∧ (0x63 : Symbol) ∈ markedSymbols ms) ∧
    (openSlots 2 [] = some 2 ∧ internalCount [] + 2 = 2 ∧ (markedSymbols []).length < 2) := by decide +kernel

/-- RECON 1 on one bit fewer than a symbol has, not byte-aligned, and on no bit; for W = 16 on 15 bits. -/
theorem witness_ReconErrorsLeaveNoTree_one :
    (let s : State := { fed [] with rcur := some 6, rbuf := 0x61, pend := true, pendCode := .cmdOverrun }
     s.inClosed = true ∧ (inBits s).length + 1 = s.params.width.bits ∧
     (after (.recon 1) s).map (fun t => (t.err, t.errInfo, t.tree.kind, t.rcur, t.pend)) =
       some (.endOfStream, 7, .empty, none, false)) ∧
    (inBits (fed [])).length < ready.params.width.bits ∧
    (inBits { wide with inq := [0x61], rcur := some 6 }).length = 15 ∧ 15 < wide.params.width.bits := by decide +kernel

/-- Each cause's ERR_INFO (spec/60_exceptions.md R261), with one host-protocol error latched. -/
theorem witness_ReconErrorsLeaveNoTree :
    (let run := fun (l : Word) (q : List Byte) => (after (.recon l) { fed q with pend := true, pendCode := .cmdOverrun }).map
       fun t => (t.mode, t.err, t.errInfo)
     run 2 [0x00] = some (.halted, .shapeError, 1) ∧ run 3 [0xB1, 0xD8, 0x80] = some (.halted, .shapeError, 2) ∧
     run 3 [0xB1, 0xD8, 0xC0] = some (.halted, .shapeError, 3) ∧ run 256 [] = some (.halted, .endOfStream, 0) ∧
     run 1 [0x61] = some (.halted, .cmdOverrun, 0)) := by decide +kernel

theorem witness_ShapeRoundTrip :
    isTree coreV1.params.width coreV1.tree treeV1 = true ∧ (3 : Word).toNat = coreV1.tree.nleaves ∧ coreV1.wn = 0 ∧
    coreV1.outq = [] ∧ (runCommands [.ser, .flush] coreV1).map (·.outq) = some [0xB1, 0xAC, 0x36, 0x20] ∧
    (fed [0xB1, 0xAC, 0x36, 0x20]).pend = false ∧ (fed []).rcur = none ∧
    ready.tree = Tree.cleared ∧ (0 : Word).toNat = ready.tree.nleaves ∧
    (runCommands [.ser, .flush] ready).map (·.outq) = some [] := by decide +kernel

theorem witness_CommandsWriteOnlyTheirState : (after .flush ready) = some (finish ready) := by decide +kernel

/-- A completing NLEAF with no error latched and with one, and a reset. -/
theorem witness_ResultChangesOnlyAtCompletion :
    let s : State := { coreV1 with cmd := 0xA000000000000000 }
    let p : State := { s with pend := true, pendCode := .cmdOverrun }
    let r : State := { hosted .resetInput with result := 5 }
    machineOk s = true ∧ (stepped s).map (fun t => (t.result, t.mode)) = some (3, .idle) ∧ s.result = 0 ∧
    machineOk p = true ∧ (stepped p).map (fun t => (t.result, t.mode, t.err)) = some (3, .halted, .cmdOverrun) ∧
    machineOk r = true ∧ (stepped r).map (·.result) = some 0 := by decide +kernel

theorem witness_ErrorEntryAndReturn :
    ({ ready with mode := .halted } : State).mode = .halted ∧ State.reset.mode = .idle ∧ ready.mode = .busy ∧
    ready.pend = false ∧ ({ ready with pend := true, pendCode := .cmdOverrun } : State).pend = true := by decide +kernel

theorem witness_OnlyTheErrorEntryHalts :
    let s : State := { ready with cmd := 0 }
    machineOk s = true ∧ s.mode ≠ .halted ∧ (stepped s).map (·.mode) = some .halted := by decide +kernel

theorem witness_HaltedUntilReset :
    let s : State := { State.reset with mode := .halted, err := .cmdOverrun }
    s.mode = .halted ∧ stepped s = some s ∧ (stepped { s with agenda := [.host .resetInput] }).map (·.mode) = some .idle := by
  decide +kernel

theorem witness_ResetGivesTheResetValues :
    (hosted .resetInput).agenda = [.host .resetInput] ∧
    (hosted (.write (State.reset.params.base + 0x34) .bits32 1)).agenda =
      [.host (.write (State.reset.params.base + 0x34) .bits32 1)] ∧ (1 : Word).getLsbD 0 = true := by decide +kernel

theorem witness_HostReadsAreObserved :
    (hosted (.read (State.reset.params.base + 0x30) .bits32)).agenda =
      [.host (.read (State.reset.params.base + 0x30) .bits32)] := by decide +kernel

/-- RESULT, ERR_INFO and ERR_CMD each read at its own offset (spec/10_state.md R23). -/
theorem test_error_registers :
    let s : State := { State.reset with result := 1, errInfo := 2, errCmdLo := 3, errCmdHi := 4 }
    ([0x0C, 0x10, 0x14, 0x18].map fun off => (hostRead off s).map Prod.fst) = [some 1, some 2, some 3, some 4] := by
  decide +kernel

/-- spec/60_exceptions.md R260: the nine codes in STATUS[5:2]. -/
theorem test_error_codes :
    ([ErrorCode.noError, .illegalOpcode, .illegalOperand, .unknownSymbol, .emptyTree, .endOfStream, .shapeError, .cmdOverrun,
      .inputProtocol].map fun e => ((statusWord { State.reset with err := e }).extractLsb' 2 4).toNat) =
    [0, 1, 2, 3, 4, 5, 6, 7, 8] := by decide +kernel

theorem witness_CommandRegistersStoreIssueOrOverrun :
    let a := [Turn.host (.write (State.reset.params.base + 4) .bits32 0xC0000000)]
    (hosted (.write State.reset.params.base .bits32 5)).agenda = [.host (.write State.reset.params.base .bits32 5)] ∧
    (hosted (.write (State.reset.params.base + 4) .bits32 0xC0000000)).agenda = a ∧ State.reset.mode = .idle ∧
    ({ ready with agenda := a } : State).mode = .busy ∧ ready.pend = false ∧
    ({ ready with agenda := a, pend := true, pendCode := .cmdOverrun } : State).pend = true ∧
    ({ State.reset with mode := .halted, err := .emptyTree, agenda := a } : State).mode = .halted ∧
    (hosted (.read (State.reset.params.base + 4) .bits32)).agenda =
      [.host (.read (State.reset.params.base + 4) .bits32)] ∧
    (stepped (hosted (.write State.reset.params.base .bits32 5))).map (·.cmdLo) = some 5 ∧
    (stepped { ready with agenda := a }).map (·.cmdHi) = some 0xC0000000 := by decide +kernel

/-- Room in an open input, one place left; a full input; a closed input; and one both full and closed. -/
theorem witness_PushAppendsOrRaises :
    let s := hosted (.write (State.reset.params.base + 0x28) .bits32 0x1FF)
    s.agenda = [.host (.write (s.params.base + 0x28) .bits32 0x1FF)] ∧
    ({ s with inq := List.replicate 255 0 } : State).inq.length < s.params.inDepth ∧ s.inClosed = false ∧
    s.params.inDepth ≤ ({ s with inq := List.replicate 256 0 } : State).inq.length ∧
    ({ s with inClosed := true } : State).inClosed = true ∧
    (let b : State := { s with inq := List.replicate 256 0, inClosed := true }
     b.params.inDepth ≤ b.inq.length ∧ b.inClosed = true ∧ b.agenda = s.agenda ∧
     (stepped b).map (fun t => (t.inq.length, t.mode, t.err)) = some (256, .halted, .inputProtocol)) := by decide +kernel

theorem witness_OutDataPopsTheOldestByte :
    let r := hosted (.read (State.reset.params.base + 0x30) .bits32)
    r.agenda = [.host (.read (r.params.base + 0x30) .bits32)] ∧ r.outq = [] ∧
    ({ r with outq := [0x12] } : State).outq = [0x12] ∧
    (hosted (.write (State.reset.params.base + 0x30) .bits32 1)).agenda =
      [.host (.write (State.reset.params.base + 0x30) .bits32 1)] := by decide +kernel

theorem witness_IgnoredWritesAndZeroReads :
    (∀ off ∈ [0x08, 0x2C, 0x3C], (hosted (.write (State.reset.params.base + off) .bits32 0)).agenda =
      [.host (.write (State.reset.params.base + off) .bits32 0)]) ∧ (0xFFFFFFFE : Word).getLsbD 0 = false ∧
    (1 : Word).getLsbD 0 = true := by decide +kernel

/-- The last address inside the window and the first outside it. -/
theorem witness_MeaninglessAccessesAreRefused :
    (hosted (.read 0x3C .bits32)).agenda = [.host (.read 0x3C .bits32)] ∧
    State.reset.params.base ≤ 0x3C ∧ (0x3C - State.reset.params.base) % 4 = 0 ∧ 0x3C < State.reset.params.base + 0x40 ∧
    State.reset.params.base + 0x40 ≤ 0x40 ∧ (0x3D - State.reset.params.base) % 4 ≠ 0 ∧
    AccessSize.bits8 ≠ .bits32 ∧ 3 < ({ defaultParams with base := 4 } : Params).base := by decide +kernel

theorem witness_StatusShowsTheState :
    State.reset.mode ≠ .busy ∧ State.reset.tree.root = none ∧
    coreV1.tree.root = some 4 ∧ (nodeAt coreV1.tree 4).isSome = true ∧ ({ coreV1 with mode := .idle } : State).mode ≠ .busy := by
  decide +kernel

/-- The bounds of the depths. -/
theorem witness_ConfigAndFifoRegisters :
    ({ defaultParams with inDepth := 1, outDepth := 65535 } : Params).wf = true ∧ State.reset.params.wf = true ∧
    channelsOk State.reset = true := by decide +kernel

theorem witness_StepKeepsInstanceAndFrequencyForm :
    stepped (hosted .resetInput) = some State.reset ∧ freqWf State.reset.params.width State.reset.freq = true := by
  decide +kernel

/-- A core in RECON's loop, at its first marker bit: it meets both invariants, and a step answers a next state. -/
def inRecon : State :=
  { ready with cmd := 0xE000000000000003, inq := [0xB1], agenda := [.core]
               tree := { newNode 0 0 Tree.cleared with root := some 0 }
               job := some (.read (.marker 3 1 0) 0) }

theorem witness_ResetMeetsTheInvariants : ({ defaultParams with inDepth := 65535, outDepth := 1 } : Params).wf = true := by
  decide +kernel

theorem witness_StepKeepsTheMachineInvariant :
    machineOk coreV1 = true ∧ treeInv coreV1 ∧ (stepped coreV1).map (·.mode) = some .idle :=
  ⟨by decide +kernel, .inr ⟨treeV1, by decide +kernel⟩, by decide +kernel⟩

theorem witness_StepKeepsTheTreeInvariant :
    machineOk inRecon = true ∧ treeInv inRecon ∧ (stepped inRecon).map (·.rcur) = some (some 7) :=
  ⟨by decide +kernel, ⟨[.inZero 0], by decide +kernel⟩, by decide +kernel⟩

/-- A core inside DEC's walk, and a host access that has no meaning. -/
theorem witness_NoStepWalksOffTheTree :
    (let s : State := { coreV1 with cmd := 0xC000000000000000, job := some (.read (.walk 4) 0), agenda := [.core] }
     machineOk s = true ∧ treeInv s) ∧
    (let s := hosted (.read 0x02 .bits32)
     machineOk s = true ∧ treeInv s ∧ stopOf (step s) = some (.inr .accessWithoutMeaning)) :=
  ⟨⟨by decide +kernel, .inr ⟨treeV1, by decide +kernel⟩, ⟨_, rfl, by decide +kernel⟩⟩,
    by decide +kernel, .inl rfl, by decide +kernel⟩

/-! ## The container: P1, P3, P4 and P6 of L3 -/

theorem test_container_p1 :
    container .w8 [0x61, 0x61, 0x62, 0x62, 0x62, 0x63, 0x63, 0x63, 0x63, 0x63] =
      [0x00, 0x00, 0x00, 0x0A, 0x02, 0xB1, 0xAC, 0x36, 0x2A, 0xFC, 0x00] := by decide +kernel

theorem test_container_p3 : container .w8 [0x61, 0x61, 0x61, 0x61] = [0x00, 0x00, 0x00, 0x04, 0x00, 0x61, 0x00] := by
  decide +kernel

theorem test_container_p6 :
    container .w16 [0x8000, 0x8000, 0x8000, 0xFFFF, 0xFFFF, 0xFFFF, 0x0102] =
      [0x00, 0x00, 0x00, 0x07, 0x00, 0x02, 0xC0, 0x00, 0x20, 0x20, 0x5F, 0xFF, 0xF1, 0xFC] := by decide +kernel

/-- P4. -/
theorem test_compress_empty : (compress [] State.reset).map (fun r => (r.1, statusWord r.2)) =
    some ([0, 0, 0, 0], 0x00004000) := by decide +kernel

/-- P4. -/
theorem test_decompress_empty : (decompress [0, 0, 0, 0] State.reset).map (fun r => (r.1, statusWord r.2)) =
    some ([], 0x0000C000) := by decide +kernel

/-- As in P3's end, with INQ one byte deep: the payload byte of a SINGLE tree is pushed, stays unread, and the input is
closed. The reads are R89's: T, L - 1 and the one symbol, with none after RECON. -/
theorem test_decompress_pushes_all :
    (decompress [0x00, 0x00, 0x00, 0x01, 0x00, 0x61, 0x00] (State.resetWith { defaultParams with inDepth := 1 })).map
      (fun r => (r.1, r.2.seen, r.2.inq, r.2.inClosed, statusWord r.2)) =
        some ([0x61], [1, 0, 0x61], [0x00], true, 0x0000C040) := by decide +kernel

theorem witness_CompressMakesTheContainer :
    machineOk State.reset = true ∧ State.reset.mode = .idle ∧ State.reset.wn = 0 ∧ State.reset.outq = [] ∧
    ([0x61, 0xFF] : List Symbol).all (fun x => decide (x.toNat < State.reset.params.width.alphabet)) = true ∧
    ([0x61, 0xFF] : List Symbol) ≠ [] := by decide +kernel

theorem witness_DecompressInvertsCompress :
    machineOk State.reset = true ∧ State.reset.mode = .idle ∧
    ([0x61, 0xFF] : List Symbol).all (fun x => decide (x.toNat < State.reset.params.width.alphabet)) = true := by
  decide +kernel

/-- P1's container cut inside its payload, and P3's inside its shape. -/
theorem witness_ShortContainersEndInEndOfStream :
    let xs : List Symbol := [0x61, 0x61, 0x62, 0x62, 0x62, 0x63, 0x63, 0x63, 0x63, 0x63]
    mergedTree (countSymbols xs) = some treeV1 ∧
    [0x00, 0x00, 0x00, 0x0A, 0x02, 0xB1, 0xAC, 0x36, 0x2A, 0xFC] <+: container .w8 xs ∧
    8 * 10 < 32 + Width.w8.bits + (treeV1.shape .w8).length + (payloadBits treeV1 xs).length ∧
    mergedTree (countSymbols [0x61]) = some (.leaf 0 0x61) ∧
    [0x00, 0x00, 0x00, 0x01, 0x00] <+: container .w8 [0x61] ∧
    8 * 5 < 32 + Width.w8.bits + ((PTree.leaf 0 0x61).shape .w8).length := by decide +kernel

theorem witness_TreeInvariantsOfEveryNode :
    treeOk .w8 coreV1.tree ∧ nodeAt coreV1.tree 4 = some ⟨10, 0x62, some 2, some 3, none, false⟩ ∧
    coreV1.tree.leafAt 0x63 = some 2 ∧
    (machineOk State.reset = true ∧ treeInv State.reset ∧ State.reset.mode ≠ .busy) :=
  ⟨.inr ⟨treeV1, by decide +kernel⟩, by decide +kernel, by decide +kernel, by decide +kernel, .inl rfl, by decide +kernel⟩

/-- R6 and R37: NIL is the all-ones index, 511 for W = 8 and 131071 for W = 16. -/
theorem test_index_width :
    Width.w8.indexBits = 9 ∧ Width.w16.indexBits = 17 ∧ (indexWord .w8 none).toNat = 511 ∧
    (indexWord .w16 none).toNat = 131071 ∧ (indexWord .w8 (some 510)).toNat = 510 := by decide +kernel

end Sys2Proof.Tests
end

section
/-! PROOF. The host's accesses of the register window as steps, the fields of the registers a word is put together from,
and what no core micro-step changes (spec/10_state.md R23 to R35, R48). -/

namespace Sys2Proof.Machine

/-! ## A register access and a reset as one step -/

theorem step_hostWrite {s : State} {off : Nat} {r : Reg} {v : Word} {rest : List Turn} (hr : regAt off = some r)
    (h : s.agenda = .host (.write (s.params.base + off) .bits32 v) :: rest) :
    step s = .next (writeReg r v { s with agenda := rest }) :=
  (step_of_host h).trans (hostTurn_write hr v)

theorem step_hostRead {s : State} {off : Nat} {r : Reg} {rest : List Turn} (hr : regAt off = some r)
    (h : s.agenda = .host (.read (s.params.base + off) .bits32) :: rest) :
    step s = .next { readEffect r { s with agenda := rest } with seen := s.seen ++ [readValue r { s with agenda := rest }] } :=
  (step_of_host h).trans (hostTurn_read hr)

/-- No register shows the agenda. -/
theorem readValue_agenda (r : Reg) (s : State) (rest : List Turn) :
    readValue r { s with agenda := rest } = readValue r s := by
  cases r <;> rfl

/-- Either reset source resets (spec/70_reset_and_hazards.md R300). -/
theorem step_of_isReset {s : State} {turn : Turn} {rest : List Turn} (h : s.agenda = turn :: rest)
    (ht : isReset s.params turn = true) : step s = .next (resetCore { s with agenda := rest }) := by
  match turn, ht with
  | .host .resetInput, _ => exact step_of_host h
  | .host (.write addr size v), ht =>
    simp only [isReset, Bool.and_eq_true, decide_eq_true_eq] at ht
    obtain ⟨hacc, hbit⟩ := ht
    rw [step_of_host h]
    simp only [hostTurn, hacc, writeReg, hbit, if_true]

/-- The two sources of R300, named by their transactions. -/
theorem isReset_of_source {p : Params} {turn : Turn}
    (h : turn = .host .resetInput ∨ ∃ v : Word, turn = .host (.write (p.base + 0x34) .bits32 v) ∧ v.getLsbD 0 = true) :
    isReset p turn = true := by
  rcases h with rfl | ⟨v, rfl, hv⟩
  · rfl
  · simp only [isReset, accessed_offset, hv, Bool.and_true, decide_eq_true_eq]
    rfl

/-! ## The fields of STATUS -/

section
variable (s : State) (tree : TreeClass) (wn : Fin 8) (rcur : Option (Fin 8))

theorem statusWith_busy : (statusWith s tree wn rcur).getLsbD 0 = isBusy s := by
  simp only [statusWith, BitVec.getLsbD_append]
  simp

theorem statusWith_halted : (statusWith s tree wn rcur).getLsbD 1 = isHalted s := by
  simp only [statusWith, BitVec.getLsbD_append]
  simp

theorem statusWith_inClosed : (statusWith s tree wn rcur).getLsbD 15 = s.inClosed := by
  simp only [statusWith, BitVec.getLsbD_append]
  simp

theorem statusWith_holdIn : (statusWith s tree wn rcur).getLsbD 16 = holdIn s := by
  simp only [statusWith, BitVec.getLsbD_append]
  simp

theorem statusWith_holdOut : (statusWith s tree wn rcur).getLsbD 17 = holdOut s := by
  simp only [statusWith, BitVec.getLsbD_append]
  simp

theorem statusWith_pend : (statusWith s tree wn rcur).getLsbD 18 = s.pend := by
  simp only [statusWith, BitVec.getLsbD_append]
  simp

theorem statusWith_err : (statusWith s tree wn rcur).extractLsb' 2 4 = errorCode s.err := by
  simp (disch := decide) only [statusWith, BitVec.extractLsb'_append_eq_of_le, BitVec.extractLsb'_append_eq_of_add_le,
    Nat.reduceSub, BitVec.extractLsb'_eq_self]

theorem statusWith_tree : (statusWith s tree wn rcur).extractLsb' 6 2 = treeCode tree := by
  simp (disch := decide) only [statusWith, BitVec.extractLsb'_append_eq_of_le, BitVec.extractLsb'_append_eq_of_add_le,
    Nat.reduceSub, BitVec.extractLsb'_eq_self]

theorem statusWith_wn : (statusWith s tree wn rcur).extractLsb' 8 3 = BitVec.ofNat 3 wn.val := by
  simp (disch := decide) only [statusWith, BitVec.extractLsb'_append_eq_of_le, BitVec.extractLsb'_append_eq_of_add_le,
    Nat.reduceSub, BitVec.extractLsb'_eq_self]

theorem statusWith_rcur : (statusWith s tree wn rcur).extractLsb' 11 4 = cursorCode rcur := by
  simp (disch := decide) only [statusWith, BitVec.extractLsb'_append_eq_of_le, BitVec.extractLsb'_append_eq_of_add_le,
    Nat.reduceSub, BitVec.extractLsb'_eq_self]

theorem statusWith_reserved : (statusWith s tree wn rcur).extractLsb' 19 13 = 0 := by
  simp (disch := decide) only [statusWith, BitVec.extractLsb'_append_eq_of_le, Nat.reduceSub, BitVec.extractLsb'_eq_self]
  rfl

end

/-- A read of STATUS shows the state with some TREE, WN and RCUR, which are the state's own unless BUSY. -/
theorem statusWord_eq_statusWith (s : State) : ∃ tree wn rcur, statusWord s = statusWith s tree wn rcur ∧
    (s.mode ≠ .busy → tree = s.tree.kind ∧ wn = s.wn ∧ rcur = s.rcur) := by
  by_cases h : s.mode = .busy
  · exact ⟨_, _, _, if_pos h, fun hn => absurd h hn⟩
  · exact ⟨_, _, _, if_neg h, fun _ => ⟨rfl, rfl, rfl⟩⟩

theorem treeCode_toNat_le (c : TreeClass) : (treeCode c).toNat ≤ 2 := by
  cases c <;> decide

theorem cursorCode_toNat (c : Option (Fin 8)) : (cursorCode c).toNat = match c with | none => 8 | some c => c.val := by
  cases c with
  | none => rfl
  | some c => exact Nat.mod_eq_of_lt (by omega)

theorem cursorCode_toNat_le (c : Option (Fin 8)) : (cursorCode c).toNat ≤ 8 := by
  cases c with
  | none => exact Nat.le_refl 8
  | some c => rw [cursorCode_toNat]; exact Nat.le_of_lt c.isLt

theorem kind_of_root_none {t : Tree} (h : t.root = none) : t.kind = .empty := by
  simp [Tree.kind, h]

theorem kind_of_root_some {t : Tree} {r : Nat} {n : Node} (h : t.root = some r) (hn : nodeAt t r = some n) :
    t.kind = if n.zero = none then .single else .full := by
  simp [Tree.kind, h, hn]

/-- The STATUS word right after reset: RCUR reads EMPTY and every other field 0 (R48). -/
theorem statusWord_resetCore (s : State) : statusWord (resetCore s) = 0x00004000 := by
  have hin : holdIn (resetCore s) = false := rfl
  have hout : holdOut (resetCore s) = false := rfl
  have hkind : Tree.cleared.kind = .empty := rfl
  simp [statusWord, statusWith, hin, hout, hkind, isBusy, isHalted, treeCode, errorCode, cursorCode]

/-! ## The fields of CONFIG, FIFO_CONFIG and FIFO_STATUS -/

theorem configWord_width (p : Params) : (configWord p).extractLsb' 0 5 = BitVec.ofNat 5 p.width.bits :=
  BitVec.extractLsb'_append_eq_right

theorem configWord_freqWidth (p : Params) : (configWord p).extractLsb' 8 8 = BitVec.ofNat 8 freqWidth := by
  simp (disch := decide) only [configWord, BitVec.extractLsb'_append_eq_of_le, BitVec.extractLsb'_append_eq_of_add_le,
    Nat.reduceSub, BitVec.extractLsb'_eq_self]

/-- Both reserved fields read 0. -/
theorem configWord_reserved (p : Params) :
    (configWord p).extractLsb' 5 3 = 0 ∧ (configWord p).extractLsb' 16 16 = 0 := by
  constructor <;>
    simp (disch := decide) only [configWord, BitVec.extractLsb'_append_eq_of_le,
      BitVec.extractLsb'_append_eq_of_add_le, Nat.reduceSub, BitVec.extractLsb'_eq_self, BitVec.ofNat_eq_ofNat]

theorem width_bits_lt (w : Width) : w.bits < 32 := by
  cases w <;> decide

theorem toNat_ofNat16 {n : Nat} (h : n ≤ 65535) : (BitVec.ofNat 16 n).toNat = n :=
  Nat.mod_eq_of_lt (Nat.lt_succ_of_le h)

/-- Two 16-bit halves of a word, each read back (R30, R31). -/
theorem halves_toNat {hi lo : Nat} (hhi : hi ≤ 65535) (hlo : lo ≤ 65535) :
    ((BitVec.ofNat 16 hi ++ BitVec.ofNat 16 lo).extractLsb' 0 16).toNat = lo ∧
    ((BitVec.ofNat 16 hi ++ BitVec.ofNat 16 lo).extractLsb' 16 16).toNat = hi := by
  rw [BitVec.extractLsb'_append_eq_left, BitVec.extractLsb'_append_eq_right, toNat_ofNat16 hhi, toNat_ofNat16 hlo]
  exact ⟨rfl, rfl⟩

theorem fifoStatusWord_resetCore (s : State) : fifoStatusWord (resetCore s) = 0 := by
  simp [fifoStatusWord]

/-! ## What no core micro-step changes -/

/-- The parameters, CMD_LO, CMD_HI and the host's side are as they were (R24, R25; log 1, log 2). -/
structure KeepsHostSide (s t : State) : Prop where
  params : t.params = s.params
  cmdLo : t.cmdLo = s.cmdLo
  cmdHi : t.cmdHi = s.cmdHi
  agenda : t.agenda = s.agenda
  seen : t.seen = s.seen
  draws : t.draws = s.draws

namespace KeepsHostSide

@[refl] theorem refl (s : State) : KeepsHostSide s s := ⟨rfl, rfl, rfl, rfl, rfl, rfl⟩

theorem trans {s t u : State} (h : KeepsHostSide s t) (k : KeepsHostSide t u) : KeepsHostSide s u :=
  ⟨k.params.trans h.params, k.cmdLo.trans h.cmdLo, k.cmdHi.trans h.cmdHi, k.agenda.trans h.agenda, k.seen.trans h.seen,
    k.draws.trans h.draws⟩

theorem finish (s : State) : KeepsHostSide s (finish s) := by constructor <;> simp

theorem raise (e : ErrorCode) (i : Word) (s : State) : KeepsHostSide s (raise e i s) := ⟨rfl, rfl, rfl, rfl, rfl, rfl⟩

end KeepsHostSide

theorem keepsHostSide_of_delivered {s t : State} (h : Delivered s t) : KeepsHostSide s t := by
  rcases h with ⟨_, _, rfl⟩ | ⟨_, _, rfl⟩ | ⟨_, _, _, rfl⟩ | ⟨_, _, _, rfl⟩
  · constructor <;> simp
  · exact .raise ..
  · exact ⟨rfl, rfl, rfl, rfl, rfl, rfl⟩
  · exact ⟨rfl, rfl, rfl, rfl, rfl, rfl⟩

theorem keepsHostSide_of_readBit {r : Reader} {k : Nat} {s t : State} (h : readBit r k s = .moved t) :
    KeepsHostSide s t := by
  rcases readBit_cases r k s with ⟨_, _, -, -, e⟩ | ⟨-, -, -, e⟩ | ⟨-, -, -, e⟩ | ⟨_, -, e⟩ <;> rw [e] at h
  · cases h; exact ⟨rfl, rfl, rfl, rfl, rfl, rfl⟩
  · cases h
    rw [endOfStream_eq]
    split <;> exact ⟨rfl, rfl, rfl, rfl, rfl, rfl⟩
  · cases h
  · have := keepsHostSide_of_delivered (delivered_of_deliver h)
    exact ⟨this.params, this.cmdLo, this.cmdHi, this.agenda, this.seen, this.draws⟩

theorem keepsHostSide_of_advance {j : Job} {s t : State} (h : advance j s = .moved t) : KeepsHostSide s t := by
  match j with
  | .put [] => cases h; exact .finish s
  | .put (b :: bits) =>
    cases h
    rcases writeBit_cases b bits s with ⟨-, e⟩ | ⟨-, e⟩ <;> rw [e] <;> exact ⟨rfl, rfl, rfl, rfl, rfl, rfl⟩
  | .push bits =>
    obtain ⟨-, rfl⟩ := outPush_moved h
    exact ⟨rfl, rfl, rfl, rfl, rfl, rfl⟩
  | .emptyInput => cases h; exact ⟨rfl, rfl, rfl, rfl, rfl, rfl⟩
  | .reopenInput => cases h; constructor <;> simp
  | .read r k => exact keepsHostSide_of_readBit h

theorem keepsHostSide_of_runJob {s t : State} (h : runJob s = .next t) : KeepsHostSide s t :=
  runJob_induction (P := KeepsHostSide) (fun s _ => .refl s) (fun s _ _ _ => .refl s)
    (fun _ _ _ _ _ ha _ hu => (keepsHostSide_of_advance ha).trans hu) h

/-- The range check raises, or leaves the answer to the command's body. -/
theorem keepsHostSide_of_checkRange {ok : Bool} {body : State → CoreStep} {s t : State}
    (hbody : body s = .moved t → KeepsHostSide s t) (h : checkRange ok body s = .moved t) : KeepsHostSide s t := by
  cases ok
  · cases h; exact .raise ..
  · exact hbody h

theorem keepsHostSide_of_encBody {x : Symbol} {s t : State} (h : encBody x s = .moved t) : KeepsHostSide s t := by
  unfold encBody at h
  split at h
  · cases h; exact .raise ..
  · split at h <;> cases h
    exact ⟨rfl, rfl, rfl, rfl, rfl, rfl⟩

theorem keepsHostSide_of_startDec {s t : State} (h : startDec s = .moved t) : KeepsHostSide s t := by
  unfold startDec at h
  split at h
  · cases h; exact .raise ..
  · split at h
    · cases h
    · split at h <;> cases h
      · constructor <;> simp [finishWith]
      · exact ⟨rfl, rfl, rfl, rfl, rfl, rfl⟩

theorem keepsHostSide_of_startSer {s t : State} (h : startSer s = .moved t) : KeepsHostSide s t := by
  unfold startSer at h
  split at h <;> cases h
  exact ⟨rfl, rfl, rfl, rfl, rfl, rfl⟩

theorem keepsHostSide_of_reconBody {l : Nat} {s t : State} (h : reconBody l s = .moved t) : KeepsHostSide s t := by
  unfold reconBody at h
  split at h
  · cases h; constructor <;> simp
  · split at h <;> cases h <;> exact ⟨rfl, rfl, rfl, rfl, rfl, rfl⟩

theorem keepsHostSide_of_startInstr {i : Instr} {s t : State} (h : startInstr i s = .moved t) : KeepsHostSide s t := by
  cases i with
  | wbits n v =>
    rw [startInstr, startWbits] at h
    exact keepsHostSide_of_checkRange (fun hb => by cases hb; exact ⟨rfl, rfl, rfl, rfl, rfl, rfl⟩) h
  | flush =>
    simp only [startInstr, startFlush] at h
    split at h <;> cases h
    · exact .finish s
    · exact ⟨rfl, rfl, rfl, rfl, rfl, rfl⟩
  | rbits n =>
    rw [startInstr, startRbits] at h
    exact keepsHostSide_of_checkRange (fun hb => by cases hb; exact ⟨rfl, rfl, rfl, rfl, rfl, rfl⟩) h
  | rrst => cases h; exact ⟨rfl, rfl, rfl, rfl, rfl, rfl⟩
  | clrf => cases h; constructor <;> simp
  | setf x c =>
    rw [startInstr, startSetf] at h
    exact keepsHostSide_of_checkRange (fun hb => by cases hb; constructor <;> simp) h
  | getf x =>
    rw [startInstr, startGetf] at h
    exact keepsHostSide_of_checkRange (fun hb => by cases hb; constructor <;> simp [finishWith]) h
  | build => cases h; constructor <;> simp
  | clrt => cases h; constructor <;> simp
  | nleaf => cases h; constructor <;> simp [finishWith]
  | enc x => exact keepsHostSide_of_checkRange keepsHostSide_of_encBody h
  | dec => exact keepsHostSide_of_startDec h
  | ser => exact keepsHostSide_of_startSer h
  | recon l => exact keepsHostSide_of_checkRange keepsHostSide_of_reconBody h

theorem keepsHostSide_of_raiseDecode (e : DecodeError) (s : State) : KeepsHostSide s (raiseDecode e s) := by
  obtain ⟨_, _, h⟩ := raiseDecode_eq e s
  rw [h]
  exact ⟨rfl, rfl, rfl, rfl, rfl, rfl⟩

theorem keepsHostSide_of_microStep {s t : State} (h : microStep s = .moved t) : KeepsHostSide s t := by
  unfold microStep at h
  split at h
  · unfold beginCommand at h
    split at h
    · exact keepsHostSide_of_startInstr h
    · cases h; exact keepsHostSide_of_raiseDecode ..
  · exact keepsHostSide_of_advance h

theorem keepsHostSide_of_exec {i : Instr} {s t : State} (h : exec i s = .next t) : KeepsHostSide s t := by
  rw [exec_eq_runFrom] at h
  cases hc : startInstr i s with
  | moved u =>
    rw [hc] at h
    exact (keepsHostSide_of_startInstr hc).trans (keepsHostSide_of_runJob h)
  | waiting => exact absurd hc (startInstr_ne_waiting i s)
  | broken f => rw [hc] at h; cases h

theorem keepsHostSide_of_coreTurn {s t : State} (h : coreTurn s = .next t) : KeepsHostSide s t := by
  unfold coreTurn at h
  split at h
  · split at h <;> cases h
    · exact keepsHostSide_of_microStep ‹_›
    · exact .refl s
  · cases h; exact .refl s

theorem keepsHostSide_of_runTurn {s t : State} (h : runTurn s = .next t) : KeepsHostSide s t := by
  unfold runTurn at h
  split at h
  · split at h
    · exact keepsHostSide_of_runJob h
    · split at h
      · exact keepsHostSide_of_exec h
      · cases h; exact keepsHostSide_of_raiseDecode ..
  · cases h; exact .refl s

/-! ## Who writes CMD_LO and CMD_HI -/

/-- Only an aligned access at a register's offset reaches it. -/
theorem accessed_eq_some {p : Params} {addr : Nat} {size : AccessSize} {r : Reg} (h : accessed p addr size = some r) :
    ∃ off, addr = p.base + off ∧ size = .bits32 ∧ regAt off = some r := by
  unfold accessed at h
  split at h
  · rename_i hc
    exact ⟨addr - p.base, by omega, hc.1, h⟩
  · cases h

theorem regAt_eq_cmdLo {off : Nat} (h : regAt off = some .cmdLo) : off = 0 := by
  unfold regAt at h
  split at h <;> cases h
  rfl

theorem regAt_eq_cmdHi {off : Nat} (h : regAt off = some .cmdHi) : off = 4 := by
  unfold regAt at h
  split at h <;> cases h
  rfl

theorem hostProtocolError_keepsHostSide (e : ErrorCode) (i : Word) (c : Command) (s : State) :
    KeepsHostSide s (hostProtocolError e i c s) := by
  rcases hostProtocolError_cases e i c s with ⟨h, -⟩ | ⟨h, -⟩ | ⟨h, -⟩ <;> rw [h] <;>
    exact ⟨rfl, rfl, rfl, rfl, rfl, rfl⟩

/-- The command registers after a push. -/
theorem pushByte_cmd (b : Byte) (s : State) : (pushByte b s).cmdLo = s.cmdLo ∧ (pushByte b s).cmdHi = s.cmdHi := by
  rcases pushByte_cases b s with ⟨-, -, h⟩ | ⟨-, i, h⟩ <;> rw [h]
  · exact ⟨rfl, rfl⟩
  · have := hostProtocolError_keepsHostSide .inputProtocol i (commandInProgress s) { s with draws := s.draws + 1 }
    exact ⟨this.cmdLo, this.cmdHi⟩

/-- A CMD_HI write stores its value and leaves CMD_LO alone, in every mode. -/
theorem writeCmdHi_cmd (v : Word) (s : State) : (writeCmdHi v s).cmdLo = s.cmdLo ∧ (writeCmdHi v s).cmdHi = v := by
  rcases writeCmdHi_cases v s with ⟨-, h⟩ | ⟨-, h⟩ | ⟨-, h⟩ <;> rw [h]
  · exact ⟨rfl, rfl⟩
  · have := hostProtocolError_keepsHostSide .cmdOverrun 0 (joinWords v s.cmdLo) { s with cmdHi := v }
    exact ⟨this.cmdLo, this.cmdHi⟩
  · exact ⟨rfl, rfl⟩

/-- A register write that is no reset changes CMD_LO only at CMD_LO, and CMD_HI only at CMD_HI. -/
theorem writeReg_cmd {r : Reg} {v : Word} {s : State} (h : ¬ (r = .ctrl ∧ v.getLsbD 0 = true)) :
    ((writeReg r v s).cmdLo ≠ s.cmdLo → r = .cmdLo) ∧ ((writeReg r v s).cmdHi ≠ s.cmdHi → r = .cmdHi) := by
  cases r with
  | cmdLo => exact ⟨fun _ => rfl, fun hn => absurd rfl hn⟩
  | cmdHi => exact ⟨fun hn => absurd (writeCmdHi_cmd v s).1 hn, fun _ => rfl⟩
  | inData => exact ⟨fun hn => absurd (pushByte_cmd _ s).1 hn, fun hn => absurd (pushByte_cmd _ s).2 hn⟩
  | inCtrl => simp only [writeReg]; split <;> exact ⟨fun hn => absurd rfl hn, fun hn => absurd rfl hn⟩
  | ctrl =>
    have hv : v.getLsbD 0 = false := by simpa using h
    simp only [writeReg, hv]
    exact ⟨fun hn => absurd rfl hn, fun hn => absurd rfl hn⟩
  | _ => exact ⟨fun hn => absurd rfl hn, fun hn => absurd rfl hn⟩

theorem readEffect_cmd (r : Reg) (s : State) : (readEffect r s).cmdLo = s.cmdLo ∧ (readEffect r s).cmdHi = s.cmdHi := by
  rw [readEffect_eq]
  exact ⟨rfl, rfl⟩

/-- A host transaction that changes a command register is a reset or the write of that register. -/
theorem hostTurn_cmd {op : HostOp} {s t : State} (h : hostTurn op s = .next t) :
    (t.cmdLo ≠ s.cmdLo → isReset s.params (.host op) = true ∨ ∃ w, op = .write s.params.base .bits32 w) ∧
    (t.cmdHi ≠ s.cmdHi → isReset s.params (.host op) = true ∨ ∃ w, op = .write (s.params.base + 4) .bits32 w) := by
  cases op with
  | resetInput => exact ⟨fun _ => .inl rfl, fun _ => .inl rfl⟩
  | read addr size =>
    simp only [hostTurn] at h
    split at h <;> cases h
    exact ⟨fun hn => absurd (readEffect_cmd _ s).1 hn, fun hn => absurd (readEffect_cmd _ s).2 hn⟩
  | write addr size v =>
    simp only [hostTurn] at h
    split at h
    · cases h
    · rename_i r hacc
      cases h
      obtain ⟨off, rfl, rfl, hoff⟩ := accessed_eq_some hacc
      by_cases hreset : r = .ctrl ∧ v.getLsbD 0 = true
      · have hr : isReset s.params (.host (.write (s.params.base + off) .bits32 v)) = true := by
          simp only [isReset, hacc, hreset, decide_true, Bool.and_self]
        exact ⟨fun _ => .inl hr, fun _ => .inl hr⟩
      · obtain ⟨hlo, hhi⟩ := writeReg_cmd (s := s) hreset
        refine ⟨fun hn => .inr ?_, fun hn => .inr ?_⟩
        · cases hlo hn
          cases regAt_eq_cmdLo hoff
          exact ⟨v, rfl⟩
        · cases hhi hn
          cases regAt_eq_cmdHi hoff
          exact ⟨v, rfl⟩

/-- A step that changes a command register takes a host turn: a reset, or the write of that register. -/
theorem step_cmd {a b : State} (h : step a = .next b) :
    (b.cmdLo ≠ a.cmdLo → ∃ turn later, a.agenda = turn :: later ∧
      (isReset a.params turn = true ∨ ∃ w, turn = .host (.write a.params.base .bits32 w))) ∧
    (b.cmdHi ≠ a.cmdHi → ∃ turn later, a.agenda = turn :: later ∧
      (isReset a.params turn = true ∨ ∃ w, turn = .host (.write (a.params.base + 4) .bits32 w))) := by
  match ha : a.agenda with
  | [] =>
    have hk := keepsHostSide_of_runTurn ((step_of_agenda_nil ha).symm.trans h)
    exact ⟨fun hn => absurd hk.cmdLo hn, fun hn => absurd hk.cmdHi hn⟩
  | .core :: rest =>
    have hk := keepsHostSide_of_coreTurn ((step_of_core ha).symm.trans h)
    exact ⟨fun hn => absurd hk.cmdLo hn, fun hn => absurd hk.cmdHi hn⟩
  | .run :: rest =>
    have hk := keepsHostSide_of_runTurn ((step_of_run ha).symm.trans h)
    exact ⟨fun hn => absurd hk.cmdLo hn, fun hn => absurd hk.cmdHi hn⟩
  | .host op :: rest =>
    obtain ⟨hlo, hhi⟩ := hostTurn_cmd ((step_of_host ha).symm.trans h)
    exact ⟨fun hn => ⟨_, _, rfl, (hlo hn).imp_right fun ⟨w, e⟩ => ⟨w, by rw [e]⟩⟩,
      fun hn => ⟨_, _, rfl, (hhi hn).imp_right fun ⟨w, e⟩ => ⟨w, by rw [e]⟩⟩⟩

/-! ## The statements about the registers -/

/-- Settles O46: either source is a reset turn, whose step is `resetCore`. -/
theorem resetGivesTheResetValues : Obligations.ResetGivesTheResetValues := by
  intro s rest turn hag hsrc
  have hstep := step_of_isReset hag (isReset_of_source hsrc)
  refine ⟨_, hstep, ?_⟩
  simp [statusWord_resetCore, fifoStatusWord_resetCore, Tree.leafAt, Tree.cleared, Tree.nfree]

/-- Settles O53, by the fields of `statusWith`. -/
theorem statusShowsTheState : Obligations.StatusShowsTheState := by
  intro s w
  obtain ⟨tree, wn, rcur, hw, hexact⟩ := statusWord_eq_statusWith s
  have hw : w = statusWith s tree wn rcur := hw
  rw [hw]
  refine ⟨statusWith_busy .., statusWith_halted .., fun n hn => ?_, statusWith_inClosed .., statusWith_holdIn ..,
    statusWith_holdOut .., statusWith_pend .., statusWith_reserved .., ?_, ?_, fun hmode => ?_⟩
  · rw [statusWith_err]
    generalize s.err = e at hn
    cases e <;> simp at hn <;> simp [errorCode, hn]
  · rw [statusWith_tree]; exact treeCode_toNat_le tree
  · rw [statusWith_rcur]; exact cursorCode_toNat_le rcur
  · obtain ⟨rfl, rfl, rfl⟩ := hexact hmode
    rw [statusWith_wn, statusWith_rcur, statusWith_tree]
    refine ⟨Nat.mod_eq_of_lt s.wn.isLt, cursorCode_toNat _, fun hr => ?_, fun r n hr hn => ?_⟩
    · rw [kind_of_root_none hr]; rfl
    · rw [kind_of_root_some hr hn]; split <;> rfl

/-- Settles O54: the depths are below 2^16, and the levels within the depths. -/
theorem configAndFifoRegisters : Obligations.ConfigAndFifoRegisters := by
  intro s hp hch
  simp only [Params.wf, decide_eq_true_eq] at hp
  simp only [channelsOk, decide_eq_true_eq] at hch
  obtain ⟨-, hin, -, hout⟩ := hp
  obtain ⟨hinq, houtq⟩ := hch
  obtain ⟨hres, hres'⟩ := configWord_reserved s.params
  have hwidth := Nat.mod_eq_of_lt (width_bits_lt s.params.width)
  have hdepths := halves_toNat hout hin
  have hlevels := halves_toNat (houtq.trans hout) (hinq.trans hin)
  refine ⟨?_, hres, ?_, hres', hdepths.1, hdepths.2, hlevels.1, hlevels.2, rfl, rfl, rfl, rfl, rfl, fifoStatusWord_resetCore s⟩
  · rw [configWord_width]; exact hwidth
  · rw [configWord_freqWidth]; rfl

/-- The registers of R23 with their values: each pair is an offset and what its register reads. -/
theorem regAt_of_listed {s : State} {off : Nat} {v : Word}
    (h : (off, v) ∈ [(0x00, s.cmdLo), (0x04, s.cmdHi), (0x08, statusWord s), (0x0C, s.result), (0x10, s.errInfo),
      (0x14, s.errCmdLo), (0x18, s.errCmdHi), (0x1C, configWord s.params), (0x20, fifoConfigWord s.params),
      (0x24, fifoStatusWord s), (0x28, 0), (0x2C, 0), (0x30, readValue .outData s), (0x34, 0), (0x38, 0), (0x3C, 0)]) :
    ∃ r, regAt off = some r ∧ readValue r s = v ∧ (r = .outData ↔ off = 0x30) ∧ (r = .status ↔ off = 0x08) := by
  simp only [List.mem_cons, List.not_mem_nil, or_false, Prod.mk.injEq] at h
  rcases h with ⟨rfl, rfl⟩ | ⟨rfl, rfl⟩ | ⟨rfl, rfl⟩ | ⟨rfl, rfl⟩ | ⟨rfl, rfl⟩ | ⟨rfl, rfl⟩ | ⟨rfl, rfl⟩ | ⟨rfl, rfl⟩ |
    ⟨rfl, rfl⟩ | ⟨rfl, rfl⟩ | ⟨rfl, rfl⟩ | ⟨rfl, rfl⟩ | ⟨rfl, rfl⟩ | ⟨rfl, rfl⟩ | ⟨rfl, rfl⟩ | ⟨rfl, rfl⟩ <;>
    exact ⟨_, rfl, rfl, by decide, by decide⟩

/-- Settles O47: the register at the offset, then `readEffect_eq`. -/
theorem hostReadsAreObserved : Obligations.HostReadsAreObserved := by
  intro s rest off v hv hag
  obtain ⟨r, hr, rfl, hout, hstatus⟩ := regAt_of_listed hv
  rw [step_hostRead hr hag, readValue_agenda, readEffect_eq]
  simp only [hout, hstatus]

/-- Settles O48: the writes by `writeCmdHi`'s three answers, and `step_cmd` for who else writes. -/
theorem commandRegistersStoreIssueOrOverrun : Obligations.CommandRegistersStoreIssueOrOverrun := by
  refine ⟨fun s rest v h => step_hostWrite (off := 0) rfl h, fun s rest v h => ?_, fun s rest => ⟨fun h => ?_, fun h => ?_⟩,
    fun a b h => step_cmd h, fun s => ⟨rfl, rfl⟩⟩
  · have hstep : step s = .next (writeCmdHi v { s with agenda := rest }) := step_hostWrite (off := 4) rfl h
    rw [hstep]
    refine ⟨fun hm => ?_, fun hm hp => ?_, fun hm hp => ?_, fun hm => ?_⟩
    · simp only [writeCmdHi, hm, joinWords]
    · simp [writeCmdHi, hm, hostProtocolError, hp, joinWords]
    · simp [writeCmdHi, hm, hostProtocolError, hp]
    · simp only [writeCmdHi, hm]
  · exact step_hostRead (off := 0) rfl h
  · exact step_hostRead (off := 4) rfl h

/-- Settles O50: a read of OUT_DATA shows the head of OUTQ and leaves its tail. -/
theorem outDataPopsTheOldestByte : Obligations.OutDataPopsTheOldestByte := by
  intro s rest
  refine ⟨fun b q h hq => ?_, fun h hq => ?_, fun v h => step_hostWrite (off := 0x30) rfl h⟩
  · rw [step_hostRead (off := 0x30) (r := .outData) rfl h]
    simp [readEffect, readValue, hq]
  · rw [step_hostRead (off := 0x30) (r := .outData) rfl h]
    simp [readEffect, readValue, hq]

end Sys2Proof.Machine
end

section
/-! PROOF. The tree registers: what a tree held in the arena says of each node, of LEAF and NLEAVES, of the tree class and
of the index width (spec/10_state.md R37 to R41, spec/00_scope.md R6). -/

namespace Sys2Proof.Machine

/-! ## Lists without repetition -/

/-- A list without repetition inside a list no longer than itself has all of that list's elements. -/
theorem mem_of_nodup_of_length_le {α : Type} {l m : List α} (hl : l.Nodup) (hsub : l ⊆ m) (hlen : m.length ≤ l.length)
    {x : α} (hx : x ∈ m) : x ∈ l :=
  ((hl.subperm hsub).perm_of_length_le hlen).symm.subset hx

theorem keys_nodup_of_rising {α : Type} {t : Table α} (h : Table.rising t = true) : (t.map Prod.fst).Nodup := by
  induction t with
  | nil => exact List.nodup_nil
  | cons e t ih =>
    obtain ⟨habove, ht⟩ := rising_cons_iff.mp h
    refine List.nodup_cons.mpr ⟨fun hmem => ?_, ih ht⟩
    obtain ⟨e', he', heq⟩ := List.mem_map.mp hmem
    exact absurd heq (Nat.ne_of_gt (habove e' he'))

/-- A canonical LEAF has at most N entries. -/
theorem leaf_length_le {w : Width} {l : Table Nat} (h : leafWf w l = true) : l.length ≤ w.alphabet := by
  obtain ⟨hrising, hbelow⟩ := leafWf_iff.mp h
  have hsub : l.map Prod.fst ⊆ List.range w.alphabet := fun k hk => by
    obtain ⟨e, he, rfl⟩ := List.mem_map.mp hk
    exact List.mem_range.mpr (hbelow e he)
  simpa using ((keys_nodup_of_rising hrising).subperm hsub).length_le

/-! ## The parts of a tree's description -/

theorem leavesListed_iff {w : Width} {t : Tree} {ls : List (Symbol × Nat)} : leavesListed w t ls = true ↔
    leafWf w t.leaf = true ∧ t.leaf.length = ls.length ∧ t.nleaves = ls.length ∧ (ls.map Prod.fst).Nodup ∧
      ∀ e ∈ ls, t.leafAt e.1 = some e.2 := by
  simp only [leavesListed, Bool.and_eq_true, decide_eq_true_eq, List.all_eq_true, and_assoc]

theorem isTree_iff {w : Width} {t : Tree} {p : PTree} : isTree w t p = true ↔
    t.root = some p.index ∧ spells t none false p = true ∧ p.indices.Nodup ∧ t.nfree = p.indices.length ∧
      leavesListed w t p.leaves = true := by
  simp only [isTree, Bool.and_eq_true, decide_eq_true_eq, and_assoc]

theorem spells_leaf_iff {t : Tree} {par : Option Nat} {isz : Bool} {i : Nat} {x : Symbol} :
    spells t par isz (.leaf i x) = true ↔
    ∃ n, nodeAt t i = some n ∧ n.sym = x ∧ n.zero = none ∧ n.one = none ∧ n.parent = par ∧ n.isz = isz := by
  cases hn : nodeAt t i <;> simp [spells, hn]

theorem spells_node_iff {t : Tree} {par : Option Nat} {isz : Bool} {i : Nat} {z o : PTree} :
    spells t par isz (.node i z o) = true ↔
    (∃ n, nodeAt t i = some n ∧ n.zero = some z.index ∧ n.one = some o.index ∧ n.parent = par ∧ n.isz = isz ∧
      n.count = countAt t z.index + countAt t o.index) ∧
    spells t (some i) true z = true ∧ spells t (some i) false o = true := by
  cases hn : nodeAt t i <;> simp [spells, hn, and_assoc]

/-- The root of a tree held below a parent. -/
theorem nodeAt_index_of_spells {t : Tree} {par : Option Nat} {isz : Bool} {p : PTree} (h : spells t par isz p = true) :
    ∃ n, nodeAt t p.index = some n ∧ n.parent = par ∧ n.isz = isz ∧ (n.zero = none ↔ p.isLeaf = true) := by
  cases p with
  | leaf i x =>
    obtain ⟨n, hn, -, hz, -, hp, hi⟩ := spells_leaf_iff.mp h
    exact ⟨n, hn, hp, hi, by simp [hz, PTree.isLeaf]⟩
  | node i z o =>
    obtain ⟨⟨n, hn, hz, -, hp, hi, -⟩, -, -⟩ := spells_node_iff.mp h
    exact ⟨n, hn, hp, hi, by simp [hz, PTree.isLeaf]⟩

theorem PTree.index_mem_indices (p : PTree) : p.index ∈ p.indices := by
  cases p <;> simp [PTree.index, PTree.indices]

theorem countAt_of_nodeAt {t : Tree} {i : Nat} {n : Node} (h : nodeAt t i = some n) : countAt t i = n.count := by
  simp [countAt, h]

/-- Every node of the tree is the root of a part of it; only the tree's own root takes its parent from outside. -/
theorem spells_part {t : Tree} {i : Nat} {p : PTree} (hi : i ∈ p.indices) : ∀ {par : Option Nat} {isz : Bool},
    spells t par isz p = true → ∃ q par' isz', spells t par' isz' q = true ∧ q.index = i ∧ q.leaves ⊆ p.leaves ∧
      (i = p.index ∧ par' = par ∨ par' ≠ none) := by
  induction p with
  | leaf j x =>
    intro par isz h
    exact ⟨_, par, isz, h, (List.mem_singleton.mp hi).symm, List.Subset.refl _, .inl ⟨List.mem_singleton.mp hi, rfl⟩⟩
  | node j z o ihz iho =>
    intro par isz h
    obtain ⟨-, hz, ho⟩ := spells_node_iff.mp h
    rcases List.mem_cons.mp hi with rfl | hi
    · exact ⟨_, par, isz, h, rfl, List.Subset.refl _, .inl ⟨rfl, rfl⟩⟩
    · rcases List.mem_append.mp hi with hi | hi
      · obtain ⟨q, par', isz', hq, hidx, hsub, hpar⟩ := ihz hi hz
        exact ⟨q, par', isz', hq, hidx, List.Subset.trans hsub (List.subset_append_left ..),
          .inr (hpar.elim (fun ⟨_, e⟩ => by simp [e]) id)⟩
      · obtain ⟨q, par', isz', hq, hidx, hsub, hpar⟩ := iho hi ho
        exact ⟨q, par', isz', hq, hidx, List.Subset.trans hsub (List.subset_append_right ..),
          .inr (hpar.elim (fun ⟨_, e⟩ => by simp [e]) id)⟩

theorem nodeAt_of_mem_indices {t : Tree} {par : Option Nat} {isz : Bool} {p : PTree} (h : spells t par isz p = true)
    {i : Nat} (hi : i ∈ p.indices) : ∃ n, nodeAt t i = some n := by
  obtain ⟨q, _, _, hq, rfl, -⟩ := spells_part hi h
  obtain ⟨n, hn, -⟩ := nodeAt_index_of_spells hq
  exact ⟨n, hn⟩

/-- A listed leaf of the tree is a node of the arena with its symbol and no child. -/
theorem nodeAt_of_mem_leaves {t : Tree} {x : Symbol} {i : Nat} {p : PTree} (hi : (x, i) ∈ p.leaves) :
    ∀ {par : Option Nat} {isz : Bool}, spells t par isz p = true →
      ∃ n, nodeAt t i = some n ∧ n.sym = x ∧ n.zero = none := by
  induction p with
  | leaf j y =>
    intro par isz h
    cases List.mem_singleton.mp hi
    obtain ⟨n, hn, hx, hz, -⟩ := spells_leaf_iff.mp h
    exact ⟨n, hn, hx, hz⟩
  | node j z o ihz iho =>
    intro par isz h
    obtain ⟨-, hz, ho⟩ := spells_node_iff.mp h
    rcases List.mem_append.mp hi with hi | hi
    · exact ihz hi hz
    · exact iho hi ho

theorem PTree.leaves_length_pos (p : PTree) : 0 < p.leaves.length := by
  induction p with
  | leaf i x => exact Nat.one_pos
  | node i z o ihz _ => simp only [PTree.leaves, List.length_append]; omega

/-- A tree of L leaves has 2L - 1 nodes. -/
theorem PTree.indices_length (p : PTree) : p.indices.length + 1 = 2 * p.leaves.length := by
  induction p with
  | leaf i x => rfl
  | node i z o ihz iho => simp only [PTree.indices, PTree.leaves, List.length_cons, List.length_append]; omega

/-- One leaf is a SINGLE tree; every other tree has two or more. -/
theorem PTree.isLeaf_iff_leaves_length (p : PTree) : p.isLeaf = true ↔ p.leaves.length = 1 := by
  cases p with
  | leaf i x => exact ⟨fun _ => rfl, fun _ => rfl⟩
  | node i z o =>
    have hz := z.leaves_length_pos
    have ho := o.leaves_length_pos
    simp only [PTree.isLeaf, PTree.leaves, List.length_append, Bool.false_eq_true, false_iff]
    omega

/-! ## R40 at one node -/

/-- The clauses of R40 that relate a node to its children. -/
structure ChildrenAgree (t : Tree) (i : Nat) (n : Node) : Prop where
  bothOrNone : n.zero = none ↔ n.one = none
  count : ∀ z o a b, n.zero = some z → n.one = some o → nodeAt t z = some a → nodeAt t o = some b →
    n.count = a.count + b.count
  zeroChild : ∀ c, n.zero = some c → ∃ m, nodeAt t c = some m ∧ m.parent = some i ∧ m.isz = true
  oneChild : ∀ c, n.one = some c → ∃ m, nodeAt t c = some m ∧ m.parent = some i ∧ m.isz = false

theorem childrenAgree_of_spells {t : Tree} {par : Option Nat} {isz : Bool} {p : PTree} (h : spells t par isz p = true)
    {n : Node} (hn : nodeAt t p.index = some n) : ChildrenAgree t p.index n := by
  cases p with
  | leaf i x =>
    obtain ⟨n', hn', -, hzero, hone, -⟩ := spells_leaf_iff.mp h
    cases hn'.symm.trans hn
    constructor <;> simp [hzero, hone]
  | node i z o =>
    obtain ⟨⟨n', hn', hzero, hone, -, -, hcount⟩, hz, ho⟩ := spells_node_iff.mp h
    cases hn'.symm.trans hn
    obtain ⟨a, ha, hap, haz, -⟩ := nodeAt_index_of_spells hz
    obtain ⟨b, hb, hbp, hbz, -⟩ := nodeAt_index_of_spells ho
    refine ⟨by simp [hzero, hone], fun z' o' a' b' hz' ho' ha' hb' => ?_, fun c hc => ?_, fun c hc => ?_⟩
    · cases hzero.symm.trans hz'
      cases hone.symm.trans ho'
      rw [hcount, countAt_of_nodeAt ha', countAt_of_nodeAt hb']
    · cases hzero.symm.trans hc
      exact ⟨a, ha, hap, haz⟩
    · cases hone.symm.trans hc
      exact ⟨b, hb, hbp, hbz⟩

/-- A childless node at the root of a part is a leaf of that part. -/
theorem leaf_of_spells {t : Tree} {par : Option Nat} {isz : Bool} {p : PTree} (h : spells t par isz p = true)
    {n : Node} (hn : nodeAt t p.index = some n) (hzero : n.zero = none) : (n.sym, p.index) ∈ p.leaves := by
  cases p with
  | leaf i x =>
    obtain ⟨n', hn', rfl, -⟩ := spells_leaf_iff.mp h
    cases hn'.symm.trans hn
    exact List.mem_singleton.mpr rfl
  | node i z o =>
    obtain ⟨⟨n', hn', hz, -⟩, -, -⟩ := spells_node_iff.mp h
    cases hn'.symm.trans hn
    rw [hzero] at hz
    cases hz

/-! ## A tree held by the registers -/

/-- LEAF lists the leaves of the tree and nothing else. -/
theorem leafAt_eq_some_iff {w : Width} {t : Tree} {ls : List (Symbol × Nat)} (h : leavesListed w t ls = true)
    (x : Symbol) (i : Nat) : t.leafAt x = some i ↔ (x, i) ∈ ls := by
  obtain ⟨hwf, hlen, -, hnodup, hat⟩ := leavesListed_iff.mp h
  obtain ⟨hrising, -⟩ := leafWf_iff.mp hwf
  refine ⟨fun hx => ?_, fun hx => hat _ hx⟩
  have hsub : ls.map (fun e => (e.1.toNat, e.2)) ⊆ t.leaf := fun e he => by
    obtain ⟨e', he', rfl⟩ := List.mem_map.mp he
    exact (find_eq_some_iff_mem hrising).mp (hat e' he')
  have hinj : (ls.map fun e => (e.1.toNat, e.2)).Nodup := by
    refine hnodup.of_map.map fun a b hab => ?_
    obtain ⟨h1, h2⟩ := Prod.mk.injEq .. ▸ hab
    exact Prod.ext (BitVec.eq_of_toNat_eq h1) h2
  have hin := mem_of_nodup_of_length_le hinj hsub (by simp [hlen]) ((find_eq_some_iff_mem hrising).mp hx)
  obtain ⟨⟨y, j⟩, he, heq⟩ := List.mem_map.mp hin
  obtain ⟨h1, h2⟩ := Prod.mk.injEq .. ▸ heq
  cases BitVec.eq_of_toNat_eq h1
  cases h2
  exact he

section
variable {w : Width} {t : Tree} {p : PTree} (h : isTree w t p = true)
include h

theorem isTree_spells : spells t none false p = true := by
  obtain ⟨-, hspells, -⟩ := isTree_iff.mp h
  exact hspells

theorem isTree_leavesListed : leavesListed w t p.leaves = true := by
  obtain ⟨-, -, -, -, hleaves⟩ := isTree_iff.mp h
  exact hleaves

/-- Every allocated node is a node of the tree. -/
theorem mem_indices_of_nodeAt {i : Nat} {n : Node} (hn : nodeAt t i = some n) : i ∈ p.indices := by
  obtain ⟨-, hspells, hnodup, hlen, -⟩ := isTree_iff.mp h
  have hsub : p.indices ⊆ List.range t.nfree := fun j hj => by
    obtain ⟨m, hm⟩ := nodeAt_of_mem_indices hspells hj
    exact List.mem_range.mpr (nodeAt_lt_nfree hm)
  exact mem_of_nodup_of_length_le hnodup hsub (by simp [hlen]) (List.mem_range.mpr (nodeAt_lt_nfree hn))

theorem isTree_childrenAgree {i : Nat} {n : Node} (hn : nodeAt t i = some n) : ChildrenAgree t i n := by
  obtain ⟨q, _, _, hq, rfl, -⟩ := spells_part (mem_indices_of_nodeAt h hn) (isTree_spells h)
  exact childrenAgree_of_spells hq hn

/-- The root is the one node without a parent. -/
theorem isTree_parent_none_iff {i : Nat} {n : Node} (hn : nodeAt t i = some n) : n.parent = none ↔ t.root = some i := by
  obtain ⟨hroot, hspells, -⟩ := isTree_iff.mp h
  constructor
  · intro hnone
    obtain ⟨q, par, isz, hq, rfl, -, hpar⟩ := spells_part (mem_indices_of_nodeAt h hn) hspells
    obtain ⟨m, hm, hmp, -⟩ := nodeAt_index_of_spells hq
    cases hm.symm.trans hn
    rcases hpar with ⟨hidx, -⟩ | hpar
    · rw [hroot, hidx]
    · exact absurd (hmp.symm.trans hnone) hpar
  · intro hi
    cases hroot.symm.trans hi
    obtain ⟨m, hm, hmp, -⟩ := nodeAt_index_of_spells hspells
    cases hm.symm.trans hn
    exact hmp

theorem isTree_leafAt_sym {i : Nat} {n : Node} (hn : nodeAt t i = some n) (hzero : n.zero = none) :
    t.leafAt n.sym = some i := by
  obtain ⟨q, _, _, hq, rfl, hsub, -⟩ := spells_part (mem_indices_of_nodeAt h hn) (isTree_spells h)
  exact (leafAt_eq_some_iff (isTree_leavesListed h) _ _).mpr (hsub (leaf_of_spells hq hn hzero))

theorem isTree_nodeAt_of_leafAt {x : Symbol} {i : Nat} (hx : t.leafAt x = some i) :
    ∃ n, nodeAt t i = some n ∧ n.sym = x ∧ n.zero = none :=
  nodeAt_of_mem_leaves ((leafAt_eq_some_iff (isTree_leavesListed h) _ _).mp hx) (isTree_spells h)

/-- NLEAVES counts the leaves, and the arena holds 2 * NLEAVES - 1 nodes. -/
theorem isTree_sizes : t.nleaves = p.leaves.length ∧ t.nleaves = t.leaf.length ∧ t.nfree + 1 = 2 * t.nleaves := by
  obtain ⟨-, -, -, hnfree, hleaves⟩ := isTree_iff.mp h
  obtain ⟨-, hlen, hnleaves, -⟩ := leavesListed_iff.mp hleaves
  exact ⟨hnleaves, hnleaves.trans hlen.symm, by rw [hnfree, hnleaves, p.indices_length]⟩

theorem isTree_nleaves_le : t.nleaves ≤ w.alphabet := by
  obtain ⟨hwf, hlen, hnleaves, -⟩ := leavesListed_iff.mp (isTree_leavesListed h)
  rw [hnleaves, ← hlen]
  exact leaf_length_le hwf

theorem isTree_kind : t.kind = if t.nleaves = 1 then .single else .full := by
  obtain ⟨hroot, hspells, -⟩ := isTree_iff.mp h
  obtain ⟨n, hn, -, -, hleaf⟩ := nodeAt_index_of_spells hspells
  rw [kind_of_root_some hroot hn, (isTree_sizes h).1]
  simp only [hleaf, p.isLeaf_iff_leaves_length]

end

/-! ## What holds of a tree, EMPTY or not -/

@[simp] theorem nodeAt_cleared (i : Nat) : nodeAt Tree.cleared i = none := rfl

@[simp] theorem leafAt_cleared (x : Symbol) : Tree.cleared.leafAt x = none := rfl

theorem alphabet_pos (w : Width) : 0 < w.alphabet := Nat.two_pow_pos _

theorem two_pow_indexBits (w : Width) : 2 ^ w.indexBits = 2 * w.alphabet := Nat.pow_succ'

/-- The sizes of R6. -/
theorem treeOk_sizes {w : Width} {t : Tree} (h : treeOk w t) :
    t.nleaves = t.leaf.length ∧ t.nleaves ≤ w.alphabet ∧ t.nfree ≤ w.nodeMax := by
  rcases h with rfl | ⟨p, h⟩
  · exact ⟨rfl, Nat.zero_le _, Nat.zero_le _⟩
  · obtain ⟨-, hleaf, hnfree⟩ := isTree_sizes h
    have hle := isTree_nleaves_le h
    refine ⟨hleaf, hle, ?_⟩
    simp only [Width.nodeMax]
    omega

/-- The classes of R41. -/
theorem treeOk_kind {w : Width} {t : Tree} (h : treeOk w t) :
    (t.kind = .empty ↔ t.nleaves = 0) ∧ (t.kind = .single ↔ t.nleaves = 1) ∧ (t.kind = .full ↔ 2 ≤ t.nleaves) := by
  rcases h with rfl | ⟨p, h⟩
  · decide
  · have hpos : 0 < t.nleaves := (isTree_sizes h).1 ▸ p.leaves_length_pos
    rw [isTree_kind h]
    split <;> simp <;> omega

/-- An index below NODE_MAX is its own IDX_W bits, which are not NIL's (R37, R38). -/
theorem indexWord_some {w : Width} {i : Nat} (hi : i < w.nodeMax) :
    (indexWord w (some i)).toNat = i ∧ indexWord w (some i) ≠ indexWord w none := by
  have hpow := two_pow_indexBits w
  simp only [Width.nodeMax] at hi
  have hsome : (indexWord w (some i)).toNat = i := by
    simp only [indexWord, BitVec.toNat_ofNat]
    exact Nat.mod_eq_of_lt (by omega)
  have hnone : (indexWord w none).toNat = 2 ^ w.indexBits - 1 := BitVec.toNat_allOnes
  refine ⟨hsome, fun he => ?_⟩
  have := congrArg BitVec.toNat he
  omega

theorem machineOk_iff {s : State} : machineOk s = true ↔
    s.params.wf = true ∧ Memory.wf s = true ∧ channelsOk s = true ∧ modeOk s = true ∧ padded s = true ∧
      jobLegal s = true := by
  simp only [machineOk, Bool.and_eq_true, and_assoc]

theorem modeOk_iff {s : State} : modeOk s = true ↔
    (s.mode ≠ .busy → s.job = none ∧ s.cmd = 0 ∧ s.pend = false) ∧
    (s.pend = true → s.pendCode = .cmdOverrun ∨ s.pendCode = .inputProtocol) ∧
    (s.err = .noError ↔ s.mode ≠ .halted) :=
  decide_eq_true_iff

/-- Outside BUSY no RECON is under way, so the tree invariant says that the registers hold a tree. -/
theorem treeOk_of_not_busy {s : State} (hm : machineOk s = true) (ht : treeInv s) (hb : s.mode ≠ .busy) :
    treeOk s.params.width s.tree := by
  obtain ⟨-, -, -, hmode, -⟩ := machineOk_iff.mp hm
  obtain ⟨hidle, -⟩ := modeOk_iff.mp hmode
  obtain ⟨hjob, -⟩ := hidle hb
  simpa only [treeInv, hjob] using ht

/-- Settles O60: the registers hold a tree as a value, whose parts give each node its clauses. -/
theorem treeInvariantsOfEveryNode : Obligations.TreeInvariantsOfEveryNode := by
  refine ⟨fun s => treeOk_of_not_busy, fun w t ht => ?_⟩
  obtain ⟨hleaf, hnleaves, hnfree⟩ := treeOk_sizes ht
  have hpos := alphabet_pos w
  have hpow := two_pow_indexBits w
  have hpow' : 2 ^ (w.bits + 1) = 2 * w.alphabet := hpow
  have hmax : w.nodeMax = 2 * w.alphabet - 1 := rfl
  refine ⟨fun i n hn => ?_, fun x i hx => ?_, hleaf, hnleaves, hnfree, by omega, by omega,
    fun i n hn => indexWord_some (Nat.lt_of_lt_of_le (nodeAt_lt_nfree hn) hnfree), treeOk_kind ht⟩
  · rcases ht with rfl | ⟨p, h⟩
    · cases hn
    · obtain ⟨hboth, hcount, hzero, hone⟩ := isTree_childrenAgree h hn
      exact ⟨hboth, hcount, hzero, hone, isTree_parent_none_iff h hn, isTree_leafAt_sym h hn⟩
  · rcases ht with rfl | ⟨p, h⟩
    · cases hx
    · exact isTree_nodeAt_of_leafAt h hx

end Sys2Proof.Machine
end

section
/-! PROOF. The byte channels: which micro-step reads INQ and which writes OUTQ, that holds on output are transparent, and
which host accesses have a meaning (spec/20_memory.md R62, R63, R71). -/

namespace Sys2Proof.Machine

/-! ## Accesses without a meaning -/

/-- Exactly the multiples of 4 below 0x40 name a register. -/
theorem regAt_isSome_iff (off : Nat) : (regAt off).isSome = true ↔ off % 4 = 0 ∧ off < 0x40 := by
  constructor
  · intro h
    unfold regAt at h
    split at h <;> simp_all
  · rintro ⟨hmod, hlt⟩
    interval_cases off <;> simp_all [regAt]

/-- A host access is refused exactly where it reaches no register. -/
theorem hostTurn_access {op : HostOp} {addr : Nat} {size : AccessSize} (s : State)
    (hop : (∃ v, op = .write addr size v) ∨ op = .read addr size) :
    (accessed s.params addr size = none → hostTurn op s = .refused .accessWithoutMeaning) ∧
    ((accessed s.params addr size).isSome = true → ∃ t, hostTurn op s = .next t) := by
  rcases hop with ⟨v, rfl⟩ | rfl <;> cases ha : accessed s.params addr size <;> simp [hostTurn, ha]

/-- Settles O52, by the offsets that name a register. -/
theorem meaninglessAccessesAreRefused : Obligations.MeaninglessAccessesAreRefused := by
  intro s rest op addr size hag hop
  rw [step_of_host hag]
  obtain ⟨hrefused, hnext⟩ := hostTurn_access { s with agenda := rest } hop
  have hreg := regAt_isSome_iff (addr - s.params.base)
  refine ⟨fun hbad => hrefused ?_, fun hsize hbase hmod hlt => hnext ?_⟩
  · by_cases hin : size = .bits32 ∧ s.params.base ≤ addr
    · rw [accessed, if_pos hin, ← Option.not_isSome_iff_eq_none, hreg]
      rcases hbad with h | h | h | h
      · exact absurd hin.1 h
      · omega
      · exact fun hc => h hc.1
      · omega
    · exact if_neg hin
  · rw [accessed, if_pos ⟨hsize, hbase⟩, hreg]
    exact ⟨hmod, by omega⟩

/-! ## What the reader's channel and the output channel do not decide -/

/-- The bit reader, the two byte channels and OUT_DEPTH: what a delivered bit neither looks at nor changes. -/
structure Channels where
  rbuf : Byte
  rcur : Option (Fin 8)
  inq : List Byte
  inClosed : Bool
  outq : List Byte
  outDepth : Nat

/-- The channels of a state. -/
def State.channels (s : State) : Channels := ⟨s.rbuf, s.rcur, s.inq, s.inClosed, s.outq, s.params.outDepth⟩

/-- The state with other channels. -/
def State.withChannels (c : Channels) (s : State) : State :=
  { s with rbuf := c.rbuf, rcur := c.rcur, inq := c.inq, inClosed := c.inClosed, outq := c.outq,
           params := { s.params with outDepth := c.outDepth } }

/-- A micro-step's answer with its state changed. -/
def CoreStep.map (f : State → State) : CoreStep → CoreStep
  | .moved s => .moved (f s)
  | .waiting => .waiting
  | .broken e => .broken e

section
variable (c : Channels)

@[simp] theorem withChannels_tree (s : State) : (s.withChannels c).tree = s.tree := rfl

@[simp] theorem withChannels_job (s : State) : (s.withChannels c).job = s.job := rfl

@[simp] theorem withChannels_width (s : State) : (s.withChannels c).params.width = s.params.width := rfl

@[simp] theorem finish_withChannels (s : State) : finish (s.withChannels c) = (finish s).withChannels c := by
  cases h : s.pend
  · rw [finish_of_not_pend h, finish_of_not_pend (s := s.withChannels c) h]; rfl
  · rw [finish_of_pend h, finish_of_pend (s := s.withChannels c) h]; rfl

theorem finishWith_withChannels (v : Word) (s : State) :
    finishWith v (s.withChannels c) = (finishWith v s).withChannels c :=
  finish_withChannels c { s with result := v }

theorem decStep_withChannels (i : Nat) (b : Bool) (k : Nat) (s : State) :
    decStep i b k (s.withChannels c) = (decStep i b k s).map (State.withChannels c) := by
  unfold decStep
  simp only [withChannels_tree, finishWith_withChannels]
  (repeat' split) <;> rfl

theorem reconInternal_withChannels (l n i k : Nat) (s : State) :
    reconInternal l n i k (s.withChannels c) = (reconInternal l n i k s).map (State.withChannels c) := by
  unfold reconInternal
  simp only [withChannels_tree]
  (repeat' split) <;> rfl

theorem reconNext_withChannels (l n i k : Nat) (s : State) :
    reconNext l n i k (s.withChannels c) = (reconNext l n i k s).map (State.withChannels c) := by
  unfold reconNext
  simp only [withChannels_tree, finish_withChannels]
  (repeat' split) <;> rfl

theorem reconLeaf_withChannels (l n i : Nat) (x : Symbol) (k : Nat) (s : State) :
    reconLeaf l n i x k (s.withChannels c) = (reconLeaf l n i x k s).map (State.withChannels c) := by
  unfold reconLeaf
  simp only [withChannels_tree]
  by_cases hx : s.tree.leafAt x = none
  · cases attach i s.tree.nfree (newNode 0 x s.tree) with
    | none => simp only [hx, ne_eq, not_true, if_false]; rfl
    | some t =>
      simp only [hx, ne_eq, not_true, if_false]
      exact reconNext_withChannels c l n i k { s with tree := listLeaf x s.tree.nfree t }
  · simp only [hx, ne_eq, not_false_eq_true, if_true]; rfl

/-- What a delivered bit does, it does whatever the channels are. -/
theorem deliver_withChannels (r : Reader) (b : Bool) (k : Nat) (s : State) :
    deliver r b k (s.withChannels c) = (deliver r b k s).map (State.withChannels c) := by
  cases r with
  | field left acc =>
    simp only [deliver, finishWith_withChannels]
    split <;> rfl
  | walk i => exact decStep_withChannels c i b k s
  | single left acc =>
    have hf := finish_withChannels c { s with tree := singleTree (shiftIn acc b) s.tree }
    simp only [deliver]
    split
    · exact congrArg CoreStep.moved hf
    · rfl
  | marker l n i =>
    simp only [deliver, reconInternal_withChannels]
    split <;> rfl
  | leaf l n i left acc =>
    simp only [deliver, reconLeaf_withChannels]
    split <;> rfl

/-- The range check looks at no channel. -/
theorem checkRange_withChannels (ok : Bool) {body : State → CoreStep} {s : State}
    (h : body (s.withChannels c) = (body s).map (State.withChannels c)) :
    checkRange ok body (s.withChannels c) = (checkRange ok body s).map (State.withChannels c) := by
  cases ok
  · rfl
  · exact h

theorem encBody_withChannels (x : Symbol) (s : State) :
    encBody x (s.withChannels c) = (encBody x s).map (State.withChannels c) := by
  unfold encBody
  simp only [withChannels_tree]
  (repeat' split) <;> rfl

theorem startDec_withChannels (s : State) : startDec (s.withChannels c) = (startDec s).map (State.withChannels c) := by
  unfold startDec
  simp only [withChannels_tree, finishWith_withChannels]
  (repeat' split) <;> rfl

theorem startSer_withChannels (s : State) : startSer (s.withChannels c) = (startSer s).map (State.withChannels c) := by
  unfold startSer
  simp only [withChannels_tree, withChannels_width]
  split <;> rfl

theorem reconBody_withChannels (l : Nat) (s : State) :
    reconBody l (s.withChannels c) = (reconBody l s).map (State.withChannels c) := by
  have hf := finish_withChannels c (clearTree s)
  unfold reconBody
  by_cases h0 : l = 0
  · simp only [h0, if_true]
    exact congrArg CoreStep.moved hf
  · by_cases h1 : l = 1 <;> simp only [h0, h1, if_true, if_false, Nat.one_ne_zero] <;> rfl

/-- How a command starts does not depend on the channels, but RRST, which resets the reader. -/
theorem startInstr_withChannels {i : Instr} (hi : i ≠ .rrst) (s : State) :
    startInstr i (s.withChannels c) = (startInstr i s).map (State.withChannels c) := by
  have hf := finish_withChannels c
  cases i with
  | rrst => exact absurd rfl hi
  | wbits n v => simp only [startInstr, startWbits]; exact checkRange_withChannels c _ rfl
  | flush =>
    simp only [startInstr, startFlush]
    by_cases hw : s.wn = 0
    · rw [if_pos hw, if_pos (show (s.withChannels c).wn = 0 from hw), hf]; rfl
    · rw [if_neg hw, if_neg (show ¬ (s.withChannels c).wn = 0 from hw)]; rfl
  | rbits n => simp only [startInstr, startRbits]; exact checkRange_withChannels c _ rfl
  | clrf => exact congrArg CoreStep.moved (hf { s with freq := [] })
  | setf x v =>
    simp only [startInstr, startSetf, withChannels_width]
    exact checkRange_withChannels c _ (congrArg CoreStep.moved (hf { s with freq := setFreq s.freq x v }))
  | getf x => 
    simp only [startInstr, startGetf, withChannels_width]
    exact checkRange_withChannels c _ (congrArg CoreStep.moved (finishWith_withChannels c (getFreq s.freq x) s))
  | build => exact congrArg CoreStep.moved (hf { s with tree := buildTree s.freq })
  | clrt => exact congrArg CoreStep.moved (hf (clearTree s))
  | nleaf => exact congrArg CoreStep.moved (finishWith_withChannels c _ s)
  | enc x => exact checkRange_withChannels c _ (encBody_withChannels c x s)
  | dec => exact startDec_withChannels c s
  | ser => exact startSer_withChannels c s
  | recon l => exact checkRange_withChannels c _ (reconBody_withChannels c _ s)

/-- The end of the stream is met alike whatever else the channels hold. -/
theorem endOfStream_withChannels (r : Reader) (k : Nat) (s : State) :
    endOfStream r k (s.withChannels c) = (endOfStream r k s).withChannels c := by
  rw [endOfStream_eq, endOfStream_eq]
  cases r.isRecon <;> rfl

end

theorem channels_endOfStream (r : Reader) (k : Nat) (s : State) : (endOfStream r k s).channels = s.channels := by
  rw [endOfStream_eq]
  cases r.isRecon <;> rfl

/-- RCUR after bit c of RBUF is taken. -/
def nextCursor (c : Fin 8) : Option (Fin 8) := if c = 0 then none else some (c - 1)

/-! The three answers of ReadBit that move (spec/40_bit_io.md R132). -/

theorem readBit_refill {s : State} {b : Byte} {q : List Byte} (hr : s.rcur = none) (hq : s.inq = b :: q) (r : Reader)
    (k : Nat) : readBit r k s = .moved { s with rbuf := b, rcur := some 7, inq := q } := by simp only [readBit, hr, hq]

theorem readBit_closed {s : State} (hr : s.rcur = none) (hq : s.inq = []) (hc : s.inClosed = true) (r : Reader)
    (k : Nat) : readBit r k s = .moved (endOfStream r k s) := by simp only [readBit, hr, hq, hc, if_true]

theorem readBit_bit {s : State} {c : Fin 8} (hr : s.rcur = some c) (r : Reader) (k : Nat) : readBit r k s =
    deliver r (s.rbuf.getLsbD c.val) (k + 1) { s with rcur := nextCursor c } := by
  simp only [readBit, hr, nextCursor]

/-- A delivered bit leaves the channels as they are. -/
theorem channels_of_delivered {s t : State} (h : Delivered s t) : t.channels = s.channels := by
  rcases h with ⟨_, _, rfl⟩ | ⟨_, _, rfl⟩ | ⟨_, _, _, rfl⟩ | ⟨_, _, _, rfl⟩ <;> simp [State.channels]

/-- A command's first micro-step leaves the channels as they are, but RRST's. -/
theorem channels_of_startInstr {i : Instr} (hi : i ≠ .rrst) {s t : State} (h : startInstr i s = .moved t) :
    t.channels = s.channels := by
  cases i with
  | rrst => exact absurd rfl hi
  | _ =>
    simp only [startInstr, startWbits, startFlush, startRbits, startClrf, startSetf, startGetf, startBuild, startClrt,
      startNleaf, startEnc, startDec, startSer, startRecon, checkRange, encBody, reconBody, finishWith] at h
    (repeat' split at h) <;> cases h <;> simp [State.channels]

/-! ## INQ and OUTQ under one micro-step -/

/-- A command's first micro-step touches neither channel. -/
theorem startInstr_channels {i : Instr} {s t : State} (h : startInstr i s = .moved t) :
    t.inq = s.inq ∧ t.outq = s.outq := by
  by_cases hi : i = .rrst
  · subst hi; cases h; exact ⟨rfl, rfl⟩
  · have hc := channels_of_startInstr hi h
    exact ⟨congrArg Channels.inq hc, congrArg Channels.outq hc⟩

/-- ReadBit takes the oldest byte of INQ or leaves INQ alone, and never touches OUTQ. -/
theorem readBit_channels {r : Reader} {k : Nat} {s t : State} (h : readBit r k s = .moved t) :
    t.outq = s.outq ∧
      (t.inq = s.inq ∨ ∃ b, s.rcur = none ∧ s.inq = b :: t.inq ∧ t.rbuf = b ∧ t.rcur = some 7) := by
  rcases readBit_cases r k s with ⟨b, q, hr, hq, e⟩ | ⟨-, -, -, e⟩ | ⟨-, -, -, e⟩ | ⟨c, -, e⟩ <;> rw [e] at h
  · cases h; exact ⟨rfl, .inr ⟨b, hr, hq, rfl, rfl⟩⟩
  · cases h; rw [endOfStream_eq]; split <;> exact ⟨rfl, .inl rfl⟩
  · cases h
  · have hc := channels_of_delivered (delivered_of_deliver h)
    exact ⟨congrArg Channels.outq hc, .inl (congrArg Channels.inq hc)⟩

/-- The channels after a micro-step of a command that has begun: InPop takes a byte, RRST empties INQ, OutPush appends. -/
theorem advance_channels {j : Job} {s t : State} (h : advance j s = .moved t) :
    (t.inq = s.inq ∨
      (∃ r k b, j = .read r k ∧ s.rcur = none ∧ s.inq = b :: t.inq ∧ t.rbuf = b ∧ t.rcur = some 7) ∨
      (j = .emptyInput ∧ t.inq = [])) ∧
    (t.outq = s.outq ∨ ∃ bits, j = .push bits ∧ s.outq.length < s.params.outDepth ∧ t.outq = s.outq ++ [s.wbuf]) := by
  match j with
  | .put [] => cases h; exact ⟨.inl (by simp), .inl (by simp)⟩
  | .put (b :: bits) =>
    cases h
    rcases writeBit_cases b bits s with ⟨-, e⟩ | ⟨-, e⟩ <;> rw [e] <;> exact ⟨.inl rfl, .inl rfl⟩
  | .push bits =>
    obtain ⟨hroom, rfl⟩ := outPush_moved h
    exact ⟨.inl rfl, .inr ⟨bits, rfl, hroom, rfl⟩⟩
  | .emptyInput => cases h; exact ⟨.inr (.inr ⟨rfl, rfl⟩), .inl rfl⟩
  | .reopenInput => cases h; exact ⟨.inl (by simp), .inl (by simp)⟩
  | .read r k =>
    obtain ⟨hout, hin | ⟨b, hrcur, hinq, hrbuf, hcur⟩⟩ := readBit_channels h
    · exact ⟨.inl hin, .inl hout⟩
    · exact ⟨.inr (.inl ⟨r, k, b, rfl, hrcur, hinq, hrbuf, hcur⟩), .inl hout⟩

/-- A core turn leaves the state, begins a command, raises a decoder's error, or takes a micro-step. -/
theorem coreTurn_next {s t : State} (h : coreTurn s = .next t) :
    t = s ∨ (∃ i, startInstr i s = .moved t) ∨ (∃ e, t = raiseDecode e s) ∨ ∃ j, s.job = some j ∧ advance j s = .moved t := by
  unfold coreTurn at h
  split at h
  · split at h <;> cases h
    · rename_i hm
      unfold microStep at hm
      split at hm
      · unfold beginCommand at hm
        split at hm
        · exact .inr (.inl ⟨_, hm⟩)
        · cases hm; exact .inr (.inr (.inl ⟨_, rfl⟩))
      · rename_i j hj; exact .inr (.inr (.inr ⟨j, hj, hm⟩))
    · exact .inl rfl
  · cases h; exact .inl rfl

/-- The channels after a core turn. -/
theorem coreTurn_channels {s t : State} (h : coreTurn s = .next t) :
    (t.inq = s.inq ∧ t.outq = s.outq) ∨ ∃ j, s.job = some j ∧ advance j s = .moved t := by
  rcases coreTurn_next h with rfl | ⟨i, hi⟩ | ⟨e, rfl⟩ | hj
  · exact .inl ⟨rfl, rfl⟩
  · exact .inl (startInstr_channels hi)
  · obtain ⟨_, _, he⟩ := raiseDecode_eq e s
    rw [he]
    exact .inl ⟨rfl, rfl⟩
  · exact .inr hj

/-- Settles O17, by the cases of ReadBit and by what each micro-step does to INQ. -/
theorem inPopTakesHoldsOrEnds : Obligations.InPopTakesHoldsOrEnds := by
  refine ⟨fun s r k hm hj => ⟨fun hr => ⟨fun b q hq => ?_, fun hq hc => ?_, fun hq hc => ?_, fun h => ?_⟩, fun hr => ?_⟩,
    fun s t h => ?_⟩
  · simp [coreTurn_begun hm hj, advance, readBit, hr, hq]
  · simp [coreTurn_begun hm hj, advance, readBit, hr, hq, hc]
  · simp [coreTurn_begun hm hj, advance, readBit, holdIn, isBusy, atInPop, hm, hj, hr, hq, hc]
  · rcases h with h | h <;> simp [holdIn, h]
  · simp [holdIn, atInPop, hj, hr]
  · rcases coreTurn_channels h with ⟨hin, -⟩ | ⟨j, hj, ha⟩
    · exact .inl hin
    · rcases (advance_channels ha).1 with hin | ⟨r, k, b, rfl, hrest⟩ | ⟨rfl, hin⟩
      · exact .inl hin
      · exact .inr (.inl ⟨r, k, b, hj, hrest⟩)
      · exact .inr (.inr ⟨hj, hin⟩)

/-- Settles O18, by the two cases of OutPush and by what each micro-step does to OUTQ. -/
theorem outPushAppendsOrHolds : Obligations.OutPushAppendsOrHolds := by
  refine ⟨fun s bits hm hj => ⟨fun hroom => ?_, fun hfull => ?_, fun hlen hdepth => ?_⟩, fun s t h => ?_⟩
  · simp [coreTurn_begun hm hj, advance, outPush, holdOut, hroom]
  · simp [coreTurn_begun hm hj, advance, outPush, holdOut, isBusy, atOutPush, hm, hj, Nat.not_lt.mpr hfull]
  · refine ⟨_, hostTurn_read (off := 0x30) (r := .outData) rfl, ?_⟩
    have hroom : s.outq.tail.length < s.params.outDepth := by rw [List.length_tail]; omega
    simp only [holdOut, readEffect, hroom, decide_true, Bool.not_true, Bool.and_false]
  · rcases coreTurn_channels h with ⟨-, hout⟩ | ⟨j, hj, ha⟩
    · exact .inl hout
    · rcases (advance_channels ha).2 with hout | ⟨bits, rfl, hrest⟩
      · exact .inl hout
      · exact .inr ⟨bits, hj, hrest⟩

/-! ## A channel deep enough -/

/-- The state with bytes before those of OUTQ and another OUT_DEPTH: what the core has when nothing was popped. -/
def unpopped (popped : List Byte) (depth : Nat) (s : State) : State :=
  s.withChannels { s.channels with outq := popped ++ s.outq, outDepth := depth }

section
variable (popped : List Byte) (depth : Nat)

@[simp] theorem unpopped_job (s : State) : (unpopped popped depth s).job = s.job := rfl

@[simp] theorem finish_unpopped (s : State) : finish (unpopped popped depth s) = unpopped popped depth (finish s) := by
  simp [unpopped, State.channels]

/-- A command starts alike with more room for output. -/
theorem startInstr_unpopped {i : Instr} {s t : State} (h : startInstr i s = .moved t) :
    startInstr i (unpopped popped depth s) = .moved (unpopped popped depth t) := by
  by_cases hi : i = .rrst
  · subst hi; cases h; rfl
  · rw [unpopped, startInstr_withChannels _ hi, h, ← channels_of_startInstr hi h,
      show s.outq = t.outq from (startInstr_channels h).2.symm]
    rfl

/-- A micro-step is taken alike with room for the bytes it leaves in OUTQ. -/
theorem advance_unpopped {j : Job} {s t : State} (h : advance j s = .moved t)
    (hroom : popped.length + t.outq.length ≤ depth) :
    advance j (unpopped popped depth s) = .moved (unpopped popped depth t) := by
  match j with
  | .put [] => cases h; exact congrArg CoreStep.moved (finish_unpopped popped depth s)
  | .put (b :: bits) =>
    cases h
    simp only [advance, writeBit]
    by_cases hw : s.wn = 7
    · rw [if_pos hw, if_pos (show (unpopped popped depth s).wn = 7 from hw)]; rfl
    · rw [if_neg hw, if_neg (show ¬ (unpopped popped depth s).wn = 7 from hw)]; rfl
  | .push bits =>
    obtain ⟨-, rfl⟩ := outPush_moved h
    simp only [List.length_append, List.length_singleton] at hroom
    have hlt : (popped ++ s.outq).length < depth := by rw [List.length_append]; omega
    simp only [advance, outPush]
    rw [if_pos (show (unpopped popped depth s).outq.length < (unpopped popped depth s).params.outDepth from hlt)]
    simp only [unpopped, State.withChannels, State.channels, List.append_assoc]
  | .emptyInput => cases h; rfl
  | .reopenInput => cases h; exact congrArg CoreStep.moved (finish_unpopped popped depth { s with inClosed := false })
  | .read r k =>
    simp only [advance] at h ⊢
    rcases readBit_cases r k s with ⟨b, q, hr, hq, e⟩ | ⟨hr, hq, hc, e⟩ | ⟨-, -, -, e⟩ | ⟨c, hr, e⟩ <;> rw [e] at h
    · cases h
      exact readBit_refill (s := unpopped popped depth s) hr hq r k
    · cases h
      rw [readBit_closed (s := unpopped popped depth s) hr hq hc, unpopped, endOfStream_withChannels, unpopped,
        channels_endOfStream, show (endOfStream r k s).outq = s.outq from congrArg Channels.outq (channels_endOfStream r k s)]
    · cases h
    · have hch := channels_of_delivered (delivered_of_deliver h)
      have hd := deliver_withChannels
        { s.channels with rcur := nextCursor c, outq := popped ++ s.outq, outDepth := depth } r (s.rbuf.getLsbD c.val)
        (k + 1) { s with rcur := nextCursor c }
      simp only [nextCursor] at hd
      rw [h] at hd
      rw [readBit_bit (s := unpopped popped depth s) hr]
      refine hd.trans (congrArg CoreStep.moved ?_)
      rw [unpopped, hch, show t.outq = s.outq from congrArg Channels.outq hch]
      rfl

/-- A run that leaves no more in OUTQ than there is room for goes the same way with nothing popped: it never shortens
OUTQ, and where it holds the run with nothing popped goes on. -/
theorem runJob_unpopped {s t : State} (h : runJob s = .next t) :
    s.outq.length ≤ t.outq.length ∧
      (popped.length + t.outq.length ≤ depth →
        runJob (unpopped popped depth s) = runJob (unpopped popped depth t)) := by
  refine runJob_induction (P := fun s t => s.outq.length ≤ t.outq.length ∧ (popped.length + t.outq.length ≤ depth →
    runJob (unpopped popped depth s) = runJob (unpopped popped depth t))) (fun _ _ => ⟨le_rfl, fun _ => rfl⟩)
    (fun _ _ _ _ => ⟨le_rfl, fun _ => rfl⟩) (fun s j u t hj ha _ ⟨hlen, hrun⟩ => ⟨?_, fun hroom => ?_⟩) h
  · rcases (advance_channels ha).2 with hout | ⟨_, -, -, hout⟩ <;> rw [hout] at hlen
    · exact hlen
    · rw [List.length_append] at hlen; omega
  · rw [runJob_eq, unpopped_job, hj]
    simp only [advance_unpopped popped depth ha (by omega)]
    exact hrun hroom

end

/-! ## BUSY and the transient state -/

/-- BUSY exactly while there is transient state: true of a state in which no issued word waits to be checked. -/
def inCommand (s : State) : Prop := s.mode = .busy ↔ s.job.isSome = true

/-- A state a micro-step leaves has ended its command, or goes on with it. -/
theorem inCommand_of_ends_or_goes_on {s t : State} (hs : s.mode = .busy)
    (h : (t.job = none ∧ t.mode ≠ .busy) ∨ (t.job.isSome = true ∧ t.mode = s.mode)) : inCommand t := by
  rcases h with ⟨hj, hm⟩ | ⟨hj, hm⟩
  · simp [inCommand, hj, hm]
  · simp [inCommand, hj, hm, hs]

theorem delivered_mode {s t : State} (h : Delivered s t) :
    (t.job = none ∧ t.mode ≠ .busy) ∨ (t.job.isSome = true ∧ t.mode = s.mode) := by
  rcases h with ⟨_, _, rfl⟩ | ⟨_, _, rfl⟩ | ⟨_, _, _, rfl⟩ | ⟨_, _, _, rfl⟩
  · exact .inl ⟨finish_job _, finish_not_busy _⟩
  · exact .inl ⟨rfl, by simp⟩
  · exact .inl ⟨rfl, by simp⟩
  · exact .inr ⟨rfl, rfl⟩

theorem advance_mode {j : Job} {s t : State} (hj : s.job = some j) (h : advance j s = .moved t) :
    (t.job = none ∧ t.mode ≠ .busy) ∨ (t.job.isSome = true ∧ t.mode = s.mode) := by
  match j with
  | .put [] => cases h; exact .inl ⟨finish_job s, finish_not_busy s⟩
  | .put (b :: bits) =>
    cases h
    rcases writeBit_cases b bits s with ⟨-, e⟩ | ⟨-, e⟩ <;> rw [e] <;> exact .inr ⟨rfl, rfl⟩
  | .push bits => obtain ⟨-, rfl⟩ := outPush_moved h; exact .inr ⟨rfl, rfl⟩
  | .emptyInput => cases h; exact .inr ⟨rfl, rfl⟩
  | .reopenInput => cases h; exact .inl ⟨finish_job _, finish_not_busy _⟩
  | .read r k =>
    simp only [advance] at h
    rcases readBit_cases r k s with ⟨_, _, -, -, e⟩ | ⟨-, -, -, e⟩ | ⟨-, -, -, e⟩ | ⟨_, -, e⟩ <;> rw [e] at h
    · cases h; exact .inr ⟨by simp [hj], rfl⟩
    · cases h; rw [endOfStream_eq]; exact .inl ⟨rfl, by simp⟩
    · cases h
    · have hd := delivered_mode (delivered_of_deliver h)
      exact hd

theorem startInstr_mode {i : Instr} {s t : State} (h : startInstr i s = .moved t) :
    (t.job = none ∧ t.mode ≠ .busy) ∨ (t.job.isSome = true ∧ t.mode = s.mode) := by
  have hf := finish_not_busy
  cases i <;> simp only [startInstr, startWbits, startFlush, startRbits, startRrst, startClrf, startSetf, startGetf,
    startBuild, startClrt, startNleaf, startEnc, startDec, startSer, startRecon, checkRange, encBody, reconBody,
    finishWith] at h <;> (repeat' split at h) <;> cases h <;> simp [hf]

theorem inCommand_of_runJob {s t : State} (hs : inCommand s) (h : runJob s = .next t) : inCommand t := by
  refine runJob_induction (P := fun s t => inCommand s → inCommand t) (fun _ _ hs => hs) (fun _ _ _ _ hs => hs)
    (fun s j u t hj ha _ ih hs => ih ?_) h hs
  exact inCommand_of_ends_or_goes_on (hs.mpr (by simp [hj])) (advance_mode hj ha)

/-- What exec answers comes from the state its first micro-step leaves. -/
theorem exec_next {i : Instr} {s t : State} (h : exec i s = .next t) :
    ∃ u, startInstr i s = .moved u ∧ runJob u = .next t := by
  rw [exec_eq_runFrom] at h
  cases hc : startInstr i s with
  | moved u => rw [hc] at h; exact ⟨u, rfl, h⟩
  | waiting => exact absurd hc (startInstr_ne_waiting i s)
  | broken f => rw [hc] at h; cases h

theorem exec_of_startInstr {i : Instr} {s u : State} (h : startInstr i s = .moved u) : exec i s = runJob u := by
  rw [exec_eq_runFrom, h]; rfl

/-- Inside a command a run turn is the run of its micro-steps; outside, it changes nothing. -/
theorem runTurn_of_inCommand {s : State} (h : inCommand s) : runTurn s = runJob s := by
  cases hj : s.job with
  | none =>
    have hm : s.mode ≠ .busy := fun hb => by simpa [hj] using h.mp hb
    rw [runTurn_not_busy hm, runJob_of_job_none hj]
  | some j => exact runTurn_begun (h.mpr (by simp [hj])) hj

/-- Pops between run turns are transparent: with `before` popped already, the run with nothing popped reaches the end
state with all the bytes. -/
theorem runPopping_unpopped {v : State} (hv : v.mode ≠ .busy) (depth : Nat) : ∀ (pops : List Nat) (t : State)
    (popped before : List Byte), inCommand t → runPopping pops t = some (popped, v) →
      before.length + popped.length + v.outq.length ≤ depth →
      before.length + t.outq.length ≤ before.length + popped.length + v.outq.length ∧
        runJob (unpopped before depth t) = .next (unpopped (before ++ popped) depth v) := by
  intro pops
  induction pops with
  | nil =>
    intro t popped before ht h _
    obtain ⟨rfl, rfl⟩ : [] = popped ∧ t = v := by simpa [runPopping] using h
    have hj : t.job = none := by simpa [hv] using mt ht.mpr hv
    rw [List.append_nil]
    exact ⟨by simp, runJob_of_job_none hj⟩
  | cons k ks ih =>
    intro t popped before ht h hdepth
    have ht' : inCommand { t with outq := t.outq.drop k } := ht
    simp only [runPopping, runTurn_of_inCommand ht'] at h
    cases hrun : runJob { t with outq := t.outq.drop k } with
    | fault f => rw [hrun] at h; cases h
    | refused r => rw [hrun] at h; cases h
    | next u =>
      rw [hrun] at h
      obtain ⟨⟨later, w⟩, hlater, heq⟩ := Option.map_eq_some_iff.mp h
      obtain ⟨rfl, rfl⟩ : t.outq.take k ++ later = popped ∧ w = v := by simpa using heq
      have hsplit : unpopped before depth t =
          unpopped (before ++ t.outq.take k) depth { t with outq := t.outq.drop k } := by
        simp only [unpopped, State.withChannels, State.channels, List.append_assoc, List.take_append_drop]
      have hlen : t.outq.length = (t.outq.take k).length + (t.outq.drop k).length := by
        rw [← List.length_append, List.take_append_drop]
      simp only [List.length_append] at hdepth
      obtain ⟨hle, hgoes⟩ := ih u later (before ++ t.outq.take k) (inCommand_of_runJob ht' hrun) hlater
        (by simp only [List.length_append]; omega)
      obtain ⟨hgrow, hsame⟩ := runJob_unpopped (before ++ t.outq.take k) depth hrun
      simp only [List.length_append] at hle hsame hgrow ⊢
      refine ⟨by omega, ?_⟩
      rw [hsplit, hsame (by omega), hgoes, List.append_assoc]

/-- Settles O11: with nothing popped, each micro-step is taken alike, so every hold is passed. -/
theorem heldWritesResume : Obligations.HeldWritesResume := by
  intro i s t v pops popped hs h hpop hv deep
  obtain ⟨u, hu, hrun⟩ := exec_next h
  have ht : inCommand t := inCommand_of_runJob (inCommand_of_ends_or_goes_on hs (startInstr_mode hu)) hrun
  obtain ⟨hle, hgoes⟩ := runPopping_unpopped hv (popped.length + v.outq.length) pops t popped [] ht hpop (by simp)
  have hstart := startInstr_unpopped [] (popped.length + v.outq.length) hu
  obtain ⟨-, hsame⟩ := runJob_unpopped [] (popped.length + v.outq.length) hrun
  have hexec := (exec_of_startInstr hstart).trans ((hsame (by simpa using hle)).trans hgoes)
  have hparams : { v.params with outDepth := popped.length + v.outq.length } = deep :=
    (keepsHostSide_of_exec hexec).params
  refine hexec.trans ?_
  rw [← hparams]
  rfl

end Sys2Proof.Machine
end

section
/-! PROOF. A command's word decodes to the command; reading the input stream bit by bit; and that holds on input are
transparent (spec/20_memory.md R62; spec/30_encoding.md R101 to R104; spec/40_bit_io.md R132). -/

namespace Sys2Proof.Machine

/-! ## The word of a command -/

section
variable (op : BitVec 4) (a : BitVec 16) (b : Word)

theorem opField_commandWord : opField (commandWord op a b) = op := by
  simp (disch := decide) only [opField, commandWord, BitVec.extractLsb'_append_eq_of_le, Nat.reduceSub,
    BitVec.extractLsb'_eq_self]

theorem aField_commandWord : aField (commandWord op a b) = a := by
  simp (disch := decide) only [aField, commandWord, BitVec.extractLsb'_append_eq_of_le,
    BitVec.extractLsb'_append_eq_of_add_le, Nat.reduceSub, BitVec.extractLsb'_eq_self]

theorem bField_commandWord : bField (commandWord op a b) = b := by
  simp (disch := decide) only [bField, commandWord, BitVec.extractLsb'_append_eq_of_add_le, BitVec.extractLsb'_eq_self]

/-- The decoder looks at the fields a word is put together from. -/
theorem decode_commandWord : decode (commandWord op a b) =
    if op = 0x0 ∨ op = 0xF then .error (.illegalOpcode op) else decodeOp (commandWord op a b) := by
  simp only [decode, opField_commandWord, Sys2Proof.Laws.ReservedZero.rsvField_commandWord, ne_eq, not_true, if_false]

end

/-- Decoding a command's word gives the command back. -/
theorem decode_encode (i : Instr) : decode (encode i) = .ok i := by
  cases i <;> simp [encode, decode_commandWord, decodeOp, opField_commandWord, decodeN, decodeA, decodeB, decodeAB,
    aField_commandWord, bField_commandWord]

/-! ## Delivering bits -/

/-- Bits delivered one after the other to a reading command; `none` when it ends before the last, or stops. -/
def deliverBits : List Bool → State → Option State
  | [], s => some s
  | b :: bits, s =>
    match s.job with
    | some (.read r k) =>
      match deliver r b (k + 1) s with
      | .moved t => deliverBits bits t
      | .waiting => none
      | .broken _ => none
    | _ => none

theorem deliverBits_cons {s t : State} {r : Reader} {k : Nat} {b : Bool} (hj : s.job = some (.read r k))
    (h : deliver r b (k + 1) s = .moved t) (bits : List Bool) : deliverBits (b :: bits) s = deliverBits bits t := by
  simp only [deliverBits, hj, h]

theorem deliverBits_cons_some {s v : State} {b : Bool} {bits : List Bool} (h : deliverBits (b :: bits) s = some v) :
    ∃ r k t, s.job = some (.read r k) ∧ deliver r b (k + 1) s = .moved t ∧ deliverBits bits t = some v := by
  unfold deliverBits at h
  split at h
  · rename_i r k hj
    split at h
    · exact ⟨r, k, _, hj, ‹_›, h⟩
    · cases h
    · cases h
  · cases h

theorem deliverBits_append (xs ys : List Bool) (s : State) :
    deliverBits (xs ++ ys) s = (deliverBits xs s).bind (deliverBits ys) := by
  induction xs generalizing s with
  | nil => rfl
  | cons b xs ih =>
    simp only [List.cons_append, deliverBits]
    split
    · split
      · exact ih _
      · rfl
      · rfl
    · rfl

/-- Bits are delivered alike whatever the channels are. -/
theorem deliverBits_withChannels (c : Channels) (bits : List Bool) (s : State) :
    deliverBits bits (s.withChannels c) = (deliverBits bits s).map (State.withChannels c) := by
  induction bits generalizing s with
  | nil => rfl
  | cons b bits ih =>
    simp only [deliverBits, withChannels_job, deliver_withChannels]
    split
    · cases deliver _ b _ s with
      | moved t => exact ih t
      | waiting => rfl
      | broken f => rfl
    · rfl

theorem channels_of_deliverBits {bits : List Bool} {s v : State} (h : deliverBits bits s = some v) :
    v.channels = s.channels := by
  induction bits generalizing s with
  | nil => cases h; rfl
  | cons b bits ih =>
    obtain ⟨r, k, t, -, hd, hv⟩ := deliverBits_cons_some h
    exact (ih hv).trans (channels_of_delivered (delivered_of_deliver hd))

/-! ## The reader's side as a value -/

/-- The bit reader and the bytes behind it. -/
structure Input where
  rbuf : Byte
  rcur : Option (Fin 8)
  inq : List Byte

/-- The reader of a state. -/
def State.input (s : State) : Input := ⟨s.rbuf, s.rcur, s.inq⟩

/-- The state with another reader and INQ. -/
def State.withInput (i : Input) (s : State) : State := { s with rbuf := i.rbuf, rcur := i.rcur, inq := i.inq }

/-- The unread bits of RBUF. -/
def Input.unread (i : Input) : Nat :=
  match i.rcur with
  | none => 0
  | some c => c.val + 1

/-- The stream still to read. -/
def Input.bits (i : Input) : List Bool := msbBits i.unread i.rbuf.toNat ++ i.inq.flatMap byteBits

/-- The bytes of INQ that reading k bits takes. -/
def Input.bytesFor (i : Input) (k : Nat) : Nat := (k - i.unread + 7) / 8

theorem inBits_eq_input_bits (s : State) : inBits s = s.input.bits := rfl

theorem bytesFor_eq_input_bytesFor (s : State) (k : Nat) : bytesFor s k = s.input.bytesFor k := rfl

section
variable (i : Input)

@[simp] theorem withInput_job (s : State) : (s.withInput i).job = s.job := rfl

@[simp] theorem bytesFor_zero : i.bytesFor 0 = 0 := by simp [Input.bytesFor]

/-- Delivering leaves the reader alone, and does the same whatever it is. -/
theorem deliver_withInput {r : Reader} {b : Bool} {k : Nat} {s t : State} (h : deliver r b k s = .moved t) :
    deliver r b k (s.withInput i) = .moved (t.withInput i) := by
  have hch := channels_of_delivered (delivered_of_deliver h)
  have hs : s.withInput i = s.withChannels { s.channels with rbuf := i.rbuf, rcur := i.rcur, inq := i.inq } := rfl
  have ht : t.withInput i = t.withChannels { t.channels with rbuf := i.rbuf, rcur := i.rcur, inq := i.inq } := rfl
  rw [hs, ht, hch, deliver_withChannels, h]
  rfl

theorem deliverBits_withInput {bits : List Bool} {s t : State} (h : deliverBits bits s = some t) :
    deliverBits bits (s.withInput i) = some (t.withInput i) := by
  have hch := channels_of_deliverBits h
  have hs : s.withInput i = s.withChannels { s.channels with rbuf := i.rbuf, rcur := i.rcur, inq := i.inq } := rfl
  have ht : t.withInput i = t.withChannels { t.channels with rbuf := i.rbuf, rcur := i.rcur, inq := i.inq } := rfl
  rw [hs, ht, hch, deliverBits_withChannels, h]
  rfl

end

/-! ## Reading the stream -/

/-- The reader after the bit at the cursor is taken. -/
def Input.afterBit (i : Input) (c : Fin 8) : Input := { i with rcur := nextCursor c }

theorem afterBit_unread (i : Input) (c : Fin 8) : (i.afterBit c).unread = c.val := by
  unfold Input.unread Input.afterBit nextCursor
  by_cases h : c = 0
  · simp [h]
  · have : c.val ≠ 0 := fun e => h (Fin.ext e)
    simp only [h, if_false]
    omega

theorem unread_of_cursor {i : Input} {c : Fin 8} (hr : i.rcur = some c) : i.unread = c.val + 1 := by
  simp only [Input.unread, hr]

/-- A bit taken from RBUF is the stream's first. -/
theorem bits_of_cursor {i : Input} {c : Fin 8} (hr : i.rcur = some c) :
    i.bits = i.rbuf.getLsbD c.val :: (i.afterBit c).bits := by
  rw [Input.bits, Input.bits, afterBit_unread, unread_of_cursor hr, msbBits_cursor]
  rfl

theorem bytesFor_of_cursor {i : Input} {c : Fin 8} (hr : i.rcur = some c) (n : Nat) :
    i.bytesFor (n + 1) = (i.afterBit c).bytesFor n := by
  rw [Input.bytesFor, Input.bytesFor, afterBit_unread, unread_of_cursor hr]
  congr 1
  omega

/-- The bit at the cursor of RBUF, delivered. -/
theorem runJob_bit {s t : State} {r : Reader} {k : Nat} {c : Fin 8} (hj : s.job = some (.read r k))
    (hr : s.rcur = some c) (h : deliver r (s.rbuf.getLsbD c.val) (k + 1) s = .moved t) :
    runJob s = runJob (t.withInput (s.input.afterBit c)) := by
  have hadv : advance (.read r k) s = .moved (t.withInput (s.input.afterBit c)) :=
    (readBit_bit hr r k).trans (deliver_withInput (s.input.afterBit c) h)
  rw [runJob_eq, hj]
  simp only [hadv]

/-- With its reader empty the command takes the oldest byte first. -/
theorem runJob_refill {s : State} {r : Reader} {k : Nat} {b : Byte} {q : List Byte} (hj : s.job = some (.read r k))
    (hr : s.rcur = none) (hq : s.inq = b :: q) : runJob s = runJob (s.withInput ⟨b, some 7, q⟩) := by
  have hadv : advance (.read r k) s = .moved (s.withInput ⟨b, some 7, q⟩) := readBit_refill hr hq r k
  rw [runJob_eq, hj]
  simp only [hadv]

/-- One bit of the stream, delivered: the rest of the stream is left, and a byte is taken from INQ only for it. -/
theorem runJob_read_cons {s t : State} {r : Reader} {k : Nat} {b : Bool} {rest : List Bool}
    (hj : s.job = some (.read r k)) (hb : inBits s = b :: rest) (h : deliver r b (k + 1) s = .moved t) :
    ∃ i : Input, runJob s = runJob (t.withInput i) ∧ i.bits = rest ∧
      ∀ n, i.inq.drop (i.bytesFor n) = s.inq.drop (bytesFor s (n + 1)) := by
  rw [inBits_eq_input_bits] at hb
  cases hr : s.rcur with
  | some c =>
    obtain ⟨hbit, hrest⟩ := List.cons.inj ((bits_of_cursor (i := s.input) hr).symm.trans hb)
    refine ⟨s.input.afterBit c, runJob_bit hj hr (hbit ▸ h), hrest, fun n => ?_⟩
    rw [bytesFor_eq_input_bytesFor, bytesFor_of_cursor (i := s.input) hr]
    rfl
  | none =>
    cases hq : s.inq with
    | nil => simp [Input.bits, Input.unread, State.input, hr, hq] at hb
    | cons x q =>
      have hsame : s.input.bits = Input.bits ⟨x, some 7, q⟩ := by
        simp [Input.bits, Input.unread, State.input, hr, hq, byteBits]
      obtain ⟨hbit, hrest⟩ := List.cons.inj ((bits_of_cursor (c := 7) rfl).symm.trans (hsame ▸ hb))
      refine ⟨Input.afterBit ⟨x, some 7, q⟩ 7, ?_, hrest, fun n => ?_⟩
      · rw [runJob_refill hj hr hq]
        exact runJob_bit (s := s.withInput ⟨x, some 7, q⟩) (t := t.withInput ⟨x, some 7, q⟩) (c := 7) hj rfl
          (deliver_withInput ⟨x, some 7, q⟩ (hbit ▸ h))
      · have hn : bytesFor s (n + 1) = (Input.afterBit ⟨x, some 7, q⟩ 7).bytesFor n + 1 := by
          rw [bytesFor, Input.bytesFor, afterBit_unread, show unreadBits s = 0 by simp only [unreadBits, hr]]
          show (n + 1 - 0 + 7) / 8 = (n - 7 + 7) / 8 + 1
          omega
        rw [hn]
        rfl

/-- Bits that the stream begins with, delivered: the rest of the stream is left. -/
theorem runJob_deliverBits {bits rest : List Bool} {s v : State} (h : deliverBits bits s = some v)
    (hb : inBits s = bits ++ rest) :
    ∃ i : Input, runJob s = runJob (v.withInput i) ∧ i.bits = rest ∧ i.inq = s.inq.drop (bytesFor s bits.length) := by
  induction bits generalizing s v with
  | nil =>
    cases h
    exact ⟨s.input, rfl, hb, by rw [bytesFor_eq_input_bytesFor, List.length_nil, bytesFor_zero]; rfl⟩
  | cons b bits ih =>
    obtain ⟨r, k, t, hj, hd, hv⟩ := deliverBits_cons_some h
    obtain ⟨i, hrun, hrest, hbytes⟩ := runJob_read_cons hj hb hd
    obtain ⟨i', hrun', hrest', hbytes'⟩ := ih (deliverBits_withInput i hv) hrest
    exact ⟨i', hrun.trans hrun', hrest', hbytes'.trans (hbytes bits.length)⟩

/-- The stream runs out, closed, before the last bit the command needs: END_OF_STREAM in the state the bits there are
lead to. -/
theorem runJob_deliverBits_short {bits more : List Bool} {s v : State} (h : deliverBits (bits ++ more) s = some v)
    (hmore : more ≠ []) (hb : inBits s = bits) (hc : s.inClosed = true) :
    ∃ (r : Reader) (k : Nat) (w : State) (b : Byte), deliverBits bits s = some w ∧ w.job = some (.read r k) ∧
      runJob s = .next (endOfStream r k (w.withInput ⟨b, none, []⟩)) := by
  rw [deliverBits_append] at h
  obtain ⟨w, hw, hv⟩ := Option.bind_eq_some_iff.mp h
  obtain ⟨b, more, rfl⟩ := List.exists_cons_of_ne_nil hmore
  obtain ⟨r, k, -, hj, -, -⟩ := deliverBits_cons_some hv
  obtain ⟨i, hrun, hrest, -⟩ := runJob_deliverBits (rest := []) hw (by rw [hb, List.append_nil])
  have hlen : i.unread + 8 * i.inq.length = 0 := by
    rw [← List.length_eq_zero_iff, Input.bits, List.length_append, msbBits_length, flatMap_byteBits_length] at hrest
    exact hrest
  have hq : i.inq = [] := List.length_eq_zero_iff.mp (by omega)
  have hr : i.rcur = none := by
    cases hr : i.rcur with
    | none => rfl
    | some c => simp [Input.unread, hr] at hlen
  have hclosed : w.inClosed = true := (congrArg Channels.inClosed (channels_of_deliverBits hw)).trans hc
  refine ⟨r, k, w, i.rbuf, hw, hj, hrun.trans ?_⟩
  have hadv : advance (.read r k) (w.withInput i) = .moved (endOfStream r k (w.withInput i)) :=
    readBit_closed (s := w.withInput i) hr hq hclosed r k
  rw [runJob_eq, withInput_job, hj]
  simp only [hadv]
  rw [endOfStream_eq, runJob_raise, ← endOfStream_eq, show i = ⟨i.rbuf, none, []⟩ by rw [← hr, ← hq]]

/-! ## Holds on input are transparent -/

/-- The state in which the bytes c stand in INQ behind the others and the input is closed: what a reading command has
where it never holds. -/
def wholeInput (c : List Byte) (s : State) : State := { s with inq := s.inq ++ c, inClosed := true }

/-- Between commands, or in one that reads: no micro-step writes to a channel but the reader's. -/
def onlyReads (s : State) : Prop := s.job = none ∨ ∃ r k, s.job = some (.read r k)

/-- The command has ended, or it holds at InPop. -/
def atRest (s : State) : Prop := s.job = none ∨ s.rcur = none ∧ s.inq = [] ∧ s.inClosed = false

@[simp] theorem wholeInput_job (c : List Byte) (s : State) : (wholeInput c s).job = s.job := rfl

theorem wholeInput_nil_of_closed {s : State} (h : s.inClosed = true) : wholeInput [] s = s := by
  rw [wholeInput, List.append_nil, ← h]

theorem onlyReads_of_delivered {s t : State} (h : Delivered s t) : onlyReads t := by
  rcases h with ⟨_, _, rfl⟩ | ⟨_, _, rfl⟩ | ⟨_, _, _, rfl⟩ | ⟨_, r, k, rfl⟩
  · exact .inl (finish_job _)
  · exact .inl rfl
  · exact .inl rfl
  · exact .inr ⟨r, k, rfl⟩

/-- One micro-step of a reading command, taken alike with the whole input: it stays a reading command, takes bytes
only from the front of INQ and leaves IN_CLOSED alone. -/
theorem readBit_wholeInput {r : Reader} {k : Nat} {c : List Byte} {s : State} (hj : s.job = some (.read r k))
    (hc : s.inClosed = true → c = []) :
    (readBit r k s = .waiting ∧ atRest s) ∨
    (∃ f, readBit r k s = .broken f ∧ readBit r k (wholeInput c s) = .broken f) ∨
    ∃ t, readBit r k s = .moved t ∧ readBit r k (wholeInput c s) = .moved (wholeInput c t) ∧ onlyReads t ∧
      t.inq.length ≤ s.inq.length ∧ t.inClosed = s.inClosed := by
  cases hr : s.rcur with
  | some i =>
    have hd := deliver_withChannels { s.channels with rcur := nextCursor i, inq := s.inq ++ c, inClosed := true } r
      (s.rbuf.getLsbD i.val) (k + 1) { s with rcur := nextCursor i }
    have hs := readBit_bit hr r k
    have hw := (readBit_bit (s := wholeInput c s) hr r k).trans hd
    cases h : deliver r (s.rbuf.getLsbD i.val) (k + 1) { s with rcur := nextCursor i } with
    | waiting => exact absurd h (deliver_ne_waiting _ _ _ _)
    | broken f => exact .inr (.inl ⟨f, hs.trans h, hw.trans (by rw [h]; rfl)⟩)
    | moved t =>
      have hdel := delivered_of_deliver h
      have hch := channels_of_delivered hdel
      refine .inr (.inr ⟨t, hs.trans h, hw.trans ?_, onlyReads_of_delivered hdel,
        (congrArg (·.inq.length) hch).le, congrArg Channels.inClosed hch⟩)
      have hwhole : wholeInput c t = t.withChannels { t.channels with inq := t.channels.inq ++ c, inClosed := true } := rfl
      rw [h, hwhole, hch]
      rfl
  | none =>
    cases hq : s.inq with
    | cons b q =>
      refine .inr (.inr ⟨_, readBit_refill hr hq r k, ?_, .inr ⟨r, k, hj⟩, Nat.le_succ _, rfl⟩)
      exact readBit_refill (s := wholeInput c s) (q := q ++ c) hr (by simp [wholeInput, hq]) r k
    | nil =>
      cases hcl : s.inClosed with
      | false =>
        refine .inl ⟨?_, .inr ⟨hr, hq, hcl⟩⟩
        simp only [readBit, hr, hq, hcl, Bool.false_eq_true, if_false]
      | true =>
        have hch := channels_endOfStream r k s
        have heos := readBit_closed hr hq hcl r k
        have hclosed : (endOfStream r k s).inClosed = true := (congrArg Channels.inClosed hch).trans hcl
        refine .inr (.inr ⟨_, heos, ?_, .inl (by rw [endOfStream_eq]; rfl), ?_, hclosed⟩)
        · rw [hc hcl, wholeInput_nil_of_closed hcl, wholeInput_nil_of_closed hclosed, heos]
        · exact (congrArg (·.inq.length) hch).le.trans (by simp [State.channels, hq])

/-- What a reading command does with the bytes of INQ, with the whole input it does first and then goes on from there.
So the run with the whole input ends where the runs between pushes end. -/
theorem runJob_wholeInput {c : List Byte} {s v : State} (hs : onlyReads s) (hc : s.inClosed = true → c = [])
    (h : runJob (wholeInput c s) = .next v) :
    ∃ t, runJob s = .next t ∧ runJob (wholeInput c t) = .next v ∧ onlyReads t ∧ atRest t ∧
      t.inq.length ≤ s.inq.length ∧ t.inClosed = s.inClosed := by
  induction hb : stepBound s using Nat.strong_induction_on generalizing s with
  | _ n ih =>
    rcases hs with hj | ⟨r, k, hj⟩
    · exact ⟨s, runJob_of_job_none hj, h, .inl hj, .inl hj, le_rfl, rfl⟩
    · rw [runJob_eq, hj]
      simp only [advance]
      rcases readBit_wholeInput hj hc with ⟨hw, hrest⟩ | ⟨f, -, hw⟩ | ⟨t, ht, hw, hreads, hlen, hcl⟩
      · rw [hw]
        exact ⟨s, rfl, h, .inr ⟨r, k, hj⟩, hrest, le_rfl, rfl⟩
      · rw [runJob_eq, wholeInput_job, hj] at h
        simp only [advance, hw] at h
        cases h
      · rw [runJob_eq, wholeInput_job, hj] at h
        simp only [advance, hw] at h
        obtain ⟨u, hu, hv, hrest⟩ := ih _ (hb ▸ advance_lowers hj ht) hreads (fun e => hc (hcl ▸ e)) h rfl
        obtain ⟨hread, hstop, hlen', hcl'⟩ := hrest
        rw [ht]
        exact ⟨u, hu, hv, hread, hstop, hlen'.trans hlen, hcl'.trans hcl⟩

end Sys2Proof.Machine
end

section
/-! PROOF. What RBITS, DEC, ENC and SER do with the bits: a field as it is read, the code words and the shape of a tree
that the registers hold (spec/40_bit_io.md R133, R136; spec/42_encode_decode.md R200 to R202; spec/43_shape.md R231). -/

namespace Sys2Proof.Machine

/-! ## A field as it is read -/

/-- Bits shifted in one after the other, when none is dropped. -/
theorem foldl_shiftIn_toNat {w : Nat} (bits : List Bool) (v : BitVec w) (h : (v.toNat + 1) * 2 ^ bits.length ≤ 2 ^ w) :
    (bits.foldl shiftIn v).toNat = v.toNat * 2 ^ bits.length + bitsValue bits := by
  induction bits generalizing v with
  | nil => simp [bitsValue]
  | cons b bits ih =>
    have hb : b.toNat ≤ 1 := b.toNat_le
    have hpos : 0 < 2 ^ bits.length := Nat.two_pow_pos _
    rw [List.length_cons, Nat.pow_succ'] at h
    have hshift : (shiftIn v b).toNat = 2 * v.toNat + b.toNat := shiftIn_toNat v b (by nlinarith)
    rw [List.foldl_cons, ih _ (by rw [hshift]; nlinarith), hshift, bitsValue_cons, List.length_cons]
    ring

/-- A field of at most w bits, read into w bits. -/
theorem foldl_shiftIn_zero_toNat {w : Nat} (bits : List Bool) (h : bits.length ≤ w) :
    (bits.foldl shiftIn (0 : BitVec w)).toNat = bitsValue bits := by
  rw [foldl_shiftIn_toNat bits 0 (by simpa using Nat.pow_le_pow_right (by omega) h)]
  simp

theorem foldl_shiftIn_msbBits {w n v : Nat} (hn : n ≤ w) (hv : v < 2 ^ n) :
    (msbBits n v).foldl shiftIn (0 : BitVec w) = BitVec.ofNat w v := by
  have hvw : v < 2 ^ w := hv.trans_le (Nat.pow_le_pow_right (by omega) hn)
  apply BitVec.eq_of_toNat_eq
  rw [foldl_shiftIn_zero_toNat _ (by rwa [msbBits_length]), bitsValue_msbBits, Nat.mod_eq_of_lt hv, BitVec.toNat_ofNat,
    Nat.mod_eq_of_lt hvw]

theorem width_bits_le (w : Width) : w.bits ≤ 16 := by cases w <;> decide

/-- A symbol's W bits, read back. -/
theorem foldl_shiftIn_symbolBits {w : Width} {x : Symbol} (hx : x.toNat < w.alphabet) :
    (symbolBits w x).foldl shiftIn (0 : Symbol) = x := by
  rw [symbolBits, foldl_shiftIn_msbBits (width_bits_le w) hx, BitVec.ofNat_toNat, BitVec.setWidth_eq]

/-! ## A reading command -/

/-- The state in which the command reads on with reader `r`, `k` bits read. -/
def State.reading (r : Reader) (k : Nat) (s : State) : State := { s with job := some (.read r k) }

section
variable (r : Reader) (k : Nat) (s : State)

@[simp] theorem reading_job : (s.reading r k).job = some (.read r k) := rfl

@[simp] theorem reading_tree : (s.reading r k).tree = s.tree := rfl

@[simp] theorem finish_reading : finish (s.reading r k) = finish s := finish_with_job s _

@[simp] theorem finishWith_reading (v : Word) : finishWith v (s.reading r k) = finishWith v s :=
  finish_with_job { s with result := v } _

end

/-- Delivering to a reading state. -/
theorem deliverBits_reading {r : Reader} {b : Bool} {k : Nat} {s t : State} (bits : List Bool)
    (h : deliver r b (k + 1) (s.reading r k) = .moved t) : deliverBits (b :: bits) (s.reading r k) = deliverBits bits t :=
  deliverBits_cons (reading_job r k s) h bits

/-- RBITS ends with the field's bits in RESULT. -/
theorem deliverBits_field (s : State) {bits : List Bool} (hne : bits ≠ []) (acc : Word) (k : Nat) :
    deliverBits bits (s.reading (.field bits.length acc) k) = some (finishWith (bits.foldl shiftIn acc) s) := by
  induction bits generalizing acc k with
  | nil => exact absurd rfl hne
  | cons b bits ih =>
    cases bits with
    | nil =>
      have hd : deliver (.field 1 acc) b (k + 1) (s.reading (.field 1 acc) k) = .moved (finishWith (shiftIn acc b) s) := by
        simp only [deliver, le_refl, if_true, finishWith_reading]
      exact deliverBits_reading [] hd
    | cons b' bits =>
      have hd : deliver (.field (bits.length + 2) acc) b (k + 1) (s.reading (.field (bits.length + 2) acc) k) =
          .moved (s.reading (.field (bits.length + 1) (shiftIn acc b)) (k + 1)) := by
        simp only [deliver, show ¬ bits.length + 2 ≤ 1 by omega, if_false]
        rfl
      exact (deliverBits_reading _ hd).trans (ih (by simp) _ _)

/-! ## Code words -/

/-- A symbol has a path exactly when it has a leaf. -/
theorem PTree.path_of_mem_symbols {x : Symbol} {p : PTree} (h : x ∈ p.symbols) : ∃ bits, p.path x = some bits := by
  induction p with
  | leaf i y =>
    obtain rfl : x = y := by simpa [PTree.symbols, PTree.leaves] using h
    exact ⟨[], by simp [PTree.path]⟩
  | node i z o ihz iho =>
    have h : x ∈ z.symbols ∨ x ∈ o.symbols := by simpa [PTree.symbols, PTree.leaves] using h
    cases hz : z.path x with
    | some bits => exact ⟨false :: bits, by simp [PTree.path, hz]⟩
    | none =>
      rcases h with h | h
      · obtain ⟨bits, hb⟩ := ihz h
        simp [hz] at hb
      · obtain ⟨bits, hb⟩ := iho h
        exact ⟨true :: bits, by simp [PTree.path, hz, hb]⟩

theorem PTree.code_of_mem_symbols {x : Symbol} {p : PTree} (h : x ∈ p.symbols) : ∃ bits, p.code x = some bits := by
  cases p with
  | leaf i y =>
    obtain rfl : x = y := by simpa [PTree.symbols, PTree.leaves] using h
    exact ⟨[false], by simp [PTree.code]⟩
  | node i z o => exact PTree.path_of_mem_symbols h

/-- The path of an internal node's tree goes into one of its sides. -/
theorem PTree.path_node_some {i : Nat} {z o : PTree} {x : Symbol} {bits : List Bool}
    (h : (PTree.node i z o).path x = some bits) :
    (∃ rest, bits = false :: rest ∧ z.path x = some rest) ∨ ∃ rest, bits = true :: rest ∧ o.path x = some rest := by
  simp only [PTree.path] at h
  split at h
  · cases h; exact .inl ⟨_, rfl, ‹_›⟩
  · obtain ⟨rest, hr, rfl⟩ := Option.map_eq_some_iff.mp h
    exact .inr ⟨rest, rfl, hr⟩

/-- A path is shorter than the tree has nodes. -/
theorem PTree.path_length_lt {x : Symbol} {p : PTree} {bits : List Bool} (h : p.path x = some bits) :
    bits.length < p.indices.length := by
  induction p generalizing bits with
  | leaf i y =>
    simp only [PTree.path] at h
    split at h <;> cases h
    exact Nat.one_pos
  | node i z o ihz iho =>
    rcases PTree.path_node_some h with ⟨rest, rfl, hz⟩ | ⟨rest, rfl, ho⟩
    · have := ihz hz
      simp only [PTree.indices, List.length_cons, List.length_append]
      omega
    · have := iho ho
      simp only [PTree.indices, List.length_cons, List.length_append]
      omega

theorem PTree.leaf_mem_indices {x : Symbol} {i : Nat} {p : PTree} (h : (x, i) ∈ p.leaves) : i ∈ p.indices := by
  induction p with
  | leaf j y => simp_all [PTree.leaves, PTree.indices]
  | node j z o ihz iho =>
    rcases List.mem_append.mp h with h | h
    · simp [PTree.indices, ihz h]
    · simp [PTree.indices, iho h]

/-! ## DEC -/

/-- DEC where its walk reaches the root of a part: it answers a leaf's symbol, or reads on. -/
def arriveAt (p : PTree) (k : Nat) (s : State) : State :=
  match p with
  | .leaf _ x => finishWith (x.setWidth 32) s
  | .node i _ _ => s.reading (.walk i) k

/-- A bit takes the walk to the child on its side. -/
theorem deliver_walk {s : State} {i : Nat} {n : Node} {b : Bool} {q : PTree} {par : Option Nat} {isz : Bool}
    (hn : nodeAt s.tree i = some n) (hc : (if b then n.one else n.zero) = some q.index)
    (hq : spells s.tree par isz q = true) (k j : Nat) :
    deliver (.walk i) b k (s.reading (.walk i) j) = .moved (arriveAt q k s) := by
  simp only [deliver, decStep, reading_tree, hn, hc]
  cases q with
  | leaf c x =>
    obtain ⟨m, hm, rfl, hzero, -⟩ := spells_leaf_iff.mp hq
    simp only [PTree.index, hm, hzero, if_true, finishWith_reading, arriveAt]
  | node c z o =>
    obtain ⟨⟨m, hm, hzero, -⟩, -, -⟩ := spells_node_iff.mp hq
    simp only [PTree.index, hm, hzero, reduceCtorEq, if_false, arriveAt]
    rfl

/-- The path of a symbol, delivered to DEC, gives the symbol. -/
theorem deliverBits_arriveAt {s : State} {p : PTree} {x : Symbol} {bits : List Bool} (hx : p.path x = some bits) :
    ∀ {par : Option Nat} {isz : Bool} (k : Nat), spells s.tree par isz p = true →
      deliverBits bits (arriveAt p k s) = some (finishWith (x.setWidth 32) s) := by
  induction p generalizing bits with
  | leaf i y =>
    intro par isz k _
    simp only [PTree.path] at hx
    split at hx <;> cases hx
    rename_i hy
    rw [hy]
    rfl
  | node i z o ihz iho =>
    intro par isz k hp
    obtain ⟨⟨n, hn, hzero, hone, -⟩, hz, ho⟩ := spells_node_iff.mp hp
    rcases PTree.path_node_some hx with ⟨rest, rfl, hside⟩ | ⟨rest, rfl, hside⟩
    · exact (deliverBits_reading rest (deliver_walk (b := false) hn hzero hz (k + 1) k)).trans (ihz hside (k + 1) hz)
    · exact (deliverBits_reading rest (deliver_walk (b := true) hn hone ho (k + 1) k)).trans (iho hside (k + 1) ho)

/-- DEC begins at the root. -/
theorem startDec_arriveAt {w : Width} {s : State} {p : PTree} (h : isTree w s.tree p = true) :
    startDec s = .moved (arriveAt p 0 s) := by
  obtain ⟨hroot, hp, -⟩ := isTree_iff.mp h
  cases p with
  | leaf i x =>
    obtain ⟨n, hn, rfl, hzero, -⟩ := spells_leaf_iff.mp hp
    simp only [PTree.index] at hroot
    simp only [startDec, hroot, hn, hzero, if_true, arriveAt]
  | node i z o =>
    obtain ⟨⟨n, hn, hzero, -⟩, -, -⟩ := spells_node_iff.mp hp
    simp only [PTree.index] at hroot
    simp only [startDec, hroot, hn, hzero, reduceCtorEq, if_false, arriveAt]
    rfl

/-! ## ENC -/

/-- The walk from a leaf up through a part collects the part's edge bits. -/
theorem walkUp_path {t : Tree} {p : PTree} {x : Symbol} {bits : List Bool} (hx : p.path x = some bits) :
    ∀ {par : Option Nat} {isz : Bool}, spells t par isz p = true → p.indices.Nodup →
      (∀ j ∈ p.indices, t.root = some j → j = p.index) →
      ∃ i, (x, i) ∈ p.leaves ∧ ∀ k path, walkUp t (k + bits.length) i path = walkUp t k p.index (bits ++ path) := by
  induction p generalizing bits with
  | leaf j y =>
    intro par isz _ _ _
    simp only [PTree.path] at hx
    split at hx <;> cases hx
    rename_i hy
    exact ⟨j, by simp [PTree.leaves, hy], fun k path => rfl⟩
  | node j z o ihz iho =>
    intro par isz hp hnodup hroot
    obtain ⟨-, hz, ho⟩ := spells_node_iff.mp hp
    obtain ⟨hj, hsides⟩ := List.nodup_cons.mp hnodup
    obtain ⟨hndz, hndo, -⟩ := List.nodup_append.mp hsides
    have hnotroot : ∀ c ∈ z.indices ++ o.indices, t.root ≠ some c := fun c hc hr => by
      have hcj : c = j := hroot c (List.mem_cons_of_mem j hc) hr
      exact hj (hcj ▸ hc)
    have hup : ∀ {q : PTree} {b : Bool} {c : Nat} {k : Nat} {path : List Bool}, spells t (some j) b q = true → q.index = c →
        c ∈ z.indices ++ o.indices → walkUp t (k + 1) c path = walkUp t k j ((!b) :: path) := by
      intro q b c k path hq hidx hc
      obtain ⟨n, hn, hpar, hisz, -⟩ := nodeAt_index_of_spells hq
      rw [hidx] at hn
      simp only [walkUp, hnotroot c hc, if_false, hn, hpar, hisz]
    rcases PTree.path_node_some hx with ⟨rest, rfl, hside⟩ | ⟨rest, rfl, hside⟩
    · obtain ⟨i, hi, hwalk⟩ := ihz hside hz hndz fun c hc hr => absurd hr (hnotroot c (List.mem_append_left _ hc))
      refine ⟨i, List.mem_append_left _ hi, fun k path => ?_⟩
      rw [List.length_cons, show k + (rest.length + 1) = k + 1 + rest.length by omega, hwalk,
        hup hz rfl (List.mem_append_left _ z.index_mem_indices)]
      rfl
    · obtain ⟨i, hi, hwalk⟩ := iho hside ho hndo fun c hc hr => absurd hr (hnotroot c (List.mem_append_right _ hc))
      refine ⟨i, List.mem_append_right _ hi, fun k path => ?_⟩
      rw [List.length_cons, show k + (rest.length + 1) = k + 1 + rest.length by omega, hwalk,
        hup ho rfl (List.mem_append_right _ o.index_mem_indices)]
      rfl

/-- A symbol with a code word has a leaf, and ENC finds the code word from there. -/
theorem codeWord_of_code {w : Width} {t : Tree} {p : PTree} (h : isTree w t p = true) {x : Symbol} {bits : List Bool}
    (hx : p.code x = some bits) : ∃ i, t.leafAt x = some i ∧ codeWord t i = some bits := by
  obtain ⟨hroot, hp, hnodup, hnfree, hlisted⟩ := isTree_iff.mp h
  cases p with
  | leaf i y =>
    simp only [PTree.code] at hx
    split at hx <;> cases hx
    rename_i hy
    refine ⟨i, (leafAt_eq_some_iff hlisted x i).mpr (by simp [PTree.leaves, hy]), ?_⟩
    simp only [PTree.index] at hroot
    simp only [codeWord, hroot, if_true]
  | node j z o =>
    have hpath : (PTree.node j z o).path x = some bits := hx
    obtain ⟨i, hi, hwalk⟩ := walkUp_path hpath hp hnodup fun c _ hr => Option.some.inj (hr.symm.trans hroot)
    refine ⟨i, (leafAt_eq_some_iff hlisted x i).mpr hi, ?_⟩
    have hne : i ≠ j := by
      rintro rfl
      refine (List.nodup_cons.mp hnodup).1 (List.mem_append.mpr ?_)
      exact (List.mem_append.mp hi).imp PTree.leaf_mem_indices PTree.leaf_mem_indices
    have hlen := PTree.path_length_lt hpath
    obtain ⟨k, hk⟩ : ∃ k, t.nfree + 1 = k + 1 + bits.length := ⟨t.nfree - bits.length, by omega⟩
    have hroot' : t.root ≠ some i := by rw [hroot]; simpa [PTree.index] using Ne.symm hne
    rw [codeWord, if_neg hroot', hk, hwalk, List.append_nil]
    simp only [walkUp, hroot, if_true]

/-! ## SER -/

theorem PTree.internals_lt_indices (p : PTree) : p.internals < p.indices.length := by
  induction p with
  | leaf i x => exact Nat.one_pos
  | node i z o ihz iho => simp only [PTree.internals, PTree.indices, List.length_cons, List.length_append]; omega

/-- Sub(n) of R231 from the items of the two sides. -/
theorem subBits_of_items {w : Width} {t : Tree} {i z o k : Nat} {n : Node} {bz bo : List Bool} (hn : nodeAt t i = some n)
    (hzero : n.zero = some z) (hone : n.one = some o) (hz : itemBits w t (subBits w t k) z = some bz)
    (ho : itemBits w t (subBits w t k) o = some bo) : subBits w t (k + 1) i = some (bz ++ bo) := by
  simp only [subBits, hn, hzero, hone, hz, ho]

/-- SER's items of a part, within a depth that the part's internal nodes bound. -/
theorem itemBits_of_spells {w : Width} {t : Tree} {p : PTree} : ∀ {par : Option Nat} {isz : Bool} (k : Nat),
    spells t par isz p = true → p.internals ≤ k → itemBits w t (subBits w t k) p.index = some (p.item w) := by
  induction p with
  | leaf i x =>
    intro par isz k hp _
    obtain ⟨n, hn, rfl, hzero, -⟩ := spells_leaf_iff.mp hp
    simp only [itemBits, PTree.index, hn, hzero, if_true, PTree.item]
  | node i z o ihz iho =>
    intro par isz k hp hk
    obtain ⟨⟨n, hn, hzero, hone, -⟩, hz, ho⟩ := spells_node_iff.mp hp
    simp only [PTree.internals] at hk
    obtain ⟨m, rfl⟩ : ∃ m, k = m + 1 := ⟨k - 1, by omega⟩
    have hsub := subBits_of_items hn hzero hone (ihz m hz (by omega)) (iho m ho (by omega))
    rw [PTree.index, itemBits, hn]
    simp only [hzero, reduceCtorEq, if_false, hsub, PTree.item]

/-- SER writes the tree's shape. -/
theorem shapeBits_of_isTree {w : Width} {t : Tree} {p : PTree} (h : isTree w t p = true) :
    shapeBits w t = some (p.shape w) := by
  obtain ⟨hroot, hp, -, hnfree, -⟩ := isTree_iff.mp h
  have hlt := p.internals_lt_indices
  cases p with
  | leaf i x =>
    obtain ⟨n, hn, rfl, hzero, -⟩ := spells_leaf_iff.mp hp
    simp only [PTree.index] at hroot
    simp only [shapeBits, hroot, hn, hzero, if_true, PTree.shape]
  | node i z o =>
    obtain ⟨⟨n, hn, hzero, hone, -⟩, hz, ho⟩ := spells_node_iff.mp hp
    simp only [PTree.index, PTree.internals] at hroot hlt
    obtain ⟨m, hm⟩ : ∃ m, t.nfree = m + 1 := ⟨t.nfree - 1, by omega⟩
    have hsub := subBits_of_items (w := w) hn hzero hone (itemBits_of_spells m hz (by omega))
      (itemBits_of_spells m ho (by omega))
    simp only [shapeBits, hroot, hn, hzero, reduceCtorEq, if_false, hm, hsub, PTree.shape]

/-- An item has W + 1 bits per leaf and one per internal node. -/
theorem PTree.item_length (w : Width) (p : PTree) : (p.item w).length = p.leaves.length * (w.bits + 1) + p.internals := by
  induction p with
  | leaf i x => simp [PTree.item, PTree.leaves, PTree.internals]
  | node i z o ihz iho =>
    simp only [PTree.item, PTree.leaves, PTree.internals, List.length_cons, List.length_append, ihz, iho, Nat.add_mul]
    omega

/-- A tree of L leaves has L - 1 internal nodes. -/
theorem PTree.internals_add_one (p : PTree) : p.internals + 1 = p.leaves.length := by
  induction p with
  | leaf i x => rfl
  | node i z o ihz iho => simp only [PTree.internals, PTree.leaves, List.length_append]; omega

theorem PTree.symbols_length (p : PTree) : p.symbols.length = p.leaves.length := List.length_map ..

/-- ShapeLen (spec/43_shape.md R233). -/
theorem PTree.shape_length (w : Width) (p : PTree) : (p.shape w).length = w.shapeLen p.symbols.length := by
  rw [p.symbols_length]
  cases p with
  | leaf i x => simp [PTree.shape, PTree.leaves, Width.shapeLen]
  | node i z o =>
    have hz := z.internals_add_one
    have ho := o.internals_add_one
    simp only [PTree.shape, PTree.leaves, List.length_append, PTree.item_length, ← hz, ← ho]
    rw [show z.internals + 1 + (o.internals + 1) = z.internals + o.internals + 2 by omega, Width.shapeLen]
    simp only [Nat.add_mul, Nat.mul_add]
    omega

end Sys2Proof.Machine
end

section
/-! PROOF. RECON of a shape: the frames of its open slot while it reads the items, and the tree it leaves
(spec/43_shape.md R231, R234, R237). -/

namespace Sys2Proof.Machine

/-! ## A tree without its arena indices -/

/-- The tree with every arena index 0. -/
def PTree.plain : PTree → PTree
  | .leaf _ x => .leaf 0 x
  | .node _ z o => .node 0 z.plain o.plain

@[simp] theorem PTree.plain_isLeaf (p : PTree) : p.plain.isLeaf = p.isLeaf := by cases p <;> rfl

@[simp] theorem PTree.plain_symbols (p : PTree) : p.plain.symbols = p.symbols := by
  induction p with
  | leaf i x => rfl
  | node i z o ihz iho =>
    simp only [PTree.symbols, PTree.plain, PTree.leaves, List.map_append] at ihz iho ⊢
    rw [ihz, iho]

@[simp] theorem PTree.plain_path (p : PTree) (x : Symbol) : p.plain.path x = p.path x := by
  induction p with
  | leaf i y => rfl
  | node i z o ihz iho => simp only [PTree.plain, PTree.path, ihz, iho]

@[simp] theorem PTree.plain_code (p : PTree) (x : Symbol) : p.plain.code x = p.code x := by
  cases p with
  | leaf i y => rfl
  | node i z o => exact PTree.plain_path (.node i z o) x

@[simp] theorem PTree.plain_item (w : Width) (p : PTree) : p.plain.item w = p.item w := by
  induction p with
  | leaf i x => rfl
  | node i z o ihz iho => simp only [PTree.plain, PTree.item, ihz, iho]

@[simp] theorem PTree.plain_shape (w : Width) (p : PTree) : p.plain.shape w = p.shape w := by
  cases p with
  | leaf i x => rfl
  | node i z o => simp only [PTree.plain, PTree.shape, PTree.plain_item]

/-- Trees that differ in their indices alone have the same symbols. -/
theorem PTree.symbols_of_plain_eq {p q : PTree} (h : p.plain = q.plain) : p.symbols = q.symbols := by
  rw [← p.plain_symbols, h, q.plain_symbols]

/-! ## Parts of the arena that change -/

theorem countAt_congr {t u : Tree} {i : Nat} (h : nodeAt u i = nodeAt t i) : countAt u i = countAt t i := by
  simp only [countAt, h]

/-- A part is held wherever its nodes are the same. -/
theorem spells_congr {t u : Tree} {p : PTree} (hsame : ∀ i ∈ p.indices, nodeAt u i = nodeAt t i) :
    ∀ {par : Option Nat} {isz : Bool}, spells t par isz p = true → spells u par isz p = true := by
  induction p with
  | leaf i x =>
    intro par isz h
    rw [spells_leaf_iff, hsame i (by simp [PTree.indices])]
    exact spells_leaf_iff.mp h
  | node i z o ihz iho =>
    intro par isz h
    have hz : ∀ j ∈ z.indices, nodeAt u j = nodeAt t j := fun j hj => hsame j (by simp [PTree.indices, hj])
    have ho : ∀ j ∈ o.indices, nodeAt u j = nodeAt t j := fun j hj => hsame j (by simp [PTree.indices, hj])
    obtain ⟨hn, hzs, hos⟩ := spells_node_iff.mp h
    rw [spells_node_iff, hsame i (by simp [PTree.indices]), countAt_congr (hz _ z.index_mem_indices),
      countAt_congr (ho _ o.index_mem_indices)]
    exact ⟨hn, ihz hz hzs, iho ho hos⟩

/-- The listed leaves depend on LEAF and NLEAVES alone, and on no order. -/
theorem leavesListed_congr {w : Width} {t u : Tree} {ls ms : List (Symbol × Nat)} (h : leavesListed w t ls = true)
    (hleaf : u.leaf = t.leaf) (hnleaves : u.nleaves = t.nleaves) (hperm : ls.Perm ms) : leavesListed w u ms = true := by
  obtain ⟨hwf, hlen, hn, hnodup, hat⟩ := leavesListed_iff.mp h
  have hleafAt : ∀ x, u.leafAt x = t.leafAt x := fun x => by simp only [Tree.leafAt, hleaf]
  refine leavesListed_iff.mpr ⟨hleaf ▸ hwf, ?_, ?_, (hperm.map _).nodup_iff.mp hnodup, fun e he => ?_⟩
  · rw [hleaf, hlen, hperm.length_eq]
  · rw [hnleaves, hn, hperm.length_eq]
  · rw [hleafAt]; exact hat e (hperm.mem_iff.mpr he)

/-- A new key makes a table one entry longer. -/
theorem length_insert_of_find_none {α : Type} {t : Table α} {k : Nat} (h : Table.find t k = none) (v : α) :
    (Table.insert t k v).length = t.length + 1 := by
  induction t with
  | nil => rfl
  | cons e t ih =>
    obtain ⟨k', v'⟩ := e
    rw [find_cons] at h
    by_cases hk : k = k'
    · simp [hk] at h
    · rw [if_neg hk] at h
      simp only [Table.insert, hk, if_false]
      split
      · simp
      · simp [ih h]

/-- A symbol without a leaf is listed by nothing. -/
theorem leafAt_none_of_not_mem {w : Width} {t : Tree} {ls : List (Symbol × Nat)} (h : leavesListed w t ls = true)
    {x : Symbol} (hx : x ∉ ls.map Prod.fst) : t.leafAt x = none := by
  cases hat : t.leafAt x with
  | none => rfl
  | some i => exact absurd (List.mem_map_of_mem ((leafAt_eq_some_iff h x i).mp hat)) hx

/-- Listing the leaf of a new symbol. -/
theorem leavesListed_listLeaf {w : Width} {t : Tree} {ls : List (Symbol × Nat)} (h : leavesListed w t ls = true)
    {x : Symbol} (hx : x.toNat < w.alphabet) (hnew : x ∉ ls.map Prod.fst) (i : Nat) :
    leavesListed w (listLeaf x i t) ((x, i) :: ls) = true := by
  obtain ⟨hwf, hlen, hn, hnodup, hat⟩ := leavesListed_iff.mp h
  have hnone : Table.find t.leaf x.toNat = none := leafAt_none_of_not_mem h hnew
  refine leavesListed_iff.mpr ⟨leafWf_insert hwf hx i, ?_, by simp [hn], List.nodup_cons.mpr ⟨hnew, hnodup⟩, fun e he => ?_⟩
  · simp only [listLeaf, length_insert_of_find_none hnone, hlen, List.length_cons]
  · rcases List.mem_cons.mp he with rfl | he
    · exact leafAt_listLeaf_self x i t
    · have hne : e.1 ≠ x := fun hex => hnew (hex ▸ List.mem_map_of_mem he)
      rw [leafAt_listLeaf_other hne]
      exact hat e he

/-! ## Frames -/

theorem spine_inZero_iff {t : Tree} {below : Option Nat} {i : Nat} {fs : List Frame} :
    spine t below (.inZero i :: fs) = true ↔
    nodeAt t i = some { count := 0, sym := 0, zero := below, one := none, parent := parentOf fs, isz := isZeroBelow fs } ∧
      spine t (some i) fs = true := by
  simp [spine]

theorem spine_inOne_iff {t : Tree} {below : Option Nat} {i : Nat} {z : PTree} {fs : List Frame} :
    spine t below (.inOne i z :: fs) = true ↔
    nodeAt t i = some { count := 0, sym := 0, zero := some z.index, one := below, parent := parentOf fs,
                        isz := isZeroBelow fs } ∧
      spells t (some i) true z = true ∧ spine t (some i) fs = true := by
  simp [spine, and_assoc]

/-- The trees that stand finished: the one just completed, if there is one, and the frames'. -/
def finishedTrees (top : Option PTree) (fs : List Frame) : List PTree := top.toList ++ doneTrees fs

/-- The arena indices in use. -/
def heldIndices (top : Option PTree) (fs : List Frame) : List Nat :=
  fs.map Frame.index ++ (finishedTrees top fs).flatMap PTree.indices

/-- The leaves there are. -/
def heldLeaves (top : Option PTree) (fs : List Frame) : List (Symbol × Nat) := (finishedTrees top fs).flatMap PTree.leaves

/-- The tree registers hold the frames, with the tree `top` just completed in their open slot, or the slot still open,
and nothing besides. -/
structure HoldsFrames (w : Width) (t : Tree) (fs : List Frame) (top : Option PTree) : Prop where
  spine : spine t (top.map PTree.index) fs = true
  spells : ∀ p, top = some p → spells t (parentOf fs) (isZeroBelow fs) p = true
  nodup : (heldIndices top fs).Nodup
  nfree : t.nfree = (heldIndices top fs).length
  listed : leavesListed w t (heldLeaves top fs) = true
  counts : ∀ i n, nodeAt t i = some n → n.count = 0

/-- RECON's loop at its head, by its tree part and its counters. -/
theorem reconFrames_iff {w : Width} {t : Tree} {leaves nint cur : Nat} {fs : List Frame} :
    reconFrames w t leaves nint cur fs = true ↔
    parentOf fs = some cur ∧ HoldsFrames w t fs none ∧ nint = fs.length + ((doneTrees fs).map PTree.internals).sum ∧
      2 ≤ leaves ∧ leaves ≤ w.alphabet ∧ t.nleaves < leaves ∧ nint < leaves := by
  have hcounts : (t.nodes.all fun n => decide (n.count = 0)) = true ↔ ∀ i n, nodeAt t i = some n → n.count = 0 := by
    simp only [List.all_eq_true, decide_eq_true_eq, nodeAt, List.mem_iff_getElem?]
    exact ⟨fun h i n hn => h n ⟨i, hn⟩, fun h n ⟨i, hn⟩ => h i n hn⟩
  simp only [reconFrames, Bool.and_eq_true, decide_eq_true_eq, hcounts]
  constructor
  · rintro ⟨⟨⟨⟨⟨⟨⟨hcur, hspine⟩, hnodup⟩, hnfree⟩, hlisted⟩, hnint⟩, hbounds⟩, hcount⟩
    exact ⟨hcur, ⟨hspine, (fun _ h => nomatch h), hnodup, hnfree, hlisted, hcount⟩, hnint, hbounds⟩
  · rintro ⟨hcur, hholds, hnint, hbounds⟩
    exact ⟨⟨⟨⟨⟨⟨⟨hcur, hholds.spine⟩, hholds.nodup⟩, hholds.nfree⟩, hholds.listed⟩, hnint⟩, hbounds⟩, hholds.counts⟩

/-- Every frame and every node of its finished trees is in the arena. -/
theorem nodeAt_of_spine {t : Tree} {fs : List Frame} : ∀ {below : Option Nat}, spine t below fs = true →
    ∀ i ∈ heldIndices none fs, ∃ n, nodeAt t i = some n := by
  induction fs with
  | nil => intro below _ i hi; simp [heldIndices, finishedTrees, doneTrees] at hi
  | cons f fs ih =>
    intro below h i hi
    cases f with
    | inZero j =>
      obtain ⟨hn, hrest⟩ := spine_inZero_iff.mp h
      simp only [heldIndices, finishedTrees, doneTrees, Frame.index, List.map_cons, Option.toList_none, List.nil_append,
        List.cons_append, List.mem_cons] at hi
      rcases hi with rfl | hi
      · exact ⟨_, hn⟩
      · exact ih hrest i (by simpa [heldIndices, finishedTrees] using hi)
    | inOne j z =>
      obtain ⟨hn, hz, hrest⟩ := spine_inOne_iff.mp h
      simp only [heldIndices, finishedTrees, doneTrees, Frame.index, List.map_cons, Option.toList_none, List.nil_append,
        List.cons_append, List.mem_cons, List.flatMap_cons, List.mem_append] at hi
      rcases hi with rfl | hi | hi | hi
      · exact ⟨_, hn⟩
      · exact ih hrest i (List.mem_append_left _ hi)
      · exact nodeAt_of_mem_indices hz hi
      · exact ih hrest i (List.mem_append_right _ hi)

/-- Frames are held wherever their nodes are the same. -/
theorem spine_congr {t u : Tree} {fs : List Frame} (hroot : u.root = t.root)
    (hsame : ∀ i ∈ heldIndices none fs, nodeAt u i = nodeAt t i) :
    ∀ {below : Option Nat}, spine t below fs = true → spine u below fs = true := by
  induction fs with
  | nil => intro below h; simpa [spine, hroot] using h
  | cons f fs ih =>
    intro below h
    have hrest : ∀ i ∈ heldIndices none fs, nodeAt u i = nodeAt t i := fun i hi => hsame i (by
      cases f <;> simp only [heldIndices, finishedTrees, doneTrees, List.map_cons, Option.toList_none, List.nil_append,
        List.cons_append, List.mem_cons, List.flatMap_cons, List.mem_append] at hi ⊢ <;> tauto)
    cases f with
    | inZero j =>
      obtain ⟨hn, hs⟩ := spine_inZero_iff.mp h
      rw [spine_inZero_iff, hsame j (by simp [heldIndices, Frame.index])]
      exact ⟨hn, ih hrest hs⟩
    | inOne j z =>
      obtain ⟨hn, hz, hs⟩ := spine_inOne_iff.mp h
      rw [spine_inOne_iff, hsame j (by simp [heldIndices, Frame.index])]
      refine ⟨hn, spells_congr (fun i hi => hsame i ?_) hz, ih hrest hs⟩
      simp [heldIndices, finishedTrees, doneTrees, hi]

/-! ## A node attached in the open slot -/

/-- What Attach of a new node leaves, when the open slot's frame is there. -/
structure Attached (t u : Tree) (x : Symbol) (fs : List Frame) : Prop where
  spine : spine u (some t.nfree) fs = true
  node : nodeAt u t.nfree = some { count := 0, sym := x, zero := none, one := none, parent := parentOf fs,
                                   isz := isZeroBelow fs }
  root : u.root = t.root
  leaf : u.leaf = t.leaf
  nleaves : u.nleaves = t.nleaves
  nfree : u.nfree = t.nfree + 1
  old : ∀ i, i ∉ fs.map Frame.index → i ≠ t.nfree → nodeAt u i = nodeAt t i
  counts : ∀ i n, nodeAt u i = some n → n.count = 0

theorem heldIndices_lt_nfree {t : Tree} {below : Option Nat} {fs : List Frame} (h : spine t below fs = true) {i : Nat}
    (hi : i ∈ heldIndices none fs) : i < t.nfree := by
  obtain ⟨n, hn⟩ := nodeAt_of_spine h i hi
  exact nodeAt_lt_nfree hn

/-- Attach of a new node in the open slot of the innermost frame. -/
theorem attach_newNode {w : Width} {t : Tree} {f : Frame} {fs : List Frame} (h : HoldsFrames w t (f :: fs) none)
    (x : Symbol) : ∃ u, attach f.index t.nfree (newNode 0 x t) = some u ∧ Attached t u x (f :: fs) := by
  have hlt : f.index < t.nfree := heldIndices_lt_nfree h.spine (by simp [heldIndices])
  obtain ⟨u, hu⟩ := attach_answers (n := t.nfree) (t := newNode 0 x t) (p := f.index) (by rw [newNode_nfree]; omega)
  obtain ⟨⟨a, ha, hparent, hchild⟩, hother, hroot, hleaf, hnleaves, hnfree⟩ := attach_some hu
  have hne : t.nfree ≠ f.index := Nat.ne_of_gt hlt
  have hroot : u.root = t.root := hroot
  rw [nodeAt_newNode_old _ _ _ (Ne.symm hne)] at ha
  have hnode := hchild hne
  rw [nodeAt_newNode_new, Option.map_some] at hnode
  have hold : ∀ i, i ≠ f.index → i ≠ t.nfree → nodeAt u i = nodeAt t i := fun i hif hin =>
    (hother i hif hin).trans (nodeAt_newNode_old 0 x t hin)
  obtain ⟨hfresh, -⟩ := List.nodup_cons.mp h.nodup
  have hsame : ∀ i ∈ fs.map Frame.index ++ (finishedTrees none (f :: fs)).flatMap PTree.indices,
      nodeAt u i = nodeAt t i := fun i hi =>
    hold i (fun e => hfresh (e ▸ hi)) (Nat.ne_of_lt (heldIndices_lt_nfree h.spine (List.mem_cons_of_mem _ hi)))
  have hslot : spine u (some t.nfree) (f :: fs) = true ∧ decide (a.zero = none) = isZeroBelow (f :: fs) := by
    cases f with
    | inZero j =>
      obtain ⟨hn, hs⟩ := spine_inZero_iff.mp h.spine
      cases hn.symm.trans ha
      exact ⟨spine_inZero_iff.mpr ⟨hparent hne, spine_congr hroot hsame hs⟩, rfl⟩
    | inOne j z =>
      obtain ⟨hn, hz, hs⟩ := spine_inOne_iff.mp h.spine
      cases hn.symm.trans ha
      refine ⟨spine_inOne_iff.mpr ⟨hparent hne, spells_congr (fun i hi => hsame i ?_) hz,
        spine_congr hroot (fun i hi => hsame i ?_) hs⟩, rfl⟩
      · simp [finishedTrees, doneTrees, hi]
      · rcases List.mem_append.mp hi with hi | hi
        · exact List.mem_append_left _ hi
        · exact List.mem_append_right _ (List.mem_append_right _ hi)
  rw [hslot.2] at hnode
  refine ⟨u, hu, hslot.1, hnode, hroot, hleaf, hnleaves, hnfree.trans (newNode_nfree ..), fun i hi hin => ?_,
    fun i n hn => ?_⟩
  · exact hold i (fun e => hi (by simp [e])) hin
  · by_cases hif : i = f.index
    · rw [hif, hparent hne] at hn
      cases hn
      split <;> exact h.counts _ a ha
    · by_cases hin : i = t.nfree
      · rw [hin, hnode] at hn
        cases hn
        rfl
      · exact h.counts i n ((hold i hif hin).symm.trans hn)

/-- An internal node attached: its zero slot is the open one. -/
theorem holdsFrames_internal {w : Width} {t u : Tree} {fs : List Frame} (h : HoldsFrames w t fs none)
    (hu : Attached t u 0 fs) : HoldsFrames w u (.inZero t.nfree :: fs) none where
  spine := spine_inZero_iff.mpr ⟨hu.node, hu.spine⟩
  spells _ e := nomatch e
  nodup := List.nodup_cons.mpr ⟨fun hi => Nat.lt_irrefl _ (heldIndices_lt_nfree h.spine hi), h.nodup⟩
  nfree := by rw [hu.nfree, h.nfree]; rfl
  listed := leavesListed_congr h.listed hu.leaf hu.nleaves (List.Perm.refl _)
  counts := hu.counts

/-- A leaf attached and listed: a tree of one leaf is completed in the open slot. -/
theorem holdsFrames_leaf {w : Width} {t u : Tree} {x : Symbol} {fs : List Frame} (h : HoldsFrames w t fs none)
    (hu : Attached t u x fs) (hx : x.toNat < w.alphabet) (hnew : x ∉ (heldLeaves none fs).map Prod.fst) :
    HoldsFrames w (listLeaf x t.nfree u) fs (some (.leaf t.nfree x)) where
  spine := spine_congr (t := u) (u := listLeaf x t.nfree u) rfl (fun _ _ => rfl) hu.spine
  spells p e := by
    cases e
    exact spells_leaf_iff.mpr ⟨_, hu.node, rfl, rfl, rfl, rfl, rfl⟩
  nodup := by
    have hperm : (heldIndices (some (.leaf t.nfree x)) fs).Perm (t.nfree :: heldIndices none fs) := List.perm_middle
    rw [hperm.nodup_iff]
    exact List.nodup_cons.mpr ⟨fun hi => Nat.lt_irrefl _ (heldIndices_lt_nfree h.spine hi), h.nodup⟩
  nfree := by
    have hperm : (heldIndices (some (.leaf t.nfree x)) fs).Perm (t.nfree :: heldIndices none fs) := List.perm_middle
    rw [hperm.length_eq, List.length_cons, ← h.nfree]
    exact hu.nfree
  listed := leavesListed_listLeaf (leavesListed_congr h.listed hu.leaf hu.nleaves (List.Perm.refl _)) hx hnew _
  counts := hu.counts

/-- A tree completed in a one slot completes the frame's node. -/
theorem holdsFrames_close {w : Width} {t : Tree} {i : Nat} {z p : PTree} {fs : List Frame}
    (h : HoldsFrames w t (.inOne i z :: fs) (some p)) : HoldsFrames w t fs (some (.node i z p)) := by
  obtain ⟨hn, hz, hs⟩ := spine_inOne_iff.mp h.spine
  have hp := h.spells p rfl
  have hindices : (heldIndices (some p) (.inOne i z :: fs)).Perm (heldIndices (some (.node i z p)) fs) := by
    rw [List.perm_iff_count]
    intro a
    simp only [heldIndices, finishedTrees, doneTrees, List.map_cons, Frame.index, Option.toList_some, List.cons_append,
      List.nil_append, List.flatMap_cons, PTree.indices, List.count_append, List.count_cons]
    omega
  have hleaves : (heldLeaves (some p) (.inOne i z :: fs)).Perm (heldLeaves (some (.node i z p)) fs) := by
    rw [List.perm_iff_count]
    intro a
    simp only [heldLeaves, finishedTrees, doneTrees, Option.toList_some, List.cons_append, List.nil_append,
      List.flatMap_cons, PTree.leaves, List.count_append]
    omega
  refine ⟨hs, fun q e => ?_, hindices.nodup_iff.mp h.nodup, h.nfree.trans hindices.length_eq,
    leavesListed_congr h.listed rfl rfl hleaves, h.counts⟩
  cases e
  refine spells_node_iff.mpr ⟨⟨_, hn, rfl, rfl, rfl, rfl, ?_⟩, hz, hp⟩
  obtain ⟨a, ha, -⟩ := nodeAt_index_of_spells hz
  obtain ⟨b, hb, -⟩ := nodeAt_index_of_spells hp
  rw [countAt_of_nodeAt ha, countAt_of_nodeAt hb, h.counts _ a ha, h.counts _ b hb]
  rfl

/-- A tree completed in a zero slot opens the frame's one slot. -/
theorem holdsFrames_open {w : Width} {t : Tree} {i : Nat} {p : PTree} {fs : List Frame}
    (h : HoldsFrames w t (.inZero i :: fs) (some p)) : HoldsFrames w t (.inOne i p :: fs) none := by
  obtain ⟨hn, hs⟩ := spine_inZero_iff.mp h.spine
  exact ⟨spine_inOne_iff.mpr ⟨hn, h.spells p rfl, hs⟩, (fun _ e => nomatch e), h.nodup, h.nfree, h.listed, h.counts⟩

/-- With no frame left the registers hold the tree. -/
theorem isTree_of_holdsFrames {w : Width} {t : Tree} {p : PTree} (h : HoldsFrames w t [] (some p)) :
    isTree w t p = true := by
  have hindices : heldIndices (some p) [] = p.indices := by simp [heldIndices, finishedTrees, doneTrees]
  have hleaves : heldLeaves (some p) [] = p.leaves := by simp [heldLeaves, finishedTrees, doneTrees]
  refine isTree_iff.mpr ⟨by simpa [spine] using h.spine, h.spells p rfl, hindices ▸ h.nodup, hindices ▸ h.nfree,
    hleaves ▸ h.listed⟩

/-- The frame whose one slot is the next open one, once the slot of the innermost is filled. -/
def nextSlot : List Frame → Option Nat
  | [] => none
  | .inZero i :: _ => some i
  | .inOne _ _ :: fs => nextSlot fs

/-- RECON's backtracking finds it. -/
theorem climb_of_spine {t : Tree} {fs : List Frame} : ∀ {i k : Nat}, spine t (some i) fs = true → fs.length ≤ k →
    climb t k (parentOf fs) = some (nextSlot fs) := by
  induction fs with
  | nil => intro i k _ _; cases k <;> rfl
  | cons f fs ih =>
    intro i k h hk
    obtain ⟨m, rfl⟩ : ∃ m, k = m + 1 := ⟨k - 1, by simp only [List.length_cons] at hk; omega⟩
    cases f with
    | inZero j =>
      obtain ⟨hn, -⟩ := spine_inZero_iff.mp h
      simp only [parentOf, Frame.index, climb, hn, if_true, nextSlot]
    | inOne j z =>
      obtain ⟨hn, -, hs⟩ := spine_inOne_iff.mp h
      simp only [parentOf, Frame.index, climb, hn, reduceCtorEq, if_false, nextSlot]
      exact ih hs (by simpa using hk)

/-! ## RECON's micro-steps -/

theorem symbolBits_ne_nil (w : Width) (x : Symbol) : symbolBits w x ≠ [] := by
  rw [← List.length_pos_iff, symbolBits_length]
  cases w <;> decide

section
variable (s : State) (r : Reader) (l n c k j : Nat)

theorem reconNext_reading : reconNext l n c k (s.reading r j) = reconNext l n c k s := by
  unfold reconNext
  simp only [reading_tree, finish_reading]
  rfl

/-- RECON's leaf does not look at the transient state. -/
theorem reconLeaf_reading (x : Symbol) : reconLeaf l n c x k (s.reading r j) = reconLeaf l n c x k s := by
  unfold reconLeaf
  simp only [reading_tree]
  have hnext : ∀ t, reconNext l n c k { s.reading r j with tree := t } = reconNext l n c k { s with tree := t } :=
    fun t => reconNext_reading { s with tree := t } r l n c k j
  simp only [hnext]
  rfl

end

/-- A symbol's bits, delivered inside a leaf, come to RECON's leaf. -/
theorem deliverBits_leafSymbol {s t : State} {l n c : Nat} {bits : List Bool} (hne : bits ≠ []) {acc : Symbol} {k : Nat}
    (h : reconLeaf l n c (bits.foldl shiftIn acc) (k + bits.length) s = .moved t) :
    deliverBits bits (s.reading (.leaf l n c bits.length acc) k) = some t := by
  induction bits generalizing acc k with
  | nil => exact absurd rfl hne
  | cons b bits ih =>
    cases bits with
    | nil =>
      refine deliverBits_reading [] ?_
      simp only [List.length_singleton, deliver, le_refl, if_true, reconLeaf_reading]
      exact h
    | cons b' bits =>
      have hd : deliver (.leaf l n c (bits.length + 2) acc) b (k + 1) (s.reading (.leaf l n c (bits.length + 2) acc) k) =
          .moved (s.reading (.leaf l n c (bits.length + 1) (shiftIn acc b)) (k + 1)) := by
        simp only [deliver, show ¬ bits.length + 2 ≤ 1 by omega, if_false]
        rfl
      refine (deliverBits_reading _ hd).trans (ih (by simp) ?_)
      rw [show k + 1 + (b' :: bits).length = k + (b :: b' :: bits).length by simp only [List.length_cons]; omega]
      exact h

/-- RECON 1 ends with the tree of the one symbol read. -/
theorem deliverBits_single (s : State) {bits : List Bool} (hne : bits ≠ []) (acc : Symbol) (k : Nat) :
    deliverBits bits (s.reading (.single bits.length acc) k) =
      some (finish { s with tree := singleTree (bits.foldl shiftIn acc) s.tree }) := by
  induction bits generalizing acc k with
  | nil => exact absurd rfl hne
  | cons b bits ih =>
    cases bits with
    | nil =>
      refine deliverBits_reading [] ?_
      simp only [List.length_singleton, deliver, le_refl, if_true, reading_tree]
      exact congrArg CoreStep.moved (finish_reading _ k { s with tree := singleTree (shiftIn acc b) s.tree })
    | cons b' bits =>
      have hd : deliver (.single (bits.length + 2) acc) b (k + 1) (s.reading (.single (bits.length + 2) acc) k) =
          .moved (s.reading (.single (bits.length + 1) (shiftIn acc b)) (k + 1)) := by
        simp only [deliver, show ¬ bits.length + 2 ≤ 1 by omega, if_false]
        rfl
      exact (deliverBits_reading _ hd).trans (ih (by simp) _ _)

/-- The state with the tree t, where RECON has filled a slot: it returns when none is open, else reads on for the next. -/
def slotFilled (s : State) (t : Tree) (leaves nint k : Nat) : Option Nat → State
  | none => finish { s with tree := t }
  | some c => { s with tree := t }.reading (.marker leaves nint c) k

/-- A leaf of a new symbol, in the open slot. -/
theorem reconLeaf_new {w : Width} {s : State} {f : Frame} {fs : List Frame} (h : HoldsFrames w s.tree (f :: fs) none)
    {x : Symbol} (hx : x.toNat < w.alphabet) (hnew : x ∉ (heldLeaves none (f :: fs)).map Prod.fst) {l : Nat}
    (hl : nextSlot (f :: fs) = none ↔ l ≤ s.tree.nleaves + 1) (n k : Nat) :
    ∃ t, HoldsFrames w t (f :: fs) (some (.leaf s.tree.nfree x)) ∧
      reconLeaf l n f.index x k s = .moved (slotFilled s t l n k (nextSlot (f :: fs))) := by
  obtain ⟨u, hattach, hu⟩ := attach_newNode h x
  have ht := holdsFrames_leaf h hu hx hnew
  refine ⟨_, ht, ?_⟩
  have hnone : s.tree.leafAt x = none := leafAt_none_of_not_mem h.listed hnew
  have hlen : (f :: fs).length ≤ (listLeaf x s.tree.nfree u).nfree := by
    rw [ht.nfree, heldIndices, List.length_append, List.length_map]
    omega
  have hclimb := climb_of_spine ht.spine hlen
  have hcur : parentOf (f :: fs) = some f.index := rfl
  have hnleaves : (listLeaf x s.tree.nfree u).nleaves = s.tree.nleaves + 1 := congrArg (· + 1) hu.nleaves
  rw [hcur] at hclimb
  simp only [reconLeaf, hnone, ne_eq, not_true, if_false, hattach, reconNext, hclimb, hnleaves]
  cases hslot : nextSlot (f :: fs) with
  | none => simp only [show ¬ s.tree.nleaves + 1 < l by have := hl.mp hslot; omega, if_false, slotFilled]
  | some c =>
    have hlt : s.tree.nleaves + 1 < l := by
      by_contra hge
      have := hl.mpr (by omega)
      rw [hslot] at this
      cases this
    simp only [hlt, if_true, slotFilled]
    rfl

/-- An internal node, in the open slot. -/
theorem deliver_internal {w : Width} {s : State} {f : Frame} {fs : List Frame} (h : HoldsFrames w s.tree (f :: fs) none)
    {l n : Nat} (hn : n ≠ l - 1) (k j : Nat) :
    ∃ t, HoldsFrames w t (.inZero s.tree.nfree :: f :: fs) none ∧ t.nleaves = s.tree.nleaves ∧
      deliver (.marker l n f.index) false k (s.reading (.marker l n f.index) j) =
        .moved ({ s with tree := t }.reading (.marker l (n + 1) s.tree.nfree) k) := by
  obtain ⟨u, hattach, hu⟩ := attach_newNode h 0
  refine ⟨u, holdsFrames_internal h hu, hu.nleaves, ?_⟩
  simp only [deliver, Bool.false_eq_true, if_false, reconInternal, hn, reading_tree, hattach]
  rfl

theorem nleaves_of_holdsFrames {w : Width} {t : Tree} {fs : List Frame} {top : Option PTree}
    (h : HoldsFrames w t fs top) : t.nleaves = (heldLeaves top fs).length := by
  obtain ⟨-, -, hn, -⟩ := leavesListed_iff.mp h.listed
  exact hn

theorem PTree.symbols_node (i : Nat) (z o : PTree) : (PTree.node i z o).symbols = z.symbols ++ o.symbols := by
  simp [PTree.symbols, PTree.leaves]

theorem PTree.symbols_length_pos (p : PTree) : 0 < p.symbols.length := by
  rw [p.symbols_length]
  exact p.leaves_length_pos

/-- The leaves held after a tree is completed in a zero slot. -/
theorem heldLeaves_inOne (i : Nat) (z : PTree) (fs : List Frame) :
    heldLeaves none (.inOne i z :: fs) = z.leaves ++ heldLeaves none fs := rfl

/-- An item, delivered at the head of RECON's loop, puts a tree like it into the open slot: by the tree, its zero side
in the new node's zero slot, then its one side in the one slot, which completes the node. -/
theorem deliverBits_item {w : Width} {l : Nat} {q : PTree} : ∀ {s : State} {f : Frame} {fs : List Frame} {n : Nat} (k : Nat),
    HoldsFrames w s.tree (f :: fs) none → s.params.width = w →
    (q.symbols ++ (heldLeaves none (f :: fs)).map Prod.fst).Nodup → (∀ x ∈ q.symbols, x.toNat < w.alphabet) →
    n + q.internals < l → s.tree.nleaves + q.symbols.length ≤ l →
    (nextSlot (f :: fs) = none ↔ l ≤ s.tree.nleaves + q.symbols.length) →
    ∃ (t : Tree) (q' : PTree) (k' : Nat), q'.plain = q.plain ∧ HoldsFrames w t (f :: fs) (some q') ∧
      deliverBits (q.item w) (s.reading (.marker l n f.index) k) =
        some (slotFilled s t l (n + q.internals) k' (nextSlot (f :: fs))) := by
  induction q with
  | leaf i x =>
    intro s f fs n k h hw hnodup hlt _ _ hslot
    obtain ⟨hnew, -⟩ := List.nodup_cons.mp hnodup
    have hx := hlt x (by simp [PTree.symbols, PTree.leaves])
    obtain ⟨t, ht, hleaf⟩ := reconLeaf_new h hx hnew hslot n (k + 1 + (symbolBits w x).length)
    refine ⟨t, .leaf s.tree.nfree x, k + 1 + (symbolBits w x).length, rfl, ht, ?_⟩
    have hd : deliver (.marker l n f.index) true (k + 1) (s.reading (.marker l n f.index) k) =
        .moved (s.reading (.leaf l n f.index (symbolBits w x).length 0) (k + 1)) := by
      rw [symbolBits_length, ← hw]
      rfl
    refine (deliverBits_reading _ hd).trans (deliverBits_leafSymbol (symbolBits_ne_nil w x) ?_)
    rw [foldl_shiftIn_symbolBits hx]
    exact hleaf
  | node i z o ihz iho =>
    intro s f fs n k h hw hnodup hlt hint hleaves hslot
    rw [PTree.symbols_node] at hnodup hlt hleaves hslot
    rw [List.length_append] at hleaves hslot
    simp only [PTree.internals] at hint
    have hone := o.symbols_length_pos
    obtain ⟨t₀, h₀, hn₀, hd⟩ := deliver_internal h (show n ≠ l - 1 by omega) (k + 1) k
    obtain ⟨t₁, z', k₁, hz', h₁, hrun₁⟩ := ihz (s := { s with tree := t₀ }) (f := .inZero s.tree.nfree) (fs := f :: fs)
      (n := n + 1) (k + 1) h₀ hw ((List.append_assoc .. ▸ hnodup).sublist
        (List.Sublist.append_left (List.sublist_append_right ..) _))
      (fun x hx => hlt x (List.mem_append_left _ hx)) (by omega) (by rw [hn₀]; omega)
      (by rw [hn₀]; simp only [nextSlot, reduceCtorEq, false_iff]; omega)
    have hsyms : (heldLeaves none (.inOne s.tree.nfree z' :: f :: fs)).map Prod.fst =
        z.symbols ++ (heldLeaves none (f :: fs)).map Prod.fst := by
      rw [heldLeaves_inOne, List.map_append, ← PTree.symbols_of_plain_eq hz']
      rfl
    have hopen := holdsFrames_open h₁
    have hn₁ : t₁.nleaves = s.tree.nleaves + z.symbols.length := by
      have hlen := congrArg List.length hsyms
      rw [List.length_map, List.length_append, List.length_map, ← nleaves_of_holdsFrames h,
        ← nleaves_of_holdsFrames hopen] at hlen
      omega
    obtain ⟨t₂, o', k₂, ho', h₂, hrun₂⟩ := iho (s := { s with tree := t₁ }) (f := .inOne s.tree.nfree z') (fs := f :: fs)
      (n := n + 1 + z.internals) k₁ hopen hw (by
        rw [hsyms, ← List.append_assoc]
        exact (List.perm_append_comm.append_right _).nodup_iff.mp hnodup)
      (fun x hx => hlt x (List.mem_append_right _ hx)) (by omega) (by rw [hn₁]; omega)
      (by rw [hn₁, Nat.add_assoc]; exact hslot)
    refine ⟨t₂, .node s.tree.nfree z' o', k₂, ?_, holdsFrames_close h₂, ?_⟩
    · simp only [PTree.plain, hz', ho']
    · refine (deliverBits_reading _ hd).trans ?_
      rw [deliverBits_append]
      refine (congrArg (Option.bind · _) hrun₁).trans (hrun₂.trans ?_)
      rw [show n + 1 + z.internals + o.internals = n + (PTree.node i z o).internals by simp only [PTree.internals]; omega]
      rfl

/-! ## RECON of a shape -/

/-- Distinct symbols below N are at most N. -/
theorem length_le_alphabet {w : Width} {xs : List Symbol} (hnodup : xs.Nodup) (hlt : ∀ x ∈ xs, x.toNat < w.alphabet) :
    xs.length ≤ w.alphabet := by
  have hinj : (xs.map BitVec.toNat).Nodup := hnodup.map fun _ _ => BitVec.eq_of_toNat_eq
  have hsub : xs.map BitVec.toNat ⊆ List.range w.alphabet := fun n hn => by
    obtain ⟨x, hx, rfl⟩ := List.mem_map.mp hn
    exact List.mem_range.mpr (hlt x hx)
  simpa using hinj.length_le_of_subset hsub

/-- The implicit root: both its slots are open. -/
theorem holdsFrames_root (w : Width) :
    HoldsFrames w { newNode 0 0 Tree.cleared with root := some 0 } [.inZero 0] none where
  spine := by decide
  spells _ e := nomatch e
  nodup := by decide
  nfree := rfl
  listed := by cases w <;> decide
  counts i n hn := by
    cases i with
    | zero => cases hn; rfl
    | succ i => simp [nodeAt, newNode, Tree.cleared] at hn

/-- The tree of RECON 1. -/
theorem isTree_singleTree {w : Width} {x : Symbol} (hx : x.toNat < w.alphabet) :
    isTree w (singleTree x Tree.cleared) (.leaf 0 x) = true := by
  have hlisted : leavesListed w Tree.cleared [] = true := by cases w <;> decide
  exact isTree_iff.mpr ⟨rfl, spells_leaf_iff.mpr ⟨_, rfl, rfl, rfl, rfl, rfl, rfl⟩, by simp [PTree.indices], rfl,
    leavesListed_congr (leavesListed_listLeaf hlisted hx (by simp) 0) rfl rfl (List.Perm.refl _)⟩

/-- RECON of the shape of a tree, with its number of leaves, delivers the shape's bits and returns with a tree like it. -/
theorem recon_shape {s : State} {p : PTree} {l : Word} (hl : l.toNat = p.symbols.length) (hnodup : p.symbols.Nodup)
    (hlt : ∀ x ∈ p.symbols, x.toNat < s.params.width.alphabet) :
    ∃ (u : State) (t : Tree) (p' : PTree), startInstr (.recon l) s = .moved u ∧ onlyReads u ∧
      deliverBits (p.shape s.params.width) u = some (finish { s with tree := t }) ∧
      isTree s.params.width t p' = true ∧ p'.plain = p.plain ∧ ∀ i n, nodeAt t i = some n → n.count = 0 := by
  have hok : leafCountOk s.params.width l = true := decide_eq_true (hl ▸ length_le_alphabet hnodup hlt)
  have hstart : startInstr (.recon l) s = reconBody l.toNat s := by
    simp only [startInstr, startRecon, hok, checkRange_true]
  rw [hstart]
  cases p with
  | leaf i x =>
    have hl : l.toNat = 1 := hl
    have hx : x.toNat < s.params.width.alphabet := hlt x (by simp [PTree.symbols, PTree.leaves])
    refine ⟨(clearTree s).reading (.single (symbolBits s.params.width x).length 0) 0, singleTree x Tree.cleared,
      .leaf 0 x, ?_, .inr ⟨_, _, rfl⟩, ?_, isTree_singleTree hx, rfl, fun i n hn => ?_⟩
    · rw [hl, symbolBits_length]
      rfl
    · rw [PTree.shape, deliverBits_single (clearTree s) (symbolBits_ne_nil _ x) 0 0, foldl_shiftIn_symbolBits hx]
      rfl
    · cases i with
      | zero => cases hn; rfl
      | succ i => cases hn
  | node i z o =>
    rw [PTree.symbols_node] at hnodup hlt hl
    rw [List.length_append] at hl
    have hz := z.internals_add_one
    have ho := o.internals_add_one
    rw [← PTree.symbols_length] at hz ho
    let s₀ : State := { s with tree := { newNode 0 0 Tree.cleared with root := some 0 } }
    obtain ⟨t₁, z', k₁, hz', h₁, hrun₁⟩ := deliverBits_item (l := l.toNat) (q := z) (s := s₀) (n := 1) 0
      (holdsFrames_root s.params.width) rfl (by simpa [heldLeaves, finishedTrees, doneTrees] using (List.nodup_append.mp hnodup).1)
      (fun x hx => hlt x (List.mem_append_left _ hx)) (by omega)
      (show 0 + z.symbols.length ≤ l.toNat by omega)
      (show some 0 = none ↔ l.toNat ≤ 0 + z.symbols.length by simp only [reduceCtorEq, false_iff]; omega)
    have hopen := holdsFrames_open h₁
    have hleaves : heldLeaves none [.inOne 0 z'] = z'.leaves := by simp [heldLeaves, finishedTrees, doneTrees]
    have hn₁ : t₁.nleaves = z.symbols.length := by
      rw [nleaves_of_holdsFrames hopen, hleaves, ← PTree.symbols_length, PTree.symbols_of_plain_eq hz']
    obtain ⟨t₂, o', k₂, ho', h₂, hrun₂⟩ := deliverBits_item (l := l.toNat) (q := o) (s := { s with tree := t₁ })
      (n := 1 + z.internals) k₁ hopen rfl (by
        rw [hleaves, ← PTree.symbols, PTree.symbols_of_plain_eq hz']
        exact List.perm_append_comm.nodup_iff.mp hnodup)
      (fun x hx => hlt x (List.mem_append_right _ hx)) (by omega)
      (show t₁.nleaves + o.symbols.length ≤ l.toNat by omega)
      (show none = none ↔ l.toNat ≤ t₁.nleaves + o.symbols.length by simp only [true_iff]; omega)
    refine ⟨s₀.reading (.marker l.toNat 1 0) 0, t₂, .node 0 z' o', ?_, .inr ⟨_, _, rfl⟩, ?_,
      isTree_of_holdsFrames (holdsFrames_close h₂), by simp only [PTree.plain, hz', ho'], h₂.counts⟩
    · simp only [reconBody, show ¬ l.toNat = 0 by omega, show ¬ l.toNat = 1 by omega, if_false]
      rfl
    · rw [PTree.shape, deliverBits_append]
      exact (congrArg (Option.bind · _) hrun₁).trans hrun₂

end Sys2Proof.Machine
end

section
/-! PROOF. BUILD makes the tree of the merge of spec/41_table_build.md R166, which the container's layout is defined by:
the arena of BUILD holds the forest of the queue at every pass (R164 to R168). -/

namespace Sys2Proof.Machine

/-! ## The order of R164 -/

theorem comesBefore_iff {x y : Queued} : x.comesBefore y = true ↔
    x.count < y.count ∨ x.count = y.count ∧ y.sym.toNat < x.sym.toNat := decide_eq_true_iff

theorem comesBefore_trans {x y z : Queued} (h : x.comesBefore y = true) (k : y.comesBefore z = true) :
    x.comesBefore z = true := by
  rw [comesBefore_iff] at *
  omega

theorem not_comesBefore_both {x y : Queued} (h : x.comesBefore y = true) : y.comesBefore x ≠ true := by
  rw [ne_eq, comesBefore_iff]
  rw [comesBefore_iff] at h
  omega

/-- Of two nodes with different symbols one comes first (R165). -/
theorem comesBefore_total {x y : Queued} (hsym : x.sym ≠ y.sym) (h : ¬ x.comesBefore y = true) :
    y.comesBefore x = true := by
  have : x.sym.toNat ≠ y.sym.toNat := fun e => hsym (BitVec.eq_of_toNat_eq e)
  rw [comesBefore_iff] at *
  omega

/-! ## Taking the first node -/

theorem takeFirst_eq_none {q : List Queued} : takeFirst q = none ↔ q = [] := by
  cases q with
  | nil => simp [takeFirst]
  | cons x q =>
    simp only [takeFirst]
    split
    · simp
    · split <;> simp

/-- Taking the first node from a longer queue. -/
theorem takeFirst_cons (x : Queued) (q : List Queued) :
    (q = [] ∧ takeFirst (x :: q) = some (x, [])) ∨ ∃ y rest, takeFirst q = some (y, rest) ∧
      ((y.comesBefore x = true ∧ takeFirst (x :: q) = some (y, x :: rest)) ∨
        (¬ y.comesBefore x = true ∧ takeFirst (x :: q) = some (x, q))) := by
  cases hq : takeFirst q with
  | none => exact .inl ⟨takeFirst_eq_none.mp hq, by simp [takeFirst, hq]⟩
  | some r =>
    refine .inr ⟨r.1, r.2, rfl, ?_⟩
    by_cases h : r.1.comesBefore x = true
    · exact .inl ⟨h, by simp [takeFirst, hq, h]⟩
    · exact .inr ⟨h, by simp [takeFirst, hq, h]⟩

theorem takeFirst_perm {q rest : List Queued} {x : Queued} (h : takeFirst q = some (x, rest)) : q.Perm (x :: rest) := by
  induction q generalizing x rest with
  | nil => cases h
  | cons a q ih =>
    rcases takeFirst_cons a q with ⟨rfl, e⟩ | ⟨y, r, hr, ⟨-, e⟩ | ⟨-, e⟩⟩ <;> cases e.symm.trans h
    · exact List.Perm.refl _
    · exact ((ih hr).cons a).trans (List.Perm.swap ..)
    · exact List.Perm.refl _

/-- The node taken comes before every other, when the symbols differ. -/
theorem takeFirst_first {q rest : List Queued} {x : Queued} (h : takeFirst q = some (x, rest))
    (hsyms : (q.map Queued.sym).Nodup) : ∀ y ∈ rest, x.comesBefore y = true := by
  induction q generalizing x rest with
  | nil => cases h
  | cons a q ih =>
    obtain ⟨ha, hq⟩ := List.nodup_cons.mp hsyms
    rcases takeFirst_cons a q with ⟨rfl, e⟩ | ⟨y, r, hr, ⟨hb, e⟩ | ⟨hb, e⟩⟩ <;> cases e.symm.trans h
    · intro z hz; cases hz
    · intro z hz
      rcases List.mem_cons.mp hz with rfl | hz
      · exact hb
      · exact ih hr hq z hz
    · intro z hz
      have hy : y ∈ q := (takeFirst_perm hr).mem_iff.mpr List.mem_cons_self
      have hay : a.comesBefore y = true :=
        comesBefore_total (fun e => ha (e ▸ List.mem_map_of_mem hy)) hb
      rcases List.mem_cons.mp ((takeFirst_perm hr).mem_iff.mp hz) with rfl | hz
      · exact hay
      · exact comesBefore_trans hay (ih hr hq z hz)

/-- Which node is first, and which others there are, does not depend on the order of the queue. -/
theorem takeFirst_of_perm {q q' rest : List Queued} {x : Queued} (hperm : q.Perm q') (hsyms : (q.map Queued.sym).Nodup)
    (h : takeFirst q = some (x, rest)) : ∃ rest', takeFirst q' = some (x, rest') ∧ rest.Perm rest' := by
  cases h' : takeFirst q' with
  | none =>
    rw [takeFirst_eq_none.mp h'] at hperm
    rw [hperm.eq_nil] at h
    cases h
  | some r =>
    obtain ⟨x', rest'⟩ := r
    have hsame : (x :: rest).Perm (x' :: rest') := (takeFirst_perm h).symm.trans (hperm.trans (takeFirst_perm h'))
    have hx : x = x' := by
      by_contra hne
      have hxin : x ∈ rest' := (List.mem_cons.mp (hsame.mem_iff.mp List.mem_cons_self)).resolve_left hne
      have hx'in : x' ∈ rest := (List.mem_cons.mp (hsame.mem_iff.mpr List.mem_cons_self)).resolve_left (Ne.symm hne)
      exact not_comesBefore_both (takeFirst_first h hsyms x' hx'in)
        (takeFirst_first h' ((hperm.map _).nodup_iff.mp hsyms) x hxin)
    subst hx
    exact ⟨rest', rfl, hsame.cons_inv⟩

/-! ## The queue in the arena -/

/-- The arena index of a queued node. -/
def Queued.index (x : Queued) : Nat := x.tree.index

/-- The arena holds the queued node's count and symbol. -/
def representedIn (ns : List Node) (x : Queued) : Prop :=
  ∃ n, ns[x.index]? = some n ∧ n.count.toNat = x.count ∧ n.sym = x.sym

theorem before_eq_comesBefore {ns : List Node} {x y : Queued} (hx : representedIn ns x) (hy : representedIn ns y) :
    before ns x.index y.index = x.comesBefore y := by
  obtain ⟨a, ha, hac, has⟩ := hx
  obtain ⟨b, hb, hbc, hbs⟩ := hy
  rw [Bool.eq_iff_iff, comesBefore_iff, ← hac, ← hbc, ← has, ← hbs]
  simp only [before, ha, hb, Bool.or_eq_true, Bool.and_eq_true, decide_eq_true_eq, BitVec.lt_def, BitVec.toNat_eq]

/-- BUILD finds the node that the merge takes. -/
theorem firstOf_map {ns : List Node} {q : List Queued} (hq : ∀ x ∈ q, representedIn ns x) :
    firstOf ns (q.map Queued.index) = (takeFirst q).map fun r => r.1.index := by
  induction q with
  | nil => rfl
  | cons x q ih =>
    have ih := ih fun y hy => hq y (List.mem_cons_of_mem x hy)
    simp only [List.map_cons, firstOf, ih]
    rcases takeFirst_cons x q with ⟨rfl, -⟩ | ⟨y, rest, hr, hcases⟩
    · simp [takeFirst]
    · have hy : y ∈ q := (takeFirst_perm hr).mem_iff.mpr List.mem_cons_self
      have hb := before_eq_comesBefore (hq y (List.mem_cons_of_mem x hy)) (hq x List.mem_cons_self)
      rcases hcases with ⟨hc, e⟩ | ⟨hc, e⟩ <;> simp [hr, e, hb, hc]

/-- Taking the node out of the queue leaves what the merge leaves, in the same order. -/
theorem erase_takeFirst {q rest : List Queued} {x : Queued} (h : takeFirst q = some (x, rest))
    (hnodup : (q.map Queued.index).Nodup) : (q.map Queued.index).erase x.index = rest.map Queued.index := by
  induction q generalizing x rest with
  | nil => cases h
  | cons a q ih =>
    obtain ⟨ha, hq⟩ := List.nodup_cons.mp hnodup
    rcases takeFirst_cons a q with ⟨rfl, e⟩ | ⟨y, r, hr, ⟨-, e⟩ | ⟨-, e⟩⟩ <;> cases e.symm.trans h
    · simp
    · have hy : x ∈ q := (takeFirst_perm hr).mem_iff.mpr List.mem_cons_self
      have hne : a.index ≠ x.index := fun e => ha (e ▸ List.mem_map_of_mem hy)
      rw [List.map_cons, List.erase_cons_tail (by simpa using hne), ih hr hq, List.map_cons]
    · simp

theorem dequeue_map {ns : List Node} {q : List Queued} (hq : ∀ x ∈ q, representedIn ns x)
    (hnodup : (q.map Queued.index).Nodup) :
    dequeue ns (q.map Queued.index) = (takeFirst q).map fun r => (r.1.index, r.2.map Queued.index) := by
  rw [dequeue, firstOf_map hq]
  cases h : takeFirst q with
  | none => rfl
  | some r => simp only [Option.map_some, erase_takeFirst h hnodup]

/-! ## The forest of the queue -/

/-- A part whose root gets another parent is still held. -/
theorem spells_reparent {t u : Tree} {p : PTree} {par par' : Option Nat} {isz isz' : Bool} {n : Node}
    (h : spells t par isz p = true) (hnodup : p.indices.Nodup) (hn : nodeAt t p.index = some n)
    (hroot : nodeAt u p.index = some { n with parent := par', isz := isz' })
    (hrest : ∀ i ∈ p.indices, i ≠ p.index → nodeAt u i = nodeAt t i) : spells u par' isz' p = true := by
  cases p with
  | leaf i x =>
    obtain ⟨n', hn', hx, hz, ho, -, -⟩ := spells_leaf_iff.mp h
    cases hn'.symm.trans hn
    exact spells_leaf_iff.mpr ⟨_, hroot, hx, hz, ho, rfl, rfl⟩
  | node i z o =>
    obtain ⟨⟨n', hn', hzero, hone, -, -, hcount⟩, hz, ho⟩ := spells_node_iff.mp h
    cases hn'.symm.trans hn
    obtain ⟨hi, -⟩ := List.nodup_cons.mp hnodup
    have hsame : ∀ j ∈ z.indices ++ o.indices, nodeAt u j = nodeAt t j := fun j hj =>
      hrest j (List.mem_cons_of_mem i hj) (ne_of_mem_of_not_mem hj hi)
    have hzsame : ∀ j ∈ z.indices, nodeAt u j = nodeAt t j := fun j hj => hsame j (List.mem_append_left _ hj)
    have hosame : ∀ j ∈ o.indices, nodeAt u j = nodeAt t j := fun j hj => hsame j (List.mem_append_right _ hj)
    refine spells_node_iff.mpr ⟨⟨_, hroot, hzero, hone, rfl, rfl, ?_⟩, spells_congr hzsame hz, spells_congr hosame ho⟩
    rw [countAt_congr (hzsame _ z.index_mem_indices), countAt_congr (hosame _ o.index_mem_indices)]
    exact hcount

/-- The arena indices of the queued trees. -/
def forestIndices (q : List Queued) : List Nat := q.flatMap fun x => x.tree.indices

/-- The leaves of the queued trees. -/
def forestLeaves (q : List Queued) : List (Symbol × Nat) := q.flatMap fun x => x.tree.leaves

@[simp] theorem forestIndices_cons (x : Queued) (q : List Queued) :
    forestIndices (x :: q) = x.tree.indices ++ forestIndices q := rfl

@[simp] theorem forestLeaves_cons (x : Queued) (q : List Queued) :
    forestLeaves (x :: q) = x.tree.leaves ++ forestLeaves q := rfl

/-- The tree registers hold the queued trees, each without a parent, and nothing besides; the symbols of the queue differ
(R165) and its counts do not wrap (R168). -/
structure HoldsForest (w : Width) (t : Tree) (q : List Queued) : Prop where
  spells : ∀ x ∈ q, spells t none false x.tree = true
  represented : ∀ x ∈ q, representedIn t.nodes x
  nodup : (forestIndices q).Nodup
  nfree : t.nfree = (forestIndices q).length
  listed : leavesListed w t (forestLeaves q) = true
  syms : (q.map Queued.sym).Nodup
  total : (q.map Queued.count).sum < 2 ^ 64

theorem HoldsForest.perm {w : Width} {t : Tree} {q q' : List Queued} (h : HoldsForest w t q) (hp : q.Perm q') :
    HoldsForest w t q' where
  spells x hx := h.spells x (hp.mem_iff.mpr hx)
  represented x hx := h.represented x (hp.mem_iff.mpr hx)
  nodup := (hp.flatMap_right _).nodup_iff.mp h.nodup
  nfree := h.nfree.trans (hp.flatMap_right _).length_eq
  listed := leavesListed_congr h.listed rfl rfl (hp.flatMap_right _)
  syms := (hp.map _).nodup_iff.mp h.syms
  total := (hp.map Queued.count).sum_eq ▸ h.total

/-- The roots of the forest have different indices. -/
theorem index_nodup {q : List Queued} (h : (forestIndices q).Nodup) : (q.map Queued.index).Nodup := by
  induction q with
  | nil => exact List.nodup_nil
  | cons x q ih =>
    obtain ⟨-, hq, hdisj⟩ := List.nodup_append.mp h
    refine List.nodup_cons.mpr ⟨fun hx => ?_, ih hq⟩
    obtain ⟨y, hy, hxy⟩ := List.mem_map.mp hx
    exact hdisj x.index x.tree.index_mem_indices y.index (List.mem_flatMap.mpr ⟨y, hy, y.tree.index_mem_indices⟩) hxy.symm

/-- The node that joins the two first ones (R166). -/
def Queued.join (n : Nat) (x y : Queued) : Queued :=
  { count := x.count + y.count, sym := y.sym, tree := .node n x.tree y.tree }

theorem forestIndices_join (n : Nat) (x y : Queued) (q : List Queued) :
    forestIndices (Queued.join n x y :: q) = n :: forestIndices (x :: y :: q) := by
  simp [Queued.join, PTree.indices]

/-- BUILD's join of the two first roots makes the merge's node. -/
theorem holdsForest_join {w : Width} {t : Tree} {x y : Queued} {q : List Queued} (h : HoldsForest w t (x :: y :: q)) :
    HoldsForest w (joinNodes x.index y.index t) (Queued.join t.nfree x y :: q) := by
  obtain ⟨a, ha, hac, has⟩ := h.represented x (by simp)
  obtain ⟨b, hb, hbc, hbs⟩ := h.represented y (by simp)
  have hidx := h.nodup
  simp only [forestIndices_cons] at hidx
  obtain ⟨hndx, hrest, hxdisj⟩ := List.nodup_append.mp hidx
  obtain ⟨hndy, -, hydisj⟩ := List.nodup_append.mp hrest
  have hxy : x.index ≠ y.index :=
    hxdisj _ x.tree.index_mem_indices _ (List.mem_append_left _ y.tree.index_mem_indices)
  obtain ⟨hnfree, hnew, hx, hy, hold⟩ := joinNodes_nodes ha hb hxy
  have hlt : ∀ z ∈ x :: y :: q, ∀ i ∈ z.tree.indices, i ≠ t.nfree := fun z hz i hi => by
    obtain ⟨n, hn⟩ := nodeAt_of_mem_indices (h.spells z hz) hi
    exact Nat.ne_of_lt (nodeAt_lt_nfree hn)
  have htotal := h.total
  simp only [List.map_cons, List.sum_cons] at htotal
  have hcount : (a.count + b.count).toNat = x.count + y.count := by
    rw [BitVec.toNat_add, hac, hbc, Nat.mod_eq_of_lt (by omega)]
  have hsame : ∀ z ∈ q, ∀ i ∈ z.tree.indices, nodeAt (joinNodes x.index y.index t) i = nodeAt t i := fun z hz i hi => by
    have hin : i ∈ forestIndices q := List.mem_flatMap.mpr ⟨z, hz, hi⟩
    exact hold i (fun e => hxdisj _ x.tree.index_mem_indices _ (List.mem_append_right _ hin) e.symm)
      (fun e => hydisj _ y.tree.index_mem_indices _ hin e.symm) (hlt z (by simp [hz]) i hi)
  have hxs : spells (joinNodes x.index y.index t) (some t.nfree) true x.tree = true :=
    spells_reparent (h.spells x (by simp)) hndx ha hx fun i hi hne => hold i hne
      (hxdisj i hi _ (List.mem_append_left _ y.tree.index_mem_indices)) (hlt x (by simp) i hi)
  have hys : spells (joinNodes x.index y.index t) (some t.nfree) false y.tree = true :=
    spells_reparent (h.spells y (by simp)) hndy hb hy fun i hi hne => hold i
      (fun e => hxdisj _ x.tree.index_mem_indices _ (List.mem_append_left _ hi) e.symm) hne (hlt y (by simp) i hi)
  refine ⟨fun z hz => ?_, fun z hz => ?_, ?_, ?_, ?_, ?_, ?_⟩
  · rcases List.mem_cons.mp hz with rfl | hz
    · refine spells_node_iff.mpr ⟨⟨_, hnew, rfl, rfl, rfl, rfl, ?_⟩, hxs, hys⟩
      exact congrArg₂ (· + ·) (countAt_of_nodeAt hx).symm (countAt_of_nodeAt hy).symm
    · exact spells_congr (hsame z hz) (h.spells z (by simp [hz]))
  · rcases List.mem_cons.mp hz with rfl | hz
    · exact ⟨_, hnew, hcount, hbs⟩
    · obtain ⟨n, hn, hnc, hns⟩ := h.represented z (by simp [hz])
      exact ⟨n, (hsame z hz _ z.tree.index_mem_indices).trans hn, hnc, hns⟩
  · rw [forestIndices_join]
    refine List.nodup_cons.mpr ⟨fun hi => ?_, h.nodup⟩
    obtain ⟨z, hz, hi⟩ := List.mem_flatMap.mp hi
    exact hlt z hz _ hi rfl
  · rw [hnfree, h.nfree, forestIndices_join, List.length_cons]
  · refine leavesListed_congr h.listed (joinNodes_leaf ..) (joinNodes_nleaves ..) ?_
    simp [Queued.join, PTree.leaves]
  · exact (List.nodup_cons.mp h.syms).2
  · simp only [Queued.join, List.map_cons, List.sum_cons]
    omega

theorem HoldsForest.index_nodup {w : Width} {t : Tree} {q : List Queued} (h : HoldsForest w t q) :
    (q.map Queued.index).Nodup := Machine.index_nodup h.nodup

/-- The last tree of the forest is the tree of the registers, once ROOT names it. -/
theorem isTree_of_holdsForest {w : Width} {t : Tree} {x : Queued} (h : HoldsForest w t [x]) :
    isTree w { t with root := some x.index } x.tree = true := by
  have hindices : forestIndices [x] = x.tree.indices := List.append_nil _
  have hleaves : forestLeaves [x] = x.tree.leaves := List.append_nil _
  exact isTree_iff.mpr ⟨rfl, spells_congr (t := t) (u := { t with root := some x.index }) (fun _ _ => rfl)
    (h.spells x (by simp)), hindices ▸ h.nodup,
    hindices ▸ h.nfree, leavesListed_congr h.listed rfl rfl (by rw [hleaves])⟩

/-- BUILD's merge loop and the merge without the arena, side by side: the two queues hold the same nodes. -/
theorem isTree_mergeQueue {w : Width} (k : Nat) : ∀ {t : Tree} {q q' : List Queued}, HoldsForest w t q → q.Perm q' →
    q ≠ [] → q.length ≤ k → ∃ p, mergeQueued k t.nfree q' = some p ∧
      isTree w (mergeQueue k t (q.map Queued.index)) p = true := by
  induction k with
  | zero => intro t q q' _ _ hne hlen; exact absurd (List.length_eq_zero_iff.mp (Nat.le_zero.mp hlen)) hne
  | succ k ih =>
    intro t q q' h hperm hne hlen
    obtain ⟨⟨x, r⟩, hx⟩ := Option.ne_none_iff_exists'.mp (mt takeFirst_eq_none.mp hne)
    obtain ⟨r', hx', hr⟩ := takeFirst_of_perm hperm h.syms hx
    have hq := h.perm (takeFirst_perm hx)
    have hdeq := dequeue_map h.represented h.index_nodup
    have hdeq' := dequeue_map (q := r) (fun y hy => hq.represented y (List.mem_cons_of_mem x hy))
      (List.nodup_cons.mp hq.index_nodup).2
    rw [hx, Option.map_some] at hdeq
    simp only [mergeQueue, mergeQueued, hdeq, hdeq', hx']
    cases hy : takeFirst r with
    | none =>
      rw [takeFirst_eq_none.mp hy] at hr hq
      rw [hr.nil_eq.symm] at *
      exact ⟨x.tree, by simp [takeFirst], isTree_of_holdsForest hq⟩
    | some s =>
      obtain ⟨y, r₂⟩ := s
      obtain ⟨r₂', hy', hr₂⟩ := takeFirst_of_perm hr (List.nodup_cons.mp hq.syms).2 hy
      have hxy := hq.perm ((takeFirst_perm hy).cons x)
      have hn : (joinNodes x.index y.index t).nfree = t.nfree + 1 := by
        rw [(holdsForest_join hxy).nfree, forestIndices_join, List.length_cons, ← hxy.nfree]
      have hjoin := (holdsForest_join hxy).perm
        (List.perm_append_comm (l₁ := [Queued.join t.nfree x y]) (l₂ := r₂))
      have hlen' := (takeFirst_perm hx).length_eq.symm.trans_le hlen
      have hlen₂ := (takeFirst_perm hy).length_eq
      simp only [List.length_cons] at hlen' hlen₂
      obtain ⟨p, hp, htree⟩ := ih hjoin (q' := Queued.join t.nfree x y :: r₂')
        (List.perm_append_comm.trans (hr₂.cons _)) (by simp) (by simp; omega)
      refine ⟨p, ?_, ?_⟩
      · rw [hn] at hp
        simpa only [hy', Queued.join] using hp
      · rw [List.map_append] at htree
        exact htree

/-! ## The leaves of a table -/

/-- The leaf that BUILD makes for a table's entry. -/
def queuedLeaf (n : Nat) (e : Nat × Word) : Queued :=
  { count := e.2.toNat, sym := BitVec.ofNat 16 e.1, tree := .leaf n (BitVec.ofNat 16 e.1) }

theorem queuedLeaves_cons (n : Nat) (e : Nat × Word) (f : Table Word) :
    queuedLeaves n (e :: f) = queuedLeaf n e :: queuedLeaves (n + 1) f := rfl

theorem queuedLeaves_length (n : Nat) (f : Table Word) : (queuedLeaves n f).length = f.length := by
  induction f generalizing n with
  | nil => rfl
  | cons e f ih => rw [queuedLeaves_cons, List.length_cons, ih, List.length_cons]

theorem forestIndices_queuedLeaves_length (n : Nat) (f : Table Word) :
    (forestIndices (queuedLeaves n f)).length = f.length := by
  induction f generalizing n with
  | nil => rfl
  | cons e f ih =>
    rw [queuedLeaves_cons, forestIndices_cons, List.length_append, ih, List.length_cons, Nat.add_comm]
    rfl

theorem alphabet_le (w : Width) : w.alphabet ≤ 2 ^ 16 := Nat.pow_le_pow_right (by omega) (width_bits_le w)

/-- A key below N is its symbol's value. -/
theorem toNat_ofNat_key {w : Width} {k : Nat} (h : k < w.alphabet) : (BitVec.ofNat 16 k).toNat = k :=
  Nat.mod_eq_of_lt (h.trans_le (alphabet_le w))

/-- The forest has a leaf for each queued node and no other: true while BUILD makes leaves. -/
def onlyLeaves (q : List Queued) : Prop := (forestLeaves q).map Prod.fst = q.map Queued.sym

/-- One pass of BUILD's first loop adds the entry's leaf to the forest. -/
theorem holdsForest_addLeaf {w : Width} {t : Tree} {q : List Queued} {e : Nat × Word} (h : HoldsForest w t q)
    (hleaves : onlyLeaves q) (hkey : e.1 < w.alphabet) (hnew : ∀ x ∈ q, x.sym.toNat < e.1)
    (htotal : (q.map Queued.count).sum + e.2.toNat < 2 ^ 64) :
    HoldsForest w (listLeaf (BitVec.ofNat 16 e.1) t.nfree (newNode (e.2.setWidth 64) (BitVec.ofNat 16 e.1) t))
      (queuedLeaf t.nfree e :: q) := by
  have hval := toNat_ofNat_key hkey
  have hold : ∀ i, i ≠ t.nfree → nodeAt
      (listLeaf (BitVec.ofNat 16 e.1) t.nfree (newNode (e.2.setWidth 64) (BitVec.ofNat 16 e.1) t)) i = nodeAt t i :=
    fun i hi => nodeAt_newNode_old _ _ t hi
  have hnode := nodeAt_newNode_new (e.2.setWidth 64) (BitVec.ofNat 16 e.1) t
  have hparts : ∀ x ∈ q, ∀ i ∈ x.tree.indices, i ≠ t.nfree := fun x hx i hi => by
    obtain ⟨n, hn⟩ := nodeAt_of_mem_indices (h.spells x hx) hi
    exact Nat.ne_of_lt (nodeAt_lt_nfree hn)
  have hsym : BitVec.ofNat 16 e.1 ∉ q.map Queued.sym := fun hm => by
    obtain ⟨x, hx, he⟩ := List.mem_map.mp hm
    have := hnew x hx
    rw [he, hval] at this
    omega
  refine ⟨fun x hx => ?_, fun x hx => ?_, ?_, ?_, ?_, List.nodup_cons.mpr ⟨hsym, h.syms⟩, ?_⟩
  · rcases List.mem_cons.mp hx with rfl | hx
    · exact spells_leaf_iff.mpr ⟨_, hnode, rfl, rfl, rfl, rfl, rfl⟩
    · exact spells_congr (fun i hi => hold i (hparts x hx i hi)) (h.spells x hx)
  · rcases List.mem_cons.mp hx with rfl | hx
    · refine ⟨_, hnode, ?_, rfl⟩
      exact BitVec.toNat_setWidth_of_le (by omega)
    · obtain ⟨n, hn, hnc, hns⟩ := h.represented x hx
      exact ⟨n, (hold _ (hparts x hx _ x.tree.index_mem_indices)).trans hn, hnc, hns⟩
  · refine List.nodup_cons.mpr ⟨fun hi => ?_, h.nodup⟩
    obtain ⟨x, hx, hi⟩ := List.mem_flatMap.mp hi
    exact hparts x hx _ hi rfl
  · exact (newNode_nfree ..).trans (congrArg (· + 1) h.nfree)
  · refine leavesListed_listLeaf (leavesListed_congr h.listed rfl rfl (List.Perm.refl _)) (hval.trans_lt hkey) ?_ _
    rw [hleaves]
    exact hsym
  · simp only [List.map_cons, List.sum_cons, queuedLeaf]
    omega

/-- BUILD's first loop makes the leaves of the table, in its order. -/
theorem foldl_addLeaf {w : Width} {f : Table Word} : ∀ {t : Tree} {q : List Queued}, HoldsForest w t q → onlyLeaves q →
    freqWf w f = true → (∀ x ∈ q, ∀ e ∈ f, x.sym.toNat < e.1) →
    (q.map Queued.count).sum + (f.map fun e => e.2.toNat).sum < 2 ^ 64 →
    ∃ t', f.foldl addLeaf (t, q.map Queued.index) = (t', (q ++ queuedLeaves t.nfree f).map Queued.index) ∧
      HoldsForest w t' (q ++ queuedLeaves t.nfree f) := by
  induction f with
  | nil => intro t q h _ _ _ _; exact ⟨t, by simp [queuedLeaves], by simpa [queuedLeaves] using h⟩
  | cons e f ih =>
    intro t q h hleaves hf hbelow htotal
    obtain ⟨hrising, hkeys, hvals⟩ := freqWf_iff.mp hf
    have hkey := hkeys e (by simp)
    have hval := toNat_ofNat_key hkey
    rw [List.map_cons, List.sum_cons] at htotal
    have hperm : (queuedLeaf t.nfree e :: q).Perm (q ++ [queuedLeaf t.nfree e]) := List.perm_append_comm (l₁ := [_])
    have h' := (holdsForest_addLeaf h hleaves hkey (fun x hx => hbelow x hx e (by simp)) (by omega)).perm hperm
    have hf' : freqWf w f = true := freqWf_iff.mpr ⟨rising_tail hrising, fun e' he' => hkeys e' (by simp [he']),
      fun e' he' => hvals e' (by simp [he'])⟩
    have hleaves' : onlyLeaves (q ++ [queuedLeaf t.nfree e]) := by
      simp only [onlyLeaves, forestLeaves, List.flatMap_append, List.map_append] at hleaves ⊢
      rw [hleaves]
      rfl
    have hbelow' : ∀ x ∈ q ++ [queuedLeaf t.nfree e], ∀ e' ∈ f, x.sym.toNat < e'.1 := fun x hx e' he' => by
      rcases List.mem_append.mp hx with hx | hx
      · exact hbelow x hx e' (by simp [he'])
      · rw [List.mem_singleton.mp hx]
        exact hval.trans_lt ((rising_cons_iff.mp hrising).1 e' he')
    obtain ⟨t', hfold, ht'⟩ := ih h' hleaves' hf' hbelow' (by simp [queuedLeaf]; omega)
    have hnfree : (listLeaf (BitVec.ofNat 16 e.1) t.nfree (newNode (e.2.setWidth 64) (BitVec.ofNat 16 e.1) t)).nfree =
        t.nfree + 1 := newNode_nfree ..
    rw [hnfree, List.append_assoc] at hfold ht'
    refine ⟨t', ?_, ht'⟩
    rw [List.foldl_cons, addLeaf, if_neg (hvals e (by simp))]
    rw [List.map_append] at hfold
    exact hfold

/-- A table's entries are at most N. -/
theorem freq_length_le {w : Width} {f : Table Word} (h : freqWf w f = true) : f.length ≤ w.alphabet := by
  obtain ⟨hrising, hkeys, -⟩ := freqWf_iff.mp h
  have hsub : f.map Prod.fst ⊆ List.range w.alphabet := fun k hk => by
    obtain ⟨e, he, rfl⟩ := List.mem_map.mp hk
    exact List.mem_range.mpr (hkeys e he)
  simpa using (keys_nodup_of_rising hrising).length_le_of_subset hsub

/-- The counts of a table do not wrap (spec/41_table_build.md R168). -/
theorem freq_total_lt {w : Width} {f : Table Word} (h : freqWf w f = true) :
    (f.map fun e => e.2.toNat).sum ≤ 2 ^ 48 := by
  have hlen := (freq_length_le h).trans (alphabet_le w)
  have hsum := List.sum_le_card_nsmul (f.map fun e => e.2.toNat) (2 ^ 32) fun n hn => by
    obtain ⟨e, -, rfl⟩ := List.mem_map.mp hn
    exact e.2.isLt.le
  rw [List.length_map, smul_eq_mul] at hsum
  exact hsum.trans (by omega)

/-- BUILD's tree is the tree of the merge (spec/41_table_build.md R164 to R167). -/
theorem isTree_buildTree {w : Width} {f : Table Word} (hf : freqWf w f = true) (hne : f ≠ []) :
    ∃ p, mergedTree f = some p ∧ isTree w (buildTree f) p = true := by
  have hcleared : HoldsForest w Tree.cleared [] :=
    {
    spells _ h := nomatch h
    represented _ h := nomatch h
    nodup := List.nodup_nil
    nfree := rfl
    listed := by cases w <;> decide
    syms := List.nodup_nil
    total := by decide }
  have htotal := freq_total_lt hf
  obtain ⟨t, hfold, ht⟩ := foldl_addLeaf hcleared rfl hf (fun _ h => nomatch h) (by simp; omega)
  have hlen := queuedLeaves_length 0 f
  have hnfree : t.nfree = f.length := ht.nfree.trans (forestIndices_queuedLeaves_length 0 f)
  obtain ⟨p, hp, htree⟩ := isTree_mergeQueue f.length (q := queuedLeaves 0 f) (t := t) ht (List.Perm.refl _)
    (by rw [← List.length_pos_iff, hlen]; exact List.length_pos_iff.mpr hne) hlen.le
  refine ⟨p, by rw [mergedTree, ← hp, hnfree], ?_⟩
  have hq : f.foldl addLeaf (Tree.cleared, []) = (t, (queuedLeaves 0 f).map Queued.index) := hfold
  simp only [buildTree, hq, List.length_map, hlen]
  exact htree

/-! ## The symbols of the tree -/

/-- The merge moves the leaves and loses none. -/
theorem symbols_mergeQueued {k n : Nat} {q : List Queued} {p : PTree} (h : mergeQueued k n q = some p) :
    p.symbols.Perm ((forestLeaves q).map Prod.fst) := by
  induction k generalizing n q with
  | zero => cases h
  | succ k ih =>
    simp only [mergeQueued] at h
    cases hx : takeFirst q with
    | none => simp [hx] at h
    | some r =>
      obtain ⟨x, q₁⟩ := r
      have hq : (forestLeaves q).Perm (forestLeaves (x :: q₁)) := (takeFirst_perm hx).flatMap_right _
      simp only [hx] at h
      cases hy : takeFirst q₁ with
      | none =>
        simp only [hy, Option.some.injEq] at h
        rw [takeFirst_eq_none.mp hy] at hq
        rw [← h]
        exact (by simpa [forestLeaves, PTree.symbols] using (hq.map Prod.fst).symm)
      | some r =>
        obtain ⟨y, q₂⟩ := r
        simp only [hy] at h
        have hq₁ : (forestLeaves q₁).Perm (forestLeaves (y :: q₂)) := (takeFirst_perm hy).flatMap_right _
        refine (ih h).trans (List.Perm.map _ (List.Perm.trans ?_ hq.symm))
        simp only [forestLeaves_cons, PTree.leaves, List.append_assoc] at hq₁ ⊢
        exact (hq₁.append_left _).symm

theorem forestLeaves_queuedLeaves (n : Nat) (f : Table Word) :
    (forestLeaves (queuedLeaves n f)).map Prod.fst = f.map fun e => BitVec.ofNat 16 e.1 := by
  induction f generalizing n with
  | nil => rfl
  | cons e f ih =>
    rw [queuedLeaves_cons, forestLeaves_cons, List.map_append, ih]
    rfl

/-- The leaves of the merged tree are the table's symbols. -/
theorem symbols_mergedTree {f : Table Word} {p : PTree} (h : mergedTree f = some p) :
    p.symbols.Perm (f.map fun e => BitVec.ofNat 16 e.1) :=
  forestLeaves_queuedLeaves 0 f ▸ symbols_mergeQueued h

/-- They are distinct and below N. -/
theorem symbols_mergedTree_legal {w : Width} {f : Table Word} {p : PTree} (hf : freqWf w f = true)
    (h : mergedTree f = some p) : p.symbols.Nodup ∧ ∀ x ∈ p.symbols, x.toNat < w.alphabet := by
  obtain ⟨hrising, hkeys, -⟩ := freqWf_iff.mp hf
  have hperm := symbols_mergedTree h
  have hval : ∀ e ∈ f, (BitVec.ofNat 16 e.1).toNat = e.1 := fun e he => toNat_ofNat_key (hkeys e he)
  refine ⟨hperm.nodup_iff.mpr ?_, fun x hx => ?_⟩
  · refine List.Nodup.of_map BitVec.toNat ?_
    rw [List.map_map, show f.map (BitVec.toNat ∘ fun e => BitVec.ofNat 16 e.1) = f.map Prod.fst from
      List.map_congr_left hval]
    exact keys_nodup_of_rising hrising
  · obtain ⟨e, he, rfl⟩ := List.mem_map.mp (hperm.mem_iff.mp hx)
    rw [hval e he]
    exact hkeys e he

end Sys2Proof.Machine
end

section
/-! PROOF. The container's layout (spec/20_memory.md R80 to R87): its bytes hold its bits, its length, and the bits that
the decompress procedure reads of it. -/

namespace Sys2Proof.Machine

/-! ## The host's count and its tree -/

/-- A symbol that occurs is a leaf of the tree. -/
theorem mem_symbols_of_mem {w : Width} {xs : List Symbol} (hlt : ∀ x ∈ xs, x.toNat < w.alphabet)
    (hlen : xs.length < 2 ^ 32) {p : PTree} (hp : mergedTree (countSymbols xs) = some p) {x : Symbol} (hx : x ∈ xs) :
    x ∈ p.symbols := by
  have hcount : 0 < xs.count x ∧ xs.count x < 2 ^ 32 := ⟨List.count_pos_iff.mpr hx, (List.count_le_length ..).trans_lt hlen⟩
  have hfreq : getFreq (countSymbols xs) x ≠ 0 := fun h => by
    have := congrArg BitVec.toNat ((getFreq_countSymbols hlt x).symm.trans h)
    rw [BitVec.toNat_ofNat, Nat.mod_eq_of_lt hcount.2] at this
    exact Nat.ne_of_gt hcount.1 this
  obtain ⟨c, hc⟩ := (getFreq_ne_zero_iff (freqWf_countSymbols hlt) x).mp hfreq
  refine (symbols_mergedTree hp).mem_iff.mpr (List.mem_map.mpr ⟨_, hc, ?_⟩)
  rw [BitVec.ofNat_toNat, BitVec.setWidth_eq]

/-- Only the empty sequence has no count. -/
theorem countSymbols_ne_nil {w : Width} {xs : List Symbol} (hlt : ∀ x ∈ xs, x.toNat < w.alphabet)
    (hlen : xs.length < 2 ^ 32) (hne : xs ≠ []) : countSymbols xs ≠ [] := by
  obtain ⟨x, hx⟩ := List.exists_mem_of_ne_nil xs hne
  intro h
  have hcount : 0 < xs.count x ∧ xs.count x < 2 ^ 32 := ⟨List.count_pos_iff.mpr hx, (List.count_le_length ..).trans_lt hlen⟩
  have := congrArg BitVec.toNat (getFreq_countSymbols hlt x)
  rw [h, BitVec.toNat_ofNat, Nat.mod_eq_of_lt hcount.2] at this
  exact Nat.ne_of_lt hcount.1 this

/-- A sequence that is not empty has a tree, which BUILD makes of its count. -/
theorem mergedTree_countSymbols {w : Width} {xs : List Symbol} (hlt : ∀ x ∈ xs, x.toNat < w.alphabet)
    (hlen : xs.length < 2 ^ 32) (hne : xs ≠ []) : ∃ p, mergedTree (countSymbols xs) = some p ∧
      isTree w (buildTree (countSymbols xs)) p = true :=
  isTree_buildTree (freqWf_countSymbols hlt) (countSymbols_ne_nil hlt hlen hne)

/-! ## Bits and bytes -/

theorem flatMap_container (w : Width) (xs : List Symbol) : (container w xs).flatMap byteBits = containerBits w xs := by
  refine flatMap_packBytes _ ?_
  rw [containerBits, List.length_append]
  exact padBits_fills _

/-- The container's bytes are its fields' bits, rounded up. -/
theorem container_length (w : Width) (xs : List Symbol) :
    (container w xs).length = ((containerFields w xs).flatten.length + 7) / 8 := by
  have h := congrArg List.length (flatMap_container w xs)
  rw [flatMap_byteBits_length, containerBits, List.length_append] at h
  simp only [padBits, List.length_replicate] at h
  omega

theorem containerBits_nil (w : Width) : containerBits w [] = msbBits 32 0 := by
  cases w <;> decide +kernel

theorem container_nil (w : Width) : container w [] = [0, 0, 0, 0] := by
  cases w <;> decide +kernel

theorem containerFields_some {w : Width} {xs : List Symbol} {p : PTree} (hp : mergedTree (countSymbols xs) = some p) :
    containerFields w xs = [msbBits 32 xs.length, msbBits w.bits (p.symbols.length - 1), p.shape w, payloadBits p xs] := by
  simp only [containerFields, hp]

/-- The fields with nothing between them (R87). -/
theorem flatten_containerFields {w : Width} {xs : List Symbol} {p : PTree} (hp : mergedTree (countSymbols xs) = some p) :
    (containerFields w xs).flatten =
      msbBits 32 xs.length ++ (msbBits w.bits (p.symbols.length - 1) ++ (p.shape w ++ payloadBits p xs)) := by
  simp only [containerFields_some hp, List.flatten_cons, List.flatten_nil, List.append_nil]

theorem flatten_containerFields_length {w : Width} {xs : List Symbol} {p : PTree}
    (hp : mergedTree (countSymbols xs) = some p) :
    (containerFields w xs).flatten.length = 32 + w.bits + (p.shape w).length + (payloadBits p xs).length := by
  rw [flatten_containerFields hp]
  simp only [List.length_append, msbBits_length]
  omega

theorem payloadBits_length (p : PTree) (xs : List Symbol) :
    (payloadBits p xs).length = (xs.map fun x => ((p.code x).getD []).length).sum := by
  rw [payloadBits, List.length_flatMap]

/-- The bytes that hold given bits are the only ones. -/
theorem flatMap_byteBits_injective {q q' : List Byte} (h : q.flatMap byteBits = q'.flatMap byteBits) : q = q' := by
  induction q generalizing q' with
  | nil =>
    have := congrArg List.length h
    rw [flatMap_byteBits_length, flatMap_byteBits_length] at this
    exact (List.length_eq_zero_iff.mp (by simpa using this.symm)).symm
  | cons b q ih =>
    cases q' with
    | nil => simp [byteBits] at h
    | cons b' q' =>
      obtain ⟨hb, hq⟩ := List.append_inj h (by rw [byteBits_length, byteBits_length])
      have hval := congrArg bitsValue hb
      rw [byteBits, byteBits, bitsValue_msbBits, bitsValue_msbBits, Nat.mod_eq_of_lt b.isLt, Nat.mod_eq_of_lt b'.isLt] at hval
      rw [BitVec.eq_of_toNat_eq hval, ih hq]

/-! ## The bits that are read -/

/-- The bits DEC reads for a symbol: its path from the root, none on a SINGLE tree (spec/42_encode_decode.md R202). -/
def decBits (p : PTree) (x : Symbol) : List Bool := (p.path x).getD []

/-- The bits the decompress procedure reads of the container of a sequence that is not empty. -/
def neededBits (w : Width) (p : PTree) (xs : List Symbol) : List Bool :=
  msbBits 32 xs.length ++ (msbBits w.bits (p.symbols.length - 1) ++ (p.shape w ++ xs.flatMap (decBits p)))

theorem decBits_of_plain_eq {p q : PTree} (h : p.plain = q.plain) (x : Symbol) : decBits p x = decBits q x := by
  rw [decBits, decBits, ← p.plain_path, h, q.plain_path]

/-- The DECs read the payload, but of a SINGLE tree they read nothing. -/
theorem flatMap_decBits (p : PTree) (xs : List Symbol) :
    xs.flatMap (decBits p) = if p.isLeaf then [] else payloadBits p xs := by
  cases p with
  | leaf i y =>
    have hnil : ∀ x, decBits (.leaf i y) x = [] := fun x => by simp only [decBits, PTree.path]; split <;> rfl
    simp [PTree.isLeaf, hnil]
  | node i z o => rfl

theorem neededBits_length (w : Width) (p : PTree) (xs : List Symbol) : (neededBits w p xs).length =
    32 + w.bits + (p.shape w).length + (if p.isLeaf then 0 else (payloadBits p xs).length) := by
  simp only [neededBits, flatMap_decBits, List.length_append, msbBits_length]
  cases p.isLeaf <;> simp <;> omega

/-- The container begins with the bits that are read of it. -/
theorem containerBits_needed {w : Width} {xs : List Symbol} {p : PTree} (hp : mergedTree (countSymbols xs) = some p) :
    ∃ tail, containerBits w xs = neededBits w p xs ++ tail := by
  rw [containerBits, neededBits, flatMap_decBits, flatten_containerFields hp]
  generalize padBits _ = pad
  cases p.isLeaf
  · exact ⟨pad, by simp⟩
  · exact ⟨payloadBits p xs ++ pad, by simp⟩

end Sys2Proof.Machine
end

section
/-! PROOF. The decompress procedure (spec/20_memory.md R89, R90; log 15): however INQ limits the pushes, each command reads
its bits of the whole stream, the bytes in INQ and those not pushed yet. -/

namespace Sys2Proof.Machine

/-! ## A command issued and run -/

/-- The state in which the host has issued the command to an idle core. -/
def State.withCommand (i : Instr) (s : State) : State :=
  { s with cmdLo := lowWord (encode i), cmdHi := highWord (encode i), mode := .busy, cmd := encode i, job := none }

theorem runTurn_withCommand (i : Instr) (s : State) : runTurn (s.withCommand i) = exec i (s.withCommand i) :=
  runTurn_issued rfl rfl (decode_encode i)

theorem turnNow_run_of_next {s t : State} (h : runTurn s = .next t) : turnNow .run s = some t := by
  rw [turnNow_run, h]

/-- Issuing a command to an idle core, and a run turn. -/
theorem issue_and_run {i : Instr} {s t : State} (hs : s.mode = .idle) (h : exec i (s.withCommand i) = .next t) :
    (issueCommand i s).bind (turnNow .run) = some t := by
  rw [issueCommand_idle hs]
  exact turnNow_run_of_next ((runTurn_withCommand i s).trans h)

/-- RRST (spec/40_bit_io.md R137). -/
theorem exec_rrst (s : State) : exec .rrst s =
    .next (finish { s with rcur := none, rbuf := 0, inq := [], inClosed := false }) := by
  have h : startInstr .rrst s = .moved { s with rcur := none, rbuf := 0, job := some .emptyInput } := rfl
  rw [exec_of_startInstr h, runJob_eq]
  simp only [advance]
  rw [runJob_eq]
  simp only [advance, runJob_finish]
  exact congrArg Host.Outcome.next (finish_with_job { s with rcur := none, rbuf := 0, inq := [], inClosed := false } _)

/-! ## Pushes -/

/-- What stands after the host has pushed: bytes are left over only where INQ is full, and the input is closed exactly
when none is left (R89; log 15). -/
structure Fed (c : List Byte) (s : State) : Prop where
  level : s.inq.length ≤ s.params.inDepth
  closed : s.inClosed = true ↔ c = []
  full : c ≠ [] → s.inq.length = s.params.inDepth

/-- Pushing moves bytes behind those of INQ, so the whole input is the same; and from an empty INQ it moves some. -/
theorem feedBytes_fed {c : List Byte} {s : State} (hlevel : s.inq.length ≤ s.params.inDepth)
    (hclosed : s.inClosed = true → c = []) : ∃ (c' : List Byte) (q : List Byte) (b : Bool),
      feedBytes c s = some (c', { s with inq := q, inClosed := b }) ∧
      wholeInput c' { s with inq := q, inClosed := b } = wholeInput c s ∧ Fed c' { s with inq := q, inClosed := b } ∧
      c'.length ≤ c.length ∧ (s.inq = [] → 1 ≤ s.params.inDepth → c ≠ [] → c'.length < c.length) := by
  cases hc : s.inClosed with
  | true =>
    rw [hclosed hc]
    refine ⟨[], s.inq, true, ?_, ?_, ⟨hlevel, by simp, by simp⟩, by simp, by simp⟩
    · simp only [feedBytes, hc, if_true]
      rw [← hc]
    · simp only [wholeInput]
  | false =>
    refine ⟨_, _, _, feedBytes_open c s hc, ?_, ⟨?_, ?_, fun hne => ?_⟩, ?_, fun hq hd hne => ?_⟩
    · simp only [wholeInput, List.append_assoc, List.take_append_drop]
    · simp only [List.length_append, List.length_take]
      omega
    · rw [decide_eq_true_iff, List.drop_eq_nil_iff]
    · have hlt : s.params.inDepth - s.inq.length < c.length := by
        by_contra h
        exact hne (List.drop_eq_nil_of_le (Nat.le_of_not_lt h))
      simp only [List.length_append, List.length_take]
      omega
    · rw [List.length_drop]
      omega
    · have hpos : 0 < c.length := List.length_pos_iff.mpr hne
      rw [List.length_drop, hq, List.length_nil]
      omega

/-- The procedure serves a reading command to its end: it reaches what the command reaches with the whole input. -/
theorem serve_whole (k : Nat) : ∀ {c : List Byte} {s v : State}, onlyReads s → inCommand s → atRest s →
    1 ≤ s.params.inDepth → s.inq.length ≤ s.params.inDepth → (s.inClosed = true → c = []) →
    runJob (wholeInput c s) = .next v → (s.job.isSome = true → c.length + 2 ≤ k) → 1 ≤ k →
    ∃ (c' : List Byte) (t : State), serve k c s = some (c', t) ∧ wholeInput c' t = v ∧ Fed c' t := by
  induction k with
  | zero => intro c s v _ _ _ _ _ _ _ _ hk; exact absurd hk (by omega)
  | succ k ih =>
    intro c s v hreads hin hrest hdepth hlevel hclosed hrun hk _
    obtain ⟨c', q, b, hfeed, hwhole, hfed, hle, hless⟩ := feedBytes_fed hlevel hclosed
    rw [serve, hfeed, Option.bind_some]
    by_cases hm : s.mode = .busy
    · have hjob := hin.mp hm
      have hne : s.job ≠ none := fun h => by simp [h] at hjob
      obtain ⟨-, hinq, -⟩ := hrest.resolve_left hne
      let s' : State := { s with inq := q, inClosed := b }
      have hin' : inCommand s' := hin
      obtain ⟨t, ht, hrun', hreads', hrest', hlen, hcl⟩ :=
        runJob_wholeInput (c := c') (s := s') hreads (fun h => hfed.closed.mp h) (hwhole ▸ hrun)
      have hparams : t.params = s.params := (keepsHostSide_of_runJob ht).params
      rw [if_pos hm, turnNow_run_of_next ((runTurn_of_inCommand hin').trans ht), Option.bind_some]
      refine ih hreads' (inCommand_of_runJob hin' ht) hrest' (hparams ▸ hdepth) (hparams ▸ hlen.trans hfed.level)
        (fun h => hfed.closed.mp (hcl.symm.trans h)) hrun' (fun ht' => ?_) (by have := hk hjob; omega)
      have hk := hk hjob
      rcases hrest' with hnone | ⟨-, -, hopen⟩
      · simp [hnone] at ht'
      · have hc : c ≠ [] := fun h => by
          have hc' : c' = [] := List.length_eq_zero_iff.mp (by rw [h] at hle; exact Nat.le_zero.mp hle)
          have hb : s'.inClosed = true := hfed.closed.mpr hc'
          rw [← hcl, hopen] at hb
          cases hb
        have := hless hinq hdepth hc
        show c'.length + 2 ≤ k
        omega
    · have hnone : s.job = none := by simpa using mt hin.mpr hm
      rw [runJob_of_job_none (by rw [wholeInput_job]; exact hnone)] at hrun
      cases hrun
      exact ⟨c', _, if_neg hm, hwhole, hfed⟩

/-- The bits still to read: those of the reader and INQ, and those of the bytes not pushed yet. -/
def stream (c : List Byte) (s : State) : List Bool := inBits s ++ c.flatMap byteBits

theorem inBits_wholeInput (c : List Byte) (s : State) : inBits (wholeInput c s) = stream c s := by
  simp only [inBits, stream, wholeInput, List.flatMap_append, List.append_assoc]
  rfl

theorem stream_of_input_eq {s t : State} (h : t.input = s.input) (c : List Byte) : stream c t = stream c s := by
  rw [stream, stream, inBits_eq_input_bits, inBits_eq_input_bits, h]

/-- The command reads these bits and then returns in this state, the reader and the channels apart. -/
structure Reads (i : Instr) (s : State) (bits : List Bool) (w : State) : Prop where
  notReset : i ≠ .rrst
  delivers : ∃ u, startInstr i (s.withCommand i) = .moved u ∧ onlyReads u ∧ deliverBits bits u = some w
  idle : w.mode = .idle
  ended : w.job = none
  noError : w.pend = false
  params : w.params = s.params

/-- Between two reading commands of the procedure. -/
structure ReadyToRead (c : List Byte) (s : State) : Prop where
  idle : s.mode = .idle
  noError : s.pend = false
  depth : 1 ≤ s.params.inDepth
  fed : Fed c s

/-- Two states that differ in the reader, the input channel and the host's observations alone. -/
def sameButInput (w t : State) : Prop :=
  ∃ (j : Input) (b : Bool) (seen : List Word), t = ({ w with inClosed := b, seen := seen }).withInput j

/-- Where a command that reads has the whole input, its run is the run of the procedure. -/
theorem readCommand_whole {i : Instr} {c : List Byte} {s u v : State} (hi : i ≠ .rrst) (hs : ReadyToRead c s)
    (hu : startInstr i (s.withCommand i) = .moved u) (hreads : onlyReads u) (hrun : runJob (wholeInput c u) = .next v) :
    ∃ (c' : List Byte) (t : State), readCommand i c s = some (c', t) ∧ wholeInput c' t = v ∧ Fed c' t := by
  have hch := channels_of_startInstr hi hu
  have hparams : u.params = s.params := (keepsHostSide_of_startInstr hu).params
  have hinq : u.inq = s.inq := congrArg Channels.inq hch
  have hclosed : u.inClosed = s.inClosed := congrArg Channels.inClosed hch
  have hin : inCommand u := inCommand_of_ends_or_goes_on rfl (startInstr_mode hu)
  obtain ⟨t, ht, hrun', hreads', hrest, hle, hcl⟩ :=
    runJob_wholeInput hreads (fun h => hs.fed.closed.mp (hclosed ▸ h)) hrun
  have htparams : t.params = s.params := (keepsHostSide_of_runJob ht).params.trans hparams
  have hgo := issue_and_run hs.idle ((exec_of_startInstr hu).trans ht)
  obtain ⟨c', t', hserve, hwhole, hfed⟩ := serve_whole (c.length + 2) hreads' (inCommand_of_runJob hin ht) hrest
    (htparams ▸ hs.depth) (by rw [htparams]; exact hle.trans (hinq ▸ hs.fed.level))
    (fun h => hs.fed.closed.mp ((hcl.trans hclosed).symm.trans h)) hrun' (fun _ => le_rfl) (by omega)
  refine ⟨c', t', ?_, hwhole, hfed⟩
  rw [readCommand, ← hserve]
  rw [issueCommand_idle hs.idle, Option.bind_some] at hgo ⊢
  rw [hgo, Option.bind_some]

/-- The whole input stands before the command begins as it stood. -/
theorem inBits_wholeInput_start {i : Instr} {c : List Byte} {s u : State} (hi : i ≠ .rrst)
    (hu : startInstr i (s.withCommand i) = .moved u) : inBits (wholeInput c u) = stream c s := by
  have hch := channels_of_startInstr hi hu
  rw [inBits_wholeInput]
  exact stream_of_input_eq (congrArg (fun c : Channels => Input.mk c.rbuf c.rcur c.inq) hch) c

/-- Bits are delivered alike with the whole input. -/
theorem deliverBits_wholeInput {bits : List Bool} {u w : State} (h : deliverBits bits u = some w) (c : List Byte) :
    deliverBits bits (wholeInput c u) = some (wholeInput c w) := by
  have hch := channels_of_deliverBits h
  have hu : wholeInput c u = u.withChannels { u.channels with inq := u.channels.inq ++ c, inClosed := true } := rfl
  have hw : wholeInput c w = w.withChannels { w.channels with inq := w.channels.inq ++ c, inClosed := true } := rfl
  rw [hu, hw, hch, deliverBits_withChannels, h]
  rfl

/-- A command whose bits are all there reads them and returns; the rest of the stream is left. -/
theorem readCommand_reads {i : Instr} {c : List Byte} {s w : State} {bits rest : List Bool} (hs : ReadyToRead c s)
    (h : Reads i s bits w) (hb : stream c s = bits ++ rest) : ∃ (c' : List Byte) (t : State),
      readCommand i c s = some (c', t) ∧ Fed c' t ∧ stream c' t = rest ∧ sameButInput w t := by
  obtain ⟨u, hu, hreads, hdel⟩ := h.delivers
  obtain ⟨j, hrun, hrest, -⟩ := runJob_deliverBits (deliverBits_wholeInput hdel c)
    ((inBits_wholeInput_start h.notReset hu).trans hb)
  have hjob : ((wholeInput c w).withInput j).job = none := h.ended
  obtain ⟨c', t, hread, hwhole, hfed⟩ := readCommand_whole h.notReset hs hu hreads
    (hrun.trans (runJob_of_job_none hjob))
  refine ⟨c', t, hread, hfed, ?_, t.input, t.inClosed, t.seen, ?_⟩
  · rw [← inBits_wholeInput, hwhole]
    exact hrest
  · have hsame := congrArg
      (fun x : State => ({ x with inClosed := t.inClosed, seen := t.seen } : State).withInput t.input) hwhole
    exact hsame

/-- A command that meets the end of the stream before its last bit halts with END_OF_STREAM. -/
theorem readCommand_short {i : Instr} {c : List Byte} {s w : State} {bits more : List Bool} (hs : ReadyToRead c s)
    (h : Reads i s (bits ++ more) w) (hmore : more ≠ []) (hb : stream c s = bits) :
    ∃ (c' : List Byte) (t : State), readCommand i c s = some (c', t) ∧ t.mode = .halted ∧ t.err = .endOfStream := by
  obtain ⟨u, hu, hreads, hdel⟩ := h.delivers
  obtain ⟨r, k, v, b, -, -, hrun⟩ := runJob_deliverBits_short (deliverBits_wholeInput hdel c) hmore
    ((inBits_wholeInput_start h.notReset hu).trans hb) rfl
  obtain ⟨c', t, hread, hwhole, -⟩ := readCommand_whole h.notReset hs hu hreads hrun
  rw [endOfStream_eq] at hwhole
  exact ⟨c', t, hread, congrArg State.mode hwhole, congrArg State.err hwhole⟩

theorem readyToRead_of_sameButInput {c : List Byte} {s w t : State} {i : Instr} {bits : List Bool} (h : Reads i s bits w)
    (hs : ReadyToRead c s) (hsame : sameButInput w t) {c' : List Byte} (hfed : Fed c' t) : ReadyToRead c' t := by
  obtain ⟨j, b, seen, rfl⟩ := hsame
  exact ⟨h.idle, h.noError, h.params ▸ hs.depth, hfed⟩

theorem params_of_sameButInput {s w t : State} {i : Instr} {bits : List Bool} (h : Reads i s bits w)
    (hsame : sameButInput w t) : t.params = s.params := by
  obtain ⟨j, b, seen, rfl⟩ := hsame
  exact h.params

/-! ## One command of the procedure -/

/-- A part of a stream, with what is cut off behind it, begins with the bits, or it ends within them. -/
theorem split_stream {part more bits tail : List Bool} (h : part ++ more = bits ++ tail) :
    (∃ more', more' ≠ [] ∧ more ≠ [] ∧ bits = part ++ more') ∨ ∃ rest, part = bits ++ rest ∧ rest ++ more = tail := by
  rcases List.append_eq_append_iff.mp h with ⟨more', hbits, hmore⟩ | ⟨rest, hpart, htail⟩
  · by_cases hne : more' = []
    · subst hne
      exact .inr ⟨[], by simpa using hbits.symm, by simpa using hmore⟩
    · exact .inl ⟨more', hne, by simp [hmore, hne], hbits⟩
  · exact .inr ⟨rest, hpart, htail.symm⟩

/-- A command of the procedure either reads its bits and the procedure goes on, or the stream, cut off, ends within them
and the procedure ends with END_OF_STREAM and no more output. -/
theorem commandThen_cases {i : Instr} {c : List Byte} {s w : State} {bits more tail : List Bool} (hs : ReadyToRead c s)
    (h : Reads i s bits w) (hb : stream c s ++ more = bits ++ tail) :
    (more ≠ [] ∧ ∃ t, t.mode = .halted ∧ t.err = .endOfStream ∧ ∀ go, commandThen i c s go = some ([], t)) ∨
    ∃ (c' : List Byte) (t : State), (∀ go, commandThen i c s go = go c' t) ∧ ReadyToRead c' t ∧
      stream c' t ++ more = tail ∧ sameButInput w t := by
  rcases split_stream hb with ⟨more', hne, hmore, hbits⟩ | ⟨rest, hbits, hrest⟩
  · obtain ⟨c', t, hread, hmode, herr⟩ := readCommand_short hs (hbits ▸ h) hne rfl
    refine .inl ⟨hmore, t, hmode, herr, fun go => ?_⟩
    rw [commandThen, hread, Option.bind_some, if_pos hmode]
  · obtain ⟨c', t, hread, hfed, hstream, hsame⟩ := readCommand_reads hs h hbits
    have hready := readyToRead_of_sameButInput h hs hsame hfed
    refine .inr ⟨c', t, fun go => ?_, hready, hstream ▸ hrest, hsame⟩
    rw [commandThen, hread, Option.bind_some, if_neg (by rw [hready.idle]; decide)]

theorem hostRead_result (s : State) : hostRead 0x0C s = some (s.result, { s with seen := s.seen ++ [s.result] }) :=
  hostRead_eq (off := 0x0C) (r := .result) rfl s

/-- The same for a command whose RESULT the procedure takes. -/
theorem readThen_cases {i : Instr} {c : List Byte} {s w : State} {bits more tail : List Bool} (hs : ReadyToRead c s)
    (h : Reads i s bits w) (hb : stream c s ++ more = bits ++ tail) :
    (more ≠ [] ∧ ∃ t, t.mode = .halted ∧ t.err = .endOfStream ∧ ∀ go, readThen i c s go = some ([], t)) ∨
    ∃ (c' : List Byte) (t : State), (∀ go, readThen i c s go = go w.result c' t) ∧ ReadyToRead c' t ∧
      stream c' t ++ more = tail ∧ sameButInput w t := by
  rcases commandThen_cases hs h hb with ⟨hmore, t, hmode, herr, hgo⟩ | ⟨c', t, hgo, hready, hstream, hsame⟩
  · exact .inl ⟨hmore, t, hmode, herr, fun go => hgo _⟩
  · have hresult : t.result = w.result := by obtain ⟨j, b, seen, rfl⟩ := hsame; rfl
    refine .inr ⟨c', { t with seen := t.seen ++ [t.result] }, fun go => ?_,
      ⟨hready.idle, hready.noError, hready.depth, hready.fed.level, hready.fed.closed, hready.fed.full⟩, hstream, ?_⟩
    · rw [readThen, hgo, hostRead_result, Option.bind_some, hresult]
    · obtain ⟨j, b, seen, rfl⟩ := hsame
      exact ⟨j, b, _, rfl⟩

/-! ## What the procedure's commands read -/

theorem finish_idle {s : State} (h : s.pend = false) : (finish s).mode = .idle := by rw [finish_of_not_pend h]

/-- RBITS n reads n bits into RESULT. -/
theorem reads_rbits {n : BitVec 16} {s : State} {bits : List Bool} (hs : s.pend = false) (hn : bits.length = n.toNat)
    (h1 : 1 ≤ n.toNat) (h32 : n.toNat ≤ 32) :
    Reads (.rbits n) s bits (finishWith (bits.foldl shiftIn 0) (s.withCommand (.rbits n))) where
  notReset := by simp
  delivers := by
    have hok : bitCountOk n = true := decide_eq_true ⟨h1, h32⟩
    refine ⟨(s.withCommand (.rbits n)).reading (.field bits.length 0) 0, ?_, .inr ⟨_, _, rfl⟩,
      deliverBits_field _ (by rw [← List.length_pos_iff]; omega) 0 0⟩
    simp only [startInstr, startRbits, hok, checkRange_true, hn]
    rfl
  idle := finish_idle hs
  ended := finish_job _
  noError := finish_pend _
  params := finish_params _

/-- DEC reads the path of a symbol and answers the symbol. -/
theorem reads_dec {s : State} {p : PTree} {x : Symbol} {bits : List Bool} (hs : s.pend = false)
    (hp : isTree s.params.width s.tree p = true) (hx : p.path x = some bits) :
    Reads .dec s bits (finishWith (x.setWidth 32) (s.withCommand .dec)) where
  notReset := by simp
  delivers := by
    refine ⟨arriveAt p 0 (s.withCommand .dec), startDec_arriveAt (w := s.params.width) hp, ?_,
      deliverBits_arriveAt hx 0 (isTree_spells hp)⟩
    cases p with
    | leaf i y => exact .inl (finish_job _)
    | node i z o => exact .inr ⟨_, _, rfl⟩
  idle := finish_idle hs
  ended := finish_job _
  noError := finish_pend _
  params := finish_params _

/-- RECON reads a shape and leaves a tree like the one the shape is of. -/
theorem reads_recon {s : State} {p : PTree} {l : Word} (hs : s.pend = false) (hl : l.toNat = p.symbols.length)
    (hnodup : p.symbols.Nodup) (hlt : ∀ x ∈ p.symbols, x.toNat < s.params.width.alphabet) :
    ∃ (t : Tree) (p' : PTree), isTree s.params.width t p' = true ∧ p'.plain = p.plain ∧
      Reads (.recon l) s (p.shape s.params.width) (finish { s.withCommand (.recon l) with tree := t }) := by
  obtain ⟨u, t, p', hu, hreads, hdel, htree, hplain, -⟩ := recon_shape (s := s.withCommand (.recon l)) hl hnodup hlt
  exact ⟨t, p', htree, hplain, by simp, ⟨u, hu, hreads, hdel⟩, finish_idle hs, finish_job _, finish_pend _,
    finish_params _⟩

/-! ## The DECs -/

/-- The procedure ends with END_OF_STREAM and has output only the first of the symbols. -/
def endsShort (r : Option (List Symbol × State)) (xs : List Symbol) : Prop :=
  ∃ (ys : List Symbol) (t : State), r = some (ys, t) ∧ t.mode = .halted ∧ t.err = .endOfStream ∧ ys <+: xs ∧ ys ≠ xs

/-- The procedure outputs the symbols; what is left of the stream, with what is cut off, is the tail. -/
def outputs (r : Option (List Symbol × State)) (xs : List Symbol) (more tail : List Bool) : Prop :=
  ∃ (c : List Byte) (t : State), r = some (xs, t) ∧ ReadyToRead c t ∧ stream c t ++ more = tail

/-- One of the two; the procedure ends short only where something is cut off. -/
def endsShortOrOutputs (r : Option (List Symbol × State)) (xs : List Symbol) (more tail : List Bool) : Prop :=
  (more ≠ [] ∧ endsShort r xs) ∨ outputs r xs more tail

/-- A command that meets the end of the stream ends the procedure short. -/
theorem endsShort_of_halted {r : Option (List Symbol × State)} {xs : List Symbol} {t : State} (hr : r = some ([], t))
    (hmode : t.mode = .halted) (herr : t.err = .endOfStream) (hne : xs ≠ []) : endsShort r xs :=
  ⟨[], t, hr, hmode, herr, List.nil_prefix, hne.symm⟩

/-- RESULT[W-1:0] of a symbol is the symbol. -/
theorem symbol_of_result {w : Width} {x : Symbol} (hx : x.toNat < w.alphabet) :
    BitVec.ofNat 16 ((x.setWidth 32).toNat % 2 ^ w.bits) = x := by
  rw [BitVec.toNat_setWidth_of_le (by omega), Nat.mod_eq_of_lt (b := 2 ^ w.bits) hx, BitVec.ofNat_toNat, BitVec.setWidth_eq]

/-- The DECs give the symbols back, or the stream ends within a code word. -/
theorem readSymbols_cases {w : Width} {p : PTree} {xs : List Symbol} {more tail : List Bool} :
    ∀ {c : List Byte} {s : State}, ReadyToRead c s → s.params.width = w → isTree w s.tree p = true →
      (∀ x ∈ xs, x ∈ p.symbols ∧ x.toNat < w.alphabet) → stream c s ++ more = xs.flatMap (decBits p) ++ tail →
      endsShortOrOutputs (readSymbols xs.length c s) xs more tail := by
  induction xs with
  | nil => intro c s hs _ _ _ hb; exact .inr ⟨c, s, rfl, hs, hb⟩
  | cons x xs ih =>
    intro c s hs hw hp hxs hb
    obtain ⟨hmem, hlt⟩ := hxs x (by simp)
    obtain ⟨bits, hbits⟩ := PTree.path_of_mem_symbols hmem
    have hdec : decBits p x = bits := by rw [decBits, hbits]; rfl
    rw [List.flatMap_cons, hdec, List.append_assoc] at hb
    rcases readThen_cases hs (reads_dec hs.noError (hw ▸ hp) hbits) hb with
      ⟨hmore, t, hmode, herr, hgo⟩ | ⟨c', t, hgo, hready, hstream, hsame⟩
    · exact .inl ⟨hmore, endsShort_of_halted (hgo _) hmode herr (by simp)⟩
    · have htree : t.tree = s.tree := by obtain ⟨j, b, seen, rfl⟩ := hsame; exact finish_tree _
      have hwidth : t.params.width = w := (congrArg Params.width
        (params_of_sameButInput (reads_dec hs.noError (hw ▸ hp) hbits) hsame)).trans hw
      have hresult : (finishWith (x.setWidth 32) (s.withCommand .dec)).result = x.setWidth 32 := finish_result _
      have hstep : readSymbols (x :: xs).length c s = (readSymbols xs.length c' t).map fun q => (x :: q.1, q.2) := by
        rw [List.length_cons, readSymbols, hgo, hresult, hwidth, symbol_of_result hlt]
      rw [hstep]
      rcases ih hready hwidth (htree ▸ hp) (fun y hy => hxs y (by simp [hy])) hstream with
        ⟨hmore, ys, v, hys, hmode, herr, hpre, hne⟩ | ⟨c'', v, hys, hready', hstream'⟩
      · refine .inl ⟨hmore, x :: ys, v, by rw [hys]; rfl, hmode, herr, ?_, by simpa using hne⟩
        obtain ⟨zs, hzs⟩ := hpre
        exact ⟨zs, by rw [List.cons_append, hzs]⟩
      · exact .inr ⟨c'', v, by rw [hys]; rfl, hready', hstream'⟩

/-! ## The procedure -/

/-- RRST and the first pushes: the stream is the container's bytes. -/
theorem decompress_begins (c : List Byte) {s : State} (hs : s.mode = .idle) (hpend : s.pend = false)
    (hdepth : 1 ≤ s.params.inDepth) : ∃ (u : State) (c' : List Byte) (t : State),
      (issueCommand .rrst s).bind (turnNow .run) = some u ∧ feedBytes c u = some (c', t) ∧ ReadyToRead c' t ∧
      stream c' t = c.flatMap byteBits ∧ t.params = s.params := by
  have hrun := issue_and_run hs (exec_rrst (s.withCommand .rrst))
  have hfinish := finish_of_not_pend (s := { s.withCommand .rrst with rcur := none, rbuf := 0, inq := [], inClosed := false })
    hpend
  rw [hfinish] at hrun
  obtain ⟨c', q, b, hfeed, hwhole, hfed, -⟩ := feedBytes_fed (c := c)
    (s := { { s.withCommand .rrst with rcur := none, rbuf := 0, inq := [], inClosed := false } with
      mode := .idle, job := none, cmd := 0 }) (Nat.zero_le _) (by simp)
  refine ⟨_, c', _, hrun, hfeed, ⟨rfl, hpend, hdepth, hfed⟩, ?_, rfl⟩
  rw [← inBits_wholeInput, hwhole, inBits_wholeInput]
  simp [stream, inBits, unreadBits]

end Sys2Proof.Machine
end

section
/-! PROOF. The decompress procedure on a container, whole or cut off (spec/20_memory.md R89, R90, R205; log 15). -/

namespace Sys2Proof.Machine

/-- An idle core has no command, and its channels have room for a byte. -/
theorem idle_of_machineOk {s : State} (hm : machineOk s = true) (hs : s.mode = .idle) :
    s.job = none ∧ s.pend = false ∧ 1 ≤ s.params.inDepth ∧ 1 ≤ s.params.outDepth := by
  obtain ⟨hparams, -, -, hmode, -⟩ := machineOk_iff.mp hm
  obtain ⟨hin, -, hout, -⟩ := of_decide_eq_true hparams
  obtain ⟨hidle, -⟩ := modeOk_iff.mp hmode
  obtain ⟨hjob, -, hpend⟩ := hidle (by rw [hs]; decide)
  exact ⟨hjob, hpend, hin, hout⟩

/-! ## The fields, from the last to the first -/

/-- RECON and the DECs. -/
theorem reconThen_cases {w : Width} {p : PTree} {xs : List Symbol} {more tail : List Bool} {c : List Byte} {s : State}
    {l : Word} (hs : ReadyToRead c s) (hw : s.params.width = w) (hne : xs ≠ []) (hnodup : p.symbols.Nodup)
    (hlegal : ∀ x ∈ p.symbols, x.toNat < w.alphabet) (hmem : ∀ x ∈ xs, x ∈ p.symbols)
    (hl : l.toNat = p.symbols.length)
    (hb : stream c s ++ more = p.shape w ++ (xs.flatMap (decBits p) ++ tail)) :
    endsShortOrOutputs (commandThen (.recon l) c s fun c s => readSymbols xs.length c s) xs more tail := by
  subst hw
  obtain ⟨tree, p', htree, hplain, hreads⟩ := reads_recon hs.noError hl hnodup hlegal
  rcases commandThen_cases hs hreads hb with ⟨hmore, t, hmode, herr, hgo⟩ | ⟨c', t, hgo, hready, hstream, hsame⟩
  · exact .inl ⟨hmore, endsShort_of_halted (hgo _) hmode herr hne⟩
  · have hparams := params_of_sameButInput hreads hsame
    have htree' : t.tree = tree := by obtain ⟨j, b, seen, rfl⟩ := hsame; exact finish_tree _
    have hsymbols : p'.symbols = p.symbols := PTree.symbols_of_plain_eq hplain
    rw [hgo]
    refine readSymbols_cases hready (congrArg Params.width hparams) (htree' ▸ htree)
      (fun x hx => ⟨hsymbols ▸ hmem x hx, hlegal x (hmem x hx)⟩) ?_
    rw [hstream, funext (decBits_of_plain_eq hplain)]

/-- What R89 takes from RESULT after reading a field of at most 32 bits. -/
theorem result_field (n v : Nat) (hn : n ≤ 32) (hv : v < 2 ^ n) (s : State) :
    (finishWith ((msbBits n v).foldl shiftIn 0) s).result.toNat = v := by
  rw [finishWith, finish_result]
  show ((msbBits n v).foldl shiftIn (0 : Word)).toNat = v
  rw [foldl_shiftIn_msbBits hn hv, BitVec.toNat_ofNat]
  exact Nat.mod_eq_of_lt (hv.trans_le (Nat.pow_le_pow_right (by omega) hn))

theorem symbolBitCount_toNat (s : State) : (symbolBitCount s).toNat = s.params.width.bits := by
  rw [symbolBitCount]
  cases s.params.width <;> rfl

/-- LCOUNT, RECON and the DECs. -/
theorem lcountThen_cases {w : Width} {p : PTree} {xs : List Symbol} {more tail : List Bool} {c : List Byte} {s : State}
    (hs : ReadyToRead c s) (hw : s.params.width = w) (hne : xs ≠ []) (hnodup : p.symbols.Nodup)
    (hlegal : ∀ x ∈ p.symbols, x.toNat < w.alphabet) (hmem : ∀ x ∈ xs, x ∈ p.symbols)
    (hb : stream c s ++ more =
      msbBits w.bits (p.symbols.length - 1) ++ (p.shape w ++ (xs.flatMap (decBits p) ++ tail))) :
    endsShortOrOutputs (readThen (.rbits (symbolBitCount s)) c s fun lcount c s =>
      commandThen (.recon (lcount + 1)) c s fun c s => readSymbols xs.length c s) xs more tail := by
  have hbits := width_bits_le w
  have hpos := p.symbols_length_pos
  have hle : p.symbols.length ≤ w.alphabet := length_le_alphabet hnodup hlegal
  have halphabet := alphabet_le w
  have hn : (symbolBitCount s).toNat = w.bits := hw ▸ symbolBitCount_toNat s
  have hone : 1 ≤ w.bits := by cases w <;> decide
  have hreads := reads_rbits (n := symbolBitCount s) (bits := msbBits w.bits (p.symbols.length - 1)) hs.noError
    (by rw [msbBits_length, hn]) (hn ▸ hone) (by omega)
  rcases readThen_cases hs hreads hb with ⟨hmore, t, hmode, herr, hgo⟩ | ⟨c', t, hgo, hready, hstream, hsame⟩
  · exact .inl ⟨hmore, endsShort_of_halted (hgo _) hmode herr hne⟩
  · rw [hgo]
    refine reconThen_cases hready ((congrArg Params.width (params_of_sameButInput hreads hsame)).trans hw) hne hnodup
      hlegal hmem ?_ hstream
    rw [BitVec.toNat_add, result_field _ _ (by omega) (show p.symbols.length - 1 < 2 ^ w.bits by
      have : w.alphabet = 2 ^ w.bits := rfl
      omega)]
    show (p.symbols.length - 1 + 1) % 2 ^ 32 = p.symbols.length
    omega

/-- The procedure on the first bytes of a stream that begins with TOTAL: it reads TOTAL and goes on, or ends there. -/
theorem decompress_total {c : List Byte} {s : State} {n : Nat} {more tail : List Bool} (hc : c ≠ [])
    (hs : s.mode = .idle) (hpend : s.pend = false) (hdepth : 1 ≤ s.params.inDepth) (hn : n < 2 ^ 32)
    (hb : c.flatMap byteBits ++ more = msbBits 32 n ++ tail) :
    (more ≠ [] ∧ ∃ t, decompress c s = some ([], t) ∧ t.mode = .halted ∧ t.err = .endOfStream) ∨
    ∃ (c' : List Byte) (t : State), ReadyToRead c' t ∧ t.params = s.params ∧ stream c' t ++ more = tail ∧
      decompress c s = if n = 0 then some ([], t) else
        readThen (.rbits (symbolBitCount t)) c' t fun lcount c s =>
          commandThen (.recon (lcount + 1)) c s fun c s => readSymbols n c s := by
  obtain ⟨u, c₁, v, hu, hv, hready, hstream, hparams⟩ := decompress_begins c hs hpend hdepth
  have hreads := reads_rbits (n := 32) (bits := msbBits 32 n) hready.noError (msbBits_length ..) (by decide) (by decide)
  have hresult := result_field 32 n le_rfl hn (v.withCommand (.rbits 32))
  have hzero : (finishWith ((msbBits 32 n).foldl shiftIn 0) (v.withCommand (.rbits 32))).result = 0 ↔ n = 0 := by
    rw [← BitVec.toNat_inj, hresult]
    rfl
  simp only [decompress, if_neg hc, hu, hv, Option.bind_some]
  rcases readThen_cases hready hreads (hstream ▸ hb) with ⟨hmore, t, hmode, herr, hgo⟩ | ⟨c', t, hgo, hready', hstream', hsame⟩
  · exact .inl ⟨hmore, t, hgo _, hmode, herr⟩
  · refine .inr ⟨c', t, hready', (params_of_sameButInput hreads hsame).trans hparams, hstream', ?_⟩
    rw [hgo]
    simp only [hzero, hresult]

/-- The procedure on the first bytes of the container of a sequence that is not empty. -/
theorem decompress_cases {p : PTree} {xs : List Symbol} {more tail : List Bool} {c : List Byte} {s : State}
    (hm : machineOk s = true) (hs : s.mode = .idle) (hlt : ∀ x ∈ xs, x.toNat < s.params.width.alphabet)
    (hlen : xs.length < 2 ^ 32) (hp : mergedTree (countSymbols xs) = some p) (hc : c ≠ [])
    (hb : c.flatMap byteBits ++ more = neededBits s.params.width p xs ++ tail) :
    endsShortOrOutputs (decompress c s) xs more tail := by
  have hne : xs ≠ [] := by rintro rfl; cases hp
  obtain ⟨hnodup, hlegal⟩ := symbols_mergedTree_legal (freqWf_countSymbols hlt) hp
  obtain ⟨-, hpend, hdepth, -⟩ := idle_of_machineOk hm hs
  simp only [neededBits, List.append_assoc] at hb
  rcases decompress_total hc hs hpend hdepth hlen hb with ⟨hmore, t, hgo, hmode, herr⟩ | ⟨c', t, hready, hparams, hstream, hgo⟩
  · exact .inl ⟨hmore, endsShort_of_halted hgo hmode herr hne⟩
  · rw [hgo, if_neg (by rwa [List.length_eq_zero_iff])]
    exact lcountThen_cases hready (congrArg Params.width hparams) hne hnodup hlegal
      (fun x hx => mem_symbols_of_mem hlt hlen hp hx) hstream

/-! ## The obligations -/

/-- What the procedure leaves of the container when it has output the symbols. -/
theorem decompress_container {xs : List Symbol} {s : State} {read : Nat} {bits tail : List Bool}
    (hbits : containerBits s.params.width xs = bits ++ tail) (hread : bits.length = read)
    (h : outputs (decompress (container s.params.width xs) s) xs [] tail) :
    ∃ (t : State) (rest : List Byte), decompress (container s.params.width xs) s = some (xs, t) ∧ t.mode = .idle ∧
      (containerBits s.params.width xs).drop read = inBits t ++ rest.flatMap byteBits ∧
      (t.inClosed = true ↔ rest = []) ∧ (rest ≠ [] → t.inq.length = t.params.inDepth) := by
  obtain ⟨rest, t, hrun, hready, hstream⟩ := h
  refine ⟨t, rest, hrun, hready.idle, ?_, hready.fed.closed, hready.fed.full⟩
  rw [hbits, ← hread, List.drop_left, ← hstream, List.append_nil]
  rfl

/-- A container is not empty. -/
theorem container_ne_nil (w : Width) (xs : List Symbol) : container w xs ≠ [] := by
  intro h
  have hlen := container_length w xs
  simp only [h, List.length_nil, containerFields, List.flatten_cons, List.length_append, msbBits_length] at hlen
  omega

/-- Settles O39: with nothing cut off the procedure cannot end short, so it outputs the symbols and leaves what stands
behind the bits it needs. -/
theorem decompressInvertsCompress : Obligations.DecompressInvertsCompress := by
  intro s xs hm hs hlt hlen
  refine ⟨?_, rfl⟩
  by_cases hne : xs = []
  · subst hne
    obtain ⟨-, hpend, hdepth, -⟩ := idle_of_machineOk hm hs
    have hbits : containerBits s.params.width [] = msbBits 32 0 ++ [] :=
      (containerBits_nil _).trans (List.append_nil _).symm
    refine decompress_container hbits (msbBits_length ..) ?_
    rcases decompress_total (container_ne_nil _ _) hs hpend hdepth (by decide)
        ((List.append_nil _).trans ((flatMap_container _ _).trans hbits)) with
      ⟨hmore, -⟩ | ⟨c', t, hready, -, hstream, hgo⟩
    · exact absurd rfl hmore
    · exact ⟨c', t, hgo, hready, hstream⟩
  · obtain ⟨p, hp, -⟩ := mergedTree_countSymbols hlt hlen hne
    obtain ⟨tail, hbits⟩ := containerBits_needed (w := s.params.width) hp
    rw [hp]
    refine decompress_container hbits (neededBits_length ..) ?_
    rcases decompress_cases hm hs hlt hlen hp (container_ne_nil _ _)
        ((List.append_nil _).trans ((flatMap_container _ _).trans hbits)) with ⟨hmore, -⟩ | h
    · exact absurd rfl hmore
    · exact h

/-- Settles O40: what is cut off holds bits the procedure needs, so it cannot output all the symbols. -/
theorem shortContainersEndInEndOfStream : Obligations.ShortContainersEndInEndOfStream := by
  intro s xs p c hm hs hlt hlen hp hc hpre hshort
  obtain ⟨c', hc'⟩ := hpre
  obtain ⟨tail, htail⟩ := containerBits_needed (w := s.params.width) hp
  have hbits : c.flatMap byteBits ++ c'.flatMap byteBits = neededBits s.params.width p xs ++ tail := by
    rw [← htail, ← flatMap_container, ← hc', List.flatMap_append]
  rcases split_stream hbits with ⟨more, hmore, -, hneeded⟩ | ⟨rest, hwhole, -⟩
  · rcases decompress_cases (tail := []) hm hs hlt hlen hp hc (hneeded.symm.trans (List.append_nil _).symm) with
      ⟨-, h⟩ | ⟨c'', t, -, -, hstream⟩
    · exact h
    · exact absurd (List.append_eq_nil_iff.mp hstream).2 hmore
  · have := congrArg List.length hwhole
    rw [flatMap_byteBits_length, List.length_append, neededBits_length] at this
    omega

end Sys2Proof.Machine
end

section
/-! PROOF. The compress procedure (spec/20_memory.md R88; log 15): however OUTQ limits the writes, the bytes popped and
the bits pending in the writer are the bits written, in order. -/

namespace Sys2Proof.Machine

/-! ## The writer -/

/-- WBUF holds these bits, and zeros after them. -/
def writerHolds (w : List Bool) (s : State) : Prop :=
  w.length = s.wn.val ∧ byteBits s.wbuf = w ++ List.replicate (8 - w.length) false

theorem byteBits_setBit (b : Byte) (k : Fin 8) (v : Bool) :
    byteBits (setBit b (7 - k.val) v) = (byteBits b).set k.val v := by
  fin_cases k <;> cases v <;> simp [byteBits, msbBits, setBit, BitVec.testBit_toNat] <;> simp [Nat.testBit]

/-- A bit set in the writer is behind those it holds. -/
theorem byteBits_written {w : List Bool} {s : State} (hw : writerHolds w s) (b : Bool) :
    byteBits (setBit s.wbuf (7 - s.wn.val) b) = (w ++ [b]) ++ List.replicate (7 - w.length) false := by
  obtain ⟨hlen, hbits⟩ := hw
  have hlt := s.wn.isLt
  have hsucc : 8 - w.length = (7 - w.length) + 1 := by omega
  rw [byteBits_setBit, hbits, hsucc, ← hlen, List.set_append_right _ _ le_rfl, Nat.sub_self, List.replicate_succ,
    List.set_cons_zero, List.append_assoc, List.singleton_append]

theorem writerHolds_nil {s : State} (hwn : s.wn = 0) (hbuf : s.wbuf = 0) : writerHolds [] s := by
  refine ⟨by rw [hwn]; rfl, ?_⟩
  rw [hbuf]
  decide

/-! ## A writing command on its way -/

/-- What writing bits keeps. -/
structure Registers where
  params : Params
  pend : Bool
  freq : Table Word
  tree : Tree
  result : Word

def State.registers (s : State) : Registers := ⟨s.params, s.pend, s.freq, s.tree, s.result⟩

/-- The bytes of OUTQ, the bits in the writer and those the command has still to write, in order, are the given ones. -/
inductive Writes (out : List Bool) (s : State) : Prop
  | put (w bits : List Bool) (hjob : s.job = some (.put bits)) (hmode : s.mode = .busy) (hw : writerHolds w s)
      (hout : s.outq.flatMap byteBits ++ (w ++ bits) = out)
  | push (bits : List Bool) (hjob : s.job = some (.push bits)) (hmode : s.mode = .busy)
      (hout : s.outq.flatMap byteBits ++ (byteBits s.wbuf ++ bits) = out)
  | done (w : List Bool) (hjob : s.job = none) (hmode : s.mode = .idle) (hw : writerHolds w s)
      (hout : s.outq.flatMap byteBits ++ w = out)

theorem writes_finish {w out : List Bool} {s : State} (hpend : s.pend = false) (hw : writerHolds w s)
    (hout : s.outq.flatMap byteBits ++ w = out) : Writes out (finish s) := by
  rw [finish_of_not_pend hpend]
  exact .done w rfl rfl hw hout

theorem registers_finish {s : State} (hpend : s.pend = false) : (finish s).registers = s.registers := by
  rw [finish_of_not_pend hpend]
  rfl

/-- A micro-step writes what there is to write, or holds. -/
theorem advance_writes {out : List Bool} {s : State} {j : Job} (hs : Writes out s) (hpend : s.pend = false)
    (hj : s.job = some j) :
    (∃ t, advance j s = .moved t ∧ Writes out t ∧ t.registers = s.registers) ∨
      (advance j s = .waiting ∧ s.params.outDepth ≤ s.outq.length) := by
  cases hs with
  | put w bits hjob hmode hw hout =>
    obtain rfl : j = .put bits := by simpa [hj] using hjob
    refine .inl ?_
    cases bits with
    | nil =>
      exact ⟨finish s, rfl, writes_finish hpend hw (by simpa using hout), registers_finish hpend⟩
    | cons b bits =>
      obtain ⟨hlen, -⟩ := id hw
      have hbyte := byteBits_written hw b
      have hlt := s.wn.isLt
      refine ⟨_, rfl, ?_⟩
      rcases writeBit_cases b bits s with ⟨hwn, e⟩ | ⟨hwn, e⟩ <;> rw [e]
      · have hfull : 7 - w.length = 0 := by rw [hlen, hwn]; rfl
        rw [hfull, List.replicate_zero, List.append_nil] at hbyte
        refine ⟨.push bits rfl hmode ?_, rfl⟩
        show _ ++ (byteBits (setBit s.wbuf (7 - s.wn.val) b) ++ bits) = out
        rw [hbyte, List.append_assoc w, ← hout, List.singleton_append]
      · have hne : s.wn.val ≠ 7 := fun h => hwn (Fin.ext h)
        have hsucc : (s.wn + 1).val = s.wn.val + 1 := Fin.val_add_one_of_lt' (by omega)
        refine ⟨.put (w ++ [b]) bits rfl hmode ⟨?_, ?_⟩ ?_, rfl⟩
        · rw [List.length_append, hlen]
          exact hsucc.symm
        · refine hbyte.trans ?_
          rw [List.length_append, List.length_singleton, Nat.add_comm, Nat.sub_add_eq]
        · rw [List.append_assoc w, List.singleton_append]
          exact hout
  | push bits hjob hmode hout =>
    obtain rfl : j = .push bits := by simpa [hj] using hjob
    simp only [advance, outPush]
    split
    · refine .inl ⟨_, rfl, .put [] bits rfl hmode (writerHolds_nil rfl rfl) ?_, rfl⟩
      rw [← hout]
      simp
    · exact .inr ⟨rfl, Nat.le_of_not_lt ‹_›⟩
  | done w hjob hmode hw hout => simp [hj] at hjob

/-- A run writes on until it ends or holds; with room for a byte it gets further. -/
theorem runJob_writes {out : List Bool} {s : State} (hs : Writes out s) (hpend : s.pend = false) :
    ∃ t, runJob s = .next t ∧ Writes out t ∧ t.registers = s.registers ∧
      stepBound t ≤ stepBound s ∧ (s.job ≠ none → s.outq.length < s.params.outDepth → stepBound t < stepBound s) := by
  induction hb : stepBound s using Nat.strong_induction_on generalizing s with
  | _ b ih =>
    subst hb
    rw [runJob_eq]
    cases hj : s.job with
    | none => exact ⟨s, rfl, hs, rfl, le_rfl, fun h => absurd rfl h⟩
    | some j =>
      rcases advance_writes hs hpend hj with ⟨u, hu, hwrites, hsame⟩ | ⟨hwait, hfull⟩
      · have hlt := advance_lowers hj hu
        obtain ⟨t, ht, hwrites', hsame', hle, -⟩ :=
          ih _ hlt hwrites ((congrArg Registers.pend hsame).trans hpend) rfl
        simp only [hu]
        exact ⟨t, ht, hwrites', hsame'.trans hsame, by omega, fun _ _ => by omega⟩
      · simp only [hwait]
        exact ⟨s, rfl, hs, rfl, le_rfl, fun _ h => absurd hfull (by omega)⟩

/-! ## Popping throughout -/

/-- Between two writing commands of the procedure: these bits are pending. -/
structure ReadyToWrite (w : List Bool) (s : State) : Prop where
  idle : s.mode = .idle
  job : s.job = none
  noError : s.pend = false
  depth : 1 ≤ s.params.outDepth
  outq : s.outq = []
  writer : writerHolds w s

/-- The procedure has written the bits behind those pending: its pops, and the bits pending now. -/
def wrote (r : Option (List Byte × State)) (w bits : List Bool) (x : Registers) : Prop :=
  ∃ (popped : List Byte) (t : State) (w' : List Bool), r = some (popped, t) ∧ ReadyToWrite w' t ∧
    popped.flatMap byteBits ++ w' = w ++ bits ∧ t.registers = x

/-- Popping OUTQ empty takes its bytes from what goes out. -/
theorem writes_pop {out : List Bool} {s : State} (hs : Writes out s) (seen : List Word) :
    ∃ out', s.outq.flatMap byteBits ++ out' = out ∧ Writes out' { s with outq := [], seen := seen } := by
  cases hs with
  | put w bits hjob hmode hw hout => exact ⟨w ++ bits, hout, .put w bits hjob hmode hw rfl⟩
  | push bits hjob hmode hout => exact ⟨byteBits s.wbuf ++ bits, hout, .push bits hjob hmode rfl⟩
  | done w hjob hmode hw hout => exact ⟨w, hout, .done w hjob hmode hw rfl⟩

/-- Draining pops all that is written until the command has ended. -/
theorem drain_wrote (k : Nat) : ∀ {bits : List Bool} {s : State}, Writes bits s → s.pend = false →
    1 ≤ s.params.outDepth → stepBound s < k → wrote (drain k s) [] bits s.registers := by
  induction k with
  | zero => intro _ _ _ _ _ hk; exact absurd hk (Nat.not_lt_zero _)
  | succ k ih =>
    intro bits s hs hpend hdepth hk
    obtain ⟨seen, hpop⟩ := popBytes_all s.outq s rfl
    let s' : State := { s with outq := [], seen := seen }
    obtain ⟨bits', hbits, hs'⟩ := writes_pop hs seen
    have hgoes (j : Job) (hj : s.job = some j) (hmode : s.mode = .busy) : wrote (drain (k + 1) s) [] bits s.registers := by
      obtain ⟨t, ht, hwrites, hsame, -, hlt⟩ := runJob_writes hs' hpend
      have hbound : stepBound t < stepBound s := by
        have hsame : stepBound s' = stepBound s := rfl
        exact hsame ▸ hlt (by rw [hj]; simp) hdepth
      obtain ⟨popped, v, w, hdrain, hready, hpopped, hsame'⟩ := ih hwrites ((congrArg Registers.pend hsame).trans hpend)
        ((congrArg (fun x : Registers => x.params.outDepth) hsame).symm ▸ hdepth) (by omega)
      refine ⟨s.outq ++ popped, v, w, ?_, hready, ?_, hsame'.trans hsame⟩
      · rw [drain, hpop, Option.bind_some, if_pos hmode,
          turnNow_run_of_next ((runTurn_begun (s := s') hmode hj).trans ht), Option.bind_some, hdrain]
        rfl
      · rw [List.flatMap_append, List.append_assoc, hpopped, List.nil_append, List.nil_append, hbits]
    cases hs with
    | put w rest hjob hmode hw hout => exact hgoes _ hjob hmode
    | push rest hjob hmode hout => exact hgoes _ hjob hmode
    | done w hjob hmode hw hout =>
      refine ⟨s.outq, s', w, ?_, ⟨hmode, hjob, hpend, hdepth, rfl, hw⟩, hout, rfl⟩
      rw [drain, hpop, Option.bind_some, if_neg (by rw [hmode]; decide)]

/-! ## One command of the procedure -/

section
variable {i : Instr} {w bits : List Bool} {s : State}

/-- A command whose first micro-step leaves the bits to write. -/
theorem writeCommand_wrote {v : State} (hs : ReadyToWrite w s) (hv : startInstr i (s.withCommand i) = .moved v)
    (hwrites : Writes (w ++ bits) v) (hpend : v.pend = false) (hdepth : 1 ≤ v.params.outDepth) :
    wrote (writeCommand i s) w bits v.registers := by
  obtain ⟨t, ht, hwrites', hsame, -⟩ := runJob_writes hwrites hpend
  have hgo := issue_and_run hs.idle ((exec_of_startInstr hv).trans ht)
  obtain ⟨popped, u, w', hdrain, hready, hpopped, hsame'⟩ := drain_wrote (stepBound t + 1) hwrites'
    ((congrArg Registers.pend hsame).trans hpend)
    ((congrArg (fun x : Registers => x.params.outDepth) hsame).symm ▸ hdepth) (Nat.lt_succ_self _)
  refine ⟨popped, u, w', ?_, hready, hpopped, hsame'.trans hsame⟩
  rw [writeCommand, ← hdrain]
  rw [issueCommand_idle hs.idle, Option.bind_some] at hgo ⊢
  rw [hgo, Option.bind_some]

/-- A command that writes bits and changes nothing else. -/
theorem writeCommand_put (hs : ReadyToWrite w s)
    (h : startInstr i (s.withCommand i) = .moved { s.withCommand i with job := some (.put bits) }) :
    wrote (writeCommand i s) w bits s.registers := by
  have hout : (s.withCommand i).outq.flatMap byteBits ++ (w ++ bits) = w ++ bits := by
    rw [show (s.withCommand i).outq = [] from hs.outq]
    rfl
  exact writeCommand_wrote (v := { s.withCommand i with job := some (.put bits) }) hs h
    (.put w bits rfl rfl hs.writer hout) hs.noError hs.depth

/-- A command that writes no bit: it works on the table, the tree or RESULT alone. -/
theorem writeCommand_tables {f : Table Word} {t : Tree} {r : Word} (hs : ReadyToWrite w s)
    (h : startInstr i (s.withCommand i) = .moved (finish { s.withCommand i with freq := f, tree := t, result := r })) :
    wrote (writeCommand i s) w [] { s.registers with freq := f, tree := t, result := r } := by
  let u : State := { s.withCommand i with freq := f, tree := t, result := r }
  have hpend : u.pend = false := hs.noError
  have hout : u.outq.flatMap byteBits ++ w = w ++ [] := by rw [show u.outq = [] from hs.outq, List.append_nil]; rfl
  have := writeCommand_wrote hs h (writes_finish hpend hs.writer hout) (finish_pend _)
    (by rw [finish_params]; exact hs.depth)
  rwa [registers_finish hpend] at this

theorem padBits_congr {m n : Nat} (h : m % 8 = n % 8) : padBits m = padBits n := by rw [padBits, padBits, h]

/-- FLUSH writes PAD. -/
theorem writeCommand_flush (hs : ReadyToWrite w s) : wrote (writeCommand .flush s) w (padBits w.length) s.registers := by
  obtain ⟨hlen, hbits⟩ := hs.writer
  have hlt := s.wn.isLt
  by_cases hwn : s.wn = 0
  · rw [show padBits w.length = [] by rw [hlen, hwn]; rfl]
    exact writeCommand_tables (f := s.freq) (t := s.tree) (r := s.result) hs (if_pos hwn)
  · have hpos : 0 < w.length := hlen ▸ Nat.pos_of_ne_zero fun h => hwn (Fin.ext h)
    have hpad : padBits w.length = List.replicate (8 - w.length) false := by
      rw [padBits]
      congr 1
      omega
    refine writeCommand_wrote (v := { s.withCommand .flush with job := some (.push []) }) hs (if_neg hwn) ?_ hs.noError
      hs.depth
    refine .push [] rfl rfl ?_
    rw [show (s.withCommand .flush).outq = [] from hs.outq, hpad, ← hbits]
    simp [State.withCommand]

end

/-- Commands in a row; the bits written tell how many are pending. -/
theorem wrote_cons {i : Instr} {is : List Instr} {s : State} {w bits bits' : List Bool} {x x' : Registers}
    (h : wrote (writeCommand i s) w bits x) (hrest : ∀ (t : State) (w' : List Bool), ReadyToWrite w' t → t.registers = x →
      w'.length % 8 = (w.length + bits.length) % 8 → wrote (writeCommands is t) w' bits' x') :
    wrote (writeCommands (i :: is) s) w (bits ++ bits') x' := by
  obtain ⟨popped, t, w', hgo, hready, hpopped, hsame⟩ := h
  have hlen := congrArg List.length hpopped
  rw [List.length_append, List.length_append, flatMap_byteBits_length] at hlen
  obtain ⟨popped', t', w'', hgo', hready', hpopped', hsame'⟩ := hrest t w' hready hsame (by omega)
  refine ⟨popped ++ popped', t', w'', ?_, hready', ?_, hsame'⟩
  · rw [writeCommands, hgo, Option.bind_some, hgo']
    rfl
  · rw [List.flatMap_append, List.append_assoc, hpopped', ← List.append_assoc, hpopped, List.append_assoc]

theorem wrote_nil {s : State} {w : List Bool} (hs : ReadyToWrite w s) : wrote (writeCommands [] s) w [] s.registers :=
  ⟨[], s, w, rfl, hs, by simp, rfl⟩

end Sys2Proof.Machine
end

section
/-! PROOF. The compress procedure writes the container (spec/20_memory.md R80 to R88; log 15). -/

namespace Sys2Proof.Machine

/-! ## Loading F -/

/-- An entry above the others is listed behind them. -/
theorem insert_of_below {α : Type} {t : Table α} {k : Nat} (h : ∀ e ∈ t, e.1 < k) (v : α) :
    Table.insert t k v = t ++ [(k, v)] := by
  induction t with
  | nil => rfl
  | cons e t ih =>
    have hlt : e.1 < k := h e (by simp)
    rw [Table.insert, if_neg (by omega), if_neg (by omega), ih fun d hd => h d (by simp [hd]), List.cons_append]

/-- FREQ after the SETFs of a table. -/
def loaded (g f : Table Word) : Table Word := f.foldl (fun g e => setFreq g (BitVec.ofNat 16 e.1) e.2) g

/-- Loading a table into a table of lower keys lists its entries behind those. -/
theorem loaded_of_below {w : Width} {f : Table Word} (hf : freqWf w f = true) {g : Table Word}
    (hg : ∀ e ∈ g, ∀ d ∈ f, e.1 < d.1) : loaded g f = g ++ f := by
  induction f generalizing g with
  | nil => exact (List.append_nil g).symm
  | cons e f ih =>
    obtain ⟨hrising, hkeys, hvalues⟩ := freqWf_iff.mp hf
    obtain ⟨habove, htail⟩ := rising_cons_iff.mp hrising
    have hset : setFreq g (BitVec.ofNat 16 e.1) e.2 = g ++ [e] := by
      rw [setFreq, if_neg (show e.2 ≠ freqDefault from hvalues e (by simp)), toNat_ofNat_key (hkeys e (by simp)),
        insert_of_below fun d hd => hg d hd e (by simp)]
    have hstep : loaded g (e :: f) = loaded (g ++ [e]) f := congrArg (fun h => loaded h f) hset
    rw [hstep, ih (freqWf_iff.mpr ⟨htail, fun d hd => hkeys d (by simp [hd]), fun d hd => hvalues d (by simp [hd])⟩)
      fun d hd c hc => ?_, List.append_assoc, List.singleton_append]
    rcases List.mem_append.mp hd with hd | hd
    · exact hg d hd c (by simp [hc])
    · rw [List.mem_singleton.mp hd]
      exact habove c hc

/-- The SETFs of a table, and what comes after them. -/
theorem wrote_setfs {is : List Instr} {bits : List Bool} {x' : Registers} (f : Table Word) : ∀ {x : Registers}
    {s : State} {w : List Bool}, ReadyToWrite w s → s.registers = x → (∀ e ∈ f, e.1 < x.params.width.alphabet) →
      (∀ (t : State) (w' : List Bool), ReadyToWrite w' t → t.registers = { x with freq := loaded x.freq f } →
        w'.length % 8 = w.length % 8 → wrote (writeCommands is t) w' bits x') →
      wrote (writeCommands (f.map (fun e => .setf (BitVec.ofNat 16 e.1) e.2) ++ is) s) w bits x' := by
  induction f with
  | nil => intro x s w hs hx _ hrest; exact hrest s w hs hx rfl
  | cons e f ih =>
    intro x s w hs hx hkeys hrest
    subst hx
    have hkey : e.1 < s.params.width.alphabet := hkeys e (by simp)
    have hok : symbolOk s.params.width (BitVec.ofNat 16 e.1) = true :=
      decide_eq_true (by rw [toNat_ofNat_key hkey]; exact hkey)
    have hset := writeCommand_tables (i := .setf (BitVec.ofNat 16 e.1) e.2)
      (f := setFreq s.freq (BitVec.ofNat 16 e.1) e.2) (t := s.tree) (r := s.result) hs
      (by simp only [startInstr, startSetf, State.withCommand, hok, checkRange_true])
    refine wrote_cons (bits := []) hset fun t w' ht hsame hlen => ?_
    exact ih ht hsame (fun d hd => hkeys d (by simp [hd])) fun u w'' hu hsame' hlen' =>
      hrest u w'' hu hsame' (hlen'.trans hlen)

theorem fieldBits_ofNat {n : BitVec 16} {v : Nat} (hv : v < 2 ^ 32) : fieldBits n (BitVec.ofNat 32 v) = msbBits n.toNat v := by
  rw [fieldBits, BitVec.toNat_ofNat, Nat.mod_eq_of_lt hv]

/-- WBITS of a field. -/
theorem writeCommand_field {n : BitVec 16} {v : Nat} {w : List Bool} {s : State} (hs : ReadyToWrite w s)
    (h1 : 1 ≤ n.toNat) (h32 : n.toNat ≤ 32) (hv : v < 2 ^ 32) :
    wrote (writeCommand (.wbits n (BitVec.ofNat 32 v)) s) w (msbBits n.toNat v) s.registers := by
  have hok : bitCountOk n = true := decide_eq_true ⟨h1, h32⟩
  rw [← fieldBits_ofNat hv]
  exact writeCommand_put hs (by simp only [startInstr, startWbits, hok, checkRange_true])

/-- A last command. -/
theorem wrote_last {i : Instr} {s : State} {w bits : List Bool} {x : Registers} (h : wrote (writeCommand i s) w bits x) :
    wrote (writeCommands [i] s) w bits x := by
  rw [← List.append_nil bits]
  refine wrote_cons h fun t w' ht hsame _ => ?_
  exact hsame ▸ wrote_nil ht

/-- F is loaded, the tree built, and TOTAL written. -/
theorem wrote_total {w : Width} {f : Table Word} {n : Nat} {s : State} (hs : ReadyToWrite [] s)
    (hw : s.params.width = w) (hf : freqWf w f = true) (hn : n < 2 ^ 32) :
    wrote (writeCommands (loadTable f ++ [.build, .wbits 32 (BitVec.ofNat 32 n)]) s) [] (msbBits 32 n)
      { s.registers with freq := f, tree := buildTree f } := by
  subst hw
  obtain ⟨-, hkeys, -⟩ := freqWf_iff.mp hf
  have hclear := writeCommand_tables (i := .clrf) (f := []) (t := s.tree) (r := s.result) hs rfl
  refine wrote_cons (bits := []) hclear fun t w ht hcleared _ => ?_
  refine wrote_setfs f ht hcleared hkeys fun u w' hu hloaded _ => ?_
  rw [loaded_of_below hf (by simp)] at hloaded
  have hbuild := writeCommand_tables (i := .build) (f := u.freq) (t := buildTree u.freq) (r := u.result) hu rfl
  refine wrote_cons (bits := []) hbuild fun v w'' hv hbuilt _ => ?_
  have hfreq : u.freq = f := congrArg Registers.freq hloaded
  have hresult : u.result = s.result := congrArg Registers.result hloaded
  have hregisters : v.registers = { s.registers with freq := f, tree := buildTree f } := by
    rw [hbuilt, hloaded, hfreq, hresult]
    rfl
  exact hregisters ▸ wrote_last (writeCommand_field (n := 32) hv (by decide) (by decide) hn)

/-! ## The symbols -/

/-- ENC writes the code word. -/
theorem writeCommand_enc {p : PTree} {x : Symbol} {bits w : List Bool} {s : State} (hs : ReadyToWrite w s)
    (hp : isTree s.params.width s.tree p = true) (hx : p.code x = some bits) (hlt : x.toNat < s.params.width.alphabet) :
    wrote (writeCommand (.enc x) s) w bits s.registers := by
  obtain ⟨i, hleaf, hcode⟩ := codeWord_of_code hp hx
  have hok : symbolOk s.params.width x = true := decide_eq_true hlt
  exact writeCommand_put hs (by
    simp only [startInstr, startEnc, encBody, State.withCommand, hok, checkRange_true, hleaf, hcode])

/-- The ENCs of the symbols and FLUSH write PAYLOAD and PAD; n bits stand before them. -/
theorem wrote_payload {p : PTree} {xs : List Symbol} : ∀ {w : List Bool} {s : State} {n : Nat}, ReadyToWrite w s →
    isTree s.params.width s.tree p = true → (∀ x ∈ xs, x ∈ p.symbols ∧ x.toNat < s.params.width.alphabet) →
    w.length % 8 = n % 8 →
    wrote (writeCommands (xs.map .enc ++ [.flush]) s) w (payloadBits p xs ++ padBits (n + (payloadBits p xs).length))
      s.registers := by
  induction xs with
  | nil =>
    intro w s n hs _ _ hn
    exact padBits_congr hn ▸ wrote_last (writeCommand_flush hs)
  | cons x xs ih =>
    intro w s n hs hp hxs hn
    obtain ⟨hmem, hlt⟩ := hxs x (by simp)
    obtain ⟨bits, hbits⟩ := PTree.code_of_mem_symbols hmem
    have hpayload : payloadBits p (x :: xs) = bits ++ payloadBits p xs := by
      rw [payloadBits, List.flatMap_cons, hbits]
      rfl
    rw [hpayload, List.append_assoc, List.length_append, ← Nat.add_assoc]
    refine wrote_cons (writeCommand_enc hs hp hbits hlt) fun t w' ht hsame hlen => ?_
    have hwidth : t.params.width = s.params.width := congrArg (fun x : Registers => x.params.width) hsame
    have htree : t.tree = s.tree := congrArg Registers.tree hsame
    rw [← hsame]
    exact ih ht (hwidth ▸ htree ▸ hp) (hwidth ▸ fun y hy => hxs y (by simp [hy])) (by omega)

/-! ## The procedure -/

/-- LCOUNT, SHAPE, PAYLOAD and PAD; n bits stand before them. -/
theorem wrote_fields {p : PTree} {xs : List Symbol} {k : BitVec 16} {w : List Bool} {s : State} {n : Nat}
    (hs : ReadyToWrite w s) (hp : isTree s.params.width s.tree p = true)
    (hxs : ∀ x ∈ xs, x ∈ p.symbols ∧ x.toNat < s.params.width.alphabet) (hk : k.toNat = s.params.width.bits)
    (hlen : p.symbols.length ≤ s.params.width.alphabet) (hn : w.length % 8 = n % 8) :
    wrote (writeCommands (.wbits k (BitVec.ofNat 32 p.symbols.length - 1) :: .ser :: xs.map .enc ++ [.flush]) s) w
      (msbBits s.params.width.bits (p.symbols.length - 1) ++ (p.shape s.params.width ++ (payloadBits p xs ++
        padBits (n + s.params.width.bits + (p.shape s.params.width).length + (payloadBits p xs).length)))) s.registers := by
  have hbits := width_bits_le s.params.width
  have hone : 1 ≤ s.params.width.bits := by cases s.params.width <;> decide
  have halphabet := alphabet_le s.params.width
  have hpos := p.symbols_length_pos
  have hl : (BitVec.ofNat 32 p.symbols.length - 1 : Word) = BitVec.ofNat 32 (p.symbols.length - 1) := by
    bv_omega
  rw [hl, ← hk]
  refine wrote_cons (writeCommand_field hs (by omega) (by omega) (by omega)) fun t w' ht hsame hlen' => ?_
  have hwidth : t.params.width = s.params.width := congrArg (fun x : Registers => x.params.width) hsame
  have htree : t.tree = s.tree := congrArg Registers.tree hsame
  have hser : startInstr .ser (t.withCommand .ser) =
      .moved { t.withCommand .ser with job := some (.put (p.shape s.params.width)) } := by
    simp only [startInstr, startSer, shapeBits_of_isTree (w := s.params.width) (t := t.tree) (htree ▸ hp),
      State.withCommand, hwidth]
  refine wrote_cons (writeCommand_put ht hser) fun u w'' hu hsame' hlen'' => ?_
  have hwidth' : u.params.width = s.params.width :=
    (congrArg (fun x : Registers => x.params.width) hsame').trans hwidth
  have htree' : u.tree = s.tree := (congrArg Registers.tree hsame').trans htree
  rw [← hsame, ← hsame']
  rw [msbBits_length] at hlen'
  exact wrote_payload hu (hwidth' ▸ htree' ▸ hp) (hwidth' ▸ hxs) (by omega)

/-- A machine whose writer and OUTQ are empty is ready to write; the writer's unused bits are 0 (R42). -/
theorem readyToWrite_of_machineOk {s : State} (hm : machineOk s = true) (hs : s.mode = .idle) (hwn : s.wn = 0)
    (hout : s.outq = []) : ReadyToWrite [] s := by
  obtain ⟨hjob, hpend, -, hdepth⟩ := idle_of_machineOk hm hs
  obtain ⟨-, -, -, -, hpadded, -⟩ := machineOk_iff.mp hm
  have hpush : atOutPush s = false := by simp only [atOutPush, hjob]
  have hzero : s.wbuf.toNat % 2 ^ 8 = 0 := by simpa [padded, hpush, hwn] using hpadded
  have hbuf : s.wbuf = 0 := BitVec.eq_of_toNat_eq ((Nat.mod_eq_of_lt s.wbuf.isLt).symm.trans hzero)
  exact ⟨hs, hjob, hpend, hdepth, hout, writerHolds_nil hwn hbuf⟩

/-- The procedure on the empty sequence writes TOTAL alone. -/
theorem compress_nil_wrote {s : State} (hs : ReadyToWrite [] s) :
    ∃ x, wrote (compress [] s) [] (containerBits s.params.width []) x := by
  obtain ⟨popped, t, w, hgo, hready, hpopped, hsame⟩ := wrote_total (f := []) (n := 0) hs rfl rfl (by decide)
  refine ⟨_, popped, t, w, ?_, hready, ?_, hsame⟩
  · rw [compress, show countSymbols [] = [] from rfl, List.length_nil, hgo, Option.bind_some, if_pos rfl]
  · rw [hpopped, containerBits_nil]

/-- NLEAF, and the host's read of RESULT: L. -/
theorem writeCommand_nleaf {p : PTree} {w : List Bool} {s : State} (hs : ReadyToWrite w s)
    (hp : isTree s.params.width s.tree p = true) : ∃ (popped : List Byte) (t v : State) (w' : List Bool),
      writeCommand .nleaf s = some (popped, t) ∧ hostRead 0x0C t = some (BitVec.ofNat 32 p.symbols.length, v) ∧
      ReadyToWrite w' v ∧ popped.flatMap byteBits ++ w' = w ∧ v.tree = s.tree ∧ v.params = s.params := by
  obtain ⟨hnleaves, -⟩ := isTree_sizes hp
  obtain ⟨popped, t, w', hgo, ht, hpopped, hsame⟩ := writeCommand_tables (i := .nleaf) (f := s.freq) (t := s.tree)
    (r := BitVec.ofNat 32 s.tree.nleaves) hs rfl
  have hresult : t.result = BitVec.ofNat 32 p.symbols.length := by
    rw [show t.result = _ from congrArg Registers.result hsame, hnleaves, p.symbols_length]
  have hread := hostRead_result t
  rw [hresult] at hread
  exact ⟨popped, t, _, w', hgo, hread, ⟨ht.idle, ht.job, ht.noError, ht.depth, ht.outq, ht.writer⟩,
    hpopped.trans (List.append_nil w), congrArg Registers.tree hsame, congrArg Registers.params hsame⟩

/-- The procedure on any other sequence writes the container's fields and PAD. -/
theorem compress_cons_wrote {xs : List Symbol} {s : State} (hs : ReadyToWrite [] s) (hne : xs ≠ [])
    (hlt : ∀ x ∈ xs, x.toNat < s.params.width.alphabet) (hlen : xs.length < 2 ^ 32) :
    ∃ x, wrote (compress xs s) [] (containerBits s.params.width xs) x := by
  have hfreq := freqWf_countSymbols hlt
  obtain ⟨p, hp, hmerged⟩ := mergedTree_countSymbols hlt hlen hne
  obtain ⟨hnodup, hlegal⟩ := symbols_mergedTree_legal hfreq hp
  obtain ⟨popped, t, w, hgo, ht, hpopped, hbuilt⟩ := wrote_total hs rfl hfreq hlen
  have htree : t.tree = buildTree (countSymbols xs) := congrArg Registers.tree hbuilt
  have hparams : t.params = s.params := congrArg Registers.params hbuilt
  obtain ⟨popped', u, v, w', hgo', hread, hv, hpopped', hvtree, hvparams⟩ :=
    writeCommand_nleaf ht (hparams.symm ▸ htree.symm ▸ hmerged)
  rw [htree] at hvtree
  have hwidth : v.params.width = s.params.width := congrArg Params.width (hvparams.trans hparams)
  have hpos : w'.length % 8 = 32 % 8 := by
    have h := congrArg List.length hpopped
    have h' := congrArg List.length hpopped'
    simp only [List.length_append, List.length_nil, flatMap_byteBits_length, msbBits_length] at h h'
    omega
  obtain ⟨popped'', z, w'', hgo'', hz, hpopped'', -⟩ := wrote_fields (xs := xs) (k := symbolBitCount s) hv
    (hwidth.symm ▸ hvtree.symm ▸ hmerged)
    (hwidth.symm ▸ fun x hx => ⟨mem_symbols_of_mem hlt hlen hp hx, hlt x hx⟩)
    (hwidth.symm ▸ symbolBitCount_toNat s) (hwidth.symm ▸ length_le_alphabet hnodup hlegal) hpos
  refine ⟨_, popped ++ popped' ++ popped'', z, w'', ?_, hz, ?_, rfl⟩
  · simp only [compress, hgo, if_neg hne, hgo', hread, hgo'', Option.bind_some, Option.map_some]
  · have hpieces : (popped ++ popped' ++ popped'').flatMap byteBits ++ w'' =
        popped.flatMap byteBits ++ (popped'.flatMap byteBits ++ (popped''.flatMap byteBits ++ w'')) := by simp
    rw [hpieces, hpopped'', ← List.append_assoc (popped'.flatMap byteBits), hpopped', ← List.append_assoc, hpopped,
      containerBits, flatten_containerFields_length hp, flatten_containerFields hp, hwidth]
    simp only [List.append_assoc, List.nil_append]

/-- Settles O38: the bytes popped hold the bits written, which are the container's, so they are its bytes. -/
theorem compressMakesTheContainer : Obligations.CompressMakesTheContainer := by
  intro s xs hm hs hwn hout hlt hlen
  refine ⟨?_, flatMap_container _ _, fun h => h ▸ container_nil _, fun hne => ?_⟩
  · have hready := readyToWrite_of_machineOk hm hs hwn hout
    obtain ⟨x, popped, t, w, hgo, ht, hpopped, -⟩ : ∃ x, wrote (compress xs s) [] (containerBits s.params.width xs) x := by
      by_cases hne : xs = []
      · exact hne ▸ compress_nil_wrote hready
      · exact compress_cons_wrote hready hne hlt hlen
    rw [List.nil_append, ← flatMap_container] at hpopped
    have hlen := congrArg List.length hpopped
    rw [List.length_append, flatMap_byteBits_length, flatMap_byteBits_length] at hlen
    obtain ⟨hw, -⟩ := ht.writer
    have hlt := t.wn.isLt
    have hzero : t.wn.val = 0 := by omega
    rw [List.length_eq_zero_iff.mp (hw.trans hzero), List.append_nil] at hpopped
    exact ⟨t, flatMap_byteBits_injective hpopped ▸ hgo, ht.idle, Fin.ext hzero, ht.outq⟩
  · obtain ⟨p, hp, -⟩ := mergedTree_countSymbols hlt hlen hne
    refine ⟨p, hp, fun x hx => PTree.code_of_mem_symbols (mem_symbols_of_mem hlt hlen hp hx), ?_, ?_⟩
    · rw [containerBits]
      congr 1
      simp only [flatten_containerFields hp, payloadBits, List.append_assoc]
    · rw [container_length, flatten_containerFields_length hp, ← payloadBits_length, ← PTree.shape_length]

end Sys2Proof.Machine
end

section
/-! PROOF. The checks of the decoder by a word's fields, the opcode table's rows by their opcodes, and the range checks
(spec/30_encoding.md R101 to R109, R113). -/

namespace Sys2Proof.Machine

/-! ## What the decoder checks -/

/-- The format of the opcode has A as an operand (R102, R104). -/
def takesA (op : BitVec 4) : Bool := decide (op.toNat ∈ [0x1, 0x3, 0x6, 0x7, 0xB])

/-- The format of the opcode has B as an operand (R102, R104). -/
def takesB (op : BitVec 4) : Bool := decide (op.toNat ∈ [0x1, 0x6, 0xE])

/-- The fields that the format of the word's opcode does not use are 0 (R107). -/
def unusedZero (w : Command) : Prop :=
  (takesA (opField w) = true ∨ aField w = 0) ∧ (takesB (opField w) = true ∨ bField w = 0)

/-- The answer is a command when `zero` holds, and else the error of R107. -/
def answersIf (zero : Prop) (d : Except DecodeError Instr) : Prop :=
  (zero → ∃ i, d = .ok i) ∧ (¬ zero → d = .error .unusedField)

theorem answersIf_ite {p : Prop} [Decidable p] (i : Instr) : answersIf p (if p then .ok i else .error .unusedField) :=
  ⟨fun h => ⟨i, if_pos h⟩, fun h => if_neg h⟩

theorem decodeN_answers (i : Instr) (w : Command) : answersIf (aField w = 0#16 ∧ bField w = 0#32) (decodeN i w) :=
  answersIf_ite i

theorem decodeA_answers (f : BitVec 16 → Instr) (w : Command) : answersIf (bField w = 0#32) (decodeA f w) :=
  answersIf_ite _

theorem decodeB_answers (f : Word → Instr) (w : Command) : answersIf (aField w = 0#16) (decodeB f w) :=
  answersIf_ite _

theorem decodeAB_answers (f : BitVec 16 → Word → Instr) (w : Command) : answersIf True (decodeAB f w) :=
  ⟨fun _ => ⟨_, rfl⟩, fun h => absurd trivial h⟩

/-- Each opcode of the map checks exactly the fields its format does not use. -/
theorem decodeOp_answers {w : Command} (h0 : opField w ≠ 0x0) (hF : opField w ≠ 0xF) :
    answersIf (unusedZero w) (decodeOp w) := by
  have hmin : 0x1 ≤ (opField w).toNat := by bv_omega
  have hmax : (opField w).toNat ≤ 0xE := by bv_omega
  interval_cases hop : (opField w).toNat <;>
    simp [decodeOp, unusedZero, takesA, takesB, hop, decodeN_answers, decodeA_answers, decodeB_answers,
      decodeAB_answers]

/-! ## The decoder's answers in the order of R113 -/

theorem decode_illegalOpcode {w : Command} (h : opField w = 0x0 ∨ opField w = 0xF) :
    decode w = .error (.illegalOpcode (opField w)) := if_pos h

section
variable {w : Command} (h0 : opField w ≠ 0x0) (hF : opField w ≠ 0xF)
include h0 hF

theorem decode_reservedBits (h : rsvField w ≠ 0) : decode w = .error .reservedBits := by
  rw [decode, if_neg (not_or.mpr ⟨h0, hF⟩), if_pos h]

theorem decode_of_rsv_zero (h : rsvField w = 0) : decode w = decodeOp w := by
  rw [decode, if_neg (not_or.mpr ⟨h0, hF⟩), if_neg (not_not.mpr h)]

theorem decode_unusedField (h : rsvField w = 0) (hz : ¬ unusedZero w) : decode w = .error .unusedField :=
  (decode_of_rsv_zero h0 hF h).trans ((decodeOp_answers h0 hF).2 hz)

end

/-- The words that select a command, by their fields. -/
theorem decode_ok_iff (w : Command) : (∃ i, decode w = .ok i) ↔
    (opField w ≠ 0x0 ∧ opField w ≠ 0xF) ∧ rsvField w = 0 ∧ unusedZero w := by
  constructor
  · rintro ⟨i, hi⟩
    obtain ⟨h0, hF⟩ : opField w ≠ 0x0 ∧ opField w ≠ 0xF := not_or.mp fun h => by
      cases hi.symm.trans (decode_illegalOpcode h)
    have hrsv : rsvField w = 0 := by_contra fun h => by cases hi.symm.trans (decode_reservedBits h0 hF h)
    have hz : unusedZero w := by_contra fun h => by cases hi.symm.trans (decode_unusedField h0 hF hrsv h)
    exact ⟨⟨h0, hF⟩, hrsv, hz⟩
  · rintro ⟨⟨h0, hF⟩, hrsv, hz⟩
    rw [decode_of_rsv_zero h0 hF hrsv]
    exact (decodeOp_answers h0 hF).1 hz

/-! ## The rows of the opcode table -/

/-- A word from its four fields (R101). -/
def wordOf (op : BitVec 4) (rsv : BitVec 12) (a : BitVec 16) (b : Word) : Command := op ++ rsv ++ a ++ b

theorem wordOf_fields (w : Command) : wordOf (opField w) (rsvField w) (aField w) (bField w) = w := by
  apply BitVec.eq_of_getLsbD_eq
  intro i hi
  simp only [wordOf, opField, rsvField, aField, bField, BitVec.getLsbD_append, BitVec.getLsbD_extractLsb']
  grind

theorem and_wordOf (op op' : BitVec 4) (rsv rsv' : BitVec 12) (a a' : BitVec 16) (b b' : Word) :
    wordOf op rsv a b &&& wordOf op' rsv' a' b' = wordOf (op &&& op') (rsv &&& rsv') (a &&& a') (b &&& b') := by
  simp only [wordOf, ← BitVec.and_append]

theorem append_inj {m n : Nat} {x x' : BitVec m} {y y' : BitVec n} : x ++ y = x' ++ y' ↔ x = x' ∧ y = y' :=
  ⟨fun h => ⟨by simpa only [BitVec.extractLsb'_append_eq_left] using congrArg (BitVec.extractLsb' n m) h,
    by simpa only [BitVec.extractLsb'_append_eq_right] using congrArg (BitVec.extractLsb' 0 n) h⟩,
   fun ⟨hx, hy⟩ => hx ▸ hy ▸ rfl⟩

theorem wordOf_inj {op op' : BitVec 4} {rsv rsv' : BitVec 12} {a a' : BitVec 16} {b b' : Word} :
    wordOf op rsv a b = wordOf op' rsv' a' b' ↔ op = op' ∧ rsv = rsv' ∧ a = a' ∧ b = b' :=
  calc wordOf op rsv a b = wordOf op' rsv' a' b'
    _ ↔ ((op = op' ∧ rsv = rsv') ∧ a = a') ∧ b = b' :=
      append_inj.trans (and_congr_left' (append_inj.trans (and_congr_left' append_inj)))
    _ ↔ op = op' ∧ rsv = rsv' ∧ a = a' ∧ b = b' := by simp only [and_assoc]

/-- All ones, unless the field is an operand: the bits of the field that a row compares. -/
def comparedBits (n : Nat) (operand : Bool) : BitVec n := if operand then 0 else BitVec.allOnes n

theorem and_comparedBits_eq_zero {n : Nat} (x : BitVec n) (operand : Bool) :
    x &&& comparedBits n operand = 0 ↔ operand = true ∨ x = 0 := by
  cases operand <;> simp [comparedBits]

/-- The row of an opcode: it compares OP, RSV and the fields the format does not use. -/
def rowOf (op : BitVec 4) : OpcodeRow where
  mask := wordOf (BitVec.allOnes 4) (BitVec.allOnes 12) (comparedBits 16 (takesA op)) (comparedBits 32 (takesB op))
  pattern := wordOf op 0 0 0

theorem opcodeRows_eq : opcodeRows = ((List.range' 1 14).map (BitVec.ofNat 4)).map rowOf := by decide

theorem mem_opcodes (op : BitVec 4) : op ∈ (List.range' 1 14).map (BitVec.ofNat 4) ↔ op ≠ 0x0 ∧ op ≠ 0xF := by
  revert op; decide

/-- The rows are those of the opcodes that R105 does not exclude. -/
theorem mem_opcodeRows {r : OpcodeRow} : r ∈ opcodeRows ↔ ∃ op, (op ≠ 0x0 ∧ op ≠ 0xF) ∧ rowOf op = r := by
  simp only [opcodeRows_eq, List.mem_map (f := rowOf), mem_opcodes]

/-- A row accepts the words of its opcode with RSV and the unused fields 0. -/
theorem rowOf_accepts {op : BitVec 4} {w : Command} : (rowOf op).accepts w = true ↔
    opField w = op ∧ rsvField w = 0 ∧ unusedZero w := by
  rw [OpcodeRow.accepts, decide_eq_true_iff]
  conv_lhs => rw [← wordOf_fields w]
  simp only [rowOf, and_wordOf, wordOf_inj, BitVec.and_allOnes, and_comparedBits_eq_zero, unusedZero]
  constructor <;> rintro ⟨rfl, h⟩ <;> exact ⟨rfl, h⟩

/-! ## Operands out of range -/

/-- A command with an operand out of range raises ILLEGAL_OPERAND(3) as its first micro-step (R108, R113). -/
theorem startInstr_outOfRange {i : Instr} {s : State} (h : i.wellFormed s.params.width = false) :
    startInstr i s = .moved (raise .illegalOperand 3 s) := by
  cases i with
  | wbits n v => rw [startInstr, startWbits, show bitCountOk n = false from h, checkRange_false]
  | rbits n => rw [startInstr, startRbits, show bitCountOk n = false from h, checkRange_false]
  | setf x c => rw [startInstr, startSetf, show symbolOk s.params.width x = false from h, checkRange_false]
  | getf x => rw [startInstr, startGetf, show symbolOk s.params.width x = false from h, checkRange_false]
  | enc x => rw [startInstr, startEnc, show symbolOk s.params.width x = false from h, checkRange_false]
  | recon l => rw [startInstr, startRecon, show leafCountOk s.params.width l = false from h, checkRange_false]
  | flush | rrst | clrf | build | clrt | nleaf | dec | ser => cases h

theorem exec_outOfRange {i : Instr} {s : State} (h : i.wellFormed s.params.width = false) :
    exec i s = .next (takeError .illegalOperand 3 s.cmd s) :=
  (exec_of_startInstr (startInstr_outOfRange h)).trans (runJob_raise ..)

/-- ENC of a symbol in range with no leaf raises as its first micro-step (R108, R201). -/
theorem startInstr_enc_unknown {x : Symbol} {s : State} (hx : x.toNat < s.params.width.alphabet)
    (hleaf : s.tree.leafAt x = none) : startInstr (.enc x) s = .moved (raise .unknownSymbol (x.setWidth 32) s) := by
  rw [startInstr, startEnc, show symbolOk s.params.width x = true from decide_eq_true hx, checkRange_true, encBody, hleaf]

/-- Settles O5: the range check is the first micro-step, and the command ends there. -/
theorem outOfRangeOperandsRaise : Obligations.OutOfRangeOperandsRaise := by
  refine fun s => ⟨fun n v hn => ?_, fun x c hx => ?_, fun l hl => ?_, fun hw x => ?_, fun x hx hleaf => ?_⟩
  · have hbad : bitCountOk n = false := decide_eq_false (by omega)
    exact ⟨exec_outOfRange hbad, exec_outOfRange hbad⟩
  · have hbad : symbolOk s.params.width x = false := decide_eq_false (by omega)
    exact ⟨exec_outOfRange hbad, exec_outOfRange hbad, exec_outOfRange hbad⟩
  · exact exec_outOfRange (decide_eq_false (by omega))
  · rw [hw]
    exact x.isLt
  · exact (exec_of_startInstr (startInstr_enc_unknown hx hleaf)).trans (runJob_raise ..)

/-! ## Words that select no command -/

/-- A word that selects no command raises its error in one step, whoever's turn of the core it is. -/
theorem step_of_decode_error {s : State} {rest : List Turn} {e : DecodeError} (hs : issued s)
    (hagenda : s.agenda = .core :: rest ∨ s.agenda = .run :: rest ∨ (s.agenda = [] ∧ rest = []))
    (hd : decode s.cmd = .error e) : step s = .next (raiseDecode e { s with agenda := rest }) := by
  obtain ⟨hmode, hjob⟩ := hs
  rcases hagenda with hcore | hrun | ⟨hnil, rfl⟩
  · simp [step_of_core hcore, coreTurn, hmode, microStep, hjob, beginCommand, hd]
  · rw [step_of_run hrun]
    exact runTurn_illegal hmode hjob hd
  · rw [step_of_agenda_nil hnil, runTurn_illegal hmode hjob hd, ← hnil]

theorem takesA_of_mem : ∀ op ∈ [0x2#4, 0x4#4, 0x5#4, 0x8#4, 0x9#4, 0xA#4, 0xC#4, 0xD#4, 0xE#4], takesA op = false := by
  decide

theorem takesB_of_mem :
    ∀ op ∈ [0x2#4, 0x3#4, 0x4#4, 0x5#4, 0x7#4, 0x8#4, 0x9#4, 0xA#4, 0xB#4, 0xC#4, 0xD#4], takesB op = false := by
  decide

/-- Settles O4: the decoder's answers in the order of R113, each raised in one step. -/
theorem illegalWordsRaise : Obligations.IllegalWordsRaise := by
  intro s rest hs hagenda
  refine ⟨fun hop => step_of_decode_error hs hagenda (decode_illegalOpcode hop),
    fun h0 hF hrsv => step_of_decode_error hs hagenda (decode_reservedBits h0 hF hrsv), fun h0 hF hrsv hfield => ?_⟩
  have hz : ¬ unusedZero s.cmd := by
    rintro ⟨hA, hB⟩
    rcases hfield with ⟨hop, ha⟩ | ⟨hop, hb⟩
    · exact ha (hA.resolve_left (Bool.eq_false_iff.mp (takesA_of_mem _ hop)))
    · exact hb (hB.resolve_left (Bool.eq_false_iff.mp (takesB_of_mem _ hop)))
  exact step_of_decode_error hs hagenda (decode_unusedField h0 hF hrsv hz)

/-- Settles O3: the decoder and the rows look at the same fields, and a command that decodes has its range check left. -/
theorem everyWordIsLegalOrRaises : Obligations.EveryWordIsLegalOrRaises := by
  refine ⟨fun w => ?_, fun w r hr r' hr' hw hw' => ?_, fun s ⟨hmode, hjob⟩ => ?_⟩
  · simp only [decode_ok_iff, mem_opcodeRows]
    constructor
    · rintro ⟨hop, hfields⟩
      exact ⟨_, ⟨_, hop, rfl⟩, rowOf_accepts.mpr ⟨rfl, hfields⟩⟩
    · rintro ⟨_, ⟨op, hop, rfl⟩, hw⟩
      obtain ⟨rfl, hfields⟩ := rowOf_accepts.mp hw
      exact ⟨hop, hfields⟩
  · obtain ⟨op, -, rfl⟩ := mem_opcodeRows.mp hr
    obtain ⟨op', -, rfl⟩ := mem_opcodeRows.mp hr'
    rw [← (rowOf_accepts.mp hw).1, ← (rowOf_accepts.mp hw').1]
  · cases hd : decode s.cmd with
    | ok i =>
      cases hi : i.wellFormed s.params.width with
      | true => exact .inl ⟨i, rfl, hi⟩
      | false => exact .inr ⟨3, .inr ((runTurn_issued hmode hjob hd).trans (exec_outOfRange hi))⟩
    | error e =>
      rw [runTurn_illegal hmode hjob hd]
      cases e with
      | illegalOpcode op => exact .inr ⟨_, .inl rfl⟩
      | reservedBits | unusedField => exact .inr ⟨_, .inr rfl⟩

end Sys2Proof.Machine
end

section
/-! PROOF. Bits written with room in OUTQ for the bytes they complete (spec/20_memory.md R63; spec/40_bit_io.md R130,
R134): a command that writes bits and then returns leaves the writer and OUTQ after those bits, and all else alone. -/

namespace Sys2Proof.Machine

/-! ## The writer after a bit -/

/-- WriteBit(b) with the push of a byte it fills (R130). -/
def putBit (b : Bool) (s : State) : State :=
  let w := setBit s.wbuf (7 - s.wn.val) b
  if s.wn = 7 then { s with outq := s.outq ++ [w], wbuf := 0, wn := 0 } else { s with wbuf := w, wn := s.wn + 1 }

theorem putBit_fills {s : State} (b : Bool) (h : s.wn = 7) :
    putBit b s = { s with outq := s.outq ++ [setBit s.wbuf (7 - s.wn.val) b], wbuf := 0, wn := 0 } := if_pos h

theorem putBit_counts {s : State} (b : Bool) (h : s.wn ≠ 7) :
    putBit b s = { s with wbuf := setBit s.wbuf (7 - s.wn.val) b, wn := s.wn + 1 } := if_neg h

@[simp] theorem putBit_params (b : Bool) (s : State) : (putBit b s).params = s.params := by
  by_cases h : s.wn = 7
  · rw [putBit_fills b h]
  · rw [putBit_counts b h]

/-- Whatever OUTQ and the writer become after it, a bit leaves all else alone. -/
theorem putBit_frame (b : Bool) (s : State) (q : List Byte) (w : Byte) (k : Fin 8) :
    { putBit b s with outq := q, wbuf := w, wn := k } = { s with outq := q, wbuf := w, wn := k } := by
  by_cases h : s.wn = 7
  · rw [putBit_fills b h]
  · rw [putBit_counts b h]

theorem outBits_putBit (b : Bool) (s : State) : outBits (putBit b s) = outBits s ++ [b] := by
  by_cases h : s.wn = 7
  · rw [putBit_fills b h]
    exact outBits_pushed b s.job h
  · rw [putBit_counts b h]
    exact outBits_written b s.job h

/-! ## The unused bits of WBUF -/

theorem drop_msbBits (k n v : Nat) : (msbBits n v).drop k = msbBits (n - k) v := by
  induction n generalizing k with
  | zero => simp
  | succ n ih =>
    cases k with
    | zero => rfl
    | succ k => rw [msbBits_succ, List.drop_succ_cons, ih, Nat.add_sub_add_right]

/-- The low bits of a byte are the value of those behind its first k. -/
theorem bitsValue_drop_byteBits (b : Byte) (k : Nat) : bitsValue ((byteBits b).drop k) = b.toNat % 2 ^ (8 - k) := by
  rw [byteBits, drop_msbBits, bitsValue_msbBits]

/-- WriteBit leaves the bits of WBUF below its own alone. -/
theorem setBit_low (b : Byte) (k : Fin 8) (v : Bool) :
    (setBit b (7 - k.val) v).toNat % 2 ^ (7 - k.val) = b.toNat % 2 ^ (7 - k.val) := by
  have hlow (c : Byte) : c.toNat % 2 ^ (7 - k.val) = bitsValue ((byteBits c).drop (k.val + 1)) := by
    rw [bitsValue_drop_byteBits, Nat.add_comm, Nat.sub_add_eq]
  rw [hlow, hlow, byteBits_setBit, List.drop_set_of_lt (Nat.lt_succ_self _)]

/-- The unused bits of WBUF are 0 (spec/10_state.md R42). -/
def unusedBitsZero (s : State) : Prop := s.wbuf.toNat % 2 ^ (8 - s.wn.val) = 0

theorem unusedBitsZero_putBit {b : Bool} {s : State} (h : unusedBitsZero s) : unusedBitsZero (putBit b s) := by
  by_cases hwn : s.wn = 7
  · rw [putBit_fills b hwn]
    exact Nat.zero_mod _
  · rw [putBit_counts b hwn]
    have hne : s.wn.val ≠ 7 := fun e => hwn (Fin.ext e)
    have hsucc : (s.wn + 1).val = s.wn.val + 1 := Fin.val_add_one_of_lt' (by omega)
    show _ % 2 ^ (8 - (s.wn + 1).val) = 0
    rw [hsucc, Nat.add_comm, Nat.sub_add_eq, setBit_low]
    exact Nat.mod_eq_zero_of_dvd ((pow_dvd_pow 2 (by omega)).trans (Nat.dvd_of_mod_eq_zero h))

/-! ## The writer after any bits -/

/-- The bits written one after the other. -/
def putBits (bits : List Bool) (s : State) : State := bits.foldl (fun s b => putBit b s) s

@[simp] theorem putBits_nil (s : State) : putBits [] s = s := rfl

@[simp] theorem putBits_cons (b : Bool) (bits : List Bool) (s : State) :
    putBits (b :: bits) s = putBits bits (putBit b s) := rfl

/-- Writing bits changes OUTQ, WBUF and WN only. -/
theorem putBits_frame (bits : List Bool) (s : State) : putBits bits s =
    { s with outq := (putBits bits s).outq, wbuf := (putBits bits s).wbuf, wn := (putBits bits s).wn } := by
  induction bits generalizing s with
  | nil => rfl
  | cons b bits ih => exact (ih (putBit b s)).trans (putBit_frame ..)

theorem outBits_putBits (bits : List Bool) (s : State) : outBits (putBits bits s) = outBits s ++ bits := by
  induction bits generalizing s with
  | nil => simp
  | cons b bits ih => rw [putBits_cons, ih, outBits_putBit, List.append_assoc, List.singleton_append]

theorem unusedBitsZero_putBits {bits : List Bool} {s : State} (h : unusedBitsZero s) :
    unusedBitsZero (putBits bits s) := by
  induction bits generalizing s with
  | nil => exact h
  | cons b bits ih => exact ih (unusedBitsZero_putBit h)

/-- WN and the bytes of OUTQ, by the number of bits written. -/
theorem putBits_counts (bits : List Bool) (s : State) :
    (putBits bits s).wn.val = (s.wn.val + bits.length) % 8 ∧
      (putBits bits s).outq.length = s.outq.length + (s.wn.val + bits.length) / 8 := by
  have hlen := congrArg List.length (outBits_putBits bits s)
  rw [List.length_append, outBits_length, outBits_length] at hlen
  have := (putBits bits s).wn.isLt
  omega

/-! ## A command that writes -/

/-- A bit that is written takes its place from the room there is. -/
theorem hasRoom_putBit {b : Bool} {s : State} {k : Nat} (h : hasRoom s (k + 1)) : hasRoom (putBit b s) k := by
  have hlen := congrArg List.length (outBits_putBit b s)
  rw [List.length_append, List.length_singleton, outBits_length, outBits_length] at hlen
  unfold hasRoom at h ⊢
  rw [putBit_params]
  omega

/-- With room for the byte it may fill, a command writes its next bit and is on its way with the others. -/
theorem runJob_put_cons {b : Bool} {bits : List Bool} {s : State} (h : hasRoom s (bits.length + 1)) :
    runJob { s with job := some (.put (b :: bits)) } = runJob { putBit b s with job := some (.put bits) } := by
  rw [runJob_eq]
  show runJob (writeBit b bits { s with job := some (.put (b :: bits)) }) = _
  rcases writeBit_cases b bits { s with job := some (.put (b :: bits)) } with ⟨hwn, e⟩ | ⟨hwn, e⟩
  · have hroom : s.outq.length < s.params.outDepth := by
      have hval : s.wn.val = 7 := congrArg Fin.val hwn
      unfold hasRoom at h
      omega
    rw [e, putBit_fills (s := s) b hwn, runJob_eq]
    simp only [advance, outPush, if_pos hroom]
  · rw [e, putBit_counts (s := s) b hwn]

/-- A command with bits to write and room for them writes them all and returns. -/
theorem runJob_put {bits : List Bool} {s : State} (h : hasRoom s bits.length) :
    runJob { s with job := some (.put bits) } = .next (finish (putBits bits s)) := by
  induction bits generalizing s with
  | nil =>
    rw [runJob_eq]
    simp only [advance, runJob_finish, finish_with_job, putBits_nil]
  | cons b bits ih => rw [runJob_put_cons h, ih (hasRoom_putBit h), putBits_cons]

/-! ## The obligation -/

/-- `fieldBits` by the bits of the word. -/
theorem fieldBits_eq_map (n : BitVec 16) (v : Word) :
    fieldBits n v = (List.range n.toNat).map fun j => v.getLsbD (n.toNat - 1 - j) := by
  simp only [fieldBits, msbBits_eq_map, BitVec.testBit_toNat]

/-- Settles O12: WBITS is in range, so its first micro-step leaves the field's bits to write, and there is room. -/
theorem wbitsAppendsTheField : Obligations.WbitsAppendsTheField := by
  intro s n v h1 h32 hroom
  have hok : bitCountOk n = true := decide_eq_true ⟨h1, h32⟩
  have hstart : startInstr (.wbits n v) s = .moved { s with job := some (.put (fieldBits n v)) } := by
    rw [startInstr, startWbits, hok, checkRange_true]
  have hlen := fieldBits_length n v
  obtain ⟨hwn, houtq⟩ := putBits_counts (fieldBits n v) s
  rw [hlen] at hwn houtq
  refine ⟨(putBits (fieldBits n v) s).outq, (putBits (fieldBits n v) s).wbuf, (putBits (fieldBits n v) s).wn, ?_⟩
  rw [← putBits_frame, ← fieldBits_eq_map]
  exact ⟨(exec_of_startInstr hstart).trans (runJob_put (by rwa [hlen])), outBits_putBits .., hwn, houtq,
    unusedBitsZero_putBits⟩

end Sys2Proof.Machine
end

section
/-! PROOF. The commands on the frequency table and the tree (spec/41_table_build.md R163 to R170): the node a dequeue
takes, and the leaves, the counts and the shape of the tree BUILD makes. -/

namespace Sys2Proof.Machine

/-! ## The dequeue -/

/-- A node of the arena as a queued node. -/
def Node.queued (n : Node) (i : Nat) : Queued := { count := n.count.toNat, sym := n.sym, tree := .leaf i n.sym }

/-- The order of R164 on the arena is the order on queued nodes. -/
theorem before_eq_queued {ns : List Node} {x y : Nat} {a b : Node} (hx : ns[x]? = some a) (hy : ns[y]? = some b) :
    before ns x y = (a.queued x).comesBefore (b.queued y) :=
  before_eq_comesBefore (x := a.queued x) (y := b.queued y) ⟨a, hx, rfl, rfl⟩ ⟨b, hy, rfl, rfl⟩

theorem before_trans {ns : List Node} {x y z : Nat} {a b c : Node} (hx : ns[x]? = some a) (hy : ns[y]? = some b)
    (hz : ns[z]? = some c) (h : before ns x y = true) (k : before ns y z = true) : before ns x z = true := by
  rw [before_eq_queued hx hy] at h
  rw [before_eq_queued hy hz] at k
  exact before_eq_queued hx hz ▸ comesBefore_trans h k

/-- Of two nodes with different symbols one is before the other (R165). -/
theorem before_total {ns : List Node} {x y : Nat} {a b : Node} (hx : ns[x]? = some a) (hy : ns[y]? = some b)
    (hsym : a.sym ≠ b.sym) (h : ¬ before ns x y = true) : before ns y x = true := by
  rw [before_eq_queued hx hy] at h
  exact before_eq_queued hy hx ▸ comesBefore_total hsym h

theorem firstOf_eq_none {ns : List Node} {q : List Nat} : firstOf ns q = none ↔ q = [] := by
  cases q with
  | nil => simp [firstOf]
  | cons x q =>
    simp only [firstOf]
    split
    · simp
    · split <;> simp

theorem dequeue_eq_some {ns : List Node} {q rest : List Nat} {x : Nat} (h : dequeue ns q = some (x, rest)) :
    firstOf ns q = some x ∧ rest = q.erase x := by
  unfold dequeue at h
  split at h
  · cases h
  · cases h
    exact ⟨‹_›, rfl⟩

/-- The first node is in the queue and before every other one, when the queue's nodes are there and their symbols differ
(R165). -/
theorem firstOf_first {ns : List Node} {q : List Nat} {x : Nat} (h : firstOf ns q = some x)
    (hat : ∀ y ∈ q, ∃ n, ns[y]? = some n)
    (hsym : ∀ y ∈ q, ∀ z ∈ q, ∀ m n, ns[y]? = some m → ns[z]? = some n → m.sym = n.sym → y = z) :
    x ∈ q ∧ ∀ y ∈ q, y ≠ x → before ns x y = true := by
  induction q generalizing x with
  | nil => cases h
  | cons a q ih =>
    cases hq : firstOf ns q with
    | none =>
      simp only [firstOf, hq, Option.some.injEq] at h
      subst h
      rw [firstOf_eq_none.mp hq]
      exact ⟨List.mem_singleton_self a, fun y hy hne => absurd (List.mem_singleton.mp hy) hne⟩
    | some b =>
      obtain ⟨hb, hfirst⟩ := ih hq (fun y hy => hat y (List.mem_cons_of_mem a hy))
        fun y hy z hz => hsym y (List.mem_cons_of_mem a hy) z (List.mem_cons_of_mem a hz)
      simp only [firstOf, hq] at h
      split at h
      next hba =>
        cases h
        refine ⟨List.mem_cons_of_mem a hb, fun y hy hne => ?_⟩
        rcases List.mem_cons.mp hy with rfl | hy
        · exact hba
        · exact hfirst y hy hne
      next hba =>
        cases h
        refine ⟨List.mem_cons_self, fun y hy hne => ?_⟩
        have hyq : y ∈ q := (List.mem_cons.mp hy).resolve_left hne
        have hbq : b ∈ a :: q := List.mem_cons_of_mem a hb
        by_cases hab : a = b
        · rw [hab] at hne ⊢
          exact hfirst y hyq hne
        · obtain ⟨m, hm⟩ := hat a List.mem_cons_self
          obtain ⟨n, hn⟩ := hat b hbq
          obtain ⟨k, hk⟩ := hat y hy
          have hfront : before ns a b = true :=
            before_total hn hm (fun e => hab (hsym b hbq a List.mem_cons_self n m hn hm e).symm) hba
          by_cases hyb : y = b
          · exact hyb ▸ hfront
          · exact before_trans hm hn hk hfront (hfirst y hyq hyb)

/-- Settles O22: `firstOf_first`, with the order of R164 read on the nodes. -/
theorem dequeueTakesTheFirstNode : Obligations.DequeueTakesTheFirstNode := by
  intro ns q rest x h hat hsym
  obtain ⟨hfirst, hrest⟩ := dequeue_eq_some h
  obtain ⟨hx, hbefore⟩ := firstOf_first hfirst hat hsym
  refine ⟨hx, hrest, fun y hy hne m n hm hn => ?_⟩
  have hmn := hbefore y hy hne
  rw [before_eq_queued hm hn, comesBefore_iff] at hmn
  exact hmn.imp_right fun ⟨hcount, hs⟩ => ⟨BitVec.eq_of_toNat_eq hcount, hs⟩

/-! ## The leaves keep the counts of the table -/

/-- Every listed leaf is in the arena with its symbol's count in the table. -/
def leavesCount (f : Table Word) (t : Tree) : Prop :=
  ∀ x i, t.leafAt x = some i → ∃ n, nodeAt t i = some n ∧ n.count = (getFreq f x).setWidth 64

/-- Changing the links of a node changes no node's count. -/
theorem setNode_count {ns : List Node} {i j : Nat} {f : Node → Node} {c : Count} (hf : ∀ n, (f n).count = n.count)
    (h : ∃ n, ns[j]? = some n ∧ n.count = c) : ∃ n, (setNode ns i f)[j]? = some n ∧ n.count = c := by
  obtain ⟨n, hn, hc⟩ := h
  by_cases hij : j = i
  · subst hij
    exact ⟨f n, by rw [setNode_getElem?_self, hn, Option.map_some], (hf n).trans hc⟩
  · exact ⟨n, by rw [setNode_getElem?_other _ _ hij, hn], hc⟩

/-- A merge keeps the count of every node there was. -/
theorem joinNodes_count {t : Tree} {x y i : Nat} {c : Count} (h : ∃ n, nodeAt t i = some n ∧ n.count = c) :
    ∃ n, nodeAt (joinNodes x y t) i = some n ∧ n.count = c := by
  unfold joinNodes
  split
  · refine setNode_count (fun _ => rfl) (setNode_count (fun _ => rfl) (setNode_count (fun _ => rfl) ?_))
    obtain ⟨n, hn, hc⟩ := h
    exact ⟨n, (nodeAt_newNode_old _ _ t (Nat.ne_of_lt (nodeAt_lt_nfree hn))).trans hn, hc⟩
  · exact h

theorem leavesCount_mergeQueue {f : Table Word} (k : Nat) {t : Tree} {q : List Nat} (h : leavesCount f t) :
    leavesCount f (mergeQueue k t q) := by
  induction k generalizing t q with
  | zero => exact h
  | succ k ih =>
    unfold mergeQueue
    split
    · exact h
    · split
      · exact h
      · refine ih fun x i hx => joinNodes_count (h x i ?_)
        rwa [Tree.leafAt, joinNodes_leaf] at hx

theorem leavesCount_addLeaf {f : Table Word} {tq : Tree × List Nat} {e : Nat × Word} (h : leavesCount f tq.1)
    (he : getFreq f (BitVec.ofNat 16 e.1) = e.2) : leavesCount f (addLeaf tq e).1 := by
  unfold addLeaf
  split
  · exact h
  · intro x i hx
    by_cases hxe : x = BitVec.ofNat 16 e.1
    · subst hxe
      cases (leafAt_listLeaf_self ..).symm.trans hx
      exact ⟨_, nodeAt_newNode_new .., by rw [he]⟩
    · obtain ⟨n, hn, hc⟩ := h x i ((leafAt_listLeaf_other hxe ..).symm.trans hx)
      exact ⟨n, (nodeAt_newNode_old _ _ _ (Nat.ne_of_lt (nodeAt_lt_nfree hn))).trans hn, hc⟩

theorem leavesCount_foldl_addLeaf {f g : Table Word} {tq : Tree × List Nat} (h : leavesCount f tq.1)
    (hg : ∀ e ∈ g, getFreq f (BitVec.ofNat 16 e.1) = e.2) : leavesCount f (g.foldl addLeaf tq).1 := by
  induction g generalizing tq with
  | nil => exact h
  | cons e g ih =>
    exact ih (leavesCount_addLeaf h (hg e List.mem_cons_self)) fun e' he' => hg e' (List.mem_cons_of_mem e he')

/-! ## The tree of a canonical table -/

/-- LEAF has an entry for the symbols of the leaves and for no other. -/
theorem leafAt_ne_none_iff {w : Width} {t : Tree} {ls : List (Symbol × Nat)} (h : leavesListed w t ls = true)
    (x : Symbol) : t.leafAt x ≠ none ↔ x ∈ ls.map Prod.fst := by
  refine ⟨fun hx => by_contra fun hnot => hx (leafAt_none_of_not_mem h hnot), fun hx => ?_⟩
  obtain ⟨e, he, rfl⟩ := List.mem_map.mp hx
  rw [(leafAt_eq_some_iff h e.1 e.2).mpr he]
  exact Option.some_ne_none _

section
variable {w : Width} {f : Table Word} (hf : freqWf w f = true)
include hf

theorem getFreq_of_mem {e : Nat × Word} (he : e ∈ f) : getFreq f (BitVec.ofNat 16 e.1) = e.2 := by
  obtain ⟨hrising, hkeys, -⟩ := freqWf_iff.mp hf
  rw [getFreq, toNat_ofNat_key (hkeys e he), (find_eq_some_iff_mem hrising).mpr he, Option.getD_some]

theorem leavesCount_buildTree : leavesCount f (buildTree f) :=
  leavesCount_mergeQueue _ (leavesCount_foldl_addLeaf (fun _ _ h => nomatch h) fun _ => getFreq_of_mem hf)

theorem count_of_leafAt_buildTree {x : Symbol} {i : Nat} {n : Node} (hx : (buildTree f).leafAt x = some i)
    (hn : nodeAt (buildTree f) i = some n) : n.count = (getFreq f x).setWidth 64 := by
  obtain ⟨m, hm, hc⟩ := leavesCount_buildTree hf x i hx
  cases hm.symm.trans hn
  exact hc

/-- BUILD makes no tree of the empty table, and of any other a tree with a leaf for each entry. -/
theorem buildTree_cases : f = [] ∧ buildTree f = Tree.cleared ∨
    ∃ p, isTree w (buildTree f) p = true ∧ p.symbols.Perm (f.map fun e => BitVec.ofNat 16 e.1) := by
  by_cases hne : f = []
  · exact .inl ⟨hne, by rw [hne]; rfl⟩
  · obtain ⟨p, hp, htree⟩ := isTree_buildTree hf hne
    exact .inr ⟨p, htree, symbols_mergedTree hp⟩

theorem treeOk_buildTree : treeOk w (buildTree f) :=
  (buildTree_cases hf).imp And.right fun ⟨p, htree, _⟩ => ⟨p, htree⟩

theorem nleaves_buildTree : (buildTree f).nleaves = f.length := by
  rcases buildTree_cases hf with ⟨rfl, -⟩ | ⟨p, htree, hperm⟩
  · rfl
  · rw [(isTree_sizes htree).1, ← p.symbols_length, hperm.length_eq, List.length_map]

/-- The symbols the table lists are those of count above 0. -/
theorem mem_symbols_iff_getFreq_pos (x : Symbol) :
    x ∈ f.map (fun e => BitVec.ofNat 16 e.1) ↔ 0 < (getFreq f x).toNat := by
  obtain ⟨-, hkeys, -⟩ := freqWf_iff.mp hf
  have hpos : 0 < (getFreq f x).toNat ↔ getFreq f x ≠ 0 := by
    rw [Nat.pos_iff_ne_zero, ne_eq, ne_eq, ← BitVec.toNat_inj]
    rfl
  rw [hpos, getFreq_ne_zero_iff hf, List.mem_map]
  constructor
  · rintro ⟨e, he, rfl⟩
    exact ⟨e.2, (toNat_ofNat_key (hkeys e he)).symm ▸ he⟩
  · rintro ⟨c, hc⟩
    exact ⟨_, hc, by rw [BitVec.ofNat_toNat, BitVec.setWidth_eq]⟩

theorem leafAt_buildTree_ne_none_iff (x : Symbol) : (buildTree f).leafAt x ≠ none ↔ 0 < (getFreq f x).toNat := by
  rw [← mem_symbols_iff_getFreq_pos hf]
  rcases buildTree_cases hf with ⟨rfl, -⟩ | ⟨p, htree, hperm⟩
  · simp [buildTree, mergeQueue]
  · rw [← hperm.mem_iff]
    exact leafAt_ne_none_iff (isTree_leavesListed htree) x

end

/-- Settles O23: the tree of a canonical table, in each of its parts. -/
theorem buildMakesTheTreeOfTheTable : Obligations.BuildMakesTheTreeOfTheTable := by
  intro s hf
  obtain ⟨hempty, hsingle, hfull⟩ := treeOk_kind (treeOk_buildTree hf)
  have hn := nleaves_buildTree hf
  rw [hn] at hempty hsingle hfull
  refine ⟨buildTree s.freq, (exec_of_startInstr rfl).trans (runJob_finish _), treeOk_buildTree hf, hn,
    leafAt_buildTree_ne_none_iff hf, fun x i n => count_of_leafAt_buildTree hf, fun h => hempty.mpr (by rw [h]; rfl),
    hsingle.mpr, hfull.mpr⟩

/-- Settles O24: `isTree_buildTree`, whose merge loop keeps the forest of the queue in the arena. -/
theorem buildJoinsTheTwoFirstNodes : Obligations.BuildJoinsTheTwoFirstNodes :=
  fun _ _ hf => ⟨fun h => by rw [h]; rfl, isTree_buildTree hf⟩

/-! ## Exact counts -/

/-- The sum of the table's counts of a tree's leaves. -/
def PTree.weight (f : Table Word) (p : PTree) : Nat := (p.symbols.map fun x => (getFreq f x).toNat).sum

theorem PTree.weight_leaf (f : Table Word) (i : Nat) (x : Symbol) :
    (PTree.leaf i x).weight f = (getFreq f x).toNat := by
  simp [PTree.weight, PTree.symbols, PTree.leaves]

theorem PTree.weight_node (f : Table Word) (i : Nat) (z o : PTree) :
    (PTree.node i z o).weight f = z.weight f + o.weight f := by
  simp only [PTree.weight, PTree.symbols_node, List.map_append, List.sum_append]

/-- Where the leaves hold their counts and the sum of all fits, the root holds the sum and no node more. -/
theorem countAt_eq_weight {f : Table Word} {t : Tree} {p : PTree} : ∀ {par : Option Nat} {isz : Bool},
    spells t par isz p = true → (∀ e ∈ p.leaves, countAt t e.2 = (getFreq f e.1).setWidth 64) → p.weight f < 2 ^ 64 →
    (countAt t p.index).toNat = p.weight f ∧ ∀ i ∈ p.indices, (countAt t i).toNat ≤ p.weight f := by
  induction p with
  | leaf i x =>
    intro par isz _ hleaves _
    have hcount : (countAt t i).toNat = (PTree.leaf i x).weight f := by
      rw [hleaves (x, i) (List.mem_singleton_self _), PTree.weight_leaf]
      exact BitVec.toNat_setWidth_of_le (by omega)
    exact ⟨hcount, fun j hj => by rw [List.mem_singleton.mp hj, hcount]⟩
  | node i z o ihz iho =>
    intro par isz h hleaves hfits
    obtain ⟨⟨n, hn, -, -, -, -, hsum⟩, hz, ho⟩ := spells_node_iff.mp h
    rw [PTree.weight_node] at hfits ⊢
    obtain ⟨hzroot, hzle⟩ := ihz hz (fun e he => hleaves e (List.mem_append_left _ he)) (by omega)
    obtain ⟨horoot, hole⟩ := iho ho (fun e he => hleaves e (List.mem_append_right _ he)) (by omega)
    have hroot : (countAt t i).toNat = z.weight f + o.weight f := by
      rw [countAt_of_nodeAt hn, hsum, BitVec.toNat_add, hzroot, horoot, Nat.mod_eq_of_lt hfits]
    refine ⟨hroot, fun j hj => ?_⟩
    rcases List.mem_cons.mp hj with rfl | hj
    · exact hroot.le
    · rcases List.mem_append.mp hj with hj | hj
      · exact (hzle j hj).trans (Nat.le_add_right ..)
      · exact (hole j hj).trans (Nat.le_add_left ..)

section
variable {w : Width} {f : Table Word} (hf : freqWf w f = true)
include hf

/-- At most 2^16 entries, each below 2^32 (R168). -/
theorem freq_total_lt_two_pow_48 : (f.map fun e => e.2.toNat).sum < 2 ^ 48 := by
  have hlen := (freq_length_le hf).trans (alphabet_le w)
  have hsum := List.sum_le_card_nsmul (f.map fun e => e.2.toNat) (2 ^ 32 - 1) fun n hn => by
    obtain ⟨e, -, rfl⟩ := List.mem_map.mp hn
    exact Nat.le_sub_one_of_lt e.2.isLt
  rw [List.length_map, smul_eq_mul] at hsum
  omega

theorem weight_eq_freq_total {p : PTree} (hperm : p.symbols.Perm (f.map fun e => BitVec.ofNat 16 e.1)) :
    p.weight f = (f.map fun e => e.2.toNat).sum := by
  rw [PTree.weight, (hperm.map _).sum_eq, List.map_map]
  exact congrArg List.sum (List.map_congr_left fun e he => congrArg BitVec.toNat (getFreq_of_mem hf he))

/-- The root of a built tree holds the sum of the table, and no node more. -/
theorem counts_buildTree {i : Nat} {n : Node} (hn : nodeAt (buildTree f) i = some n) :
    n.count.toNat ≤ (f.map fun e => e.2.toNat).sum ∧
      ((buildTree f).root = some i → n.count.toNat = (f.map fun e => e.2.toNat).sum) := by
  rcases buildTree_cases hf with ⟨rfl, -⟩ | ⟨p, htree, hperm⟩
  · cases hn
  · have hweight := weight_eq_freq_total hf hperm
    have htotal := freq_total_lt_two_pow_48 hf
    have hleaves : ∀ e ∈ p.leaves, countAt (buildTree f) e.2 = (getFreq f e.1).setWidth 64 := fun e he => by
      obtain ⟨m, hm, hc⟩ := leavesCount_buildTree hf e.1 e.2
        ((leafAt_eq_some_iff (isTree_leavesListed htree) _ _).mpr he)
      rw [countAt_of_nodeAt hm, hc]
    obtain ⟨hroot, hle⟩ := countAt_eq_weight (isTree_spells htree) hleaves (by omega)
    rw [← hweight, ← countAt_of_nodeAt hn]
    refine ⟨hle i (mem_indices_of_nodeAt htree hn), fun hi => ?_⟩
    obtain ⟨hpi, -⟩ := isTree_iff.mp htree
    cases hpi.symm.trans hi
    exact hroot

end

/-- Settles O25: no count is above the sum of the table, which is below 2^48, so the sums of R40 are exact. -/
theorem builtCountsNeverWrap : Obligations.BuiltCountsNeverWrap := by
  intro w f hf t
  have hbound : ∀ {i n}, nodeAt t i = some n → n.count.toNat < 2 ^ 48 := fun hn =>
    (counts_buildTree hf hn).1.trans_lt (freq_total_lt_two_pow_48 hf)
  refine ⟨fun x i n => count_of_leafAt_buildTree hf, fun r n hr hn => (counts_buildTree hf hn).2 hr, fun n hmem => ?_⟩
  obtain ⟨i, hn⟩ := List.mem_iff_getElem?.mp hmem
  refine ⟨hbound hn, fun z o a b hz ho ha hb => ?_⟩
  have hsum : n.count = a.count + b.count := by
    rcases buildTree_cases hf with ⟨rfl, -⟩ | ⟨p, htree, -⟩
    · cases hn
    · exact (isTree_childrenAgree htree hn).count z o a b hz ho ha hb
  have := hbound ha
  have := hbound hb
  rw [hsum, BitVec.toNat_add, Nat.mod_eq_of_lt (by omega)]

/-! ## ClearTree and NLEAVES -/

/-- Settles O21: each command ends with its first micro-step. -/
theorem clrtAndNleaf : Obligations.ClrtAndNleaf :=
  fun _ => ⟨(exec_of_startInstr rfl).trans (runJob_finish _), (exec_of_startInstr rfl).trans (runJob_finish _)⟩

end Sys2Proof.Machine
end

section
/-! PROOF. Code words, and DEC of one of them (spec/42_encode_decode.md R200 to R204). -/

namespace Sys2Proof.Machine

/-! ## The code words of a tree -/

theorem PTree.mem_symbols_of_path {x : Symbol} {p : PTree} {bits : List Bool} (h : p.path x = some bits) :
    x ∈ p.symbols := by
  induction p generalizing bits with
  | leaf i y =>
    simp only [PTree.path] at h
    split at h <;> cases h
    simp [PTree.symbols, PTree.leaves, ‹y = x›]
  | node i z o ihz iho =>
    rw [PTree.symbols_node]
    rcases PTree.path_node_some h with ⟨rest, -, hz⟩ | ⟨rest, -, ho⟩
    · exact List.mem_append_left _ (ihz hz)
    · exact List.mem_append_right _ (iho ho)

/-- On a tree of one leaf every code word is one 0 bit (R200). -/
theorem PTree.code_of_isLeaf {x : Symbol} {p : PTree} {bits : List Bool} (hp : p.isLeaf = true)
    (h : p.code x = some bits) : bits = [false] := by
  cases p with
  | leaf i y =>
    simp only [PTree.code] at h
    split at h <;> cases h
    rfl
  | node i z o => cases hp

/-- On any other tree it is the path. -/
theorem PTree.code_eq_path {p : PTree} (hp : p.isLeaf = false) (x : Symbol) : p.code x = p.path x := by
  cases p with
  | leaf i y => cases hp
  | node i z o => rfl

/-- The symbols of the leaves have code words, and no other symbol has. -/
theorem PTree.mem_symbols_iff_code {x : Symbol} {p : PTree} : x ∈ p.symbols ↔ ∃ bits, p.code x = some bits := by
  refine ⟨PTree.code_of_mem_symbols, fun ⟨bits, h⟩ => ?_⟩
  cases p with
  | leaf i y =>
    simp only [PTree.code] at h
    split at h <;> cases h
    simp [PTree.symbols, PTree.leaves, ‹y = x›]
  | node i z o => exact PTree.mem_symbols_of_path h

/-- A path goes through different internal nodes. -/
theorem PTree.path_length_le_internals {x : Symbol} {p : PTree} {bits : List Bool} (h : p.path x = some bits) :
    bits.length ≤ p.internals := by
  induction p generalizing bits with
  | leaf i y =>
    simp only [PTree.path] at h
    split at h <;> cases h
    exact Nat.le_refl 0
  | node i z o ihz iho =>
    simp only [PTree.internals]
    rcases PTree.path_node_some h with ⟨rest, rfl, hside⟩ | ⟨rest, rfl, hside⟩
    · have := ihz hside
      simp only [List.length_cons]
      omega
    · have := iho hside
      simp only [List.length_cons]
      omega

/-- A code word of a tree of L > 1 leaves has 1 to L - 1 bits (R204). -/
theorem PTree.code_length {x : Symbol} {p : PTree} {bits : List Bool} (hp : p.isLeaf = false)
    (h : p.code x = some bits) : 1 ≤ bits.length ∧ bits.length ≤ p.leaves.length - 1 := by
  rw [PTree.code_eq_path hp] at h
  have hle := PTree.path_length_le_internals h
  have hleaves := p.internals_add_one
  refine ⟨?_, by omega⟩
  cases p with
  | leaf i y => cases hp
  | node i z o => rcases PTree.path_node_some h with ⟨rest, rfl, -⟩ | ⟨rest, rfl, -⟩ <;> simp

/-- Of two paths neither goes on from the other's leaf (R203). -/
theorem PTree.eq_of_path_prefix {x y : Symbol} {p : PTree} {bx byy : List Bool} (hx : p.path x = some bx)
    (hy : p.path y = some byy) (h : bx <+: byy) : x = y := by
  induction p generalizing bx byy with
  | leaf i a =>
    simp only [PTree.path] at hx hy
    split at hx <;> cases hx
    split at hy <;> cases hy
    exact ‹a = x›.symm.trans ‹a = y›
  | node i z o ihz iho =>
    rcases PTree.path_node_some hx with ⟨rx, rfl, hx'⟩ | ⟨rx, rfl, hx'⟩ <;>
      rcases PTree.path_node_some hy with ⟨ry, rfl, hy'⟩ | ⟨ry, rfl, hy'⟩ <;>
      obtain ⟨hbit, hrest⟩ := List.cons_prefix_cons.mp h
    · exact ihz hx' hy' hrest
    · cases hbit
    · cases hbit
    · exact iho hx' hy' hrest

/-! ## Code words of the tree that the registers hold -/

section
variable {w : Width} {t : Tree} {p : PTree} (h : isTree w t p = true)
include h

/-- A symbol with a leaf has a code word, which ENC finds. -/
theorem code_of_leafAt {x : Symbol} {i : Nat} (hx : t.leafAt x = some i) :
    ∃ bits, p.code x = some bits ∧ codeWord t i = some bits := by
  have hmem := (leafAt_eq_some_iff (isTree_leavesListed h) x i).mp hx
  obtain ⟨bits, hbits⟩ := PTree.code_of_mem_symbols (p := p) (List.mem_map_of_mem hmem)
  obtain ⟨j, hj, hcode⟩ := codeWord_of_code h hbits
  cases hj.symm.trans hx
  exact ⟨bits, hbits, hcode⟩

theorem code_eq_none_of_leafAt {x : Symbol} (hx : t.leafAt x = none) : p.code x = none := by
  cases hcode : p.code x with
  | none => rfl
  | some bits =>
    obtain ⟨i, hi, -⟩ := codeWord_of_code h hcode
    cases hi.symm.trans hx

/-- The tree class (R41) by the tree's form. -/
theorem isTree_kind_isLeaf : t.kind = if p.isLeaf then .single else .full := by
  rw [isTree_kind h, (isTree_sizes h).1]
  simp only [p.isLeaf_iff_leaves_length]

theorem isLeaf_of_kind_single (hk : t.kind = .single) : p.isLeaf = true := by
  by_contra hn
  rw [isTree_kind_isLeaf h, if_neg hn] at hk
  cases hk

theorem isLeaf_of_kind_full (hk : t.kind = .full) : p.isLeaf = false := by
  by_contra hn
  rw [isTree_kind_isLeaf h, if_pos (by simpa using hn)] at hk
  cases hk

end

theorem codeMax_pos (w : Width) : 1 ≤ w.codeMax := by cases w <;> decide

/-- Settles O27: a path is no longer than there are internal nodes, one fewer than leaves. -/
theorem codeWordLengths : Obligations.CodeWordLengths := by
  intro w t p h x
  refine ⟨code_eq_none_of_leafAt h, fun i hi => ?_⟩
  obtain ⟨bits, hcode, hword⟩ := code_of_leafAt h hi
  obtain ⟨hleaves, -⟩ := isTree_sizes h
  have hle := isTree_nleaves_le h
  refine ⟨bits, hcode, hword, fun hk => PTree.code_of_isLeaf (isLeaf_of_kind_single h hk) hcode, fun hk => ?_, ?_⟩
  · rw [hleaves]
    exact PTree.code_length (isLeaf_of_kind_full h hk) hcode
  · cases hp : p.isLeaf with
    | true =>
      rw [PTree.code_of_isLeaf hp hcode]
      exact codeMax_pos w
    | false =>
      obtain ⟨-, hlen⟩ := PTree.code_length hp hcode
      exact hlen.trans (Nat.sub_le_sub_right (hleaves ▸ hle) 1)

/-! ## DEC -/

theorem finish_withInput (i : Input) (s : State) : finish (s.withInput i) = (finish s).withInput i := by
  cases hp : s.pend with
  | true =>
    rw [finish_of_pend hp, finish_of_pend (s := s.withInput i) hp]
    rfl
  | false =>
    rw [finish_of_not_pend hp, finish_of_not_pend (s := s.withInput i) hp]
    rfl

/-- The return leaves the reader alone. -/
theorem inBits_finish (s : State) : inBits (finish s) = inBits s := by
  simp only [inBits, unreadBits, finish_rbuf, finish_rcur, finish_inq]

/-- DEC on a SINGLE tree reads no bit (R202). -/
theorem exec_dec_leaf {s : State} {i : Nat} {x : Symbol} (h : isTree s.params.width s.tree (.leaf i x) = true) :
    exec .dec s = .next (finishWith (x.setWidth 32) s) :=
  (exec_of_startInstr (i := .dec) (startDec_arriveAt h)).trans (runJob_finish _)

/-- DEC on a FULL tree reads the bits of a code word, when they come next, and no bit more (R203). -/
theorem exec_dec_code {s : State} {p : PTree} {x : Symbol} {bits rest : List Bool}
    (h : isTree s.params.width s.tree p = true) (hp : p.isLeaf = false) (hx : p.code x = some bits)
    (hb : inBits s = bits ++ rest) :
    ∃ i : Input, exec .dec s = .next (finishWith (x.setWidth 32) (s.withInput i)) ∧ i.bits = rest ∧
      i.inq = s.inq.drop (bytesFor s bits.length) := by
  cases p with
  | leaf i y => cases hp
  | node j z o =>
    obtain ⟨i, hrun, hrest, hbytes⟩ := runJob_deliverBits (s := s.reading (.walk j) 0)
      (deliverBits_arriveAt hx 0 (isTree_spells h)) hb
    refine ⟨i, (exec_of_startInstr (i := .dec) (startDec_arriveAt h)).trans (hrun.trans ?_), hrest, hbytes⟩
    rw [finishWith, ← finish_withInput, runJob_finish]
    rfl

/-- Settles O29, by the tree's class. -/
theorem decReadsOneCodeWord : Obligations.DecReadsOneCodeWord := by
  intro s
  refine ⟨fun hroot => ?_, fun i x h => exec_dec_leaf h, fun p x bits rest h hp hx hb => ?_⟩
  · have hstart : startInstr .dec s = .moved (raise .emptyTree 0 s) := by simp only [startInstr, startDec, hroot]
    exact (exec_of_startInstr hstart).trans (runJob_raise ..)
  · obtain ⟨i, hexec, hrest, hbytes⟩ := exec_dec_code h hp hx hb
    exact ⟨i.rbuf, i.rcur, i.inq, hexec, hrest, hbytes⟩

/-- Settles O28, by the paths of the tree and what DEC reads of one. -/
theorem codeWordsArePrefixFree : Obligations.CodeWordsArePrefixFree := by
  intro s p h hk
  have hp := isLeaf_of_kind_full h hk
  refine ⟨fun x y bx byy hx hy => ?_, fun x bx rest hx hb => ?_⟩
  · rw [PTree.code_eq_path hp] at hx hy
    exact PTree.eq_of_path_prefix hx hy
  · obtain ⟨i, hexec, hrest, -⟩ := exec_dec_code h hp hx hb
    exact ⟨_, hexec, finish_result _, (inBits_finish _).trans hrest⟩

end Sys2Proof.Machine
end

section
/-! PROOF. As many DECs as ENCs give the symbols back (spec/42_encode_decode.md R205): what a sequence of ENCs and a FLUSH
leave in OUTQ, and what DECs read of it. -/

namespace Sys2Proof.Machine

/-! ## Writing commands -/

/-- Between commands, or in one that writes. -/
def onlyWrites (s : State) : Prop := s.job = none ∨ ∃ bits, s.job = some (.put bits) ∨ s.job = some (.push bits)

/-- The output bits with those that the command in progress has still to write. -/
def bitsOut (s : State) : List Bool :=
  match s.job with
  | some (.put bits) => outBits s ++ bits
  | some (.push bits) => s.outq.flatMap byteBits ++ byteBits s.wbuf ++ bits
  | _ => outBits s

theorem bitsOut_of_job_none {s : State} (h : s.job = none) : bitsOut s = outBits s := by simp only [bitsOut, h]

theorem outBits_of_wn_zero {s : State} (h : s.wn = 0) : outBits s = s.outq.flatMap byteBits := by simp [outBits, h]

theorem outBits_finish (s : State) : outBits (finish s) = outBits s := by
  simp only [outBits, finish_outq, finish_wbuf, finish_wn]

/-- A micro-step of a writing command leaves the bits that go out, and the tree. -/
theorem advance_onlyWrites {j : Job} {s t : State} (hw : onlyWrites s) (hj : s.job = some j) (h : advance j s = .moved t) :
    onlyWrites t ∧ bitsOut t = bitsOut s ∧ t.tree = s.tree := by
  rcases hw with hn | ⟨bits, hput | hpush⟩
  · cases hn.symm.trans hj
  · cases hput.symm.trans hj
    have hs : bitsOut s = outBits s ++ bits := by simp only [bitsOut, hput]
    cases bits with
    | nil =>
      cases h
      refine ⟨.inl (finish_job s), ?_, finish_tree s⟩
      rw [bitsOut_of_job_none (finish_job s), outBits_finish, hs, List.append_nil]
    | cons b bits =>
      cases h
      rcases writeBit_cases b bits s with ⟨hwn, e⟩ | ⟨hwn, e⟩ <;> rw [e, hs]
      · refine ⟨.inr ⟨bits, .inr rfl⟩, ?_, rfl⟩
        have hbyte := (outBits_of_wn_zero rfl).symm.trans (outBits_pushed b none hwn)
        rw [List.flatMap_append, List.flatMap_singleton] at hbyte
        show _ ++ byteBits (setBit s.wbuf (7 - s.wn.val) b) ++ bits = _
        rw [hbyte, List.append_assoc, List.singleton_append]
      · refine ⟨.inr ⟨bits, .inl rfl⟩, ?_, rfl⟩
        refine (congrArg (· ++ bits) (outBits_written b (some (.put bits)) hwn)).trans ?_
        rw [List.append_assoc, List.singleton_append]
  · cases hpush.symm.trans hj
    obtain ⟨-, rfl⟩ := outPush_moved h
    refine ⟨.inr ⟨bits, .inl rfl⟩, ?_, rfl⟩
    simp [bitsOut, hpush, outBits]

/-- So does a run of one. -/
theorem runJob_onlyWrites {s t : State} (h : runJob s = .next t) : onlyWrites s → bitsOut t = bitsOut s ∧ t.tree = s.tree := by
  refine runJob_induction (P := fun s t => onlyWrites s → bitsOut t = bitsOut s ∧ t.tree = s.tree)
    (fun _ _ _ => ⟨rfl, rfl⟩) (fun _ _ _ _ _ => ⟨rfl, rfl⟩) (fun s j u t hj ha _ ih hw => ?_) h
  obtain ⟨hwu, hbits, htree⟩ := advance_onlyWrites hw hj ha
  obtain ⟨hbits', htree'⟩ := ih hwu
  exact ⟨hbits'.trans hbits, htree'.trans htree⟩

/-! ## Commands in a row -/

/-- The state in which a sequence of commands has the next one issued. -/
def State.issuing (i : Instr) (s : State) : State := { s with mode := .busy, cmd := encode i, job := none }

theorem runCommands_cons_of_next {i : Instr} {is : List Instr} {s u : State} (h : exec i (s.issuing i) = .next u)
    (hm : u.mode = .idle) : runCommands (i :: is) s = runCommands is u := by
  rw [State.issuing] at h
  simp only [runCommands, h, hm, if_true]

theorem runCommands_cons_some {i : Instr} {is : List Instr} {s t : State} (h : runCommands (i :: is) s = some t) :
    ∃ u, exec i (s.issuing i) = .next u ∧ u.mode = .idle ∧ runCommands is u = some t := by
  unfold runCommands at h
  split at h
  · split at h
    · exact ⟨_, ‹_›, ‹_›, h⟩
    · cases h
  · cases h
  · cases h

/-- A command that comes to its end goes from its first micro-step to a state without transient state. -/
theorem exec_idle {i : Instr} {s t : State} (h : exec i (s.issuing i) = .next t) (hm : t.mode = .idle) :
    ∃ u, startInstr i (s.issuing i) = .moved u ∧ runJob u = .next t ∧ t.job = none := by
  obtain ⟨u, hu, hrun⟩ := exec_next h
  refine ⟨u, hu, hrun, ?_⟩
  have hin := inCommand_of_runJob (inCommand_of_ends_or_goes_on rfl (startInstr_mode hu)) hrun
  simpa [inCommand, hm] using hin

/-- A command that raises does not come to its end. -/
theorem not_idle_of_raise {e : ErrorCode} {i : Word} {s t : State} (h : runJob (raise e i s) = .next t) :
    t.mode ≠ .idle := by
  rw [runJob_raise] at h
  cases h
  simp

/-! ## ENC and FLUSH -/

/-- ENC's first micro-step raises, or it has found the code word (R201). -/
theorem startInstr_enc_cases {s : State} {p : PTree} (h : isTree s.params.width s.tree p = true) (x : Symbol) :
    (∃ e i, startInstr (.enc x) s = .moved (raise e i s)) ∨
    ∃ bits, p.code x = some bits ∧ startInstr (.enc x) s = .moved { s with job := some (.put bits) } := by
  cases hok : symbolOk s.params.width x with
  | false => exact .inl ⟨_, _, startInstr_outOfRange hok⟩
  | true =>
    cases hx : s.tree.leafAt x with
    | none => exact .inl ⟨_, _, startInstr_enc_unknown (of_decide_eq_true hok) hx⟩
    | some i =>
      obtain ⟨bits, hcode, hword⟩ := code_of_leafAt h hx
      refine .inr ⟨bits, hcode, ?_⟩
      simp only [startInstr, startEnc, hok, checkRange_true, encBody, hx, hword]

/-- ENC comes to its end only with a code word, which it appends to the output bits. -/
theorem exec_enc_idle {s t : State} {p : PTree} {x : Symbol} (h : isTree s.params.width s.tree p = true)
    (hexec : exec (.enc x) (s.issuing (.enc x)) = .next t) (hm : t.mode = .idle) :
    ∃ bits, p.code x = some bits ∧ outBits t = outBits s ++ bits ∧ t.tree = s.tree ∧ t.params = s.params := by
  obtain ⟨u, hu, hrun, hjob⟩ := exec_idle hexec hm
  rcases startInstr_enc_cases (s := s.issuing (.enc x)) h x with ⟨e, i, hraise⟩ | ⟨bits, hcode, hput⟩
  · cases hraise.symm.trans hu
    exact absurd hm (not_idle_of_raise hrun)
  · cases hput.symm.trans hu
    obtain ⟨hout, htree⟩ := runJob_onlyWrites hrun (.inr ⟨bits, .inl rfl⟩)
    exact ⟨bits, hcode, (bitsOut_of_job_none hjob).symm.trans hout, htree, (keepsHostSide_of_exec hexec).params⟩

/-- At the OutPush of FLUSH the byte is pushed and the command returns, or it holds. -/
theorem runJob_push_nil (s : State) : runJob { s with job := some (.push []) } =
    if s.outq.length < s.params.outDepth then .next (finish { s with outq := s.outq ++ [s.wbuf], wbuf := 0, wn := 0 })
    else .next { s with job := some (.push []) } := by
  rw [runJob_eq]
  by_cases hroom : s.outq.length < s.params.outDepth
  · simp only [advance, outPush, hroom, if_true]
    rw [runJob_eq]
    simp only [advance, runJob_finish]
    exact congrArg Host.Outcome.next (finish_with_job { s with outq := s.outq ++ [s.wbuf], wbuf := 0, wn := 0 } _)
  · simp only [advance, outPush, hroom, if_false]

/-- FLUSH comes to its end with every output bit in OUTQ, and what fills the last byte behind them. -/
theorem exec_flush_idle {s t : State} (hexec : exec .flush (s.issuing .flush) = .next t) (hm : t.mode = .idle) :
    ∃ pad, t.outq.flatMap byteBits = outBits s ++ pad := by
  obtain ⟨u, hu, hrun, -⟩ := exec_idle hexec hm
  by_cases hwn : s.wn = 0
  · have hend : finish (s.issuing .flush) = u := CoreStep.moved.inj ((if_pos hwn).symm.trans hu)
    rw [← hend, runJob_finish] at hrun
    cases hrun
    exact ⟨[], by rw [finish_outq, List.append_nil, outBits_of_wn_zero hwn]; rfl⟩
  · have hpush : { s.issuing .flush with job := some (.push []) } = u := CoreStep.moved.inj ((if_neg hwn).symm.trans hu)
    rw [← hpush, runJob_push_nil] at hrun
    split at hrun <;> cases hrun
    · refine ⟨(byteBits s.wbuf).drop s.wn.val, ?_⟩
      rw [finish_outq, outBits, List.append_assoc, List.take_append_drop, List.flatMap_append, List.flatMap_singleton]
      rfl
    · cases hm

/-- ENCs in a row and a FLUSH leave the code words in OUTQ, one after the other. -/
theorem runCommands_encode {p : PTree} {xs : List Symbol} : ∀ {s t : State}, isTree s.params.width s.tree p = true →
    runCommands (xs.map .enc ++ [.flush]) s = some t →
    (∀ x ∈ xs, ∃ bits, p.code x = some bits) ∧
      ∃ pad, t.outq.flatMap byteBits = outBits s ++ payloadBits p xs ++ pad := by
  induction xs with
  | nil =>
    intro s t h hrun
    obtain ⟨u, hexec, hm, hu⟩ := runCommands_cons_some hrun
    cases hu
    obtain ⟨pad, hpad⟩ := exec_flush_idle hexec hm
    exact ⟨by simp, pad, by simpa [payloadBits] using hpad⟩
  | cons x xs ih =>
    intro s t h hrun
    obtain ⟨u, hexec, hm, hu⟩ := runCommands_cons_some hrun
    obtain ⟨bits, hcode, hout, htree, hparams⟩ := exec_enc_idle h hexec hm
    obtain ⟨hcodes, pad, hpad⟩ := ih (hparams ▸ htree ▸ h) hu
    refine ⟨List.forall_mem_cons.mpr ⟨⟨bits, hcode⟩, hcodes⟩, pad, ?_⟩
    rw [hpad, hout]
    simp [payloadBits, hcode]

/-! ## DECs in a row -/

/-- The core is back from DEC with the symbol in RESULT. -/
def State.decoded (x : Symbol) (s : State) : State :=
  { s with result := x.setWidth 32, mode := .idle, job := none, cmd := 0 }

/-- One DEC answers a symbol of the tree whose path comes next; on a SINGLE tree it leaves the reader alone. -/
theorem runCommands_dec {s : State} {p : PTree} {x : Symbol} {rest : List Bool} (hs : s.pend = false)
    (h : isTree s.params.width s.tree p = true) (hx : x ∈ p.symbols) (hb : inBits s = decBits p x ++ rest) :
    ∃ i : Input, runCommands [.dec] s = some ((s.decoded x).withInput i) ∧ i.bits = rest ∧
      (p.isLeaf = true → i = s.input) := by
  have hback (i : Input) : finishWith (x.setWidth 32) ((s.issuing .dec).withInput i) = (s.decoded x).withInput i :=
    finish_of_not_pend hs
  cases p with
  | leaf j y =>
    obtain rfl : x = y := by simpa [PTree.symbols, PTree.leaves] using hx
    refine ⟨s.input, ?_, by simpa [decBits, PTree.path, inBits_eq_input_bits] using hb, fun _ => rfl⟩
    exact runCommands_cons_of_next ((exec_dec_leaf (s := s.issuing .dec) h).trans (congrArg _ (hback s.input))) rfl
  | node j z o =>
    obtain ⟨bits, hcode⟩ := PTree.mem_symbols_iff_code.mp hx
    have hpath : (PTree.node j z o).path x = some bits := hcode
    rw [decBits, hpath, Option.getD_some] at hb
    obtain ⟨i, hexec, hrest, -⟩ := exec_dec_code (s := s.issuing .dec) h rfl hcode hb
    exact ⟨i, runCommands_cons_of_next (hexec.trans (congrArg _ (hback i))) rfl, hrest, nofun⟩

/-- As many DECs as there are symbols answer them in order. -/
theorem decodeMany_symbols {p : PTree} {rest : List Bool} {xs : List Symbol} : ∀ {s : State}, s.pend = false →
    isTree s.params.width s.tree p = true → (∀ x ∈ xs, x ∈ p.symbols) → inBits s = xs.flatMap (decBits p) ++ rest →
    ∃ v, decodeMany xs.length s = some (xs.map (·.setWidth 32), v) ∧ (p.isLeaf = true → v.input = s.input) := by
  induction xs with
  | nil => intro s _ _ _ _; exact ⟨s, rfl, fun _ => rfl⟩
  | cons x xs ih =>
    intro s hs h hxs hb
    rw [List.flatMap_cons, List.append_assoc] at hb
    obtain ⟨hx, hxs⟩ := List.forall_mem_cons.mp hxs
    obtain ⟨i, hdec, hrest, hleaf⟩ := runCommands_dec hs h hx hb
    obtain ⟨v, hmany, hleaf'⟩ := ih (s := (s.decoded x).withInput i) hs h hxs hrest
    refine ⟨v, ?_, fun hp => (hleaf' hp).trans (hleaf hp)⟩
    simp only [List.length_cons, decodeMany, hdec, hmany]
    rfl

/-! ## Another tree with the same code words -/

theorem symbols_nodup_of_isTree {w : Width} {t : Tree} {p : PTree} (h : isTree w t p = true) : p.symbols.Nodup := by
  obtain ⟨-, -, -, hnodup, -⟩ := leavesListed_iff.mp (isTree_leavesListed h)
  exact hnodup

/-- The code words tell the symbols, so also whether there is just one. -/
theorem isLeaf_eq_of_code_eq {p q : PTree} (hp : p.symbols.Nodup) (hq : q.symbols.Nodup) (h : ∀ x, q.code x = p.code x) :
    q.isLeaf = p.isLeaf := by
  have hperm : q.symbols.Perm p.symbols := (List.perm_ext_iff_of_nodup hq hp).mpr fun x => by
    rw [PTree.mem_symbols_iff_code, PTree.mem_symbols_iff_code, h]
  have hlen := hperm.length_eq
  rw [PTree.symbols_length, PTree.symbols_length] at hlen
  rw [Bool.eq_iff_iff, q.isLeaf_iff_leaves_length, p.isLeaf_iff_leaves_length, hlen]

/-- Settles O31: the ENCs leave the code words in OUTQ, which begin with the paths that the DECs read. -/
theorem decodeInvertsEncode : Obligations.DecodeInvertsEncode := by
  intro s t u p p' xs h _ hwn hq hrun _ h' hsame hrcur hinq hpend
  obtain ⟨hcodes, pad, hpad⟩ := runCommands_encode h hrun
  have hempty : outBits s = [] := by rw [outBits_of_wn_zero hwn, hq]; rfl
  have hpayload : payloadBits p' xs = payloadBits p xs := by simp only [payloadBits, hsame]
  have hin : inBits u = payloadBits p' xs ++ pad := by
    simp only [inBits, unreadBits, hrcur, hinq, hpad, hempty, hpayload]
    rfl
  have hmem : ∀ x ∈ xs, x ∈ p'.symbols := fun x hx => by
    rw [PTree.mem_symbols_iff_code, hsame]
    exact hcodes x hx
  obtain ⟨rest, hrest⟩ : ∃ rest, inBits u = xs.flatMap (decBits p') ++ rest := by
    rw [flatMap_decBits]
    cases p'.isLeaf
    · exact ⟨pad, hin⟩
    · exact ⟨inBits u, rfl⟩
  obtain ⟨v, hmany, hleaf⟩ := decodeMany_symbols hpend h' hmem hrest
  refine ⟨v, hmany, fun hp => ?_⟩
  have hinput := hleaf ((isLeaf_eq_of_code_eq (symbols_nodup_of_isTree h) (symbols_nodup_of_isTree h') hsame).trans hp)
  exact ⟨(congrArg Input.rcur hinput).trans hrcur, congrArg Input.rbuf hinput, congrArg Input.inq hinput⟩

end Sys2Proof.Machine
end

section
/-! PROOF. No walk leaves the tree (spec/42_encode_decode.md R206; log 11): what the registers hold between two
micro-steps, a tree or RECON's part of one, and that every micro-step of ENC, DEC, SER and RECON finds its nodes there. -/

namespace Sys2Proof.Machine

/-! ## Between two micro-steps -/

/-- The tree registers hold what the command in progress walks on, and the bits it has still to read of a symbol fit. -/
def onTree (s : State) : Prop := treeInv s ∧ ∀ j, s.job = some j → j.inRange s.params.width = true

/-- The machine stays on the tree: the micro-step holds, or it leads to such a state. -/
def CoreStep.staysOnTree (c : CoreStep) : Prop := c = .waiting ∨ ∃ t, c = .moved t ∧ onTree t

theorem staysOnTree_moved {t : State} (h : onTree t) : (CoreStep.moved t).staysOnTree := .inr ⟨t, rfl, h⟩

theorem treeOk_cleared (w : Width) : treeOk w Tree.cleared := .inl rfl

section
variable {s : State}

theorem onTree_of_ended (hj : s.job = none) (ht : treeOk s.params.width s.tree) : onTree s :=
  ⟨by simpa only [treeInv, hj] using ht, fun j h => by simp [hj] at h⟩

theorem onTree_finish (ht : treeOk s.params.width s.tree) : onTree (finish s) :=
  onTree_of_ended (finish_job s) (by simpa using ht)

theorem onTree_raise (ht : treeOk s.params.width s.tree) (e : ErrorCode) (i : Word) : onTree (raise e i s) :=
  onTree_of_ended rfl ht

theorem onTree_raiseRecon (e : ErrorCode) (i : Word) : onTree (raiseRecon e i s) :=
  onTree_of_ended rfl (treeOk_cleared _)

theorem onTree_put (ht : treeOk s.params.width s.tree) (bits : List Bool) : onTree { s with job := some (.put bits) } :=
  ⟨ht, fun j h => by cases h; rfl⟩

theorem onTree_push (ht : treeOk s.params.width s.tree) (bits : List Bool) : onTree { s with job := some (.push bits) } :=
  ⟨ht, fun j h => by cases h; rfl⟩

/-- Inside RECON's loop, at its head. -/
theorem onTree_marker {l n c k : Nat} (h : reconOk s.params.width s.tree l n c) : onTree (s.reading (.marker l n c) k) :=
  ⟨h, fun j hj => by cases hj; rfl⟩

/-- Outside RECON and DEC the invariant says that the registers hold a tree. -/
theorem treeOk_of_onTree (h : onTree s) (hj : ∀ r k, s.job ≠ some (.read r k)) : treeOk s.params.width s.tree := by
  obtain ⟨ht, -⟩ := h
  unfold treeInv at ht
  split at ht
  · exact absurd ‹_› (hj _ _)
  · exact absurd ‹_› (hj _ _)
  · exact absurd ‹_› (hj _ _)
  · exact ht.1
  · exact ht

theorem reading_of_job {r : Reader} {k : Nat} (h : s.job = some (.read r k)) : s.reading r k = s := by
  rw [State.reading, ← h]

end

/-! ## DEC, ENC and SER -/

/-- The walk of DEC stands at a part of the tree. -/
theorem onTree_arriveAt {s : State} {q : PTree} {par : Option Nat} {isz : Bool} (ht : treeOk s.params.width s.tree)
    (hq : spells s.tree par isz q = true) (k : Nat) : onTree (arriveAt q k s) := by
  cases q with
  | leaf i x => exact onTree_finish (s := { s with result := x.setWidth 32 }) ht
  | node i z o =>
    obtain ⟨⟨n, hn, hzero, -⟩, -, -⟩ := spells_node_iff.mp hq
    exact ⟨⟨ht, n, hn, by simp [hzero]⟩, fun j hj => by cases hj; rfl⟩

/-- An internal node of the tree has a part of the tree on each side. -/
theorem sides_of_internal {w : Width} {t : Tree} {i : Nat} {n : Node} (ht : treeOk w t) (hn : nodeAt t i = some n)
    (hzero : n.zero ≠ none) (b : Bool) :
    ∃ q par isz, (if b then n.one else n.zero) = some (PTree.index q) ∧ spells t par isz q = true := by
  rcases ht with rfl | ⟨p, hp⟩
  · simp at hn
  · obtain ⟨q, par, isz, hq, rfl, -⟩ := spells_part (mem_indices_of_nodeAt hp hn) (isTree_spells hp)
    cases q with
    | leaf i x =>
      obtain ⟨m, hm, -, hnone, -⟩ := spells_leaf_iff.mp hq
      cases hm.symm.trans hn
      exact absurd hnone hzero
    | node i z o =>
      obtain ⟨⟨m, hm, hz, ho, -⟩, hqz, hqo⟩ := spells_node_iff.mp hq
      cases hm.symm.trans hn
      cases b
      · exact ⟨z, _, _, hz, hqz⟩
      · exact ⟨o, _, _, ho, hqo⟩

/-- DEC goes down the tree bit by bit. -/
theorem deliver_walk_staysOnTree {s : State} {i : Nat} {n : Node} (ht : treeOk s.params.width s.tree)
    (hn : nodeAt s.tree i = some n) (hzero : n.zero ≠ none) (b : Bool) (k j : Nat) :
    (deliver (.walk i) b k (s.reading (.walk i) j)).staysOnTree := by
  obtain ⟨q, par, isz, hside, hq⟩ := sides_of_internal ht hn hzero b
  rw [deliver_walk hn hside hq]
  exact staysOnTree_moved (onTree_arriveAt ht hq k)

theorem startDec_staysOnTree {s : State} (ht : treeOk s.params.width s.tree) : (startDec s).staysOnTree := by
  rcases id ht with hc | ⟨p, hp⟩
  · have hstart : startDec s = .moved (raise .emptyTree 0 s) := by simp only [startDec, hc]; rfl
    rw [hstart]
    exact staysOnTree_moved (onTree_raise ht _ _)
  · rw [startDec_arriveAt hp]
    exact staysOnTree_moved (onTree_arriveAt ht (isTree_spells hp) 0)

theorem encBody_staysOnTree {s : State} (ht : treeOk s.params.width s.tree) (x : Symbol) :
    (encBody x s).staysOnTree := by
  cases hx : s.tree.leafAt x with
  | none =>
    simp only [encBody, hx]
    exact staysOnTree_moved (onTree_raise ht _ _)
  | some i =>
    rcases id ht with hc | ⟨p, hp⟩
    · simp [hc] at hx
    · obtain ⟨bits, -, hcode⟩ := code_of_leafAt hp hx
      simp only [encBody, hx, hcode]
      exact staysOnTree_moved (onTree_put ht bits)

theorem startSer_staysOnTree {s : State} (ht : treeOk s.params.width s.tree) : (startSer s).staysOnTree := by
  have hshape : ∃ bits, shapeBits s.params.width s.tree = some bits := by
    rcases ht with hc | ⟨p, hp⟩
    · exact ⟨[], by rw [hc]; rfl⟩
    · exact ⟨_, shapeBits_of_isTree hp⟩
  obtain ⟨bits, hbits⟩ := hshape
  simp only [startSer, hbits]
  exact staysOnTree_moved (onTree_put ht bits)

/-! ## RECON -/

/-- The internal nodes among the frames and in their finished trees. -/
def frameInternals (fs : List Frame) : Nat := fs.length + ((doneTrees fs).map PTree.internals).sum

/-- A finished tree has one leaf more than internal nodes, and its frame makes up for it. -/
theorem heldLeaves_length_le (fs : List Frame) : (heldLeaves none fs).length ≤ frameInternals fs := by
  induction fs with
  | nil => exact Nat.le_refl 0
  | cons f fs ih =>
    cases f with
    | inZero i =>
      simp only [heldLeaves, finishedTrees, frameInternals, doneTrees, List.length_cons] at ih ⊢
      omega
    | inOne i z =>
      have := z.internals_add_one
      simp only [heldLeaves, finishedTrees, frameInternals, doneTrees, List.length_cons, Option.toList_none, List.nil_append,
        List.flatMap_cons, List.length_append, List.map_cons, List.sum_cons] at ih ⊢
      omega

/-- RECON's backtracking with a tree just completed: with no slot open it is the tree of the registers, else the frames up
to the next open slot are held, with the same internal nodes. -/
theorem backtrack_of_holdsFrames {w : Width} {t : Tree} {fs : List Frame} : ∀ {p : PTree}, HoldsFrames w t fs (some p) →
    (nextSlot fs = none ∧ ∃ q, isTree w t q = true) ∨
    ∃ c gs, nextSlot fs = some c ∧ parentOf gs = some c ∧ HoldsFrames w t gs none ∧
      frameInternals gs = frameInternals fs + p.internals := by
  induction fs with
  | nil => intro p h; exact .inl ⟨rfl, p, isTree_of_holdsFrames h⟩
  | cons f fs ih =>
    intro p h
    cases f with
    | inZero i =>
      refine .inr ⟨i, .inOne i p :: fs, rfl, rfl, holdsFrames_open h, ?_⟩
      simp only [frameInternals, doneTrees, List.length_cons, List.map_cons, List.sum_cons]
      omega
    | inOne i z =>
      rcases ih (holdsFrames_close h) with ⟨hslot, hq⟩ | ⟨c, gs, hslot, hc, hgs, hint⟩
      · exact .inl ⟨hslot, hq⟩
      · refine .inr ⟨c, gs, hslot, hc, hgs, hint.trans ?_⟩
        simp only [frameInternals, doneTrees, PTree.internals, List.length_cons, List.map_cons, List.sum_cons]
        omega

/-- The head of RECON's loop by its frames, the innermost one apart. -/
theorem reconOk_iff {w : Width} {t : Tree} {l n c : Nat} : reconOk w t l n c ↔
    ∃ f fs, f.index = c ∧ HoldsFrames w t (f :: fs) none ∧ n = frameInternals (f :: fs) ∧ 2 ≤ l ∧ l ≤ w.alphabet ∧
      t.nleaves < l ∧ n < l := by
  constructor
  · rintro ⟨fs, h⟩
    obtain ⟨hc, hholds, hrest⟩ := reconFrames_iff.mp h
    cases fs with
    | nil => cases hc
    | cons f fs => exact ⟨f, fs, Option.some.inj hc, hholds, hrest⟩
  · rintro ⟨f, fs, rfl, hholds, hrest⟩
    exact ⟨f :: fs, reconFrames_iff.mpr ⟨rfl, hholds, hrest⟩⟩

/-- RECON goes on at an open slot: fewer leaves than internal nodes and one stand, so not yet L. -/
theorem reconOk_of_frames {w : Width} {t : Tree} {l c : Nat} {gs : List Frame} (hc : parentOf gs = some c)
    (h : HoldsFrames w t gs none) (h2 : 2 ≤ l) (hl : l ≤ w.alphabet) (hint : frameInternals gs < l) :
    reconOk w t l (frameInternals gs) c := by
  have hle := heldLeaves_length_le gs
  rw [← nleaves_of_holdsFrames h] at hle
  exact ⟨gs, reconFrames_iff.mpr ⟨hc, h, rfl, h2, hl, by omega, hint⟩⟩

/-- RECON's bit 0 finds the open slot for its node. -/
theorem deliver_internal_staysOnTree {s : State} {l n c : Nat} (h : reconOk s.params.width s.tree l n c) (k j : Nat) :
    (deliver (.marker l n c) false k (s.reading (.marker l n c) j)).staysOnTree := by
  obtain ⟨f, fs, rfl, hholds, hn, h2, hl, -, hlt⟩ := reconOk_iff.mp h
  by_cases hlast : n = l - 1
  · simp only [deliver, Bool.false_eq_true, if_false, reconInternal, hlast, if_true]
    exact staysOnTree_moved (onTree_raiseRecon _ _)
  · obtain ⟨t, ht, -, hd⟩ := deliver_internal hholds hlast k j
    have hint : n + 1 = frameInternals (.inZero s.tree.nfree :: f :: fs) := by
      rw [hn]
      simp only [frameInternals, doneTrees, List.length_cons]
      omega
    rw [hd, hint]
    exact staysOnTree_moved (onTree_marker (s := { s with tree := t }) (reconOk_of_frames rfl ht h2 hl (by omega)))

/-- A leaf of a new symbol finds the open slot, and the backtracking its way up. -/
theorem reconLeaf_attached {w : Width} {s : State} {f : Frame} {fs : List Frame} (h : HoldsFrames w s.tree (f :: fs) none)
    {x : Symbol} (hx : x.toNat < w.alphabet) (hnew : s.tree.leafAt x = none) (l n k : Nat) :
    ∃ t, HoldsFrames w t (f :: fs) (some (.leaf s.tree.nfree x)) ∧
      climb t t.nfree (some f.index) = some (nextSlot (f :: fs)) ∧
      reconLeaf l n f.index x k s = reconNext l n f.index k { s with tree := t } := by
  obtain ⟨u, hattach, hu⟩ := attach_newNode h x
  have ht := holdsFrames_leaf h hu hx fun hmem => (leafAt_ne_none_iff h.listed x).mpr hmem hnew
  have hlen : (f :: fs).length ≤ (listLeaf x s.tree.nfree u).nfree := by
    rw [ht.nfree, heldIndices, List.length_append, List.length_map]
    omega
  refine ⟨_, ht, climb_of_spine ht.spine hlen, ?_⟩
  simp only [reconLeaf, hnew, ne_eq, not_true, if_false, hattach]

/-- After a leaf RECON ends, with an error or a tree, or it goes on at the next open slot. -/
theorem reconLeaf_staysOnTree {s : State} {l n c : Nat} (h : reconOk s.params.width s.tree l n c) {x : Symbol}
    (hx : x.toNat < s.params.width.alphabet) (k : Nat) : (reconLeaf l n c x k s).staysOnTree := by
  obtain ⟨f, fs, rfl, hholds, hn, h2, hl, -, hlt⟩ := reconOk_iff.mp h
  by_cases hnew : s.tree.leafAt x = none
  · obtain ⟨t, ht, hclimb, hnext⟩ := reconLeaf_attached hholds hx hnew l n k
    rw [hnext]
    rcases backtrack_of_holdsFrames ht with ⟨hslot, q, hq⟩ | ⟨c, gs, hslot, hc, hgs, hint⟩
    · simp only [reconNext, hclimb, hslot]
      split
      · exact staysOnTree_moved (onTree_raiseRecon _ _)
      · exact staysOnTree_moved (onTree_finish (s := { s with tree := t }) (.inr ⟨q, hq⟩))
    · have hsame : n = frameInternals gs := by rw [hint, hn]; rfl
      have hok : reconOk s.params.width t l n c := by
        rw [hsame]
        exact reconOk_of_frames hc hgs h2 hl (by omega)
      obtain ⟨-, -, -, -, -, -, -, hleaves, -⟩ := reconOk_iff.mp hok
      simp only [reconNext, hclimb, hslot, if_pos hleaves]
      exact staysOnTree_moved (onTree_marker (s := { s with tree := t }) hok)
  · simp only [reconLeaf, ne_eq, hnew, not_false_eq_true, if_true]
    exact staysOnTree_moved (onTree_raiseRecon _ _)

/-- One more bit of a symbol, with one bit fewer to come. -/
theorem shiftIn_lt_of_symbolPart {w : Width} {left : Nat} {acc : Symbol} (h : symbolPart w left acc = true) (b : Bool) :
    (shiftIn acc b).toNat < 2 ^ (w.bits - (left - 1)) := by
  obtain ⟨h1, hle, hacc⟩ := of_decide_eq_true h
  have hpow : 2 ^ (w.bits - (left - 1)) = 2 * 2 ^ (w.bits - left) := by
    rw [← Nat.pow_succ', show w.bits - (left - 1) = w.bits - left + 1 by omega]
  have h16 : 2 ^ (w.bits - (left - 1)) ≤ 2 ^ 16 :=
    Nat.pow_le_pow_right (by omega) ((Nat.sub_le _ _).trans (width_bits_le w))
  have hb := b.toNat_le
  rw [shiftIn_toNat acc b (by omega)]
  omega

theorem symbolPart_shiftIn {w : Width} {left : Nat} {acc : Symbol} (h : symbolPart w left acc = true) (hleft : ¬ left ≤ 1)
    (b : Bool) : symbolPart w (left - 1) (shiftIn acc b) = true := by
  have hlt := shiftIn_lt_of_symbolPart h b
  obtain ⟨-, hle, -⟩ := of_decide_eq_true h
  exact decide_eq_true ⟨by omega, by omega, hlt⟩

/-- The last bit of a symbol completes a symbol below N. -/
theorem symbol_of_symbolPart {w : Width} {left : Nat} {acc : Symbol} (h : symbolPart w left acc = true) (hleft : left ≤ 1)
    (b : Bool) : (shiftIn acc b).toNat < w.alphabet := by
  have hlt := shiftIn_lt_of_symbolPart h b
  rwa [show left - 1 = 0 by omega, Nat.sub_zero] at hlt

/-- No bit is to read of a symbol yet: all W bits of it are to come. -/
theorem symbolPart_none (w : Width) : symbolPart w w.bits 0 = true := by cases w <;> decide

theorem reconBody_staysOnTree {s : State} {l : Nat} (hl : l ≤ s.params.width.alphabet) : (reconBody l s).staysOnTree := by
  unfold reconBody
  split
  · exact staysOnTree_moved (onTree_finish (s := clearTree s) (treeOk_cleared _))
  · split
    · exact staysOnTree_moved ⟨rfl, fun j hj => by cases hj; exact symbolPart_none _⟩
    · exact staysOnTree_moved (onTree_marker (s := { s with tree := { newNode 0 0 Tree.cleared with root := some 0 } })
        (reconOk_of_frames (gs := [.inZero 0]) rfl (holdsFrames_root _) (by omega) hl (show 1 < l by omega)))

/-! ## Every micro-step -/

/-- A bit, whoever reads it. -/
theorem deliver_staysOnTree {s : State} {r : Reader} {j : Nat} (h : onTree s) (hj : s.job = some (.read r j)) (b : Bool)
    (k : Nat) : (deliver r b k s).staysOnTree := by
  obtain ⟨ht, hrange⟩ := h
  have hin := hrange _ hj
  simp only [treeInv, hj] at ht
  cases r with
  | field left acc =>
    obtain ⟨h1, h32⟩ := of_decide_eq_true hin
    simp only [deliver]
    split
    · exact staysOnTree_moved (onTree_finish (s := { s with result := shiftIn acc b }) ht)
    · exact staysOnTree_moved ⟨ht, fun j hj => by cases hj; exact decide_eq_true ⟨by omega, by omega⟩⟩
  | walk i =>
    obtain ⟨hok, n, hn, hzero⟩ := ht
    rw [← reading_of_job hj]
    exact deliver_walk_staysOnTree hok hn hzero b k j
  | single left acc =>
    simp only [deliver]
    split
    · have htree := isTree_singleTree (symbol_of_symbolPart hin ‹_› b)
      rw [ht]
      exact staysOnTree_moved (onTree_finish (s := { s with tree := singleTree (shiftIn acc b) Tree.cleared })
        (.inr ⟨_, htree⟩))
    · exact staysOnTree_moved ⟨ht, fun j hj => by cases hj; exact symbolPart_shiftIn hin ‹_› b⟩
  | marker l n c =>
    cases b with
    | false =>
      rw [← reading_of_job hj]
      exact deliver_internal_staysOnTree ht k j
    | true => exact staysOnTree_moved ⟨ht, fun j hj => by cases hj; exact symbolPart_none _⟩
  | leaf l n c left acc =>
    simp only [deliver]
    split
    · exact reconLeaf_staysOnTree ht (symbol_of_symbolPart hin ‹_› b) k
    · exact staysOnTree_moved ⟨ht, fun j hj => by cases hj; exact symbolPart_shiftIn hin ‹_› b⟩

/-- At the end of the stream RECON leaves no tree, and the other readers the one there is. -/
theorem onTree_endOfStream {s : State} {r : Reader} {k : Nat} (h : onTree s) (hj : s.job = some (.read r k)) :
    onTree (endOfStream r k s) := by
  obtain ⟨ht, -⟩ := h
  simp only [treeInv, hj] at ht
  rw [endOfStream_eq]
  cases r with
  | field left acc => exact onTree_raise (s := s) ht _ _
  | walk i => exact onTree_raise (s := s) ht.1 _ _
  | single left acc => exact onTree_raiseRecon ..
  | marker l n c => exact onTree_raiseRecon ..
  | leaf l n c left acc => exact onTree_raiseRecon ..

theorem readBit_staysOnTree {s : State} {r : Reader} {k : Nat} (h : onTree s) (hj : s.job = some (.read r k)) :
    (readBit r k s).staysOnTree := by
  rcases readBit_cases r k s with ⟨b, q, -, -, e⟩ | ⟨-, -, -, e⟩ | ⟨-, -, -, e⟩ | ⟨c, -, e⟩ <;> rw [e]
  · exact staysOnTree_moved h
  · exact staysOnTree_moved (onTree_endOfStream h hj)
  · exact .inl rfl
  · exact deliver_staysOnTree (s := { s with rcur := nextCursor c }) h hj _ _

theorem advance_staysOnTree {s : State} {j : Job} (h : onTree s) (hj : s.job = some j) : (advance j s).staysOnTree := by
  have hok (hread : ∀ r k, j ≠ .read r k) : treeOk s.params.width s.tree :=
    treeOk_of_onTree h fun r k hr => hread r k (Option.some.inj (hj.symm.trans hr))
  cases j with
  | put bits =>
    have ht := hok (by simp)
    cases bits with
    | nil => exact staysOnTree_moved (onTree_finish ht)
    | cons b bits =>
      refine staysOnTree_moved ?_
      rcases writeBit_cases b bits s with ⟨-, e⟩ | ⟨-, e⟩ <;> rw [e]
      · exact onTree_push (s := { s with wbuf := _ }) ht bits
      · exact onTree_put (s := { s with wbuf := _, wn := _ }) ht bits
  | push bits =>
    simp only [advance, outPush]
    split
    · exact staysOnTree_moved (onTree_put (s := { s with outq := _, wbuf := _, wn := _ }) (hok (by simp)) bits)
    · exact .inl rfl
  | emptyInput => exact staysOnTree_moved ⟨hok (by simp), fun j hj => by cases hj; rfl⟩
  | reopenInput => exact staysOnTree_moved (onTree_finish (s := { s with inClosed := false }) (hok (by simp)))
  | read r k => exact readBit_staysOnTree h hj

theorem checkRange_staysOnTree {s : State} {ok : Bool} {body : State → CoreStep} (ht : treeOk s.params.width s.tree)
    (hbody : ok = true → (body s).staysOnTree) : (checkRange ok body s).staysOnTree := by
  cases ok
  · exact staysOnTree_moved (onTree_raise ht _ _)
  · exact hbody rfl

/-- Every command starts on the tree there is. -/
theorem startInstr_staysOnTree {s : State} (i : Instr) (ht : treeOk s.params.width s.tree)
    (hf : freqWf s.params.width s.freq = true) : (startInstr i s).staysOnTree := by
  cases i with
  | wbits n v =>
    rw [startInstr, startWbits]
    exact checkRange_staysOnTree ht fun _ => staysOnTree_moved (onTree_put ht _)
  | flush =>
    simp only [startInstr, startFlush]
    split
    · exact staysOnTree_moved (onTree_finish ht)
    · exact staysOnTree_moved (onTree_push ht [])
  | rbits n =>
    rw [startInstr, startRbits]
    refine checkRange_staysOnTree ht fun hok => staysOnTree_moved ⟨ht, fun j hj => ?_⟩
    cases hj
    exact hok
  | rrst => exact staysOnTree_moved ⟨ht, fun j hj => by cases hj; rfl⟩
  | clrf => exact staysOnTree_moved (onTree_finish (s := { s with freq := [] }) ht)
  | setf x c =>
    rw [startInstr, startSetf]
    exact checkRange_staysOnTree ht fun _ => staysOnTree_moved (onTree_finish (s := { s with freq := _ }) ht)
  | getf x =>
    rw [startInstr, startGetf]
    exact checkRange_staysOnTree ht fun _ => staysOnTree_moved (onTree_finish (s := { s with result := _ }) ht)
  | build => exact staysOnTree_moved (onTree_finish (s := { s with tree := buildTree s.freq }) (treeOk_buildTree hf))
  | clrt => exact staysOnTree_moved (onTree_finish (s := clearTree s) (treeOk_cleared _))
  | nleaf => exact staysOnTree_moved (onTree_finish (s := { s with result := _ }) ht)
  | enc x => exact checkRange_staysOnTree ht fun _ => encBody_staysOnTree ht x
  | dec => exact startDec_staysOnTree ht
  | ser => exact startSer_staysOnTree ht
  | recon l => exact checkRange_staysOnTree ht fun hok => reconBody_staysOnTree (of_decide_eq_true hok)

/-! ## Every step -/

/-- A run never walks off the tree: by its micro-steps. -/
theorem runJob_staysOnTree {s : State} (h : onTree s) : ∃ t, runJob s = .next t ∧ onTree t := by
  induction hb : stepBound s using Nat.strong_induction_on generalizing s with
  | _ b ih =>
    rw [runJob_eq]
    cases hj : s.job with
    | none => exact ⟨s, rfl, h⟩
    | some j =>
      rcases advance_staysOnTree h hj with hwait | ⟨u, hu, hon⟩
      · simp only [hwait]
        exact ⟨s, rfl, h⟩
      · simp only [hu]
        exact ih _ (hb ▸ advance_lowers hj hu) hon rfl

theorem exec_staysOnTree {s : State} (i : Instr) (ht : treeOk s.params.width s.tree)
    (hf : freqWf s.params.width s.freq = true) : ∃ t, exec i s = .next t ∧ onTree t := by
  rcases startInstr_staysOnTree i ht hf with hwait | ⟨u, hu, hon⟩
  · exact absurd hwait (startInstr_ne_waiting i s)
  · rw [exec_of_startInstr hu]
    exact runJob_staysOnTree hon

section
variable {s : State} (hm : machineOk s = true) (ht : treeInv s)
include hm ht

theorem onTree_of_machineOk : onTree s := by
  obtain ⟨-, -, -, -, -, hjob⟩ := machineOk_iff.mp hm
  refine ⟨ht, fun j hj => ?_⟩
  simp only [jobLegal, hj, Bool.and_eq_true] at hjob
  exact hjob.1

/-- A turn that runs the command in progress stays on the tree. -/
theorem runTurn_staysOnTree : ∃ t, runTurn s = .next t ∧ onTree t := by
  have hon := onTree_of_machineOk hm ht
  by_cases hb : s.mode = .busy
  · cases hj : s.job with
    | some j =>
      rw [runTurn_begun hb hj]
      exact runJob_staysOnTree hon
    | none =>
      have hok := treeOk_of_onTree hon (by simp [hj])
      cases hd : decode s.cmd with
      | ok i =>
        obtain ⟨-, hmem, -⟩ := machineOk_iff.mp hm
        rw [runTurn_issued hb hj hd]
        exact exec_staysOnTree i hok (memory_wf_iff.mp hmem).1
      | error e =>
        obtain ⟨code, info, he⟩ := raiseDecode_eq e s
        rw [runTurn_illegal hb hj hd, he]
        exact ⟨_, rfl, onTree_raise hok code info⟩
  · exact ⟨s, runTurn_not_busy hb, hon⟩

/-- So does a turn of one micro-step. -/
theorem coreTurn_staysOnTree : ∃ t, coreTurn s = .next t ∧ onTree t := by
  have hon := onTree_of_machineOk hm ht
  by_cases hb : s.mode = .busy
  · have hmicro : (microStep s).staysOnTree := by
      cases hj : s.job with
      | some j =>
        simp only [microStep, hj]
        exact advance_staysOnTree hon hj
      | none =>
        have hok := treeOk_of_onTree hon (by simp [hj])
        simp only [microStep, hj, beginCommand]
        split
        · obtain ⟨-, hmem, -⟩ := machineOk_iff.mp hm
          exact startInstr_staysOnTree _ hok (memory_wf_iff.mp hmem).1
        · obtain ⟨code, info, he⟩ := raiseDecode_eq ‹_› s
          rw [he]
          exact staysOnTree_moved (onTree_raise hok code info)
    rcases hmicro with hwait | ⟨t, hmoved, ht'⟩
    · exact ⟨s, by rw [coreTurn, if_pos hb, hwait], hon⟩
    · exact ⟨t, by rw [coreTurn, if_pos hb, hmoved], ht'⟩
  · exact ⟨s, coreTurn_not_busy hb, hon⟩

end

/-- A host transaction is answered, or it is an access without a meaning (R71). -/
theorem hostTurn_next_or_refused (op : HostOp) (s : State) : (∃ t, hostTurn op s = .next t) ∨
    (hostTurn op s = .refused .accessWithoutMeaning ∧
      ((∃ addr size v, op = .write addr size v ∧ accessed s.params addr size = none) ∨
        ∃ addr size, op = .read addr size ∧ accessed s.params addr size = none)) := by
  cases op with
  | resetInput => exact .inl ⟨_, rfl⟩
  | write addr size v =>
    cases hacc : accessed s.params addr size with
    | none => exact .inr ⟨by simp only [hostTurn, hacc], .inl ⟨addr, size, v, rfl, hacc⟩⟩
    | some r => exact .inl ⟨writeReg r v s, by simp only [hostTurn, hacc]⟩
  | read addr size =>
    cases hacc : accessed s.params addr size with
    | none => exact .inr ⟨by simp only [hostTurn, hacc], .inr ⟨addr, size, rfl, hacc⟩⟩
    | some r => exact .inl ⟨{ readEffect r s with seen := s.seen ++ [readValue r s] }, by simp only [hostTurn, hacc]⟩

/-- Settles O59: every micro-step keeps `onTree`, so no run faults, and a host transaction never does. -/
theorem noStepWalksOffTheTree : Obligations.NoStepWalksOffTheTree := by
  intro s hm ht
  match hag : s.agenda with
  | [] =>
    obtain ⟨t, hrun, -⟩ := runTurn_staysOnTree hm ht
    exact .inl ⟨t, (step_of_agenda_nil hag).trans hrun⟩
  | .run :: rest =>
    obtain ⟨t, hrun, -⟩ := runTurn_staysOnTree (s := { s with agenda := rest }) hm ht
    exact .inl ⟨t, (step_of_run hag).trans hrun⟩
  | .core :: rest =>
    obtain ⟨t, hcore, -⟩ := coreTurn_staysOnTree (s := { s with agenda := rest }) hm ht
    exact .inl ⟨t, (step_of_core hag).trans hcore⟩
  | .host op :: rest =>
    rw [step_of_host hag]
    rcases hostTurn_next_or_refused op { s with agenda := rest } with hnext | ⟨hrefused, haccess⟩
    · exact .inl hnext
    · exact .inr ⟨hrefused, op, rest, rfl, haccess⟩

end Sys2Proof.Machine
end

section
/-! PROOF. SER writes the shape of the tree, RECON rebuilds a tree of it, and one after the other they give a tree of the
same shape back (spec/43_shape.md R231 to R237). -/

namespace Sys2Proof.Machine

/-! ## SER -/

/-- SER's first micro-step has the bits of the shape to write (R232). -/
theorem startInstr_ser {s : State} {bits : List Bool} (h : shapeBits s.params.width s.tree = some bits) :
    startInstr .ser s = .moved { s with job := some (.put bits) } := by simp only [startInstr, startSer, h]

theorem shapeBits_of_root_none {w : Width} {t : Tree} (h : t.root = none) : shapeBits w t = some [] := by
  simp only [shapeBits, h]

/-- With room for the shape SER appends it to the output bits and returns. -/
theorem exec_ser {s : State} {bits : List Bool} (h : shapeBits s.params.width s.tree = some bits)
    (hroom : hasRoom s bits.length) : exec .ser s = .next (finish (putBits bits s)) :=
  (exec_of_startInstr (startInstr_ser h)).trans (runJob_put hroom)

/-- On an EMPTY tree SER writes nothing, whatever OUTQ holds. -/
theorem exec_ser_empty {s : State} (h : s.tree.root = none) : exec .ser s = .next (finish s) := by
  rw [exec_of_startInstr (startInstr_ser (shapeBits_of_root_none h)), runJob_eq]
  simp only [advance, runJob_finish, finish_with_job]

/-- Settles O32: SER has the bits of the shape to write, and there is room. -/
theorem serAppendsTheShape : Obligations.SerAppendsTheShape := by
  refine fun s => ⟨exec_ser_empty, fun p h hroom => ?_⟩
  obtain ⟨hwn, houtq⟩ := putBits_counts (p.shape s.params.width) s
  refine ⟨(putBits (p.shape s.params.width) s).outq, (putBits (p.shape s.params.width) s).wbuf,
    (putBits (p.shape s.params.width) s).wn, ?_⟩
  rw [← putBits_frame]
  exact ⟨exec_ser (shapeBits_of_isTree h) hroom, outBits_putBits .., hwn, houtq⟩

/-! ## ShapeLen -/

theorem shapeLen_eq (w : Width) (l : Nat) :
    w.shapeLen l = if l = 0 then 0 else if l = 1 then w.bits else l * (w.bits + 2) - 2 := by
  match l with
  | 0 => rfl
  | 1 => rfl
  | l + 2 => simp [Width.shapeLen]

/-- No tree has a longer shape than one with all N leaves (R233). -/
theorem shapeLen_le_shapeMax {w : Width} {l : Nat} (h : l ≤ w.alphabet) : w.shapeLen l ≤ w.shapeMax := by
  match l with
  | 0 => exact Nat.zero_le _
  | 1 => cases w <;> decide
  | l + 2 => exact Nat.sub_le_sub_right (Nat.mul_le_mul_right _ h) 2

/-- Settles O33: `PTree.shape_length`, and the tree has at most N leaves. -/
theorem shapeHasShapeLenBits : Obligations.ShapeHasShapeLenBits := by
  intro w t ht
  rw [← shapeLen_eq]
  rcases ht with rfl | ⟨p, h⟩
  · exact ⟨[], rfl, rfl, Nat.zero_le _⟩
  · obtain ⟨hleaves, -⟩ := isTree_sizes h
    have hlen : (p.shape w).length = w.shapeLen t.nleaves := by rw [p.shape_length, p.symbols_length, hleaves]
    exact ⟨p.shape w, shapeBits_of_isTree h, hlen, hlen ▸ shapeLen_le_shapeMax (isTree_nleaves_le h)⟩

/-! ## RECON of a shape -/

/-- RECON 0 clears the tree and reads no bit. -/
theorem exec_recon_zero (s : State) : exec (.recon 0) s = .next (finish (clearTree s)) :=
  (exec_of_startInstr rfl).trans (runJob_finish _)

theorem PTree.isLeaf_of_plain_eq {p q : PTree} (h : p.plain = q.plain) : p.isLeaf = q.isLeaf := by
  rw [← p.plain_isLeaf, h, q.plain_isLeaf]

theorem PTree.shape_of_plain_eq {p q : PTree} (h : p.plain = q.plain) (w : Width) : p.shape w = q.shape w := by
  rw [← p.plain_shape, h, q.plain_shape]

theorem PTree.code_of_plain_eq {p q : PTree} (h : p.plain = q.plain) (x : Symbol) : p.code x = q.code x := by
  rw [← p.plain_code, h, q.plain_code]

/-- A command's first micro-step leaves the reader as it is, but RRST's. -/
theorem input_of_startInstr {i : Instr} (hi : i ≠ .rrst) {s u : State} (h : startInstr i s = .moved u) : u.input = s.input :=
  congrArg (fun c : Channels => Input.mk c.rbuf c.rcur c.inq) (channels_of_startInstr hi h)

/-- RECON of the shape of a tree reads the shape and no bit more, and returns with a tree like it. -/
theorem exec_recon_shape {s : State} {p : PTree} {rest : List Bool} {l : Word} (hl : l.toNat = p.symbols.length)
    (hnodup : p.symbols.Nodup) (hlt : ∀ x ∈ p.symbols, x.toNat < s.params.width.alphabet)
    (hb : inBits s = p.shape s.params.width ++ rest) :
    ∃ (t : Tree) (i : Input) (p' : PTree), exec (.recon l) s = .next (finish ({ s with tree := t }.withInput i)) ∧
      i.bits = rest ∧ i.inq = s.inq.drop (bytesFor s (p.shape s.params.width).length) ∧
      isTree s.params.width t p' = true ∧ p'.plain = p.plain ∧ ∀ i n, nodeAt t i = some n → n.count = 0 := by
  obtain ⟨u, t, p', hu, -, hdel, htree, hplain, hcounts⟩ := recon_shape hl hnodup hlt
  have hinput := input_of_startInstr (by simp) hu
  obtain ⟨i, hrun, hrest, hbytes⟩ := runJob_deliverBits hdel ((congrArg Input.bits hinput).trans hb)
  refine ⟨t, i, p', (exec_of_startInstr hu).trans (hrun.trans ?_), hrest, ?_, htree, hplain, hcounts⟩
  · rw [← finish_withInput, runJob_finish]
  · rw [hbytes, bytesFor_eq_input_bytesFor, hinput, show u.inq = s.inq from congrArg Input.inq hinput]
    rfl

/-- Settles O34: what RECON of a shape leaves is a tree like the one the shape is of. -/
theorem reconRebuildsTheShape : Obligations.ReconRebuildsTheShape := by
  refine ⟨exec_recon_zero, fun s p rest l hl hnodup hlt hb => ?_⟩
  obtain ⟨t, i, p', hexec, hrest, hbytes, htree, hplain, hcounts⟩ := exec_recon_shape hl hnodup hlt hb
  refine ⟨t, i.rbuf, i.rcur, i.inq, hexec, hrest, hbytes, ⟨p', htree, PTree.isLeaf_of_plain_eq hplain,
    PTree.symbols_of_plain_eq hplain, PTree.shape_of_plain_eq hplain _, PTree.code_of_plain_eq hplain⟩, fun n hn => ?_⟩
  obtain ⟨j, hj⟩ := List.mem_iff_getElem?.mp hn
  exact hcounts j n hj

/-! ## SER, FLUSH and RECON -/

/-- The leaves of a tree in the registers have symbols below N, as LEAF has. -/
theorem symbols_lt_of_isTree {w : Width} {t : Tree} {p : PTree} (h : isTree w t p = true) :
    ∀ x ∈ p.symbols, x.toNat < w.alphabet := by
  intro x hx
  obtain ⟨hwf, -, -, -, hat⟩ := leavesListed_iff.mp (isTree_leavesListed h)
  obtain ⟨hrising, hbelow⟩ := leafWf_iff.mp hwf
  obtain ⟨e, he, rfl⟩ := List.mem_map.mp hx
  exact hbelow _ ((find_eq_some_iff_mem hrising).mp (hat e he))

/-- SER comes to its end with the shape appended to the output bits and no error latched. -/
theorem exec_ser_idle {s t : State} {bits : List Bool} (h : shapeBits s.params.width s.tree = some bits)
    (hexec : exec .ser (s.issuing .ser) = .next t) (hm : t.mode = .idle) : outBits t = outBits s ++ bits := by
  obtain ⟨u, hu, hrun, hjob⟩ := exec_idle hexec hm
  cases (startInstr_ser (s := s.issuing .ser) h).symm.trans hu
  obtain ⟨hout, -⟩ := runJob_onlyWrites hrun (.inr ⟨bits, .inl rfl⟩)
  exact (bitsOut_of_job_none hjob).symm.trans hout

/-- SER and FLUSH leave the shape in OUTQ, and what fills its last byte behind it. -/
theorem runCommands_ser_flush {s t : State} {bits : List Bool} (h : shapeBits s.params.width s.tree = some bits)
    (hwn : s.wn = 0) (hq : s.outq = []) (hrun : runCommands [.ser, .flush] s = some t) :
    ∃ pad, t.outq.flatMap byteBits = bits ++ pad := by
  obtain ⟨u, hser, hm, hu⟩ := runCommands_cons_some hrun
  obtain ⟨v, hflush, hm', hv⟩ := runCommands_cons_some hu
  cases hv
  obtain ⟨pad, hpad⟩ := exec_flush_idle hflush hm'
  refine ⟨pad, ?_⟩
  rw [hpad, exec_ser_idle h hser hm, outBits_of_wn_zero hwn, hq]
  rfl

/-- On an EMPTY tree, with the writer empty, they push nothing. -/
theorem runCommands_ser_flush_empty {s t : State} (h : s.tree.root = none) (hwn : s.wn = 0)
    (hrun : runCommands [.ser, .flush] s = some t) : t.outq = s.outq := by
  obtain ⟨u, hser, -, hu⟩ := runCommands_cons_some hrun
  obtain ⟨v, hflush, -, hv⟩ := runCommands_cons_some hu
  cases hv
  cases (exec_ser_empty (s := s.issuing .ser) h).symm.trans hser
  have hstart : startInstr .flush ((finish (s.issuing .ser)).issuing .flush) = .moved _ :=
    if_pos ((finish_wn (s.issuing .ser)).trans hwn)
  cases ((exec_of_startInstr hstart).trans (runJob_finish _)).symm.trans hflush
  rw [finish_outq]
  exact finish_outq (s.issuing .ser)

/-- Settles O37: the flushed output begins with the shape, which is what RECON reads of it. -/
theorem shapeRoundTrip : Obligations.ShapeRoundTrip := by
  intro s t u l hl hwn hq hrun hw hrcur hinq hpend
  refine ⟨fun p h => ?_, fun hempty => ⟨?_, ?_⟩⟩
  · obtain ⟨hleaves, -⟩ := isTree_sizes h
    obtain ⟨pad, hpad⟩ := runCommands_ser_flush (shapeBits_of_isTree h) hwn hq hrun
    have hin : inBits (u.issuing (.recon l)) = p.shape s.params.width ++ pad := by
      rw [← hpad, ← hinq]
      simp only [inBits, State.issuing, unreadBits, hrcur]
      rfl
    obtain ⟨t', i, p', hexec, -, -, htree, hplain, -⟩ := exec_recon_shape (s := u.issuing (.recon l)) (p := p)
      (by rw [hl, hleaves, p.symbols_length]) (symbols_nodup_of_isTree h) (hw ▸ symbols_lt_of_isTree h) (hw ▸ hin)
    rw [finish_of_not_pend (s := State.withInput i { u.issuing (.recon l) with tree := t' }) hpend] at hexec
    have hsyms := PTree.symbols_of_plain_eq hplain
    obtain ⟨hleaves', -⟩ := isTree_sizes htree
    refine ⟨_, p', runCommands_cons_of_next hexec rfl, htree, ?_, hsyms, ?_, PTree.code_of_plain_eq hplain⟩
    · exact (PTree.shape_of_plain_eq hplain _).trans (congrArg p.shape hw)
    · rw [hleaves, ← p.symbols_length, ← hsyms, p'.symbols_length]
      exact hleaves'
  · rw [runCommands_ser_flush_empty (by rw [hempty]; rfl) hwn hrun, hq]
  · have hzero : l = 0 := BitVec.eq_of_toNat_eq (hl.trans (by rw [hempty]; rfl))
    have hexec := exec_recon_zero (u.issuing (.recon 0))
    rw [finish_of_not_pend (s := clearTree (u.issuing (.recon 0))) hpend] at hexec
    exact ⟨_, hzero ▸ runCommands_cons_of_next hexec rfl, rfl⟩

end Sys2Proof.Machine
end

section
/-! PROOF. RECON item by item: what it does with the next item of its input, having read others, and how a RECON ends
(spec/43_shape.md R234, R235). -/

namespace Sys2Proof.Machine

/-! ## Symbols by their bits -/

/-- Bits in stream order are the bits of their value. -/
theorem msbBits_bitsValue (bits : List Bool) : msbBits bits.length (bitsValue bits) = bits := by
  induction bits with
  | nil => rfl
  | cons b bits ih =>
    have hbit (j : Nat) := Nat.testBit_two_pow_mul_add b.toNat (bitsValue_lt bits) j
    rw [bitsValue_cons, Nat.mul_comm, List.length_cons, msbBits_succ, hbit, if_neg (Nat.lt_irrefl _), Nat.sub_self]
    refine congrArg₂ List.cons (by cases b <;> rfl) (Eq.trans ?_ ih)
    rw [msbBits_eq_map, msbBits_eq_map]
    refine List.map_congr_left fun j hj => ?_
    have := List.mem_range.mp hj
    rw [hbit, if_pos (by omega)]

/-- W bits are a symbol's. -/
theorem exists_symbolBits {w : Width} {bits : List Bool} (h : bits.length = w.bits) :
    ∃ x : Symbol, x.toNat < w.alphabet ∧ symbolBits w x = bits := by
  have hlt : bitsValue bits < w.alphabet := by
    have := bitsValue_lt bits
    rwa [h] at this
  have hto : (BitVec.ofNat 16 (bitsValue bits)).toNat = bitsValue bits :=
    Nat.mod_eq_of_lt (hlt.trans_le (Nat.pow_le_pow_right (by omega) (width_bits_le w)))
  refine ⟨BitVec.ofNat 16 (bitsValue bits), hto.symm ▸ hlt, ?_⟩
  rw [symbolBits, hto, ← h, msbBits_bitsValue]

/-- Fewer than W bits begin a symbol's. -/
theorem exists_symbolBits_of_part {w : Width} {part : List Bool} (h : part.length < w.bits) :
    ∃ (x : Symbol) (more : List Bool), x.toNat < w.alphabet ∧ more ≠ [] ∧ symbolBits w x = part ++ more := by
  obtain ⟨x, hx, hbits⟩ := exists_symbolBits (w := w) (bits := part ++ List.replicate (w.bits - part.length) false)
    (by rw [List.length_append, List.length_replicate]; omega)
  exact ⟨x, _, hx, by rw [ne_eq, List.replicate_eq_nil_iff]; omega, hbits⟩

/-! ## Items -/

theorem nodup_append_singleton {α : Type} {l : List α} {a : α} : (l ++ [a]).Nodup ↔ a ∉ l ∧ l.Nodup := by
  rw [← List.concat_eq_append, List.nodup_concat]

/-- The item's symbol, if it is a leaf, is below N. -/
def Marker.legal (w : Width) : Marker → Prop
  | .internal => True
  | .leaf x => x.toNat < w.alphabet

/-- A stream begins with an item, or it ends inside one. -/
theorem item_or_part (w : Width) (bits : List Bool) :
    (∃ m rest, Marker.legal w m ∧ bits = m.bits w ++ rest) ∨
      ∃ m more, Marker.legal w m ∧ more ≠ [] ∧ bits ++ more = m.bits w := by
  match bits with
  | [] => exact .inr ⟨.internal, [false], trivial, by simp, rfl⟩
  | false :: rest => exact .inl ⟨.internal, rest, trivial, rfl⟩
  | true :: rest =>
    by_cases hlen : rest.length < w.bits
    · obtain ⟨x, more, hx, hmore, hbits⟩ := exists_symbolBits_of_part hlen
      exact .inr ⟨.leaf x, more, hx, hmore, congrArg (true :: ·) hbits.symm⟩
    · obtain ⟨x, hx, hbits⟩ := exists_symbolBits (w := w) (bits := rest.take w.bits)
        (by rw [List.length_take]; omega)
      refine .inl ⟨.leaf x, rest.drop w.bits, hx, ?_⟩
      rw [Marker.bits, hbits, List.cons_append, List.take_append_drop]

@[simp] theorem internalCount_concat (ms : List Marker) (m : Marker) :
    internalCount (ms ++ [m]) = internalCount ms + internalCount [m] := List.countP_append ..

@[simp] theorem internalCount_internal : internalCount [.internal] = 1 := rfl

@[simp] theorem internalCount_leaf (x : Symbol) : internalCount [.leaf x] = 0 := rfl

@[simp] theorem markedSymbols_concat (ms : List Marker) (m : Marker) :
    markedSymbols (ms ++ [m]) = markedSymbols ms ++ markedSymbols [m] := List.filterMap_append ..

@[simp] theorem markedSymbols_internal : markedSymbols [.internal] = [] := rfl

@[simp] theorem markedSymbols_leaf (x : Symbol) : markedSymbols [.leaf x] = [x] := rfl

theorem openSlots_append (ms ms' : List Marker) : ∀ n, openSlots n (ms ++ ms') = (openSlots n ms).bind (openSlots · ms') := by
  induction ms with
  | nil => exact fun _ => rfl
  | cons m ms ih =>
    intro n
    match n, m with
    | 0, _ => rfl
    | n + 1, .internal => exact ih (n + 2)
    | n + 1, .leaf _ => exact ih n

/-- An internal node opens one slot more than it fills, and a leaf only fills one. -/
theorem openSlots_count {ms : List Marker} : ∀ {n k : Nat}, openSlots n ms = some k →
    k + (markedSymbols ms).length = n + internalCount ms := by
  induction ms with
  | nil => intro n k h; cases h; rfl
  | cons m ms ih =>
    intro n k h
    match n, m with
    | 0, _ => cases h
    | n + 1, .internal =>
      have := ih (n := n + 2) h
      have hsyms : markedSymbols (.internal :: ms) = markedSymbols ms := rfl
      have hints : internalCount (.internal :: ms) = internalCount ms + 1 := List.countP_cons_of_pos rfl
      rw [hsyms, hints]
      omega
    | n + 1, .leaf x =>
      have := ih (n := n) h
      have hsyms : markedSymbols (.leaf x :: ms) = x :: markedSymbols ms := rfl
      have hints : internalCount (.leaf x :: ms) = internalCount ms := List.countP_cons_of_neg (by simp)
      rw [hsyms, hints, List.length_cons]
      omega

/-- Items that leave none of n slots open are the items of n trees in a row (R231). -/
theorem exists_trees_of_openSlots (w : Width) {ms : List Marker} : ∀ {n : Nat}, openSlots n ms = some 0 →
    ∃ ps : List PTree, ps.length = n ∧ ps.flatMap (PTree.item w) = ms.flatMap (Marker.bits w) ∧
      ps.flatMap PTree.symbols = markedSymbols ms := by
  induction ms with
  | nil => intro n h; cases h; exact ⟨[], rfl, rfl, rfl⟩
  | cons m ms ih =>
    intro n h
    match n, m with
    | 0, _ => cases h
    | n + 1, .internal =>
      obtain ⟨ps, hlen, hbits, hsyms⟩ := ih (n := n + 2) h
      match ps with
      | z :: o :: ps =>
        refine ⟨.node 0 z o :: ps, by simpa using hlen, ?_, ?_⟩
        · rw [List.flatMap_cons, List.flatMap_cons, ← hbits]
          simp [PTree.item, Marker.bits]
        · have hsame : markedSymbols (.internal :: ms) = markedSymbols ms := rfl
          rw [List.flatMap_cons, PTree.symbols_node, hsame]
          simpa using hsyms
    | n + 1, .leaf x =>
      obtain ⟨ps, hlen, hbits, hsyms⟩ := ih (n := n) h
      refine ⟨.leaf 0 x :: ps, by simpa using hlen, ?_, ?_⟩
      · rw [List.flatMap_cons, List.flatMap_cons, hbits]
        rfl
      · rw [List.flatMap_cons, hsyms]
        rfl

/-- Items that fill both slots of the root are the shape of a tree (R231, R235). -/
theorem exists_shape_of_openSlots (w : Width) {ms : List Marker} (h : openSlots 2 ms = some 0) :
    ∃ p : PTree, p.shape w = ms.flatMap (Marker.bits w) ∧ p.symbols = markedSymbols ms := by
  obtain ⟨ps, hlen, hbits, hsyms⟩ := exists_trees_of_openSlots w h
  match ps with
  | [z, o] =>
    refine ⟨.node 0 z o, ?_, ?_⟩
    · simpa [PTree.shape] using hbits
    · simpa [PTree.symbols_node] using hsyms

theorem underWay_nil {w : Width} {l : Nat} (h2 : 2 ≤ l) : underWay w l [] :=
  ⟨⟨1, rfl⟩, List.nodup_nil, by simp [markedSymbols], by simp [markedSymbols]; omega, by simpa [internalCount] using h2⟩

/-- RECON was under way before its last item. -/
theorem underWay_of_concat {w : Width} {l : Nat} {ms : List Marker} {m : Marker} (h : underWay w l (ms ++ [m])) :
    underWay w l ms ∧ m.legal w := by
  obtain ⟨⟨n, hslots⟩, hnodup, hlegal, hlen, hints⟩ := h
  rw [openSlots_append] at hslots
  obtain ⟨k, hk, hm⟩ := Option.bind_eq_some_iff.mp hslots
  rw [markedSymbols_concat] at hnodup hlegal hlen
  rw [List.length_append] at hlen
  rw [internalCount_concat] at hints
  refine ⟨⟨?_, (List.nodup_append.mp hnodup).1, fun x hx => hlegal x (List.mem_append_left _ hx), by omega, by omega⟩, ?_⟩
  · match k with
    | 0 => cases hm
    | k + 1 => exact ⟨k, hk⟩
  · match m with
    | .internal => trivial
    | .leaf x => exact hlegal x (List.mem_append_right _ (List.mem_singleton_self x))

/-- RECON is under way after an internal node that is not its L-th. -/
theorem underWay_internal {w : Width} {l : Nat} {ms : List Marker} (h : underWay w l ms) (hlast : internalCount ms + 2 ≠ l) :
    underWay w l (ms ++ [.internal]) := by
  obtain ⟨⟨n, hslots⟩, hnodup, hlegal, hlen, hints⟩ := h
  refine ⟨⟨n + 1, by rw [openSlots_append, hslots]; rfl⟩, by simpa using hnodup, by simpa using hlegal,
    by simpa using hlen, ?_⟩
  rw [internalCount_concat, internalCount_internal]
  omega

/-- RECON is under way after a leaf of a new symbol that is not its L-th and leaves a slot open. -/
theorem underWay_leaf {w : Width} {l n : Nat} {ms : List Marker} {x : Symbol} (h : underWay w l ms)
    (hx : x.toNat < w.alphabet) (hnew : x ∉ markedSymbols ms) (hslots : openSlots 2 ms = some (n + 2))
    (hlen : (markedSymbols ms).length + 1 < l) : underWay w l (ms ++ [.leaf x]) := by
  obtain ⟨-, hnodup, hlegal, -, hints⟩ := h
  have hsyms : markedSymbols (ms ++ [.leaf x]) = markedSymbols ms ++ [x] := by simp
  refine ⟨⟨n, by rw [openSlots_append, hslots]; rfl⟩, ?_, ?_, ?_, by simpa using hints⟩ <;> rw [hsyms]
  · exact nodup_append_singleton.mpr ⟨hnew, hnodup⟩
  · simpa [or_imp, forall_and] using ⟨hlegal, hx⟩
  · rwa [List.length_append, List.length_singleton]

section
variable {w : Width} {l : Nat} {ms : List Marker} {x : Symbol}

/-! What is not so of an item that leaves RECON under way: what it raises an error for, or returns on. -/

theorem internalCount_ne_of_underWay (h : underWay w l (ms ++ [.internal])) : internalCount ms + 2 ≠ l := by
  obtain ⟨-, -, -, -, hints⟩ := h
  rw [internalCount_concat, internalCount_internal] at hints
  omega

theorem openSlots_ne_one_of_underWay (h : underWay w l (ms ++ [.leaf x])) : openSlots 2 ms ≠ some 1 := by
  obtain ⟨⟨n, hslots⟩, -⟩ := h
  intro hfull
  rw [openSlots_append, hfull] at hslots
  cases hslots

theorem not_mem_of_underWay (h : underWay w l (ms ++ [.leaf x])) : x ∉ markedSymbols ms := by
  obtain ⟨-, hnodup, -⟩ := h
  rw [markedSymbols_concat, markedSymbols_leaf, nodup_append_singleton] at hnodup
  exact hnodup.1

end

/-! ## RECON at the head of its loop -/

/-- RECON L stands at the head of its loop with cur = c and the tree t, having read the items: what the registers hold
agrees with them. -/
structure AtHead (w : Width) (l : Nat) (ms : List Marker) (t : Tree) (c : Nat) : Prop where
  read : underWay w l ms
  loop : reconOk w t l (internalCount ms + 1) c
  nleaves : t.nleaves = (markedSymbols ms).length
  listed : ∀ x, t.leafAt x ≠ none ↔ x ∈ markedSymbols ms

/-- The state in which it stands there, k bits read. -/
def reconHead (l : Nat) (ms : List Marker) (t : Tree) (c k : Nat) (s : State) : State :=
  { s with tree := t }.reading (.marker l (internalCount ms + 1) c) k

/-- The implicit root of RECON L, L ≥ 2. -/
def reconRoot : Tree := { newNode 0 0 Tree.cleared with root := some 0 }

theorem atHead_reconRoot {w : Width} {l : Nat} (h2 : 2 ≤ l) (hl : l ≤ w.alphabet) : AtHead w l [] reconRoot 0 where
  read := underWay_nil h2
  loop := reconOk_of_frames (gs := [.inZero 0]) rfl (holdsFrames_root w) h2 hl (show 1 < l by omega)
  nleaves := rfl
  listed x := by simp [Tree.leafAt, reconRoot, newNode, Tree.cleared, markedSymbols]

/-- A slot is open, as many as there are internal nodes more than leaves, and one. -/
theorem AtHead.slots {w : Width} {l : Nat} {ms : List Marker} {t : Tree} {c : Nat} (h : AtHead w l ms t c) :
    ∃ n, openSlots 2 ms = some (n + 1) ∧ n + t.nleaves = internalCount ms + 1 := by
  obtain ⟨⟨n, hn⟩, -⟩ := h.read
  have := openSlots_count hn
  exact ⟨n, hn, by rw [h.nleaves]; omega⟩

/-- The head of the loop is reached again with one internal node more. -/
theorem AtHead.internal {w : Width} {l : Nat} {ms : List Marker} {t u : Tree} {c c' : Nat} (h : AtHead w l ms t c)
    (hlast : internalCount ms + 2 ≠ l) (hloop : reconOk w u l (internalCount ms + 1 + 1) c')
    (hnleaves : u.nleaves = t.nleaves) (hlisted : ∀ y, u.leafAt y ≠ none ↔ t.leafAt y ≠ none) :
    AtHead w l (ms ++ [.internal]) u c' where
  read := underWay_internal h.read hlast
  loop := by rwa [internalCount_concat]
  nleaves := by simpa [hnleaves] using h.nleaves
  listed y := by rw [hlisted, h.listed, markedSymbols_concat, markedSymbols_internal, List.append_nil]

/-- It is reached again with the leaf of a new symbol listed. -/
theorem AtHead.leaf {w : Width} {l n : Nat} {ms : List Marker} {t u : Tree} {c c' : Nat} {x : Symbol}
    (h : AtHead w l ms t c) (hx : x.toNat < w.alphabet) (hnew : t.leafAt x = none)
    (hslots : openSlots 2 ms = some (n + 2)) (hloop : reconOk w u l (internalCount ms + 1) c')
    (hnleaves : u.nleaves = t.nleaves + 1) (hlisted : ∀ y, u.leafAt y ≠ none ↔ y = x ∨ t.leafAt y ≠ none) :
    AtHead w l (ms ++ [.leaf x]) u c' where
  read := by
    obtain ⟨-, -, -, -, -, -, -, hlt, -⟩ := reconOk_iff.mp hloop
    exact underWay_leaf h.read hx (fun hmem => (h.listed x).mpr hmem hnew) hslots (by rw [← h.nleaves]; omega)
  loop := by rwa [internalCount_concat]
  nleaves := by rw [hnleaves, h.nleaves, markedSymbols_concat, List.length_append]; rfl
  listed y := by rw [hlisted, h.listed, markedSymbols_concat, markedSymbols_leaf, List.mem_append, List.mem_singleton, or_comm]

/-- With no slot left after this one, each frame has its zero side finished: as many leaves as internal nodes. -/
theorem heldLeaves_length_of_nextSlot_none {fs : List Frame} (h : nextSlot fs = none) :
    (heldLeaves none fs).length = frameInternals fs := by
  induction fs with
  | nil => rfl
  | cons f fs ih =>
    cases f with
    | inZero i => cases h
    | inOne i z =>
      have hz := z.internals_add_one
      have hrest := ih h
      simp only [heldLeaves, finishedTrees, frameInternals, doneTrees, List.length_cons, Option.toList_none, List.nil_append,
        List.flatMap_cons, List.length_append, List.map_cons, List.sum_cons] at hrest ⊢
      omega

/-- What RECON L does with its next item, having read the items `ms` (R234). -/
inductive AfterItem (s : State) (l : Nat) (ms : List Marker) : Marker → State → Prop
  | tooManyInternals : internalCount ms + 2 = l → AfterItem s l ms .internal (raiseRecon .shapeError 1 s)
  | closedEarly {x : Symbol} : x ∉ markedSymbols ms → openSlots 2 ms = some 1 → (markedSymbols ms).length + 1 < l →
      AfterItem s l ms (.leaf x) (raiseRecon .shapeError 2 s)
  | repeatedSymbol {x : Symbol} : x ∈ markedSymbols ms → AfterItem s l ms (.leaf x) (raiseRecon .shapeError 3 s)
  | complete {x : Symbol} {t : Tree} {q : PTree} : x ∉ markedSymbols ms → openSlots 2 ms = some 1 →
      (markedSymbols ms).length + 1 = l → isTree s.params.width t q = true → t.nleaves = l →
      AfterItem s l ms (.leaf x) (finish { s with tree := t })
  | readsOn {m : Marker} {t : Tree} {c k : Nat} : AtHead s.params.width l (ms ++ [m]) t c →
      AfterItem s l ms m (reconHead l (ms ++ [m]) t c k s)

section
variable {s : State} {l : Nat} {ms : List Marker} {t : Tree} {c : Nat} (h : AtHead s.params.width l ms t c) (k : Nat)
include h

/-- An internal node. -/
theorem deliverBits_internal :
    ∃ v, deliverBits (Marker.internal.bits s.params.width) (reconHead l ms t c k s) = some v ∧
      AfterItem s l ms .internal v := by
  obtain ⟨f, fs, rfl, hholds, hn, h2, hl, -, hlt⟩ := reconOk_iff.mp h.loop
  by_cases hlast : internalCount ms + 1 = l - 1
  · refine ⟨_, deliverBits_reading (t := raiseRecon .shapeError 1 s) [] ?_, .tooManyInternals (by omega)⟩
    simp only [deliver, Bool.false_eq_true, if_false, reconInternal, hlast, if_true]
    rfl
  · obtain ⟨u, hu, hnleaves, hd⟩ := deliver_internal (s := { s with tree := t }) hholds hlast (k + 1) k
    have hcount : internalCount (ms ++ [.internal]) = internalCount ms + 1 := by simp
    have hint : internalCount ms + 1 + 1 = frameInternals (.inZero t.nfree :: f :: fs) := by
      rw [hn]
      simp only [frameInternals, doneTrees, List.length_cons]
      omega
    have hhead : AtHead s.params.width l (ms ++ [.internal]) u t.nfree := by
      refine h.internal (by omega) ?_ hnleaves fun y => ?_
      · rw [hint]
        exact reconOk_of_frames rfl hu h2 hl (by omega)
      · rw [leafAt_ne_none_iff hu.listed, leafAt_ne_none_iff hholds.listed]
        rfl
    refine ⟨reconHead l (ms ++ [.internal]) u t.nfree (k + 1) s, ?_, .readsOn hhead⟩
    simp only [reconHead, hcount]
    exact deliverBits_reading [] hd

/-- RECON's leaf of a symbol, once its bits are read. -/
theorem reconLeaf_afterItem {x : Symbol} (hx : x.toNat < s.params.width.alphabet) :
    ∃ v, reconLeaf l (internalCount ms + 1) c x k { s with tree := t } = .moved v ∧ AfterItem s l ms (.leaf x) v := by
  by_cases hnew : t.leafAt x = none
  · have hmem : x ∉ markedSymbols ms := fun hm => (h.listed x).mpr hm hnew
    obtain ⟨f, fs, rfl, hholds, hn, h2, hl, -, hlt⟩ := reconOk_iff.mp h.loop
    obtain ⟨u, hu, hclimb, hnext⟩ := reconLeaf_attached (s := { s with tree := t }) hholds hx hnew l (internalCount ms + 1) k
    have hnleaves : u.nleaves = t.nleaves + 1 := by rw [nleaves_of_holdsFrames hu, nleaves_of_holdsFrames hholds]; rfl
    have hlisted : ∀ y, u.leafAt y ≠ none ↔ y = x ∨ t.leafAt y ≠ none := fun y => by
      rw [leafAt_ne_none_iff hu.listed, leafAt_ne_none_iff hholds.listed]
      exact List.mem_cons
    have hcount' : internalCount (ms ++ [.leaf x]) = internalCount ms := by simp
    obtain ⟨n, hslots, hcount⟩ := h.slots
    rw [hnext]
    rcases backtrack_of_holdsFrames hu with ⟨hslot, q, hq⟩ | ⟨c, gs, hslot, hc, hgs, hint⟩
    · have hfull : openSlots 2 ms = some 1 := by
        have := heldLeaves_length_of_nextSlot_none hslot
        rw [← nleaves_of_holdsFrames hholds] at this
        rw [hslots, show n = 0 by omega]
      simp only [reconNext, hclimb, hslot]
      by_cases hearly : u.nleaves < l
      · rw [if_pos hearly]
        exact ⟨_, rfl, .closedEarly hmem hfull (by rw [← h.nleaves]; omega)⟩
      · rw [if_neg hearly]
        have hle := heldLeaves_length_le (f :: fs)
        rw [← nleaves_of_holdsFrames hholds] at hle
        exact ⟨_, rfl, .complete hmem hfull (by rw [← h.nleaves]; omega) hq (by omega)⟩
    · have hsame : internalCount ms + 1 = frameInternals gs := by rw [hint, hn]; rfl
      have hle := heldLeaves_length_le gs
      rw [← nleaves_of_holdsFrames hgs] at hle
      simp only [reconNext, hclimb, hslot]
      rw [if_pos (by omega)]
      have hmore : openSlots 2 ms = some (n - 1 + 2) := by rw [hslots, show n + 1 = n - 1 + 2 by omega]
      have hloop : reconOk s.params.width u l (internalCount ms + 1) c := by
        rw [hsame]
        exact reconOk_of_frames hc hgs h2 hl (by omega)
      refine ⟨reconHead l (ms ++ [.leaf x]) u c k s, ?_, .readsOn (h.leaf hx hnew hmore hloop hnleaves hlisted)⟩
      rw [reconHead, hcount']
      rfl
  · refine ⟨raiseRecon .shapeError 3 s, ?_, .repeatedSymbol ((h.listed x).mp hnew)⟩
    simp only [reconLeaf, ne_eq, hnew, not_false_eq_true, if_true]
    rfl

/-- The item's bits, delivered at the head of RECON's loop. -/
theorem deliverBits_marker {m : Marker} (hm : m.legal s.params.width) :
    ∃ v, deliverBits (m.bits s.params.width) (reconHead l ms t c k s) = some v ∧ AfterItem s l ms m v := by
  cases m with
  | internal => exact deliverBits_internal h k
  | leaf x =>
    have hx : x.toNat < s.params.width.alphabet := hm
    obtain ⟨v, hleaf, hv⟩ := reconLeaf_afterItem h (k + 1 + s.params.width.bits) hx
    refine ⟨v, ?_, hv⟩
    have hbits := deliverBits_leafSymbol (acc := 0) (k := k + 1) (symbolBits_ne_nil s.params.width x)
      (by rwa [foldl_shiftIn_symbolBits hx, symbolBits_length])
    rw [symbolBits_length] at hbits
    exact (deliverBits_reading _ rfl).trans hbits

end

/-- RECON L reads on through items that leave it under way. -/
theorem deliverBits_underWay {s : State} {l : Nat} (h2 : 2 ≤ l) (hl : l ≤ s.params.width.alphabet) {ms : List Marker}
    (h : underWay s.params.width l ms) : ∃ t c k, AtHead s.params.width l ms t c ∧
      deliverBits (ms.flatMap (Marker.bits s.params.width)) (reconHead l [] reconRoot 0 0 s) =
        some (reconHead l ms t c k s) := by
  induction ms using List.reverseRecOn with
  | nil => exact ⟨reconRoot, 0, 0, atHead_reconRoot h2 hl, rfl⟩
  | append_singleton ms m ih =>
    obtain ⟨hms, hm⟩ := underWay_of_concat h
    obtain ⟨t, c, k, hhead, hread⟩ := ih hms
    obtain ⟨v, hd, hv⟩ := deliverBits_marker hhead k hm
    have hgo : deliverBits ((ms ++ [m]).flatMap (Marker.bits s.params.width)) (reconHead l [] reconRoot 0 0 s) = some v := by
      rw [List.flatMap_append, List.flatMap_singleton, deliverBits_append, hread]
      exact hd
    cases hv with
    | tooManyInternals hlast => exact absurd hlast (internalCount_ne_of_underWay h)
    | closedEarly _ hfull => exact absurd hfull (openSlots_ne_one_of_underWay h)
    | repeatedSymbol hmem => exact absurd hmem (not_mem_of_underWay h)
    | complete _ hfull => exact absurd hfull (openSlots_ne_one_of_underWay h)
    | readsOn hhead' => exact ⟨_, _, _, hhead', hgo⟩

end Sys2Proof.Machine
end

section
/-! PROOF. How every RECON ends: with a tree of the shape its input begins with, with SHAPE_ERROR, or where the input ends
(spec/43_shape.md R234, R235; spec/60_exceptions.md R261, R263, R264). -/

namespace Sys2Proof.Machine

/-! ## How RECON ends on the bits it reads -/

/-- RECON L comes to its end on the bits it has read: an error, or a tree of the shape they are. -/
inductive ReconEnds (s : State) (l : Nat) (read : List Bool) : State → Prop
  | error {info : Word} : 2 ≤ l → info = 1 ∨ info = 2 ∨ info = 3 → ReconEnds s l read (raiseRecon .shapeError info s)
  | complete {t : Tree} {p q : PTree} : isTree s.params.width t q = true → t.nleaves = l → p.symbols.length = l →
      p.symbols.Nodup → (∀ x ∈ p.symbols, x.toNat < s.params.width.alphabet) → p.shape s.params.width = read →
      ReconEnds s l read (finish { s with tree := t })

theorem ReconEnds.job_none {s v : State} {l : Nat} {read : List Bool} (h : ReconEnds s l read v) : v.job = none := by
  cases h with
  | error => rfl
  | complete => exact finish_job _

/-- Of the bits, which come after those of `before`, RECON in the state u ends on the first ones, or it needs more. -/
def endsOrNeedsMore (s : State) (l : Nat) (before bits : List Bool) (u : State) : Prop :=
  (∃ read rest v, bits = read ++ rest ∧ deliverBits read u = some v ∧ ReconEnds s l (before ++ read) v) ∨
    ∃ more v, more ≠ [] ∧ deliverBits (bits ++ more) u = some v

theorem endsOrNeedsMore_cons {s u v : State} {l : Nat} {before item bits : List Bool} (h : deliverBits item u = some v)
    (hv : endsOrNeedsMore s l (before ++ item) bits v) : endsOrNeedsMore s l before (item ++ bits) u := by
  rcases hv with ⟨read, rest, w, rfl, hw, hends⟩ | ⟨more, w, hmore, hw⟩
  · refine .inl ⟨item ++ read, rest, w, by rw [List.append_assoc], ?_, by rwa [← List.append_assoc]⟩
    rw [deliverBits_append, h]
    exact hw
  · refine .inr ⟨more, w, hmore, ?_⟩
    rw [List.append_assoc, deliverBits_append, h]
    exact hw

/-- Items whose last is the L-th leaf, in the last open slot, are the shape of a tree of L leaves (R235). -/
theorem exists_shape_of_complete {w : Width} {l : Nat} {ms : List Marker} {x : Symbol} (h : underWay w l ms)
    (hx : x.toNat < w.alphabet) (hnew : x ∉ markedSymbols ms) (hslots : openSlots 2 ms = some 1)
    (hlen : (markedSymbols ms).length + 1 = l) :
    ∃ p : PTree, p.symbols.length = l ∧ p.symbols.Nodup ∧ (∀ x ∈ p.symbols, x.toNat < w.alphabet) ∧
      p.shape w = ms.flatMap (Marker.bits w) ++ Marker.bits w (.leaf x) := by
  obtain ⟨-, hnodup, hlegal, -⟩ := h
  obtain ⟨p, hshape, hsyms⟩ := exists_shape_of_openSlots w (ms := ms ++ [.leaf x]) (by rw [openSlots_append, hslots]; rfl)
  rw [markedSymbols_concat, markedSymbols_leaf] at hsyms
  refine ⟨p, ?_, ?_, ?_, by rw [hshape, List.flatMap_append, List.flatMap_singleton]⟩ <;> rw [hsyms]
  · rwa [List.length_append, List.length_singleton]
  · exact nodup_append_singleton.mpr ⟨hnew, hnodup⟩
  · simpa [or_imp, forall_and] using ⟨hlegal, hx⟩

/-- From the head of its loop RECON goes on item by item. -/
theorem reconHead_endsOrNeedsMore {s : State} {l : Nat} (bits : List Bool) :
    ∀ {ms : List Marker} {t : Tree} {c : Nat} (k : Nat), AtHead s.params.width l ms t c →
      endsOrNeedsMore s l (ms.flatMap (Marker.bits s.params.width)) bits (reconHead l ms t c k s) := by
  induction hlen : bits.length using Nat.strong_induction_on generalizing bits with
  | _ n ih =>
    intro ms t c k h
    obtain ⟨-, -, -, -, -, h2, -⟩ := reconOk_iff.mp h.loop
    rcases item_or_part s.params.width bits with ⟨m, rest, hm, rfl⟩ | ⟨m, more, hm, hmore, hbits⟩
    · obtain ⟨v, hd, hv⟩ := deliverBits_marker h k hm
      have hends (he : ReconEnds s l (ms.flatMap (Marker.bits s.params.width) ++ m.bits s.params.width) v) :
          endsOrNeedsMore s l (ms.flatMap (Marker.bits s.params.width)) (m.bits s.params.width ++ rest)
            (reconHead l ms t c k s) := .inl ⟨m.bits s.params.width, rest, v, rfl, hd, he⟩
      cases hv with
      | tooManyInternals => exact hends (.error h2 (by simp))
      | closedEarly => exact hends (.error h2 (by simp))
      | repeatedSymbol => exact hends (.error h2 (by simp))
      | complete hnew hslots hcount hq hnleaves =>
        obtain ⟨p, hp, hnodup, hlegal, hshape⟩ := exists_shape_of_complete h.read hm hnew hslots hcount
        exact hends (.complete hq hnleaves hp hnodup hlegal hshape)
      | @readsOn _ t' c' k' h' =>
        have hpos : 0 < (m.bits s.params.width).length := by cases m <;> simp [Marker.bits]
        rw [List.length_append] at hlen
        have hrest := ih _ (by omega) rest rfl k' h'
        rw [List.flatMap_append, List.flatMap_singleton] at hrest
        exact endsOrNeedsMore_cons hd hrest
    · obtain ⟨v, hd, -⟩ := deliverBits_marker h k hm
      exact .inr ⟨more, v, hmore, hbits ▸ hd⟩

/-- RECON 1 needs W bits, and any W bits are the shape of a tree of one leaf. -/
theorem single_endsOrNeedsMore (s : State) (bits : List Bool) :
    endsOrNeedsMore s 1 [] bits ((clearTree s).reading (.single s.params.width.bits 0) 0) := by
  have hread (x : Symbol) := deliverBits_single (clearTree s) (symbolBits_ne_nil s.params.width x) 0 0
  simp only [symbolBits_length] at hread
  by_cases hlen : bits.length < s.params.width.bits
  · obtain ⟨x, more, -, hmore, hbits⟩ := exists_symbolBits_of_part hlen
    exact .inr ⟨more, _, hmore, hbits ▸ hread x⟩
  · obtain ⟨x, hx, hbits⟩ := exists_symbolBits (w := s.params.width) (bits := bits.take s.params.width.bits)
      (by rw [List.length_take]; omega)
    refine .inl ⟨symbolBits s.params.width x, bits.drop s.params.width.bits, _, ?_, hread x, ?_⟩
    · rw [hbits, List.take_append_drop]
    · rw [foldl_shiftIn_symbolBits hx]
      exact .complete (p := .leaf 0 x) (isTree_singleTree hx) rfl rfl (List.nodup_singleton x)
        (fun y hy => List.mem_singleton.mp hy ▸ hx) rfl

/-! ## RECON's first micro-step -/

/-- RECON reads on, k bits read: the state differs from that before the command in the tree and the transient state. -/
def midRecon (k : Nat) (s u : State) : Prop := ∃ tree r, Reader.isRecon r = true ∧ u = { s with tree := tree }.reading r k

theorem startInstr_recon_one {s : State} {l : Word} (hl : l.toNat = 1) :
    startInstr (.recon l) s = .moved ((clearTree s).reading (.single s.params.width.bits 0) 0) := by
  have hok : leafCountOk s.params.width l = true := decide_eq_true (hl ▸ alphabet_pos _)
  simp only [startInstr, startRecon, hok, checkRange_true, reconBody, hl, Nat.one_ne_zero, if_false, if_true]
  rfl

theorem startInstr_recon_many {s : State} {l : Word} (h2 : 2 ≤ l.toNat) (hl : l.toNat ≤ s.params.width.alphabet) :
    startInstr (.recon l) s = .moved (reconHead l.toNat [] reconRoot 0 0 s) := by
  have hok : leafCountOk s.params.width l = true := decide_eq_true hl
  simp only [startInstr, startRecon, hok, checkRange_true, reconBody, show ¬ l.toNat = 0 by omega,
    show ¬ l.toNat = 1 by omega, if_false]
  rfl

/-- RECON of at least one leaf begins to read. -/
theorem startInstr_recon {s : State} {l : Word} (h1 : 1 ≤ l.toNat) (hl : l.toNat ≤ s.params.width.alphabet) :
    ∃ u, startInstr (.recon l) s = .moved u ∧ midRecon 0 s u ∧ ∀ bits, endsOrNeedsMore s l.toNat [] bits u := by
  by_cases hone : l.toNat = 1
  · exact ⟨_, startInstr_recon_one hone, ⟨Tree.cleared, _, rfl, rfl⟩, hone ▸ single_endsOrNeedsMore s⟩
  · have h2 : 2 ≤ l.toNat := by omega
    exact ⟨_, startInstr_recon_many h2 hl, ⟨reconRoot, _, rfl, rfl⟩,
      fun bits => reconHead_endsOrNeedsMore bits 0 (atHead_reconRoot h2 hl)⟩

/-! ## Where RECON stops -/

/-- A bit after which a command reads on leaves all but the tree alone, and RECON inside RECON. -/
theorem reading_of_deliver {r r' : Reader} {b : Bool} {k k' : Nat} {s t : State} (h : deliver r b k s = .moved t)
    (hj : t.job = some (.read r' k')) :
    k' = k ∧ r'.isRecon = r.isRecon ∧ ∃ tree, t = { s with tree := tree }.reading r' k' := by
  have hfin (u : State) : (finish u).job ≠ some (.read r' k') := by simp
  cases r with
  | field left acc =>
    simp only [deliver] at h
    split at h <;> cases h
    · exact absurd hj (hfin _)
    · cases hj; exact ⟨rfl, rfl, s.tree, rfl⟩
  | walk i =>
    rcases decStep_moved h with ⟨x, rfl⟩ | ⟨c, rfl⟩
    · exact absurd hj (hfin _)
    · cases hj; exact ⟨rfl, rfl, s.tree, rfl⟩
  | single left acc =>
    simp only [deliver] at h
    split at h <;> cases h
    · exact absurd hj (hfin _)
    · cases hj; exact ⟨rfl, rfl, s.tree, rfl⟩
  | marker l n c =>
    simp only [deliver] at h
    split at h
    · cases h; cases hj; exact ⟨rfl, rfl, s.tree, rfl⟩
    · rcases reconInternal_moved h with ⟨-, rfl⟩ | ⟨-, tree, -, rfl⟩
      · cases hj
      · cases hj; exact ⟨rfl, rfl, tree, rfl⟩
  | leaf l n c left acc =>
    simp only [deliver] at h
    split at h
    · rcases reconLeaf_moved h with ⟨-, rfl⟩ | ⟨-, tree, -, hnext⟩
      · cases hj
      · rcases reconNext_moved hnext with ⟨-, -, rfl⟩ | ⟨-, rfl⟩ | ⟨-, c', -, rfl⟩
        · cases hj
        · exact absurd hj (hfin _)
        · cases hj; exact ⟨rfl, rfl, _, rfl⟩
    · cases h; cases hj; exact ⟨rfl, rfl, s.tree, rfl⟩

/-- Where RECON reads on after bits, it has counted them. -/
theorem midRecon_deliverBits {s w : State} {r : Reader} {k' : Nat} {bits : List Bool} (hj : w.job = some (.read r k')) :
    ∀ {u : State} {k : Nat}, midRecon k s u → deliverBits bits u = some w → midRecon (k + bits.length) s w := by
  induction bits with
  | nil => intro u k hu h; cases h; exact hu
  | cons b bits ih =>
    intro u k hu h
    obtain ⟨r₀, k₀, v, hju, hd, hv⟩ := deliverBits_cons_some h
    obtain ⟨tree, r₁, hr, rfl⟩ := hu
    cases hju
    have hjv : ∃ r₂ k₂, v.job = some (.read r₂ k₂) := by
      cases bits with
      | nil => cases hv; exact ⟨r, k', hj⟩
      | cons b' bits =>
        obtain ⟨r₂, k₂, -, hjv, -⟩ := deliverBits_cons_some hv
        exact ⟨r₂, k₂, hjv⟩
    obtain ⟨r₂, k₂, hjv⟩ := hjv
    obtain ⟨rfl, hr₂, tree', rfl⟩ := reading_of_deliver hd hjv
    have hmid := ih ⟨tree', r₂, hr₂.trans hr, rfl⟩ hv
    rwa [List.length_cons, Nat.add_comm bits.length, ← Nat.add_assoc]

/-- A reader with nothing to read has no byte and no unread bit. -/
theorem input_of_bits_nil {i : Input} (h : i.bits = []) : i = ⟨i.rbuf, none, []⟩ := by
  obtain ⟨b, c, q⟩ := i
  cases c with
  | some c => simp [Input.bits, Input.unread] at h
  | none =>
    cases q with
    | nil => rfl
    | cons x q => simp [Input.bits, Input.unread, byteBits] at h

/-- A command that reads on with no input left meets the end of the stream when it is closed. -/
theorem runJob_reading_closed {s : State} (hc : s.inClosed = true) (b : Byte) (r : Reader) (k : Nat) :
    runJob ((s.reading r k).withInput ⟨b, none, []⟩) = .next (endOfStream r k (s.withInput ⟨b, none, []⟩)) := by
  have hadv : advance (.read r k) ((s.reading r k).withInput ⟨b, none, []⟩) =
      .moved (endOfStream r k (s.withInput ⟨b, none, []⟩)) := by
    refine (readBit_closed (s := (s.reading r k).withInput ⟨b, none, []⟩) rfl rfl hc r k).trans ?_
    rw [endOfStream_eq, endOfStream_eq]
    cases r.isRecon <;> rfl
  rw [runJob_eq]
  simp only [withInput_job, reading_job, hadv]
  rw [endOfStream_eq, runJob_raise]

/-- It holds when it is open. -/
theorem runJob_reading_open {s : State} (hc : s.inClosed = false) (b : Byte) (r : Reader) (k : Nat) :
    runJob ((s.reading r k).withInput ⟨b, none, []⟩) = .next ((s.reading r k).withInput ⟨b, none, []⟩) := by
  have hadv : advance (.read r k) ((s.reading r k).withInput ⟨b, none, []⟩) = .waiting := by
    simp only [advance, readBit, State.withInput, State.reading, hc, Bool.false_eq_true, if_false]
  rw [runJob_eq]
  simp only [withInput_job, reading_job, hadv]

/-- The input ends where RECON, having read the bits, needs more: END_OF_STREAM when it is closed, a hold when not. -/
theorem exec_recon_short {s u v : State} {l : Word} {bits more : List Bool} (hu : startInstr (.recon l) s = .moved u)
    (hmid : midRecon 0 s u) (hd : deliverBits (bits ++ more) u = some v) (hmore : more ≠ []) (hb : inBits s = bits) :
    (s.inClosed = true ∧ ∃ b : Byte, exec (.recon l) s = .next (takeError .endOfStream (BitVec.ofNat 32 bits.length) s.cmd
      { s with tree := Tree.cleared, rbuf := b, rcur := none, inq := [] })) ∨
    (s.inClosed = false ∧ ∃ t, exec (.recon l) s = .next t ∧ t.job ≠ none) := by
  rw [deliverBits_append] at hd
  obtain ⟨w, hw, hv⟩ := Option.bind_eq_some_iff.mp hd
  obtain ⟨b, more, rfl⟩ := List.exists_cons_of_ne_nil hmore
  obtain ⟨r, k, -, hj, -⟩ := deliverBits_cons_some hv
  have hinput := input_of_startInstr (by simp) hu
  obtain ⟨i, hrun, hrest, -⟩ := runJob_deliverBits (rest := []) hw
    (by rw [inBits_eq_input_bits, hinput, ← inBits_eq_input_bits, hb, List.append_nil])
  rw [input_of_bits_nil hrest] at hrun
  obtain ⟨tree, r', hr', rfl⟩ := midRecon_deliverBits hj hmid hw
  rw [exec_of_startInstr hu]
  rcases Bool.eq_false_or_eq_true s.inClosed with hc | hc
  · refine .inl ⟨hc, i.rbuf, hrun.trans ((runJob_reading_closed (s := { s with tree := tree }) hc _ r' _).trans ?_)⟩
    rw [endOfStream_eq, hr', Nat.zero_add]
    rfl
  · exact .inr ⟨hc, _, hrun.trans (runJob_reading_open (s := { s with tree := tree }) hc _ r' _), by simp⟩

/-- RECON comes to its end on bits the input begins with: the rest is left. -/
theorem exec_recon_ended {s u v : State} {l : Word} {bits rest : List Bool} (hu : startInstr (.recon l) s = .moved u)
    (hd : deliverBits bits u = some v) (hv : v.job = none) (hb : inBits s = bits ++ rest) :
    ∃ i : Input, exec (.recon l) s = .next (v.withInput i) ∧ i.bits = rest := by
  have hinput := input_of_startInstr (by simp) hu
  obtain ⟨i, hrun, hrest, -⟩ := runJob_deliverBits hd ((congrArg Input.bits hinput).trans hb)
  exact ⟨i, (exec_of_startInstr hu).trans (hrun.trans (runJob_of_job_none hv)), hrest⟩

/-- RECON of 1 to N leaves: it ends on the bits it reads, or where the input ends. -/
theorem exec_recon_cases {s : State} {l : Word} (h1 : 1 ≤ l.toNat) (hl : l.toNat ≤ s.params.width.alphabet) :
    (∃ read v i, inBits s = read ++ Input.bits i ∧ ReconEnds s l.toNat read v ∧
      exec (.recon l) s = .next (v.withInput i)) ∨
    (s.inClosed = true ∧ ∃ b : Byte, exec (.recon l) s = .next (takeError .endOfStream
      (BitVec.ofNat 32 (inBits s).length) s.cmd { s with tree := Tree.cleared, rbuf := b, rcur := none, inq := [] })) ∨
    (s.inClosed = false ∧ ∃ t, exec (.recon l) s = .next t ∧ t.job ≠ none) := by
  obtain ⟨u, hu, hmid, hcases⟩ := startInstr_recon h1 hl
  rcases hcases (inBits s) with ⟨read, rest, v, hb, hd, hv⟩ | ⟨more, v, hmore, hd⟩
  · obtain ⟨i, hexec, rfl⟩ := exec_recon_ended hu hd hv.job_none hb
    exact .inl ⟨read, v, i, hb, hv, hexec⟩
  · exact .inr (exec_recon_short hu hmid hd hmore rfl)

/-! ## The obligations -/

theorem job_none_of_exec {i : Instr} {s t : State} (hs : s.mode = .busy) (h : exec i s = .next t) (ht : t.mode ≠ .busy) :
    t.job = none := by
  obtain ⟨u, hu, hrun⟩ := exec_next h
  have hin := inCommand_of_runJob (inCommand_of_ends_or_goes_on hs (startInstr_mode hu)) hrun
  simpa [inCommand, ht] using hin

/-- Settles O35: RECON's ends by `exec_recon_cases`; only the one with a tree is no error. -/
theorem reconAcceptsOnlyShapes : Obligations.ReconAcceptsOnlyShapes := by
  intro s l hs hpend h1 hl fits
  have hcases := exec_recon_cases h1 hl
  refine ⟨fun t hexec hm => ?_, fun ⟨p, rest, hlen, hnodup, hlegal, hb⟩ => ?_, fun hc hno => ?_⟩
  · have hjob := job_none_of_exec hs hexec (by simp [hm])
    rcases hcases with ⟨read, v, i, hb, hv, he⟩ | ⟨-, b, he⟩ | ⟨-, t', he, hjob'⟩ <;> cases he.symm.trans hexec
    · cases hv with
      | error => cases hm
      | @complete t p q hq _ hlen hnodup hlegal hshape =>
        have hkeep : (State.withInput i (finish { s with tree := t })).params = s.params := finish_params _
        refine ⟨.inr ⟨q, ?_⟩, p, hlen, hnodup, hlegal, hshape ▸ hb⟩
        rw [hkeep]
        exact (congrArg (isTree s.params.width · q) (finish_tree _)).trans hq
    · cases hm
    · exact absurd hjob hjob'
  · obtain ⟨t, i, -, hexec, -⟩ := exec_recon_shape hlen.symm hnodup hlegal hb
    exact ⟨_, hexec, finish_idle (s := State.withInput i { s with tree := t }) hpend⟩
  · rcases hcases with ⟨read, v, i, hb, hv, he⟩ | ⟨-, b, he⟩ | ⟨hopen, -⟩
    · cases hv with
      | error h2 _ => exact ⟨_, he, rfl, .inl ⟨rfl, h2⟩⟩
      | complete _ _ hlen hnodup hlegal hshape => exact absurd ⟨_, _, hlen, hnodup, hlegal, hshape ▸ hb⟩ hno
    · exact ⟨_, he, rfl, .inr rfl⟩
    · cases hc.symm.trans hopen

/-- RECON that has read items and gets another ends as `AfterItem` says, where it does not read on. -/
theorem exec_recon_item {s : State} {l : Word} {ms : List Marker} {m : Marker} {rest : List Bool} (h2 : 2 ≤ l.toNat)
    (hl : l.toNat ≤ s.params.width.alphabet) (hms : underWay s.params.width l.toNat ms) (hm : m.legal s.params.width)
    (hb : inBits s = ms.flatMap (Marker.bits s.params.width) ++ m.bits s.params.width ++ rest) :
    ∃ v, AfterItem s l.toNat ms m v ∧
      (v.job = none → ∃ i : Input, exec (.recon l) s = .next (v.withInput i) ∧ i.bits = rest) := by
  obtain ⟨t, c, k, hhead, hread⟩ := deliverBits_underWay h2 hl hms
  obtain ⟨v, hd, hv⟩ := deliverBits_marker hhead k hm
  refine ⟨v, hv, fun hjob => exec_recon_ended (startInstr_recon_many h2 hl) ?_ hjob hb⟩
  rw [deliverBits_append, hread]
  exact hd

/-- RECON L in a closed input that ends inside an item, or before it. -/
theorem exec_recon_item_short {s : State} {l : Word} {ms : List Marker} {m : Marker} {part more : List Bool}
    (h2 : 2 ≤ l.toNat) (hl : l.toNat ≤ s.params.width.alphabet) (hms : underWay s.params.width l.toNat ms)
    (hm : m.legal s.params.width) (hpart : m.bits s.params.width = part ++ more) (hmore : more ≠ [])
    (hb : inBits s = ms.flatMap (Marker.bits s.params.width) ++ part) (hc : s.inClosed = true) :
    ∃ b : Byte, exec (.recon l) s = .next (takeError .endOfStream (BitVec.ofNat 32 (inBits s).length) s.cmd
      { s with tree := Tree.cleared, rbuf := b, rcur := none, inq := [] }) := by
  obtain ⟨t, c, k, hhead, hread⟩ := deliverBits_underWay h2 hl hms
  obtain ⟨v, hd, -⟩ := deliverBits_marker hhead k hm
  have hall : deliverBits (inBits s ++ more) (reconHead l.toNat [] reconRoot 0 0 s) = some v := by
    rw [hb, List.append_assoc, ← hpart, deliverBits_append, hread]
    exact hd
  rcases exec_recon_short (startInstr_recon_many h2 hl) ⟨reconRoot, _, rfl, rfl⟩ hall hmore rfl with ⟨-, h⟩ | ⟨hopen, -⟩
  · exact h
  · cases hc.symm.trans hopen

/-- RECON L raises the error, charged to its word: the tree is EMPTY, and `rest` of the input is left. -/
def reconRaises (l : Word) (rest : List Bool) (e : ErrorCode) (info : Word) (s : State) : Prop :=
  ∃ (b : Byte) (c : Option (Fin 8)) (q : List Byte),
    let u := { s with tree := Tree.cleared, rbuf := b, rcur := c, inq := q }
    exec (.recon l) s = .next (takeError e info s.cmd u) ∧ inBits u = rest

theorem reconRaises_of_raiseRecon {s : State} {l : Word} {rest : List Bool} {e : ErrorCode} {info : Word}
    (h : ∃ i : Input, exec (.recon l) s = .next ((raiseRecon e info s).withInput i) ∧ i.bits = rest) :
    reconRaises l rest e info s := by
  obtain ⟨i, hexec, hrest⟩ := h
  exact ⟨i.rbuf, i.rcur, i.inq, hexec, hrest⟩

section
variable {s : State} {l : Word} {ms : List Marker} {rest : List Bool} (h2 : 2 ≤ l.toNat)
  (hl : l.toNat ≤ s.params.width.alphabet) (hms : underWay s.params.width l.toNat ms)
include h2 hl hms

/-- A bit 0 that would be an L-th internal node. -/
theorem reconRaises_tooManyInternals (hlast : internalCount ms + 2 = l.toNat)
    (hb : inBits s = ms.flatMap (Marker.bits s.params.width) ++ false :: rest) : reconRaises l rest .shapeError 1 s := by
  obtain ⟨v, hv, hends⟩ := exec_recon_item (m := .internal) (rest := rest) h2 hl hms trivial
    (by rw [hb, List.append_assoc]; rfl)
  cases hv with
  | tooManyInternals => exact reconRaises_of_raiseRecon (hends rfl)
  | readsOn h => exact absurd hlast (internalCount_ne_of_underWay h.read)

section
variable {x : Symbol} (hx : x.toNat < s.params.width.alphabet)
  (hb : inBits s = ms.flatMap (Marker.bits s.params.width) ++ Marker.bits s.params.width (.leaf x) ++ rest)
include hx hb

/-- A leaf that closes the tree before L leaves. -/
theorem reconRaises_closedEarly (hnew : x ∉ markedSymbols ms) (hfull : openSlots 2 ms = some 1)
    (hearly : (markedSymbols ms).length + 1 < l.toNat) : reconRaises l rest .shapeError 2 s := by
  obtain ⟨v, hv, hends⟩ := exec_recon_item (m := .leaf x) h2 hl hms hx hb
  cases hv with
  | closedEarly => exact reconRaises_of_raiseRecon (hends rfl)
  | repeatedSymbol hmem => exact absurd hmem hnew
  | complete _ _ hlen => omega
  | readsOn h => exact absurd hfull (openSlots_ne_one_of_underWay h.read)

/-- A leaf of a symbol that has one. -/
theorem reconRaises_repeatedSymbol (hmem : x ∈ markedSymbols ms) : reconRaises l rest .shapeError 3 s := by
  obtain ⟨v, hv, hends⟩ := exec_recon_item (m := .leaf x) h2 hl hms hx hb
  cases hv with
  | repeatedSymbol => exact reconRaises_of_raiseRecon (hends rfl)
  | closedEarly hnew => exact absurd hmem hnew
  | complete hnew => exact absurd hmem hnew
  | readsOn h => exact absurd hmem (not_mem_of_underWay h.read)

end

/-- The closed input ends before an item, or inside a leaf. -/
theorem reconRaises_endOfStream {part : List Bool} (hc : s.inClosed = true) (hpart : part.length < s.params.width.bits)
    (hb : inBits s = ms.flatMap (Marker.bits s.params.width) ∨
      inBits s = ms.flatMap (Marker.bits s.params.width) ++ true :: part) :
    reconRaises l [] .endOfStream (BitVec.ofNat 32 (inBits s).length) s := by
  obtain ⟨b, hexec⟩ : ∃ b : Byte, exec (.recon l) s = .next (takeError .endOfStream (BitVec.ofNat 32 (inBits s).length)
      s.cmd { s with tree := Tree.cleared, rbuf := b, rcur := none, inq := [] }) := by
    rcases hb with hb | hb
    · exact exec_recon_item_short (m := .internal) (part := []) h2 hl hms trivial rfl (by simp)
        (by rw [hb, List.append_nil]) hc
    · obtain ⟨x, more, hx, hmore, hbits⟩ := exists_symbolBits_of_part hpart
      exact exec_recon_item_short (m := .leaf x) (part := true :: part) h2 hl hms hx (congrArg (true :: ·) hbits) hmore hb hc
  exact ⟨b, none, [], hexec, rfl⟩

end

/-- RECON 1 in a closed input of fewer than W bits. -/
theorem exec_recon_one_short {s : State} (hc : s.inClosed = true) (hlen : (inBits s).length < s.params.width.bits) :
    ∃ b : Byte, exec (.recon 1) s = .next (takeError .endOfStream (BitVec.ofNat 32 (inBits s).length) s.cmd
      { s with tree := Tree.cleared, rbuf := b, rcur := none, inq := [] }) := by
  rcases exec_recon_cases (s := s) (l := 1) le_rfl (alphabet_pos _) with ⟨read, v, i, hb, hv, -⟩ | ⟨-, h⟩ | ⟨hopen, -⟩
  · cases hv with
    | error h2 => exact absurd h2 (by decide)
    | complete _ _ hp _ _ hshape =>
      have hlong : s.params.width.bits ≤ (inBits s).length := by
        rw [hb, ← hshape, List.length_append, PTree.shape_length, hp]
        exact Nat.le_add_right ..
      omega
  · exact h
  · cases hc.symm.trans hopen

/-- How RECON L leaves the core HALTED: by an error of its own with the tree EMPTY, or by a latched one where it completes;
RESULT, FREQ and the writer are unchanged. -/
def reconHalts (s : State) (l : Nat) (t : State) : Prop :=
  t.result = s.result ∧ t.freq = s.freq ∧ t.wbuf = s.wbuf ∧ t.wn = s.wn ∧ t.outq = s.outq ∧
  ((t.tree = Tree.cleared ∧ joinWords t.errCmdHi t.errCmdLo = s.cmd ∧
      ((t.err = .shapeError ∧ 2 ≤ l ∧ (t.errInfo = 1 ∨ t.errInfo = 2 ∨ t.errInfo = 3)) ∨
        (t.err = .endOfStream ∧ 1 ≤ l ∧ t.rcur = none ∧ t.inq = [] ∧ t.errInfo = BitVec.ofNat 32 (inBits s).length))) ∨
    (s.pend = true ∧ t = takeError s.pendCode s.pendInfo s.pendCmd t ∧ treeOk t.params.width t.tree ∧ t.tree.nleaves = l))

/-- A RECON that completes leaves the core HALTED only by taking a latched error. -/
theorem reconHalts_of_complete {s : State} {l : Nat} {tree : Tree} (i : Input) (hok : treeOk s.params.width tree)
    (hn : tree.nleaves = l) (hm : (finish ({ s with tree := tree }.withInput i)).mode = .halted) :
    reconHalts s l (finish ({ s with tree := tree }.withInput i)) := by
  rcases finish_mode (State.withInput i { s with tree := tree }) with ⟨hidle, -⟩ | ⟨-, hpend⟩
  · cases hm.symm.trans hidle
  · rw [finish_of_pend hpend]
    exact ⟨rfl, rfl, rfl, rfl, rfl, .inr ⟨hpend, rfl, hok, hn⟩⟩

/-- RECON leaves the core HALTED in no other way. -/
theorem reconHalts_of_exec {s t : State} {l : Word} (hl : l.toNat ≤ s.params.width.alphabet) (hs : s.mode = .busy)
    (hexec : exec (.recon l) s = .next t) (hm : t.mode = .halted) : reconHalts s l.toNat t := by
  by_cases hzero : l.toNat = 0
  · cases BitVec.eq_of_toNat_eq (y := 0) hzero
    cases (exec_recon_zero s).symm.trans hexec
    exact reconHalts_of_complete s.input (treeOk_cleared _) rfl hm
  · rcases exec_recon_cases (by omega) hl with ⟨read, v, i, -, hv, he⟩ | ⟨-, b, he⟩ | ⟨-, t', he, hjob⟩ <;>
      cases he.symm.trans hexec
    · cases hv with
      | error h2 hinfo => exact ⟨rfl, rfl, rfl, rfl, rfl, .inl ⟨rfl, joinWords_high_low s.cmd, .inl ⟨rfl, h2, hinfo⟩⟩⟩
      | complete hq hn =>
        rw [← finish_withInput] at hm ⊢
        exact reconHalts_of_complete i (.inr ⟨_, hq⟩) hn hm
    · exact ⟨rfl, rfl, rfl, rfl, rfl, .inl ⟨rfl, joinWords_high_low s.cmd, .inr ⟨rfl, by omega, rfl, rfl, rfl⟩⟩⟩
    · exact absurd (job_none_of_exec hs hexec (by simp [hm])) hjob

/-- Settles O36: the causes by `AfterItem` and the input's end, and by `exec_recon_cases` that there are no others. -/
theorem reconErrorsLeaveNoTree : Obligations.ReconErrorsLeaveNoTree := by
  refine ⟨fun s l ms rest h2 hl hms => ⟨reconRaises_tooManyInternals h2 hl hms, fun x hx hb =>
    ⟨reconRaises_closedEarly h2 hl hms hx hb, reconRaises_repeatedSymbol h2 hl hms hx hb⟩, fun part hc hrest hpart hb => ?_⟩,
    fun s => exec_recon_one_short, fun s t l => reconHalts_of_exec⟩
  rw [hrest]
  exact reconRaises_endOfStream h2 hl hms hc hpart hb

end Sys2Proof.Machine
end

section
/-! PROOF. Who writes RESULT: reset, and the commands that return a value in it, in the micro-step of their return
(spec/10_state.md R27; spec/70_reset_and_hazards.md R305; log 4). -/

namespace Sys2Proof.Machine

/-! ## A turn as one micro-step and what follows it -/

/-- A run turn of a BUSY core is its next micro-step, and then the run to the command's end or hold. -/
theorem runTurn_eq_runFrom {s : State} (hb : s.mode = .busy) : runTurn s = runFrom (microStep s) s := by
  cases hj : s.job with
  | some j =>
    rw [runTurn_begun hb hj, runJob_eq]
    simp only [microStep, hj]
    rfl
  | none =>
    simp only [microStep, hj, beginCommand]
    cases hd : decode s.cmd with
    | ok i => exact (runTurn_issued hb hj hd).trans (exec_eq_runFrom i s)
    | error e =>
      obtain ⟨code, info, he⟩ := raiseDecode_eq e s
      have hend : runJob (raiseDecode e s) = .next (raiseDecode e s) := runJob_of_job_none (by rw [he]; rfl)
      exact (runTurn_illegal hb hj hd).trans hend.symm

/-- A run turn that changes anything begins with a micro-step. -/
theorem runTurn_next {s t : State} (h : runTurn s = .next t) :
    t = s ∨ s.mode = .busy ∧ ∃ u, microStep s = .moved u ∧ runJob u = .next t := by
  by_cases hb : s.mode = .busy
  · rw [runTurn_eq_runFrom hb] at h
    cases hm : microStep s with
    | moved u => rw [hm] at h; exact .inr ⟨hb, u, rfl, h⟩
    | waiting => rw [hm] at h; cases h; exact .inl rfl
    | broken f => rw [hm] at h; cases h
  · rw [runTurn_not_busy hb] at h
    cases h
    exact .inl rfl

/-- A core turn that changes anything is a micro-step. -/
theorem coreTurn_eq_or_microStep {s t : State} (h : coreTurn s = .next t) :
    t = s ∨ s.mode = .busy ∧ microStep s = .moved t := by
  unfold coreTurn at h
  split at h
  · split at h <;> cases h
    · exact .inr ⟨‹_›, ‹_›⟩
    · exact .inl rfl
  · cases h; exact .inl rfl

/-! ## One micro-step and RESULT -/

/-- A read of RBITS or DEC is under way: these reads end in a value for RESULT, RECON's do not. -/
def resultDue (s : State) : Prop := ∃ r k, s.job = some (.read r k) ∧ r.isRecon = false

/-- The command's return with a value for RESULT: besides, only the reader has changed. -/
def returnsResult (s t : State) : Prop := ∃ (i : Input) (v : Word), t = finishWith v (s.withInput i)

/-- What a micro-step does about RESULT. Only where `due` holds does it read on towards a value, or return one. -/
inductive ResultStep (due : Prop) (s t : State) : Prop
  | kept (hresult : t.result = s.result) (hnot : ¬ resultDue t)
  | reading (hdue : due) (i : Input) (r : Reader) (k : Nat) (ht : t = (s.withInput i).reading r k)
  | returned (hdue : due) (ht : returnsResult s t)

theorem not_resultDue_of_job_none {t : State} (h : t.job = none) : ¬ resultDue t := by
  rintro ⟨r, k, hj, -⟩
  cases h.symm.trans hj

section
variable {due : Prop} {s t : State}

/-- A command that ends with RESULT as it was. -/
theorem ResultStep.ended (hresult : t.result = s.result) (hjob : t.job = none) : ResultStep due s t :=
  .kept hresult (not_resultDue_of_job_none hjob)

/-- A return with RESULT as it was. -/
theorem ResultStep.finished (hresult : t.result = s.result) : ResultStep due s (finish t) :=
  .ended ((finish_result t).trans hresult) (finish_job t)

/-- A step that changes RESULT is a return, and one was due. -/
theorem ResultStep.returns (h : ResultStep due s t) (hne : t.result ≠ s.result) : due ∧ returnsResult s t := by
  cases h with
  | kept hresult => exact absurd hresult hne
  | reading _ i r k ht => subst ht; exact absurd rfl hne
  | returned hdue ht => exact ⟨hdue, ht⟩

/-- The grounds for a value may be named otherwise. -/
theorem ResultStep.imp {due' : Prop} (hd : due → due') (h : ResultStep due s t) : ResultStep due' s t := by
  cases h with
  | kept hresult hnot => exact .kept hresult hnot
  | reading hdue i r k ht => exact .reading (hd hdue) i r k ht
  | returned hdue ht => exact .returned (hd hdue) ht

end

/-- A bit for RBITS or DEC: the value is returned, or the command reads on. -/
theorem returns_or_reads_of_deliver {r : Reader} {b : Bool} {k : Nat} {s t : State} (hr : r.isRecon = false)
    (h : deliver r b k s = .moved t) : (∃ v, t = finishWith v s) ∨ ∃ r', t = s.reading r' k := by
  cases r with
  | field left acc =>
    simp only [deliver] at h
    split at h <;> cases h
    · exact .inl ⟨_, rfl⟩
    · exact .inr ⟨_, rfl⟩
  | walk i => exact (decStep_moved h).imp_right fun ⟨c, hc⟩ => ⟨_, hc⟩
  | _ => cases hr

/-- A bit for RECON leaves RESULT alone. -/
theorem deliver_recon_result {r : Reader} {b : Bool} {k : Nat} {s t : State} (hr : r.isRecon = true)
    (h : deliver r b k s = .moved t) : t.result = s.result := by
  cases r with
  | single left acc =>
    simp only [deliver] at h
    split at h <;> cases h
    · exact finish_result _
    · rfl
  | marker l n c =>
    simp only [deliver] at h
    split at h
    · cases h; rfl
    · rcases reconInternal_moved h with ⟨-, rfl⟩ | ⟨-, tree, -, rfl⟩ <;> rfl
  | leaf l n c left acc =>
    simp only [deliver] at h
    split at h
    · rcases reconLeaf_moved h with ⟨-, rfl⟩ | ⟨-, tree, -, hnext⟩
      · rfl
      · rcases reconNext_moved hnext with ⟨-, -, rfl⟩ | ⟨-, rfl⟩ | ⟨-, c', -, rfl⟩
        · rfl
        · exact finish_result _
        · rfl
    · cases h; rfl
  | _ => cases hr

theorem resultStep_of_readBit {r : Reader} {k : Nat} {s t : State} (hj : s.job = some (.read r k))
    (h : readBit r k s = .moved t) : ResultStep (resultDue s) s t := by
  rcases readBit_cases r k s with ⟨b, q, -, -, e⟩ | ⟨-, -, -, e⟩ | ⟨-, -, -, e⟩ | ⟨c, -, e⟩ <;> rw [e] at h
  · cases h
    cases hr : r.isRecon with
    | false =>
      exact .reading ⟨r, k, hj, hr⟩ ⟨b, some 7, q⟩ r k
        (congrArg (State.withInput { rbuf := b, rcur := some 7, inq := q }) (reading_of_job hj).symm)
    | true =>
      refine .kept rfl ?_
      rintro ⟨r', k', hj', hr'⟩
      cases hj.symm.trans hj'
      cases hr.symm.trans hr'
  · cases h
    rw [endOfStream_eq]
    exact .ended (by split <;> rfl) rfl
  · cases h
  · cases hr : r.isRecon with
    | false =>
      rcases returns_or_reads_of_deliver hr h with ⟨v, ht⟩ | ⟨r', ht⟩
      · exact .returned ⟨r, k, hj, hr⟩ ⟨s.input.afterBit c, v, ht⟩
      · exact .reading ⟨r, k, hj, hr⟩ (s.input.afterBit c) r' (k + 1) ht
    | true =>
      refine .kept (deliver_recon_result hr h :) ?_
      rintro ⟨r', k', hj', hr'⟩
      obtain ⟨-, hsame, -⟩ := reading_of_deliver h hj'
      cases (hsame.trans hr).symm.trans hr'

theorem resultStep_of_advance {j : Job} {s t : State} (hj : s.job = some j) (h : advance j s = .moved t) :
    ResultStep (resultDue s) s t := by
  match j with
  | .put [] => cases h; exact .finished rfl
  | .put (b :: bits) =>
    cases h
    rcases writeBit_cases b bits s with ⟨-, e⟩ | ⟨-, e⟩ <;> rw [e] <;> exact .kept rfl (by simp [resultDue])
  | .push bits =>
    obtain ⟨-, rfl⟩ := outPush_moved h
    exact .kept rfl (by simp [resultDue])
  | .emptyInput => cases h; exact .kept rfl (by simp [resultDue])
  | .reopenInput => cases h; exact .finished rfl
  | .read r k => exact resultStep_of_readBit hj h

/-! ## The commands -/

/-- The four commands that return a value. -/
def writesResult (i : Instr) : Prop := (∃ x, i = .getf x) ∨ i = .nleaf ∨ (∃ n, i = .rbits n) ∨ i = .dec

/-- The range check raises, or leaves the answer to the command's body. -/
theorem resultStep_of_checkRange {due : Prop} {ok : Bool} {body : State → CoreStep} {s t : State}
    (hbody : body s = .moved t → ResultStep due s t) (h : checkRange ok body s = .moved t) : ResultStep due s t := by
  cases ok
  · cases h; exact .ended rfl rfl
  · exact hbody h

theorem resultStep_of_startDec {due : Prop} (hdue : due) {s t : State} (h : startDec s = .moved t) :
    ResultStep due s t := by
  unfold startDec at h
  split at h
  · cases h; exact .ended rfl rfl
  · split at h
    · cases h
    · split at h <;> cases h
      · exact .returned hdue ⟨s.input, _, rfl⟩
      · exact .reading hdue s.input _ _ rfl

theorem resultStep_of_encBody {due : Prop} {x : Symbol} {s t : State} (h : encBody x s = .moved t) :
    ResultStep due s t := by
  unfold encBody at h
  split at h
  · cases h; exact .ended rfl rfl
  · split at h <;> cases h
    exact .kept rfl (by simp [resultDue])

theorem resultStep_of_reconBody {due : Prop} {l : Nat} {s t : State} (h : reconBody l s = .moved t) :
    ResultStep due s t := by
  unfold reconBody at h
  split at h
  · cases h; exact .finished rfl
  · split at h <;> cases h <;> exact .kept rfl (by simp [resultDue, Reader.isRecon])

/-- The first micro-step of a command. -/
theorem resultStep_of_startInstr {i : Instr} {s t : State} (h : startInstr i s = .moved t) :
    ResultStep (writesResult i) s t := by
  cases i with
  | wbits n v =>
    rw [startInstr, startWbits] at h
    exact resultStep_of_checkRange (fun hb => by cases hb; exact .kept rfl (by simp [resultDue])) h
  | flush =>
    simp only [startInstr, startFlush] at h
    split at h <;> cases h
    · exact .finished rfl
    · exact .kept rfl (by simp [resultDue])
  | rbits n =>
    rw [startInstr, startRbits] at h
    refine resultStep_of_checkRange (fun hb => ?_) h
    cases hb
    exact .reading (.inr (.inr (.inl ⟨n, rfl⟩))) s.input _ _ rfl
  | rrst => cases h; exact .kept rfl (by simp [resultDue])
  | clrf => cases h; exact .finished rfl
  | setf x c =>
    rw [startInstr, startSetf] at h
    exact resultStep_of_checkRange (fun hb => by cases hb; exact .finished rfl) h
  | getf x =>
    rw [startInstr, startGetf] at h
    refine resultStep_of_checkRange (fun hb => ?_) h
    cases hb
    exact .returned (.inl ⟨x, rfl⟩) ⟨s.input, _, rfl⟩
  | build => cases h; exact .finished rfl
  | clrt => cases h; exact .finished rfl
  | nleaf => cases h; exact .returned (.inr (.inl rfl)) ⟨s.input, _, rfl⟩
  | enc x => exact resultStep_of_checkRange resultStep_of_encBody h
  | dec => exact resultStep_of_startDec (.inr (.inr (.inr rfl))) h
  | ser =>
    simp only [startInstr, startSer] at h
    split at h <;> cases h
    exact .kept rfl (by simp [resultDue])
  | recon l => exact resultStep_of_checkRange resultStep_of_reconBody h

/-- The word in progress is one of the four commands. -/
def resultCommand (s : State) : Prop := ∃ i, decode s.cmd = .ok i ∧ writesResult i

/-- Only RBITS and DEC have such a read under way (spec/10_state.md R46). -/
theorem resultCommand_of_resultDue {s : State} (hlegal : jobLegal s = true) (hdue : resultDue s) : resultCommand s := by
  obtain ⟨r, k, hj, hr⟩ := hdue
  simp only [jobLegal, hj, Bool.and_eq_true] at hlegal
  obtain ⟨-, hcmd⟩ := hlegal
  cases hd : decode s.cmd with
  | error e => simp [hd] at hcmd
  | ok i =>
    simp only [hd, Bool.and_eq_true] at hcmd
    obtain ⟨-, hbelongs⟩ := hcmd
    refine ⟨i, hd, ?_⟩
    cases r with
    | field left acc =>
      cases i with
      | rbits n => exact .inr (.inr (.inl ⟨n, rfl⟩))
      | _ => cases hbelongs
    | walk node =>
      cases i with
      | dec => exact .inr (.inr (.inr rfl))
      | _ => cases hbelongs
    | _ => cases hr

theorem resultStep_of_microStep {s t : State} (hlegal : jobLegal s = true) (h : microStep s = .moved t) :
    ResultStep (resultCommand s) s t := by
  unfold microStep at h
  split at h
  · unfold beginCommand at h
    split at h
    · rename_i i hd
      exact (resultStep_of_startInstr h).imp fun hi => ⟨i, hd, hi⟩
    · rename_i e _
      cases h
      obtain ⟨code, info, he⟩ := raiseDecode_eq e s
      rw [he]
      exact .ended rfl rfl
  · rename_i j hj
    exact (resultStep_of_advance hj h).imp (resultCommand_of_resultDue hlegal)

/-! ## Turns -/

/-- A micro-step and the run after it: RESULT changes by a return alone. -/
theorem ResultStep.run {due : Prop} {s u t : State} (h : ResultStep due s u) (hrun : runJob u = .next t)
    (hlater : t.result ≠ u.result → resultDue u ∧ returnsResult u t) (hne : t.result ≠ s.result) :
    due ∧ returnsResult s t := by
  cases h with
  | kept hresult hnot =>
    rw [← hresult] at hne
    exact absurd (hlater hne).1 hnot
  | reading hdue i r k hu =>
    subst hu
    obtain ⟨-, i', v, ht⟩ := hlater hne
    exact ⟨hdue, i', v, ht.trans (finishWith_reading r k (s.withInput i') v)⟩
  | returned hdue hu =>
    obtain ⟨i, v, rfl⟩ := hu
    cases (runJob_finish _).symm.trans hrun
    exact ⟨hdue, i, v, rfl⟩

theorem returnsResult_of_runJob {s t : State} (h : runJob s = .next t) (hne : t.result ≠ s.result) :
    resultDue s ∧ returnsResult s t :=
  runJob_induction (P := fun s t => t.result ≠ s.result → resultDue s ∧ returnsResult s t)
    (fun _ _ hne => absurd rfl hne) (fun _ _ _ _ hne => absurd rfl hne)
    (fun _ _ _ _ hj ha hrun ih hne => (resultStep_of_advance hj ha).run hrun ih hne) h hne

/-- What a turn that changes RESULT does: one of the four commands returns. -/
def returnsFromCommand (s t : State) : Prop := s.mode = .busy ∧ resultCommand s ∧ returnsResult s t

section
variable {s t : State} (hlegal : jobLegal s = true) (hne : t.result ≠ s.result)
include hlegal hne

theorem returnsFromCommand_of_coreTurn (h : coreTurn s = .next t) : returnsFromCommand s t := by
  rcases coreTurn_eq_or_microStep h with rfl | ⟨hb, hm⟩
  · exact absurd rfl hne
  · exact ⟨hb, (resultStep_of_microStep hlegal hm).returns hne⟩

theorem returnsFromCommand_of_runTurn (h : runTurn s = .next t) : returnsFromCommand s t := by
  rcases runTurn_next h with rfl | ⟨hb, u, hm, hrun⟩
  · exact absurd rfl hne
  · exact ⟨hb, (resultStep_of_microStep hlegal hm).run hrun (returnsResult_of_runJob hrun) hne⟩

end

theorem hostProtocolError_result (e : ErrorCode) (i : Word) (c : Command) (s : State) :
    (hostProtocolError e i c s).result = s.result := by
  rcases hostProtocolError_cases e i c s with ⟨h, -⟩ | ⟨h, -⟩ | ⟨h, -⟩ <;> rw [h]
  exact takeError_result ..

theorem pushByte_result (b : Byte) (s : State) : (pushByte b s).result = s.result := by
  rcases pushByte_cases b s with ⟨-, -, h⟩ | ⟨-, i, h⟩ <;> rw [h]
  exact hostProtocolError_result ..

theorem writeCmdHi_result (v : Word) (s : State) : (writeCmdHi v s).result = s.result := by
  rcases writeCmdHi_cases v s with ⟨-, h⟩ | ⟨-, h⟩ | ⟨-, h⟩ <;> rw [h]
  exact hostProtocolError_result ..

/-- Only a CTRL write of bit 0 changes RESULT. -/
theorem ctrl_of_writeReg_result {r : Reg} {v : Word} {s : State} (h : (writeReg r v s).result ≠ s.result) :
    r = .ctrl ∧ v.getLsbD 0 = true := by
  cases r with
  | cmdHi => exact absurd (writeCmdHi_result v s) h
  | inData => exact absurd (pushByte_result _ s) h
  | inCtrl => simp only [writeReg] at h; split at h <;> exact absurd rfl h
  | ctrl =>
    simp only [writeReg] at h
    split at h
    · exact ⟨rfl, ‹_›⟩
    · exact absurd rfl h
  | _ => exact absurd rfl h

/-- A host transaction that changes RESULT is a reset. -/
theorem isReset_of_hostTurn_result {op : HostOp} {s t : State} (h : hostTurn op s = .next t)
    (hne : t.result ≠ s.result) : isReset s.params (.host op) = true ∧ t.result = 0 := by
  cases op with
  | resetInput => cases h; exact ⟨rfl, rfl⟩
  | read addr size =>
    simp only [hostTurn] at h
    split at h <;> cases h
    rw [readEffect_eq] at hne
    exact absurd rfl hne
  | write addr size v =>
    simp only [hostTurn] at h
    split at h <;> cases h
    rename_i r hacc
    obtain ⟨rfl, hv⟩ := ctrl_of_writeReg_result hne
    simp only [isReset, hacc, hv, writeReg, if_true, decide_true, Bool.and_self, resetCore_result, and_self]

/-! ## The statement -/

theorem finishWith_of_not_pend {v : Word} {s : State} (h : s.pend = false) :
    finishWith v s = { s with result := v, mode := .idle, job := none, cmd := 0 } :=
  finish_of_not_pend (s := { s with result := v }) h

theorem finishWith_of_pend {v : Word} {s : State} (h : s.pend = true) :
    finishWith v s = takeError s.pendCode s.pendInfo s.pendCmd { s with result := v } :=
  finish_of_pend (s := { s with result := v }) h

/-- A return with a value ends the command as R266 says: IDLE, or the latched host-protocol error taken. -/
theorem completion_of_returnsFromCommand {s t : State} (hmode : modeOk s = true) (h : returnsFromCommand s t) :
    s.mode = .busy ∧ t.mode ≠ .busy ∧ resultCommand s ∧
      t = finish { s with agenda := t.agenda, rbuf := t.rbuf, rcur := t.rcur, inq := t.inq, result := t.result } ∧
      (s.pend = false → t.mode = .idle ∧ t.err = .noError) ∧
      (s.pend = true → t = takeError s.pendCode s.pendInfo s.pendCmd t ∧
        (s.pendCode = .cmdOverrun ∨ s.pendCode = .inputProtocol)) := by
  obtain ⟨hb, hcmd, i, v, rfl⟩ := h
  obtain ⟨-, hcode, herr⟩ := modeOk_iff.mp hmode
  refine ⟨hb, finish_not_busy _, hcmd, ?_, fun hp => ?_, fun hp => ⟨?_, hcode hp⟩⟩
  · simp only [finishWith, finish_agenda, finish_rbuf, finish_rcur, finish_inq, finish_result]
    rfl
  · rw [finishWith_of_not_pend (s := s.withInput i) hp]
    exact ⟨rfl, herr.mpr (by simp [hb])⟩
  · rw [finishWith_of_pend (s := s.withInput i) hp]
    rfl

/-- Settles O42: a host transaction changes RESULT only as a reset, and a turn of the core only as the return of one of
the four commands. -/
theorem resultChangesOnlyAtCompletion : Obligations.ResultChangesOnlyAtCompletion := by
  intro s t hm h hne
  obtain ⟨-, -, -, hmode, -, hlegal⟩ := machineOk_iff.mp hm
  match ha : s.agenda with
  | [] =>
    exact .inr (completion_of_returnsFromCommand hmode
      (returnsFromCommand_of_runTurn hlegal hne ((step_of_agenda_nil ha).symm.trans h)))
  | .core :: rest =>
    exact .inr (completion_of_returnsFromCommand (s := { s with agenda := rest }) hmode
      (returnsFromCommand_of_coreTurn hlegal hne ((step_of_core ha).symm.trans h)))
  | .run :: rest =>
    exact .inr (completion_of_returnsFromCommand (s := { s with agenda := rest }) hmode
      (returnsFromCommand_of_runTurn hlegal hne ((step_of_run ha).symm.trans h)))
  | .host op :: rest =>
    obtain ⟨hreset, hzero⟩ := isReset_of_hostTurn_result ((step_of_host ha).symm.trans h) hne
    exact .inl ⟨_, _, rfl, hreset, hzero⟩

end Sys2Proof.Machine
end

section
/-! PROOF. The command words: a word that decodes is the word of its command, and the worked encodings
(spec/30_encoding.md R101 to R104, R114). -/

namespace Sys2Proof.Machine

/-- A word with RSV 0 is put together from its other fields (R101). -/
theorem commandWord_fields {w : Command} (h : rsvField w = 0) :
    commandWord (opField w) (aField w) (bField w) = w := by
  have hw := wordOf_fields w
  rwa [h] at hw

theorem opField_eq_of_toNat {w : Command} {n : Nat} (h : (opField w).toNat = n) : opField w = BitVec.ofNat 4 n := by
  rw [← h, BitVec.ofNat_toNat, BitVec.setWidth_eq]

/-! What each format's decoder says of the word it takes (R102): the operands are its fields, and the others are 0. -/

section
variable {w : Command} {n : Nat} (hop : (opField w).toNat = n) {i : Instr}
include hop

theorem encode_of_decodeN {j : Instr} (henc : encode j = commandWord (BitVec.ofNat 4 n) 0 0)
    (h : decodeN j w = .ok i) : encode i = commandWord (opField w) (aField w) (bField w) := by
  unfold decodeN at h
  split at h <;> cases h
  rename_i hz
  rw [henc, opField_eq_of_toNat hop, hz.1, hz.2]

theorem encode_of_decodeA {f : BitVec 16 → Instr} (henc : ∀ a, encode (f a) = commandWord (BitVec.ofNat 4 n) a 0)
    (h : decodeA f w = .ok i) : encode i = commandWord (opField w) (aField w) (bField w) := by
  unfold decodeA at h
  split at h <;> cases h
  rename_i hz
  rw [henc, opField_eq_of_toNat hop, hz]

theorem encode_of_decodeB {f : Word → Instr} (henc : ∀ b, encode (f b) = commandWord (BitVec.ofNat 4 n) 0 b)
    (h : decodeB f w = .ok i) : encode i = commandWord (opField w) (aField w) (bField w) := by
  unfold decodeB at h
  split at h <;> cases h
  rename_i hz
  rw [henc, opField_eq_of_toNat hop, hz]

theorem encode_of_decodeAB {f : BitVec 16 → Word → Instr}
    (henc : ∀ a b, encode (f a b) = commandWord (BitVec.ofNat 4 n) a b) (h : decodeAB f w = .ok i) :
    encode i = commandWord (opField w) (aField w) (bField w) := by
  cases h
  rw [henc, opField_eq_of_toNat hop]

end

/-- The opcode map answers a command whose word has the opcode and the fields of the word it was given (R104). -/
theorem encode_of_decodeOp {w : Command} {i : Instr} (h : decodeOp w = .ok i) :
    encode i = commandWord (opField w) (aField w) (bField w) := by
  unfold decodeOp at h
  split at h
  case h_1 hop => exact encode_of_decodeAB hop (fun _ _ => rfl) h
  case h_2 hop => exact encode_of_decodeN hop rfl h
  case h_3 hop => exact encode_of_decodeA hop (fun _ => rfl) h
  case h_4 hop => exact encode_of_decodeN hop rfl h
  case h_5 hop => exact encode_of_decodeN hop rfl h
  case h_6 hop => exact encode_of_decodeAB hop (fun _ _ => rfl) h
  case h_7 hop => exact encode_of_decodeA hop (fun _ => rfl) h
  case h_8 hop => exact encode_of_decodeN hop rfl h
  case h_9 hop => exact encode_of_decodeN hop rfl h
  case h_10 hop => exact encode_of_decodeN hop rfl h
  case h_11 hop => exact encode_of_decodeA hop (fun _ => rfl) h
  case h_12 hop => exact encode_of_decodeN hop rfl h
  case h_13 hop => exact encode_of_decodeN hop rfl h
  case h_14 hop => exact encode_of_decodeB hop (fun _ => rfl) h
  case h_15 => cases h

theorem encode_of_decode {w : Command} {i : Instr} (h : decode w = .ok i) : encode i = w := by
  obtain ⟨⟨h0, hF⟩, hrsv, -⟩ := (decode_ok_iff w).mp ⟨i, h⟩
  rw [decode_of_rsv_zero h0 hF hrsv] at h
  exact (encode_of_decodeOp h).trans (commandWord_fields hrsv)

/-- Settles O2: one way the decoder takes a command's word apart, the other way it has looked at every field. -/
theorem decodeAndEncodeAgree : Obligations.DecodeAndEncodeAgree :=
  ⟨decode_encode, fun _ _ h => encode_of_decode h⟩

/-- Settles O1: each word is the encoding of its command. -/
theorem decodesTheWorkedEncodings : Obligations.DecodesTheWorkedEncodings :=
  ⟨decode_encode (.wbits 32 10), decode_encode .flush, decode_encode (.rbits 8), decode_encode .rrst,
    decode_encode .clrf, decode_encode (.setf 0x61 2), decode_encode (.getf 0x62), decode_encode .build,
    decode_encode .clrt, decode_encode .nleaf, decode_encode (.enc 0x63), decode_encode .dec, decode_encode .ser,
    decode_encode (.recon 3)⟩

end Sys2Proof.Machine
end

section
/-! PROOF. What every step keeps: the parameters, the form of FREQ, the channels' levels, and that MODE, ERR and PEND
agree
(spec/10_state.md R22, R44, R45; spec/60_exceptions.md R262, R265, R266). -/

namespace Sys2Proof.Machine

/-! ## A step by its micro-steps or its host transaction -/

section
variable {P : State → Prop} {s t : State}

/-- What every micro-step of a command keeps, a turn of the core keeps. -/
theorem core_keeps (hmicro : ∀ s t, P s → (s.job = none → s.mode = .busy) → microStep s = .moved t → P t) (hs : P s)
    (h : coreTurn s = .next t ∨ runTurn s = .next t) : P t := by
  rcases h with h | h
  · rcases coreTurn_eq_or_microStep h with rfl | ⟨hb, hm⟩
    · exact hs
    · exact hmicro s t hs (fun _ => hb) hm
  · rcases runTurn_next h with rfl | ⟨hb, u, hm, hrun⟩
    · exact hs
    · refine runJob_induction (P := fun s t => P s → P t) (fun _ _ hp => hp) (fun _ _ _ _ hp => hp)
        (fun s j u t hj ha _ ih hp => ih (hmicro s u hp (fun hn => ?_) ?_)) hrun (hmicro s u hs (fun _ => hb) hm)
      · cases hn.symm.trans hj
      · simpa only [microStep, hj] using ha

/-- What every micro-step and every host transaction keeps, and the agenda has no part in, a step keeps. -/
theorem step_keeps (hagenda : ∀ s rest, P s → P { s with agenda := rest })
    (hmicro : ∀ s t, P s → (s.job = none → s.mode = .busy) → microStep s = .moved t → P t)
    (hhost : ∀ s t op, P s → hostTurn op s = .next t → P t) (hs : P s) (h : step s = .next t) : P t := by
  match ha : s.agenda with
  | [] => exact core_keeps hmicro hs (.inr ((step_of_agenda_nil ha).symm.trans h))
  | .core :: rest => exact core_keeps hmicro (hagenda s rest hs) (.inl ((step_of_core ha).symm.trans h))
  | .run :: rest => exact core_keeps hmicro (hagenda s rest hs) (.inr ((step_of_run ha).symm.trans h))
  | .host op :: rest => exact hhost _ t op (hagenda s rest hs) ((step_of_host ha).symm.trans h)

end

/-- A micro-step begins a command, raises the decoder's error, or goes on with the command that has begun. -/
theorem microStep_cases {s t : State} (h : microStep s = .moved t) :
    (s.job = none ∧ ∃ i, decode s.cmd = .ok i ∧ startInstr i s = .moved t) ∨
    (s.job = none ∧ ∃ e, decode s.cmd = .error e ∧ t = raiseDecode e s) ∨
    ∃ j, s.job = some j ∧ advance j s = .moved t := by
  unfold microStep at h
  split at h
  · unfold beginCommand at h
    split at h
    · exact .inl ⟨‹_›, _, ‹_›, h⟩
    · cases h; exact .inr (.inl ⟨‹_›, _, ‹_›, rfl⟩)
  · exact .inr (.inr ⟨_, ‹_›, h⟩)

/-! ## What a host transaction can do -/

/-- Only the command registers, the channels and the host's observations have changed, no channel has grown beyond its
depth. -/
structure HostSideOnly (s t : State) : Prop where
  frame : t = { s with cmdLo := t.cmdLo, cmdHi := t.cmdHi, inq := t.inq, inClosed := t.inClosed, outq := t.outq,
                       seen := t.seen, draws := t.draws }
  levels : channelsOk s = true → channelsOk t = true

/-- The two host-protocol errors (spec/60_exceptions.md R260, R266). -/
def isHostError (e : ErrorCode) : Prop := e = .cmdOverrun ∨ e = .inputProtocol

/-- What a host transaction that is no reset does to the core (spec/20_memory.md R64). -/
inductive HostEffect (s : State) : State → Prop
  | side {t : State} (h : HostSideOnly s t) : HostEffect s t
  | issue (v : Word) (hm : s.mode = .idle) :
      HostEffect s { s with cmdHi := v, mode := .busy, cmd := joinWords v s.cmdLo, job := none }
  | taken {u : State} {e : ErrorCode} (i : Word) (c : Command) (h : HostSideOnly s u) (hm : s.mode = .idle)
      (he : isHostError e) : HostEffect s (takeError e i c u)
  | latched {u : State} {e : ErrorCode} (i : Word) (c : Command) (h : HostSideOnly s u) (hm : s.mode = .busy)
      (he : isHostError e) : HostEffect s { u with pend := true, pendCode := e, pendInfo := i, pendCmd := c }

theorem HostSideOnly.mode {s t : State} (h : HostSideOnly s t) : t.mode = s.mode := by rw [h.frame]

theorem hostEffect_of_hostProtocolError {s u : State} {e : ErrorCode} (i : Word) (c : Command) (h : HostSideOnly s u)
    (he : isHostError e) : HostEffect s (hostProtocolError e i c u) := by
  rcases hostProtocolError_cases e i c u with ⟨heq, -⟩ | ⟨heq, hm⟩ | ⟨heq, hm, -⟩ <;> rw [heq]
  · exact .side h
  · exact .taken i c h (h.mode.symm.trans hm) he
  · exact .latched i c h (h.mode.symm.trans hm) he

theorem channelsOk_iff {s : State} : channelsOk s = true ↔
    s.inq.length ≤ s.params.inDepth ∧ s.outq.length ≤ s.params.outDepth := decide_eq_true_iff

theorem hostEffect_of_writeCmdHi (v : Word) (s : State) : HostEffect s (writeCmdHi v s) := by
  rcases writeCmdHi_cases v s with ⟨hm, heq⟩ | ⟨-, heq⟩ | ⟨-, heq⟩ <;> rw [heq]
  · exact .issue v hm
  · exact hostEffect_of_hostProtocolError _ _ ⟨rfl, id⟩ (.inl rfl)
  · exact .side ⟨rfl, id⟩

theorem hostEffect_of_pushByte (b : Byte) (s : State) : HostEffect s (pushByte b s) := by
  rcases pushByte_cases b s with ⟨hroom, -, heq⟩ | ⟨-, i, heq⟩ <;> rw [heq]
  · refine .side ⟨rfl, fun h => channelsOk_iff.mpr ⟨?_, (channelsOk_iff.mp h).2⟩⟩
    rw [List.length_append]
    exact hroom
  · exact hostEffect_of_hostProtocolError _ _ ⟨rfl, id⟩ (.inr rfl)

/-- A register write resets, or is one of the four. -/
theorem hostEffect_of_writeReg (r : Reg) (v : Word) (s : State) :
    (r = .ctrl ∧ v.getLsbD 0 = true ∧ writeReg r v s = resetCore s) ∨ HostEffect s (writeReg r v s) := by
  cases r with
  | cmdHi => exact .inr (hostEffect_of_writeCmdHi v s)
  | inData => exact .inr (hostEffect_of_pushByte _ s)
  | inCtrl => simp only [writeReg]; split <;> exact .inr (.side ⟨rfl, id⟩)
  | ctrl =>
    by_cases hv : v.getLsbD 0 = true
    · exact .inl ⟨rfl, hv, if_pos hv⟩
    · have hsame : writeReg .ctrl v s = s := if_neg hv
      rw [hsame]
      exact .inr (.side ⟨rfl, id⟩)
  | _ => exact .inr (.side ⟨rfl, id⟩)

/-- A register read changes the host's side alone. -/
theorem hostSideOnly_of_read (r : Reg) (s : State) (v : List Word) :
    HostSideOnly s { readEffect r s with seen := v } := by
  rw [readEffect_eq]
  refine ⟨rfl, fun h => channelsOk_iff.mpr ⟨(channelsOk_iff.mp h).1, ?_⟩⟩
  have hout := (channelsOk_iff.mp h).2
  show (if r = .outData then s.outq.tail else s.outq).length ≤ s.params.outDepth
  split
  · rw [List.length_tail]; omega
  · exact hout

/-- A host transaction is a reset, or has one of the other effects. -/
theorem hostTurn_cases {op : HostOp} {s t : State} (h : hostTurn op s = .next t) :
    (isReset s.params (.host op) = true ∧ t = resetCore s) ∨ HostEffect s t := by
  cases op with
  | resetInput => cases h; exact .inl ⟨rfl, rfl⟩
  | read addr size =>
    simp only [hostTurn] at h
    split at h <;> cases h
    exact .inr (.side (hostSideOnly_of_read ..))
  | write addr size v =>
    simp only [hostTurn] at h
    split at h <;> cases h
    rename_i r hacc
    rcases hostEffect_of_writeReg r v s with ⟨rfl, hv, hreset⟩ | heff
    · exact .inl ⟨by simp only [isReset, hacc, hv, decide_true, Bool.and_self], hreset⟩
    · exact .inr heff

/-- Settles O45: the core takes no micro-step, and no host transaction but a reset reaches a HALTED core. -/
theorem haltedUntilReset : Obligations.HaltedUntilReset := by
  intro s t hs h
  have hb : s.mode ≠ .busy := by simp [hs]
  match ha : s.agenda with
  | [] =>
    cases (runTurn_not_busy hb).symm.trans ((step_of_agenda_nil ha).symm.trans h)
    exact .inr rfl
  | .core :: rest =>
    cases (coreTurn_not_busy (s := { s with agenda := rest }) hb).symm.trans ((step_of_core ha).symm.trans h)
    exact .inr rfl
  | .run :: rest =>
    cases (runTurn_not_busy (s := { s with agenda := rest }) hb).symm.trans ((step_of_run ha).symm.trans h)
    exact .inr rfl
  | .host op :: rest =>
    rcases hostTurn_cases ((step_of_host ha).symm.trans h) with ⟨hreset, rfl⟩ | heff
    · exact .inl ⟨_, rest, rfl, hreset, rfl⟩
    · cases heff with
      | side hside => exact .inr (by rw [hside.frame])
      | issue v hm => cases hs.symm.trans hm
      | taken i c hside hm he => cases hs.symm.trans hm
      | latched i c hside hm he => cases hs.symm.trans hm

end Sys2Proof.Machine
end

section
/-! PROOF. What one micro-step can do, said once for a command's first micro-step and once for its later ones, and the
frame of all commands (spec/10_state.md R27, R36, R42 to R46). -/

namespace Sys2Proof.Machine

/-! ## A command's first micro-step -/

/-- The commands whose first micro-step leaves bits to write. -/
def startsWriting : Instr → Bool
  | .wbits _ _ => true
  | .enc _ => true
  | .ser => true
  | _ => false

/-- What the first micro-step of a command can do. -/
inductive Started (s : State) : Instr → State → Prop
  | raised {i : Instr} {e : ErrorCode} (info : Word) (he : e ≠ .noError) : Started s i (raise e info s)
  | writes {i : Instr} (bits : List Bool) (hi : startsWriting i = true) (hok : i.wellFormed s.params.width = true) :
      Started s i { s with job := some (.put bits) }
  | flushNothing : Started s .flush (finish s)
  | flush (hwn : s.wn ≠ 0) : Started s .flush { s with job := some (.push []) }
  | rrst : Started s .rrst { s with rcur := none, rbuf := 0, job := some .emptyInput }
  | clrf : Started s .clrf (finish { s with freq := [] })
  | setf {x : Symbol} (c : Word) (hx : x.toNat < s.params.width.alphabet) :
      Started s (.setf x c) (finish { s with freq := setFreq s.freq x c })
  | makesTree {i : Instr} (tree : Tree) (hi : i = .build ∨ i = .clrt ∨ ∃ l, i = .recon l) :
      Started s i (finish { s with tree := tree })
  | answers {i : Instr} (v : Word) (hi : (∃ x, i = .getf x) ∨ i = .nleaf ∨ i = .dec) : Started s i (finishWith v s)
  | rbits {n : BitVec 16} (hok : bitCountOk n = true) : Started s (.rbits n) (s.reading (.field n.toNat 0) 0)
  | dec (root : Nat) : Started s .dec (s.reading (.walk root) 0)
  | recon {l : Word} {r : Reader} (tree : Tree) (hr : r.isRecon = true) (hok : leafCountOk s.params.width l = true) :
      Started s (.recon l) ({ s with tree := tree }.reading r 0)

/-- The range check raises, or the operands are in range and the command's body answers. -/
theorem started_of_checkRange {i : Instr} {ok : Bool} {body : State → CoreStep} {s t : State}
    (hbody : ok = true → body s = .moved t → Started s i t) (h : checkRange ok body s = .moved t) : Started s i t := by
  cases ok with
  | false => cases h; exact .raised 3 (by simp)
  | true => exact hbody rfl h

theorem started_of_encBody {x : Symbol} {s t : State} (hok : symbolOk s.params.width x = true)
    (h : encBody x s = .moved t) : Started s (.enc x) t := by
  unfold encBody at h
  split at h
  · cases h; exact .raised _ (by simp)
  · split at h <;> cases h
    exact .writes _ rfl hok

theorem started_of_startDec {s t : State} (h : startDec s = .moved t) : Started s .dec t := by
  unfold startDec at h
  split at h
  · cases h; exact .raised 0 (by simp)
  · split at h
    · cases h
    · split at h <;> cases h
      · exact .answers _ (.inr (.inr rfl))
      · exact .dec _

theorem started_of_reconBody {l : Word} {s t : State} (hok : leafCountOk s.params.width l = true)
    (h : reconBody l.toNat s = .moved t) : Started s (.recon l) t := by
  unfold reconBody at h
  split at h
  · cases h; exact .makesTree Tree.cleared (.inr (.inr ⟨l, rfl⟩))
  · split at h <;> cases h
    · exact .recon (r := .single _ _) Tree.cleared rfl hok
    · exact .recon (r := .marker l.toNat 1 0) reconRoot rfl hok

theorem started_of_startInstr {i : Instr} {s t : State} (h : startInstr i s = .moved t) : Started s i t := by
  cases i with
  | wbits n v =>
    rw [startInstr, startWbits] at h
    exact started_of_checkRange (fun hok hb => by cases hb; exact .writes _ rfl hok) h
  | flush =>
    simp only [startInstr, startFlush] at h
    split at h <;> cases h
    · exact .flushNothing
    · exact .flush ‹_›
  | rbits n =>
    rw [startInstr, startRbits] at h
    exact started_of_checkRange (fun hok hb => by cases hb; exact .rbits hok) h
  | rrst => cases h; exact .rrst
  | clrf => cases h; exact .clrf
  | setf x c =>
    rw [startInstr, startSetf] at h
    exact started_of_checkRange (fun hok hb => by cases hb; exact .setf c (of_decide_eq_true hok)) h
  | getf x =>
    rw [startInstr, startGetf] at h
    exact started_of_checkRange (fun _ hb => by cases hb; exact .answers _ (.inl ⟨x, rfl⟩)) h
  | build => cases h; exact .makesTree _ (.inl rfl)
  | clrt => cases h; exact .makesTree Tree.cleared (.inr (.inl rfl))
  | nleaf => cases h; exact .answers _ (.inr (.inl rfl))
  | enc x => exact started_of_checkRange started_of_encBody h
  | dec => exact started_of_startDec h
  | ser =>
    simp only [startInstr, startSer] at h
    split at h <;> cases h
    exact .writes _ rfl rfl
  | recon l => exact started_of_checkRange started_of_reconBody h

/-! ## A bit that is read -/

/-- The two readers belong to the same commands. -/
def sameCommands (r r' : Reader) : Prop := ∀ i k k', (Job.read r k).belongsTo i = (Job.read r' k').belongsTo i

theorem sameCommands_of_isRecon {r r' : Reader} (hr : r.isRecon = true) (hr' : r'.isRecon = true) :
    sameCommands r r' := by
  intro i k k'
  cases r with
  | field => cases hr
  | walk => cases hr
  | _ =>
    cases r' with
    | field => cases hr'
    | walk => cases hr'
    | _ => cases i <;> rfl

/-- What a bit can do for the command that reads it: RBITS and DEC return a value or read on, RECON makes its tree. -/
inductive BitTaken (s : State) (r : Reader) : State → Prop
  | answers (v : Word) (hr : r.isRecon = false) : BitTaken s r (finishWith v s)
  | readsOn {r' : Reader} (k : Nat) (hr : r.isRecon = false) (hr' : r'.isRecon = false) (hsame : sameCommands r r') :
      BitTaken s r (s.reading r' k)
  | makesTree (tree : Tree) (hr : r.isRecon = true) : BitTaken s r (finish { s with tree := tree })
  | shapeError (info : Word) (hr : r.isRecon = true) : BitTaken s r (raiseRecon .shapeError info s)
  | reconReadsOn {r' : Reader} (tree : Tree) (k : Nat) (hr : r.isRecon = true) (hr' : r'.isRecon = true) :
      BitTaken s r ({ s with tree := tree }.reading r' k)

theorem bitTaken_of_deliver {r : Reader} {b : Bool} {k : Nat} {s t : State} (h : deliver r b k s = .moved t) :
    BitTaken s r t := by
  cases r with
  | field left acc =>
    simp only [deliver] at h
    split at h <;> cases h
    · exact .answers _ rfl
    · exact .readsOn (r' := .field _ _) k rfl rfl fun i _ _ => by cases i <;> rfl
  | walk i =>
    rcases decStep_moved h with ⟨v, rfl⟩ | ⟨c, rfl⟩
    · exact .answers v rfl
    · exact .readsOn (r' := .walk c) k rfl rfl fun i _ _ => by cases i <;> rfl
  | single left acc =>
    simp only [deliver] at h
    split at h <;> cases h
    · exact .makesTree _ rfl
    · exact .reconReadsOn (r' := .single _ _) s.tree k rfl rfl
  | marker l n c =>
    simp only [deliver] at h
    split at h
    · cases h; exact .reconReadsOn (r' := .leaf _ _ _ _ _) s.tree k rfl rfl
    · rcases reconInternal_moved h with ⟨-, rfl⟩ | ⟨-, tree, -, rfl⟩
      · exact .shapeError 1 rfl
      · exact .reconReadsOn (r' := .marker _ _ _) tree k rfl rfl
  | leaf l n c left acc =>
    simp only [deliver] at h
    split at h
    · rcases reconLeaf_moved h with ⟨-, rfl⟩ | ⟨-, tree, -, hnext⟩
      · exact .shapeError 3 rfl
      · rcases reconNext_moved hnext with ⟨-, -, rfl⟩ | ⟨-, rfl⟩ | ⟨-, c', -, rfl⟩
        · exact .shapeError 2 rfl
        · exact .makesTree _ rfl
        · exact .reconReadsOn (r' := .marker _ _ _) _ k rfl rfl
    · cases h; exact .reconReadsOn (r' := .leaf _ _ _ _ _) s.tree k rfl rfl

/-! ## A later micro-step -/

/-- What a micro-step of a command that has begun can do. -/
inductive Advanced (s : State) : Job → State → Prop
  | returns : Advanced s (.put []) (finish s)
  | writes {b : Bool} {bits : List Bool} (hwn : s.wn ≠ 7) : Advanced s (.put (b :: bits))
      { s with wbuf := setBit s.wbuf (7 - s.wn.val) b, wn := s.wn + 1, job := some (.put bits) }
  | fills {b : Bool} {bits : List Bool} (hwn : s.wn = 7) : Advanced s (.put (b :: bits))
      { s with wbuf := setBit s.wbuf (7 - s.wn.val) b, job := some (.push bits) }
  | pushes {bits : List Bool} (hroom : s.outq.length < s.params.outDepth) : Advanced s (.push bits)
      { s with outq := s.outq ++ [s.wbuf], wbuf := 0, wn := 0, job := some (.put bits) }
  | empties : Advanced s .emptyInput { s with inq := [], job := some .reopenInput }
  | reopens : Advanced s .reopenInput (finish { s with inClosed := false })
  | refills {r : Reader} {k : Nat} {b : Byte} {q : List Byte} (hq : s.inq = b :: q) :
      Advanced s (.read r k) { s with rbuf := b, rcur := some 7, inq := q }
  | endsStream {r : Reader} {k : Nat} : Advanced s (.read r k) (endOfStream r k s)
  | takesBit {r : Reader} {k : Nat} {t : State} (c : Option (Fin 8)) (h : BitTaken { s with rcur := c } r t) :
      Advanced s (.read r k) t

theorem advanced_of_advance {j : Job} {s t : State} (h : advance j s = .moved t) : Advanced s j t := by
  match j with
  | .put [] => cases h; exact .returns
  | .put (b :: bits) =>
    cases h
    rcases writeBit_cases b bits s with ⟨hwn, e⟩ | ⟨hwn, e⟩ <;> rw [e]
    · exact .fills hwn
    · exact .writes hwn
  | .push bits =>
    obtain ⟨hroom, rfl⟩ := outPush_moved h
    exact .pushes hroom
  | .emptyInput => cases h; exact .empties
  | .reopenInput => cases h; exact .reopens
  | .read r k =>
    simp only [advance] at h
    rcases readBit_cases r k s with ⟨b, q, -, hq, e⟩ | ⟨-, -, -, e⟩ | ⟨-, -, -, e⟩ | ⟨c, -, e⟩ <;> rw [e] at h
    · cases h; exact .refills hq
    · cases h; exact .endsStream
    · cases h
    · exact .takesBit _ (bitTaken_of_deliver h)

/-! ## The frame of all commands -/

/-- The pieces of state that commands write. -/
structure Pieces where
  freq : Bool := false
  tree : Bool := false
  writer : Bool := false
  reader : Bool := false
  inClosed : Bool := false
  result : Bool := false

/-- Every piece but the given ones is as it was; PEND's record is never written by a command. -/
structure KeepsBut (p : Pieces) (s t : State) : Prop where
  pendCode : t.pendCode = s.pendCode
  pendInfo : t.pendInfo = s.pendInfo
  pendCmd : t.pendCmd = s.pendCmd
  freq : p.freq = false → t.freq = s.freq
  tree : p.tree = false → t.tree = s.tree
  writer : p.writer = false → t.wbuf = s.wbuf ∧ t.wn = s.wn ∧ t.outq = s.outq
  reader : p.reader = false → t.rbuf = s.rbuf ∧ t.rcur = s.rcur ∧ t.inq = s.inq
  inClosed : p.inClosed = false → t.inClosed = s.inClosed
  result : p.result = false → t.result = s.result

theorem KeepsBut.refl (p : Pieces) (s : State) : KeepsBut p s s := by constructor <;> simp

theorem KeepsBut.trans {p : Pieces} {s t u : State} (h : KeepsBut p s t) (k : KeepsBut p t u) : KeepsBut p s u where
  pendCode := k.pendCode.trans h.pendCode
  pendInfo := k.pendInfo.trans h.pendInfo
  pendCmd := k.pendCmd.trans h.pendCmd
  freq hp := (k.freq hp).trans (h.freq hp)
  tree hp := (k.tree hp).trans (h.tree hp)
  writer hp := by
    obtain ⟨hb, hn, hq⟩ := h.writer hp
    obtain ⟨kb, kn, kq⟩ := k.writer hp
    exact ⟨kb.trans hb, kn.trans hn, kq.trans hq⟩
  reader hp := by
    obtain ⟨hb, hc, hq⟩ := h.reader hp
    obtain ⟨kb, kc, kq⟩ := k.reader hp
    exact ⟨kb.trans hb, kc.trans hc, kq.trans hq⟩
  inClosed hp := (k.inClosed hp).trans (h.inClosed hp)
  result hp := (k.result hp).trans (h.result hp)

/-- What the rest of a command writes. -/
def Job.pieces : Job → Pieces
  | .put _ => { writer := true }
  | .push _ => { writer := true }
  | .emptyInput => { reader := true, inClosed := true }
  | .reopenInput => { reader := true, inClosed := true }
  | .read r _ => { reader := true, tree := r.isRecon, result := !r.isRecon }

/-- What a command writes (spec/10_state.md R27, R36, R42 to R44). -/
def commandPieces : Instr → Pieces
  | .wbits _ _ => { writer := true }
  | .flush => { writer := true }
  | .rbits _ => { reader := true, result := true }
  | .rrst => { reader := true, inClosed := true }
  | .clrf => { freq := true }
  | .setf _ _ => { freq := true }
  | .getf _ => { result := true }
  | .build => { tree := true }
  | .clrt => { tree := true }
  | .nleaf => { result := true }
  | .enc _ => { writer := true }
  | .dec => { reader := true, result := true }
  | .ser => { writer := true }
  | .recon _ => { reader := true, tree := true }

theorem keepsBut_of_started {i : Instr} {s t : State} (h : Started s i t) : KeepsBut (commandPieces i) s t := by
  cases h with
  | raised => constructor <;> simp
  | writes bits hi => cases i <;> cases hi <;> (constructor <;> simp [commandPieces])
  | makesTree tree hi => rcases hi with rfl | rfl | ⟨l, rfl⟩ <;> (constructor <;> simp [commandPieces])
  | answers v hi => rcases hi with ⟨x, rfl⟩ | rfl | rfl <;> (constructor <;> simp [commandPieces, finishWith])
  | _ => constructor <;> simp [commandPieces, State.reading]

theorem keepsBut_of_bitTaken {r : Reader} {k : Nat} {s t : State} (h : BitTaken s r t) :
    KeepsBut (Job.read r k).pieces s t := by
  cases h with
  | answers v hr => constructor <;> simp [Job.pieces, finishWith, hr]
  | readsOn k hr => constructor <;> simp [Job.pieces, State.reading]
  | makesTree tree hr => constructor <;> simp [Job.pieces, hr]
  | shapeError info hr => constructor <;> simp [Job.pieces, raiseRecon, hr]
  | reconReadsOn tree k hr => constructor <;> simp [Job.pieces, State.reading, hr]

theorem keepsBut_of_endOfStream (r : Reader) (k : Nat) (s : State) :
    KeepsBut (Job.read r k).pieces s (endOfStream r k s) := by
  rw [endOfStream_eq]
  cases hr : r.isRecon <;> constructor <;> simp [Job.pieces, hr]

theorem keepsBut_of_advanced {j : Job} {s t : State} (h : Advanced s j t) : KeepsBut j.pieces s t := by
  cases h with
  | endsStream => exact keepsBut_of_endOfStream ..
  | @takesBit r k t c hbit =>
    have hcursor : KeepsBut (Job.read r k).pieces s { s with rcur := c } := by constructor <;> simp [Job.pieces]
    exact hcursor.trans (keepsBut_of_bitTaken hbit)
  | _ => constructor <;> simp [Job.pieces]

/-- The first micro-step leaves transient state that writes what the command writes. -/
theorem pieces_of_started {i : Instr} {s t : State} (h : Started s i t) {j : Job} (hj : t.job = some j) :
    j.pieces = commandPieces i := by
  cases h with
  | writes bits hi => cases hj; cases i <;> cases hi <;> rfl
  | recon tree hr =>
    cases hj
    simp only [Job.pieces, commandPieces, hr, Bool.not_true]
  | rbits => cases hj; rfl
  | dec => cases hj; rfl
  | flush => cases hj; rfl
  | rrst => cases hj; rfl
  | raised => cases hj
  | answers => simp [finishWith] at hj
  | _ => simp at hj

/-- A later micro-step leaves transient state that writes what the command wrote before. -/
theorem pieces_of_advanced {j j' : Job} {s t : State} (hjob : s.job = some j) (h : Advanced s j t)
    (hj : t.job = some j') :
    j'.pieces = j.pieces := by
  cases h with
  | writes => cases hj; rfl
  | fills => cases hj; rfl
  | pushes => cases hj; rfl
  | empties => cases hj; rfl
  | refills => cases hjob.symm.trans hj; rfl
  | endsStream =>
    rw [endOfStream_eq] at hj
    cases hj
  | takesBit c hbit =>
    cases hbit with
    | answers => simp [finishWith] at hj
    | readsOn k hr hr' => cases hj; simp only [Job.pieces, hr, hr']
    | makesTree => simp at hj
    | shapeError => cases hj
    | reconReadsOn tree k hr hr' => cases hj; simp only [Job.pieces, hr, hr']
  | _ => simp at hj

/-- A run of the rest of a command writes what the rest of the command writes. -/
theorem keepsBut_of_runJob {p : Pieces} {s t : State} (hp : ∀ j, s.job = some j → j.pieces = p)
    (h : runJob s = .next t) : KeepsBut p s t := by
  refine runJob_induction (P := fun s t => (∀ j, s.job = some j → j.pieces = p) → KeepsBut p s t)
    (fun s _ _ => .refl p s)
    (fun s _ _ _ _ => .refl p s) (fun s j u t hj ha _ ih hp => ?_) h hp
  have hadv := advanced_of_advance ha
  have hkeep := keepsBut_of_advanced hadv
  rw [hp j hj] at hkeep
  exact hkeep.trans (ih fun j' hj' => (pieces_of_advanced hj hadv hj').trans (hp j hj))

theorem keepsBut_of_exec {i : Instr} {s t : State} (h : exec i s = .next t) : KeepsBut (commandPieces i) s t := by
  obtain ⟨u, hu, hrun⟩ := exec_next h
  have hstart := started_of_startInstr hu
  exact (keepsBut_of_started hstart).trans (keepsBut_of_runJob (fun _ hj => pieces_of_started hstart hj) hrun)

/-- Settles O41: a command keeps every piece that it does not write. -/
theorem commandsWriteOnlyTheirState : Obligations.CommandsWriteOnlyTheirState := by
  intro i s t h
  have hhost := keepsHostSide_of_exec h
  have hkeep := keepsBut_of_exec h
  refine ⟨hhost.params, hhost.cmdLo, hhost.cmdHi, hkeep.pendCode, hkeep.pendInfo, hkeep.pendCmd, hhost.agenda,
    hhost.seen,
    hhost.draws, fun h1 h2 => hkeep.freq ?_, fun h1 h2 h3 => hkeep.tree ?_, fun h1 h2 h3 h4 => hkeep.writer ?_,
    fun h1 h2 h3 h4 => hkeep.reader ?_, fun h1 => hkeep.inClosed ?_, fun h1 h2 h3 h4 => hkeep.result ?_⟩ <;>
    cases i <;> simp_all [commandPieces]

/-! ## The parameters and FREQ -/

/-- Only CLRF and SETF write FREQ, and both keep its form. -/
theorem freqWf_of_started {i : Instr} {s t : State} (hf : freqWf s.params.width s.freq = true) (h : Started s i t) :
    freqWf s.params.width t.freq = true := by
  cases h with
  | clrf => rw [finish_freq]; rfl
  | setf c hx => rw [finish_freq]; exact freqWf_setFreq hf hx c
  | _ => simpa [finishWith, State.reading] using hf

theorem freqWf_of_microStep {s t : State} (hf : freqWf s.params.width s.freq = true) (h : microStep s = .moved t) :
    freqWf t.params.width t.freq = true := by
  rw [(keepsHostSide_of_microStep h).params]
  rcases microStep_cases h with ⟨-, i, -, hi⟩ | ⟨-, e, -, rfl⟩ | ⟨j, -, ha⟩
  · exact freqWf_of_started hf (started_of_startInstr hi)
  · obtain ⟨code, info, he⟩ := raiseDecode_eq e s
    rwa [he]
  · rwa [(keepsBut_of_advanced (advanced_of_advance ha)).freq (by cases j <;> rfl)]

/-- A host transaction writes neither the parameters nor FREQ, unless it is a reset. -/
theorem HostEffect.params_freq {s t : State} (h : HostEffect s t) : t.params = s.params ∧ t.freq = s.freq := by
  cases h with
  | side hside => rw [hside.frame]; exact ⟨rfl, rfl⟩
  | issue => exact ⟨rfl, rfl⟩
  | taken i c hside => rw [hside.frame]; exact ⟨rfl, rfl⟩
  | latched i c hside => rw [hside.frame]; exact ⟨rfl, rfl⟩

theorem params_of_hostTurn {op : HostOp} {s t : State} (h : hostTurn op s = .next t) : t.params = s.params := by
  rcases hostTurn_cases h with ⟨-, rfl⟩ | heff
  · rfl
  · exact heff.params_freq.1

theorem freqWf_of_hostTurn {op : HostOp} {s t : State} (hf : freqWf s.params.width s.freq = true)
    (h : hostTurn op s = .next t) : freqWf t.params.width t.freq = true := by
  rcases hostTurn_cases h with ⟨-, rfl⟩ | heff
  · rfl
  · obtain ⟨hparams, hfreq⟩ := heff.params_freq
    rwa [hparams, hfreq]

/-- Settles O55: micro-steps and host transactions keep both. -/
theorem stepKeepsInstanceAndFrequencyForm : Obligations.StepKeepsInstanceAndFrequencyForm := by
  intro s t h
  refine ⟨?_, fun hf => ?_⟩
  · exact step_keeps (P := fun u => u.params = s.params) (fun _ _ hp => hp)
      (fun u v hp _ hm => (keepsHostSide_of_microStep hm).params.trans hp)
      (fun u v op hp hh => (params_of_hostTurn hh).trans hp) rfl h
  · exact step_keeps (P := fun u => freqWf u.params.width u.freq = true) (fun _ _ hp => hp)
      (fun u v hp _ hm => freqWf_of_microStep hp hm) (fun u v op hp hh => freqWf_of_hostTurn hp hh) hf h

end Sys2Proof.Machine
end

section
/-! PROOF. The machine's invariant and the tree invariant, kept by every micro-step and every host transaction
(spec/10_state.md R22, R40 to R46; spec/60_exceptions.md R262, R266). -/

namespace Sys2Proof.Machine

/-! ## MODE, ERR and PEND -/

/-- What the return, the error entry and a host-protocol error look at or write, apart from the records of errors. -/
structure Control where
  mode : Mode
  cmd : Command
  err : ErrorCode
  pend : Bool
  pendCode : ErrorCode

def State.control (s : State) : Control := ⟨s.mode, s.cmd, s.err, s.pend, s.pendCode⟩

/-- What a micro-step does to the command: it goes on, returns, or raises a real error. -/
inductive CommandStep (c : Control) (t : State) : Prop
  | goesOn (hjob : t.job.isSome = true) (h : t.control = c)
  | returns {u : State} (ht : t = finish u) (h : u.control = c)
  | raises {u : State} {e : ErrorCode} {i : Word} (ht : t = raise e i u) (he : e ≠ .noError) (h : u.control = c)

theorem commandStep_of_started {i : Instr} {s t : State} (h : Started s i t) :
    CommandStep s.control t := by
  cases h with
  | raised info he => exact .raises rfl he rfl
  | flushNothing => exact .returns rfl rfl
  | clrf => exact .returns rfl rfl
  | setf => exact .returns rfl rfl
  | makesTree => exact .returns rfl rfl
  | answers => exact .returns rfl rfl
  | _ => exact .goesOn rfl rfl

theorem commandStep_of_bitTaken {r : Reader} {s t : State} (h : BitTaken s r t) : CommandStep s.control t := by
  cases h with
  | answers => exact .returns rfl rfl
  | makesTree => exact .returns rfl rfl
  | shapeError => exact .raises rfl (by simp) rfl
  | readsOn => exact .goesOn rfl rfl
  | reconReadsOn => exact .goesOn rfl rfl

theorem commandStep_of_advanced {j : Job} {s t : State} (hj : s.job = some j) (h : Advanced s j t) :
    CommandStep s.control t := by
  cases h with
  | returns => exact .returns rfl rfl
  | reopens => exact .returns rfl rfl
  | refills => exact .goesOn (by simp [hj]) rfl
  | endsStream =>
    rw [endOfStream_eq]
    exact .raises rfl (by simp) (by split <;> rfl)
  | takesBit c hbit =>
    have hstep := commandStep_of_bitTaken hbit
    exact hstep
  | _ => exact .goesOn rfl rfl

theorem commandStep_of_raiseDecode (e : DecodeError) (s : State) : CommandStep s.control (raiseDecode e s) := by
  cases e <;> exact .raises rfl (by simp) rfl

theorem commandStep_of_microStep {s t : State} (h : microStep s = .moved t) : CommandStep s.control t := by
  rcases microStep_cases h with ⟨-, i, -, hi⟩ | ⟨-, e, -, rfl⟩ | ⟨j, hj, ha⟩
  · exact commandStep_of_started (started_of_startInstr hi)
  · exact commandStep_of_raiseDecode e s
  · exact commandStep_of_advanced hj (advanced_of_advance ha)

/-- The error entry with a real code. -/
theorem modeOk_takeError {e : ErrorCode} (he : e ≠ .noError) (i : Word) (c : Command) (s : State) :
    modeOk (takeError e i c s) = true := by
  refine modeOk_iff.mpr ⟨fun _ => ⟨rfl, rfl, rfl⟩, nofun, ?_⟩
  simp [he]

theorem ne_noError_of_isHostError {e : ErrorCode} (h : isHostError e) : e ≠ .noError := by
  rcases h with rfl | rfl <;> simp

/-- The return of a BUSY core: IDLE, or the latched error is one of the two host-protocol errors. -/
theorem modeOk_finish {s : State} (hcode : s.pend = true → isHostError s.pendCode) (herr : s.err = .noError) :
    modeOk (finish s) = true := by
  cases hp : s.pend with
  | false =>
    rw [finish_of_not_pend hp]
    exact modeOk_iff.mpr ⟨fun _ => ⟨rfl, rfl, hp⟩, fun h => hcode h, by simp [herr]⟩
  | true =>
    rw [finish_of_pend hp]
    exact modeOk_takeError (ne_noError_of_isHostError (hcode hp)) _ _ s

/-- A micro-step comes from a BUSY core: one with transient state, or with a word not yet checked. -/
theorem busy_of_microStep {s : State} (hm : modeOk s = true) (hissued : s.job = none → s.mode = .busy) :
    s.mode = .busy := by
  by_contra hb
  exact hb (hissued ((modeOk_iff.mp hm).1 hb).1)

theorem modeOk_of_commandStep {s t : State} (hm : modeOk s = true) (hb : s.mode = .busy) (h : CommandStep s.control t) :
    modeOk t = true := by
  obtain ⟨-, hcode, herr⟩ := modeOk_iff.mp hm
  have hnone : s.err = .noError := herr.mpr (by simp [hb])
  cases h with
  | goesOn hjob h =>
    obtain ⟨hmode, -, he, hp, hc⟩ := Control.mk.inj h
    exact modeOk_iff.mpr ⟨fun hn => absurd (hmode.trans hb) hn, by rw [hp, hc]; exact hcode,
      by rw [he, hmode]; exact herr⟩
  | returns ht h =>
    obtain ⟨-, -, he, hp, hc⟩ := Control.mk.inj h
    rw [ht]
    exact modeOk_finish (by rw [hp, hc]; exact hcode) (he.trans hnone)
  | raises ht he h =>
    rw [ht]
    exact modeOk_takeError he _ _ _

theorem modeOk_of_microStep {s t : State} (hm : modeOk s = true) (hissued : s.job = none → s.mode = .busy)
    (h : microStep s = .moved t) : modeOk t = true :=
  modeOk_of_commandStep hm (busy_of_microStep hm hissued) (commandStep_of_microStep h)

/-- The fields that `modeOk` is about. -/
theorem modeOk_congr {s t : State} (hc : t.control = s.control) (hj : t.job = s.job) (hm : modeOk s = true) :
    modeOk t = true := by
  obtain ⟨h1, h2, h3, h4, h5⟩ := Control.mk.inj hc
  rw [modeOk_iff] at hm ⊢
  rwa [h1, h2, h3, h4, h5, hj]

theorem HostSideOnly.control {s t : State} (h : HostSideOnly s t) : t.control = s.control := by rw [h.frame]; rfl

theorem HostSideOnly.job {s t : State} (h : HostSideOnly s t) : t.job = s.job := by rw [h.frame]

theorem modeOk_of_hostEffect {s t : State} (hm : modeOk s = true) (h : HostEffect s t) : modeOk t = true := by
  cases h with
  | side hside => exact modeOk_congr hside.control hside.job hm
  | issue v hidle =>
    obtain ⟨hnone, hcode, herr⟩ := modeOk_iff.mp hm
    exact modeOk_iff.mpr ⟨fun hn => absurd rfl hn, hcode, by simp [herr, hidle]⟩
  | taken i c hside hidle he => exact modeOk_takeError (ne_noError_of_isHostError he) i c _
  | latched i c hside hb he =>
    obtain ⟨-, -, herr⟩ := modeOk_iff.mp hm
    obtain ⟨hmode, -, herr', -⟩ := Control.mk.inj hside.control
    exact modeOk_iff.mpr ⟨fun hn => absurd (hmode.trans hb) hn, fun _ => he, by rw [hmode, herr']; exact herr⟩

theorem modeOk_of_hostTurn {op : HostOp} {s t : State} (hm : modeOk s = true) (h : hostTurn op s = .next t) :
    modeOk t = true := by
  rcases hostTurn_cases h with ⟨-, rfl⟩ | heff
  · rfl
  · exact modeOk_of_hostEffect hm heff

theorem modeOk_of_step {s t : State} (hm : modeOk s = true) (h : step s = .next t) : modeOk t = true :=
  step_keeps (P := fun s => modeOk s = true) (fun _ _ hp => hp) (fun _ _ => modeOk_of_microStep)
    (fun _ _ _ => modeOk_of_hostTurn) hm h

/-- A HALTED core is as the error entry leaves it. -/
theorem eq_takeError_of_halted {s : State} (hm : modeOk s = true) (hs : s.mode = .halted) :
    s.err ≠ .noError ∧ s = takeError s.err s.errInfo (joinWords s.errCmdHi s.errCmdLo) s := by
  obtain ⟨hnone, -, herr⟩ := modeOk_iff.mp hm
  obtain ⟨hjob, hcmd, hpend⟩ := hnone (by simp [hs])
  refine ⟨fun he => herr.mp he hs, ?_⟩
  unfold takeError
  rw [lowWord_joinWords, highWord_joinWords, ← hs, ← hjob, ← hcmd, ← hpend]

/-- Settles O44: every step keeps `modeOk`, and a HALTED core that meets it is as TakeError leaves it. -/
theorem onlyTheErrorEntryHalts : Obligations.OnlyTheErrorEntryHalts := by
  intro s t hm h _ ht
  obtain ⟨-, -, -, hmode, -⟩ := machineOk_iff.mp hm
  exact eq_takeError_of_halted (modeOk_of_step hmode h) ht

/-! ## The channels' levels -/

theorem channelsOk_of_microStep {s t : State} (hc : channelsOk s = true) (h : microStep s = .moved t) :
    channelsOk t = true := by
  obtain ⟨hin, hout⟩ := channelsOk_iff.mp hc
  rw [channelsOk_iff, (keepsHostSide_of_microStep h).params]
  rcases microStep_cases h with ⟨-, i, -, hi⟩ | ⟨-, e, -, rfl⟩ | ⟨j, -, ha⟩
  · obtain ⟨hq, ho⟩ := startInstr_channels hi
    rw [hq, ho]
    exact ⟨hin, hout⟩
  · obtain ⟨code, info, he⟩ := raiseDecode_eq e s
    rw [he]
    exact ⟨hin, hout⟩
  · obtain ⟨hq, ho⟩ := advance_channels ha
    constructor
    · rcases hq with hq | ⟨-, -, b, -, -, hq, -⟩ | ⟨-, hq⟩
      · rwa [hq]
      · rw [hq, List.length_cons] at hin; omega
      · rw [hq]; exact Nat.zero_le _
    · rcases ho with ho | ⟨bits, -, hroom, ho⟩
      · rwa [ho]
      · rw [ho, List.length_append]; exact hroom

theorem channelsOk_of_hostEffect {s t : State} (hc : channelsOk s = true) (h : HostEffect s t) :
    channelsOk t = true := by
  cases h with
  | side hside => exact hside.levels hc
  | issue => exact hc
  | taken i c hside => exact hside.levels hc
  | latched i c hside => exact hside.levels hc

/-! ## The unused bits of WBUF -/

theorem padded_iff {s : State} (h : atOutPush s = false) : padded s = true ↔ unusedBitsZero s := by
  simp only [padded, h, Bool.false_eq_true, if_false, decide_eq_true_eq, unusedBitsZero]

theorem padded_of_job_none {s : State} (hj : s.job = none) : padded s = true ↔ unusedBitsZero s :=
  padded_iff (by simp only [atOutPush, hj])

theorem padded_congr {s t : State} (hj : t.job = s.job) (hb : t.wbuf = s.wbuf) (hn : t.wn = s.wn)
    (h : padded s = true) : padded t = true := by
  unfold padded atOutPush at *
  rwa [hj, hb, hn]

/-- At OutPush the byte's last bit may stand in bit 7 - WN, so below it the bits are 0. -/
theorem padded_push {s : State} {bits : List Bool} (hj : s.job = some (.push bits)) :
    padded s = true ↔ s.wbuf.toNat % 2 ^ (7 - s.wn.val) = 0 := by
  simp only [padded, atOutPush, hj, if_true, decide_eq_true_eq]

/-- A state that neither writes nor has written keeps the unused bits 0. -/
theorem padded_of_writer {s t : State} (h : unusedBitsZero s) (hw : t.wbuf = s.wbuf ∧ t.wn = s.wn)
    (ht : atOutPush t = false) : padded t = true := by
  obtain ⟨hb, hn⟩ := hw
  rw [padded_iff ht, unusedBitsZero, hb, hn]
  exact h

theorem atOutPush_of_ended {t : State} (h : t.job = none) : atOutPush t = false := by simp only [atOutPush, h]

theorem padded_of_started {i : Instr} {s t : State} (hj : s.job = none) (hp : padded s = true) (h : Started s i t) :
    padded t = true := by
  have hz := (padded_of_job_none hj).mp hp
  cases h with
  | flush hwn =>
    refine (padded_push rfl).mpr ?_
    show s.wbuf.toNat % 2 ^ (7 - s.wn.val) = 0
    exact Nat.mod_eq_zero_of_dvd ((pow_dvd_pow 2 (by omega)).trans (Nat.dvd_of_mod_eq_zero hz))
  | raised => exact padded_of_writer hz ⟨rfl, rfl⟩ rfl
  | writes => exact padded_of_writer hz ⟨rfl, rfl⟩ rfl
  | rrst => exact padded_of_writer hz ⟨rfl, rfl⟩ rfl
  | rbits => exact padded_of_writer hz ⟨rfl, rfl⟩ rfl
  | dec => exact padded_of_writer hz ⟨rfl, rfl⟩ rfl
  | recon => exact padded_of_writer hz ⟨rfl, rfl⟩ rfl
  | answers => exact padded_of_writer hz (by simp [finishWith]) (atOutPush_of_ended (finish_job _))
  | _ => exact padded_of_writer hz (by simp) (atOutPush_of_ended (finish_job _))

/-- A command that writes no bits, and goes on writing none, leaves the writer alone. -/
theorem padded_of_keepsBut {p : Pieces} {s t : State} (hp : p.writer = false) (hz : unusedBitsZero s)
    (h : KeepsBut p s t) (hj : ∀ j, t.job = some j → j.pieces = p) : padded t = true := by
  obtain ⟨hb, hn, -⟩ := h.writer hp
  refine padded_of_writer hz ⟨hb, hn⟩ ?_
  unfold atOutPush
  split
  · rename_i bits hpush
    rw [← hj _ hpush] at hp
    cases hp
  · rfl

theorem padded_of_advanced {j : Job} {s t : State} (hj : s.job = some j) (hp : padded s = true) (h : Advanced s j t) :
    padded t = true := by
  have hpieces (j' : Job) (hj' : t.job = some j') : j'.pieces = j.pieces := pieces_of_advanced hj h hj'
  have hzero (hno : ∀ bits, j ≠ .push bits) : unusedBitsZero s := by
    refine (padded_iff ?_).mp hp
    unfold atOutPush
    split
    · exact absurd (Option.some.inj (hj.symm.trans ‹_›)) (hno _)
    · rfl
  cases j with
  | put bits =>
    have hz := hzero (by simp)
    cases h with
    | returns => exact padded_of_writer hz (by simp) (atOutPush_of_ended (finish_job _))
    | @writes b bits hwn =>
      have hput := unusedBitsZero_putBit (b := b) hz
      rw [putBit_counts b hwn] at hput
      exact (padded_iff rfl).mpr hput
    | fills hwn =>
      refine (padded_push rfl).mpr ?_
      show _ % 2 ^ (7 - s.wn.val) = 0
      rw [hwn]
      exact Nat.mod_one _
  | push bits =>
    cases h with
    | pushes => exact (padded_iff rfl).mpr (Nat.zero_mod _)
  | emptyInput => exact padded_of_keepsBut rfl (hzero (by simp)) (keepsBut_of_advanced h) hpieces
  | reopenInput => exact padded_of_keepsBut rfl (hzero (by simp)) (keepsBut_of_advanced h) hpieces
  | read r k => exact padded_of_keepsBut rfl (hzero (by simp)) (keepsBut_of_advanced h) hpieces

theorem padded_of_microStep {s t : State} (hp : padded s = true) (h : microStep s = .moved t) : padded t = true := by
  rcases microStep_cases h with ⟨hj, i, -, hi⟩ | ⟨hj, e, -, rfl⟩ | ⟨j, hj, ha⟩
  · exact padded_of_started hj hp (started_of_startInstr hi)
  · obtain ⟨code, info, he⟩ := raiseDecode_eq e s
    rw [he]
    exact padded_congr hj.symm rfl rfl hp
  · exact padded_of_advanced hj hp (advanced_of_advance ha)

/-! ## The transient state belongs to the command -/

/-- The command in progress is a legal one and the transient state is its. -/
def jobOfCommand (s : State) : Prop := ∀ j, s.job = some j →
  ∃ i, decode s.cmd = .ok i ∧ i.wellFormed s.params.width = true ∧ j.belongsTo i = true

theorem jobLegal_iff {s : State} : jobLegal s = true ↔
    (∀ j, s.job = some j → j.inRange s.params.width = true) ∧ jobOfCommand s := by
  unfold jobLegal jobOfCommand
  cases s.job with
  | none => simp
  | some j => cases decode s.cmd <;> simp

theorem jobOfCommand_of_ended {s : State} (h : s.job = none) : jobOfCommand s := by
  intro j hj
  cases h.symm.trans hj

/-- Transient state of the same commands, in a state with the same word and parameters. -/
theorem jobOfCommand_of_same {s t : State} {j : Job} (hs : jobOfCommand s) (hj : s.job = some j) (hc : t.cmd = s.cmd)
    (hp : t.params = s.params) (hsame : ∀ j', t.job = some j' → ∀ i, j.belongsTo i = true → j'.belongsTo i = true) :
    jobOfCommand t := by
  intro j' hj'
  obtain ⟨i, hd, hok, hb⟩ := hs j hj
  exact ⟨i, by rw [hc]; exact hd, by rw [hp]; exact hok, hsame j' hj' i hb⟩

theorem jobOfCommand_of_started {i : Instr} {s t : State} (hd : decode s.cmd = .ok i) (h : Started s i t) :
    jobOfCommand t := by
  intro j hj
  cases h with
  | raised => cases hj
  | writes bits hi hok => cases hj; exact ⟨i, hd, hok, by cases i <;> cases hi <;> rfl⟩
  | flush => cases hj; exact ⟨_, hd, rfl, rfl⟩
  | rrst => cases hj; exact ⟨_, hd, rfl, rfl⟩
  | rbits hok => cases hj; exact ⟨_, hd, hok, rfl⟩
  | dec => cases hj; exact ⟨_, hd, rfl, rfl⟩
  | @recon l r tree hr hok =>
    cases hj
    exact ⟨_, hd, hok, sameCommands_of_isRecon (r' := .single 0 0) hr rfl (.recon l) 0 0⟩
  | answers => simp [finishWith] at hj
  | _ => simp at hj

theorem jobOfCommand_of_bitTaken {r : Reader} {k : Nat} {s t : State} (hs : jobOfCommand s)
    (hj : s.job = some (.read r k)) (h : BitTaken s r t) : jobOfCommand t := by
  cases h with
  | answers => exact jobOfCommand_of_ended (finish_job _)
  | makesTree => exact jobOfCommand_of_ended (finish_job _)
  | shapeError => exact jobOfCommand_of_ended rfl
  | readsOn k' hr hr' hsame =>
    exact jobOfCommand_of_same hs hj rfl rfl fun j' hj' i hb => by cases hj'; rwa [← hsame i k k']
  | reconReadsOn tree k' hr hr' =>
    exact jobOfCommand_of_same hs hj rfl rfl fun j' hj' i hb => by
      cases hj'; rwa [← sameCommands_of_isRecon hr hr' i k k']

/-- A command that has a bit to write is no FLUSH, and may have any bits left to write. -/
theorem belongsTo_of_put {i : Instr} {b : Bool} {bits : List Bool} (h : (Job.put (b :: bits)).belongsTo i = true) :
    (Job.put bits).belongsTo i = true ∧ (Job.push bits).belongsTo i = true := by
  cases i with
  | flush => cases h
  | _ => exact ⟨h, h⟩

theorem jobOfCommand_of_advanced {j : Job} {s t : State} (hs : jobOfCommand s) (hj : s.job = some j)
    (h : Advanced s j t) : jobOfCommand t := by
  cases h with
  | returns => exact jobOfCommand_of_ended (finish_job _)
  | reopens => exact jobOfCommand_of_ended (finish_job _)
  | endsStream => exact jobOfCommand_of_ended (by rw [endOfStream_eq]; rfl)
  | refills => exact hs
  | takesBit c hbit => exact jobOfCommand_of_bitTaken (s := { s with rcur := c }) hs hj hbit
  | writes => exact jobOfCommand_of_same hs hj rfl rfl fun j' hj' i hb => by cases hj'; exact (belongsTo_of_put hb).1
  | fills => exact jobOfCommand_of_same hs hj rfl rfl fun j' hj' i hb => by cases hj'; exact (belongsTo_of_put hb).2
  | pushes => exact jobOfCommand_of_same hs hj rfl rfl fun j' hj' i hb => by cases hj'; cases i <;> exact hb
  | empties => exact jobOfCommand_of_same hs hj rfl rfl fun j' hj' i hb => by cases hj'; cases i <;> exact hb

theorem jobOfCommand_of_microStep {s t : State} (hs : jobOfCommand s) (h : microStep s = .moved t) :
    jobOfCommand t := by
  rcases microStep_cases h with ⟨-, i, hd, hi⟩ | ⟨-, e, -, rfl⟩ | ⟨j, hj, ha⟩
  · exact jobOfCommand_of_started hd (started_of_startInstr hi)
  · obtain ⟨code, info, he⟩ := raiseDecode_eq e s
    rw [he]
    exact jobOfCommand_of_ended rfl
  · exact jobOfCommand_of_advanced hs hj (advanced_of_advance ha)

/-! ## The tree registers -/

theorem treeInv_congr {s t : State} (hj : t.job = s.job) (hp : t.params = s.params) (ht : t.tree = s.tree)
    (h : treeInv s) : treeInv t := by
  unfold treeInv at *
  rwa [hj, hp, ht]

/-- A host transaction that is no reset leaves the tree, and the transient state: an idle core has none. -/
theorem HostEffect.tree_job {s t : State} (hm : modeOk s = true) (h : HostEffect s t) :
    t.tree = s.tree ∧ t.job = s.job ∧ t.wbuf = s.wbuf ∧ t.wn = s.wn := by
  cases h with
  | side hside => rw [hside.frame]; exact ⟨rfl, rfl, rfl, rfl⟩
  | issue v hidle =>
    have hj := ((modeOk_iff.mp hm).1 (by simp [hidle])).1
    exact ⟨rfl, hj.symm, rfl, rfl⟩
  | taken i c hside hidle =>
    have hj := ((modeOk_iff.mp hm).1 (by simp [hidle])).1
    rw [hside.frame]
    exact ⟨rfl, hj.symm, rfl, rfl⟩
  | latched i c hside => rw [hside.frame]; exact ⟨rfl, rfl, rfl, rfl⟩

/-- The command word stays with the transient state. -/
theorem jobOfCommand_of_hostEffect {s t : State} (hs : jobOfCommand s) (h : HostEffect s t) :
    jobOfCommand t := by
  cases h with
  | side hside => rw [hside.frame]; exact hs
  | issue => exact jobOfCommand_of_ended rfl
  | taken => exact jobOfCommand_of_ended rfl
  | latched i c hside => rw [hside.frame]; exact hs

/-- Whatever of a tree the registers hold, LEAF is in canonical form. -/
theorem leafWf_of_treeInv {s : State} (h : treeInv s) : leafWf s.params.width s.tree.leaf = true := by
  have hlisted {ls : List (Symbol × Nat)} (hl : leavesListed s.params.width s.tree ls = true) :
      leafWf s.params.width s.tree.leaf = true := (leavesListed_iff.mp hl).1
  have hok (ht : treeOk s.params.width s.tree) : leafWf s.params.width s.tree.leaf = true := by
    rcases ht with hc | ⟨p, hp⟩
    · rw [hc]; rfl
    · exact hlisted (isTree_leavesListed hp)
  have hrecon {l n c : Nat} (hr : reconOk s.params.width s.tree l n c) : leafWf s.params.width s.tree.leaf = true := by
    obtain ⟨f, fs, -, hholds, -⟩ := reconOk_iff.mp hr
    exact hlisted hholds.listed
  unfold treeInv at h
  split at h
  · rw [h]; rfl
  · exact hrecon h
  · exact hrecon h
  · exact hok h.1
  · exact hok h

/-! ## Both invariants -/

/-- What holds of every state a run reaches. -/
def wellBehaved (s : State) : Prop := machineOk s = true ∧ treeInv s

theorem wellBehaved_resetWith {p : Params} (hp : p.wf = true) : wellBehaved (State.resetWith p) :=
  ⟨machineOk_iff.mpr ⟨hp, memory_wf_resetWith p, decide_eq_true ⟨Nat.zero_le _, Nat.zero_le _⟩, rfl, rfl, rfl⟩,
    treeOk_cleared _⟩

/-- Settles O56, by the reset values. -/
theorem resetMeetsTheInvariants : Obligations.ResetMeetsTheInvariants :=
  ⟨fun _ hp => wellBehaved_resetWith hp, wellBehaved_resetWith (p := defaultParams) rfl⟩

/-- Both invariants from their parts; LEAF's form comes with the tree. -/
theorem wellBehaved_of_parts {t : State} (hp : t.params.wf = true) (hf : freqWf t.params.width t.freq = true)
    (hc : channelsOk t = true) (hm : modeOk t = true) (hw : padded t = true)
    (hr : ∀ j, t.job = some j → j.inRange t.params.width = true) (hj : jobOfCommand t) (ht : treeInv t) :
    wellBehaved t :=
  ⟨machineOk_iff.mpr ⟨hp, memory_wf_iff.mpr ⟨hf, leafWf_of_treeInv ht⟩, hc, hm, hw, jobLegal_iff.mpr ⟨hr, hj⟩⟩, ht⟩

theorem wellBehaved_of_microStep {s t : State} (hs : wellBehaved s) (hissued : s.job = none → s.mode = .busy)
    (h : microStep s = .moved t) : wellBehaved t := by
  obtain ⟨hok, htree⟩ := hs
  obtain ⟨hp, hmem, hc, hm, hw, hj⟩ := machineOk_iff.mp hok
  obtain ⟨u, hu, ht, hr⟩ := coreTurn_staysOnTree hok htree
  rw [coreTurn, if_pos (busy_of_microStep hm hissued), h] at hu
  cases hu
  have hparams := (keepsHostSide_of_microStep h).params
  exact wellBehaved_of_parts (hparams ▸ hp) (freqWf_of_microStep (memory_wf_iff.mp hmem).1 h)
    (channelsOk_of_microStep hc h) (modeOk_of_microStep hm hissued h) (padded_of_microStep hw h) hr
    (jobOfCommand_of_microStep (jobLegal_iff.mp hj).2 h) ht

theorem wellBehaved_of_hostTurn {op : HostOp} {s t : State} (hs : wellBehaved s) (h : hostTurn op s = .next t) :
    wellBehaved t := by
  obtain ⟨hok, htree⟩ := hs
  obtain ⟨hp, hmem, hc, hm, hw, hj⟩ := machineOk_iff.mp hok
  obtain ⟨hr, hcmd⟩ := jobLegal_iff.mp hj
  rcases hostTurn_cases h with ⟨-, rfl⟩ | heff
  · exact wellBehaved_resetWith hp
  · obtain ⟨htree', hjob, hbuf, hwn⟩ := heff.tree_job hm
    have hparams := heff.params_freq.1
    exact wellBehaved_of_parts (hparams ▸ hp) (freqWf_of_hostTurn (memory_wf_iff.mp hmem).1 h)
      (channelsOk_of_hostEffect hc heff) (modeOk_of_hostEffect hm heff) (padded_congr hjob hbuf hwn hw)
      (by rw [hjob, hparams]; exact hr) (jobOfCommand_of_hostEffect hcmd heff) (treeInv_congr hjob hparams htree' htree)

theorem wellBehaved_of_step {s t : State} (hs : wellBehaved s) (h : step s = .next t) : wellBehaved t :=
  step_keeps (P := wellBehaved) (fun _ _ hp => hp) (fun _ _ => wellBehaved_of_microStep)
    (fun _ _ _ => wellBehaved_of_hostTurn) hs h

/-- Settles O57: each part of the invariant is kept by every micro-step and every host transaction. -/
theorem stepKeepsTheMachineInvariant : Obligations.StepKeepsTheMachineInvariant :=
  fun _ _ hm ht h => (wellBehaved_of_step ⟨hm, ht⟩ h).1

/-- Settles O58: a micro-step stays on the tree, and a host transaction leaves the tree and the command alone,
or resets. -/
theorem stepKeepsTheTreeInvariant : Obligations.StepKeepsTheTreeInvariant :=
  fun _ _ hm ht h => (wellBehaved_of_step ⟨hm, ht⟩ h).2

end Sys2Proof.Machine
end

section
/-! PROOF. Turns of the core: a run turn as micro-steps in a row and how it ends, the turn that runs an issued word, and
a hold on input given its bytes (spec/00_scope.md R10, R14; spec/20_memory.md R62, R75, R76; spec/30_encoding.md
R113). -/

namespace Sys2Proof.Machine

/-! ## A run as core turns -/

theorem coreTurn_of_microStep {s t : State} (hb : s.mode = .busy) (h : microStep s = .moved t) :
    coreTurn s = .next t := by
  rw [coreTurn, if_pos hb, h]

theorem coreTurn_of_broken {s : State} {f : Fault} (hb : s.mode = .busy) (h : microStep s = .broken f) :
    coreTurn s = .fault f := by
  rw [coreTurn, if_pos hb, h]

theorem coreTurns_succ {k : Nat} {s t : State} (h : coreTurn s = .next t) : coreTurns (k + 1) s = coreTurns k t := by
  simp only [coreTurns, h]

theorem coreTurns_one_of_fault {s : State} {f : Fault} (h : coreTurn s = .fault f) : coreTurns 1 s = .fault f := by
  simp only [coreTurns, h]

theorem microStep_of_job {s : State} {j : Job} (hj : s.job = some j) : microStep s = advance j s := by
  simp only [microStep, hj]

theorem inCommand_of_microStep {s t : State} (hb : s.mode = .busy) (h : microStep s = .moved t) : inCommand t := by
  refine inCommand_of_ends_or_goes_on hb ?_
  rcases microStep_cases h with ⟨-, i, -, hi⟩ | ⟨-, e, -, rfl⟩ | ⟨j, hj, ha⟩
  · exact startInstr_mode hi
  · obtain ⟨code, info, he⟩ := raiseDecode_eq e s
    rw [he]
    exact .inl ⟨rfl, by simp⟩
  · exact advance_mode hj ha

/-- A run of a command that has begun is some core turns, whatever it answers. -/
theorem runJob_eq_coreTurns {s : State} (hs : inCommand s) : ∃ k, coreTurns k s = runJob s := by
  induction hn : stepBound s using Nat.strong_induction_on generalizing s with
  | _ n ih =>
    rw [runJob_eq]
    cases hj : s.job with
    | none => exact ⟨0, rfl⟩
    | some j =>
      have hb : s.mode = .busy := hs.mpr (by simp [hj])
      have hmicro := microStep_of_job hj
      cases ha : advance j s with
      | waiting => simp only [ha]; exact ⟨0, rfl⟩
      | broken f => simp only [ha]; exact ⟨1, coreTurns_one_of_fault (coreTurn_of_broken hb (hmicro.trans ha))⟩
      | moved u =>
        simp only [ha]
        have hmoved := hmicro.trans ha
        obtain ⟨k, hk⟩ := ih _ (hn ▸ advance_lowers hj ha) (inCommand_of_microStep hb hmoved) rfl
        exact ⟨k + 1, (coreTurns_succ (coreTurn_of_microStep hb hmoved)).trans hk⟩

/-- A run turn is some core turns, whatever it answers. -/
theorem runTurn_eq_coreTurns (s : State) : ∃ k, coreTurns k s = runTurn s := by
  by_cases hb : s.mode = .busy
  · rw [runTurn_eq_runFrom hb]
    cases hm : microStep s with
    | waiting => exact ⟨0, rfl⟩
    | broken f => exact ⟨1, coreTurns_one_of_fault (coreTurn_of_broken hb hm)⟩
    | moved u =>
      obtain ⟨k, hk⟩ := runJob_eq_coreTurns (inCommand_of_microStep hb hm)
      exact ⟨k + 1, (coreTurns_succ (coreTurn_of_microStep hb hm)).trans hk⟩
  · exact ⟨0, (runTurn_not_busy hb).symm⟩

/-- Settles O8: the same core turns answer what the run turn answers, a state or a fault. -/
theorem runTurnIsCoreTurns : Obligations.RunTurnIsCoreTurns := by
  intro s
  obtain ⟨k, hk⟩ := runTurn_eq_coreTurns s
  exact ⟨fun t h => ⟨k, hk.trans h⟩, fun f h => ⟨k, hk.trans h⟩⟩

/-! ## How a run ends -/

/-- A BUSY core whose next micro-step waits holds at InPop or at OutPush. -/
theorem holds_of_waiting {s : State} {j : Job} (hb : s.mode = .busy) (hj : s.job = some j)
    (h : advance j s = .waiting) : holds s := by
  rcases advance_waiting h with ⟨bits, rfl, hfull⟩ | ⟨r, k, rfl, hr, hq, hc⟩
  · exact .inr (by simp [holdOut, isBusy, atOutPush, hb, hj, hfull])
  · exact .inl (by simp [holdIn, isBusy, atInPop, hb, hj, hr, hq, hc])

theorem ended_or_holds_of_runJob {s t : State} (hs : inCommand s) (h : runJob s = .next t) :
    t.mode ≠ .busy ∨ holds t := by
  refine runJob_induction (P := fun s t => inCommand s → t.mode ≠ .busy ∨ holds t) (fun s hj hs => .inl fun hb => ?_)
    (fun s j hj hw hs => .inr (holds_of_waiting (hs.mpr (by simp [hj])) hj hw))
    (fun s j u t hj ha _ ih hs => ih ?_) h hs
  · simpa [hj] using hs.mp hb
  · exact inCommand_of_microStep (hs.mpr (by simp [hj])) ((microStep_of_job hj).trans ha)

/-- Settles O9: a run stops where the command has ended or its next micro-step waits. -/
theorem runTurnEndsOrHolds : Obligations.RunTurnEndsOrHolds := by
  intro s t hb h
  rw [runTurn_eq_runFrom hb] at h
  cases hm : microStep s with
  | moved u =>
    rw [hm] at h
    exact ended_or_holds_of_runJob (inCommand_of_microStep hb hm) h
  | broken f => rw [hm] at h; cases h
  | waiting =>
    rw [hm] at h
    cases h
    cases hj : s.job with
    | some j => exact .inr (holds_of_waiting hb hj ((microStep_of_job hj).symm.trans hm))
    | none =>
      simp only [microStep, hj, beginCommand] at hm
      split at hm
      · exact absurd hm (startInstr_ne_waiting _ s)
      · cases hm

/-! ## The turn that runs an issued word -/

/-- Settles O6: a word that is issued and decodes is begun by the next turn of the core. -/
theorem stepRunsTheIssuedCommand : Obligations.StepRunsTheIssuedCommand := by
  intro s i hs hd
  obtain ⟨hb, hj⟩ := hs
  have hmicro (rest : List Turn) : microStep { s with agenda := rest } = startInstr i { s with agenda := rest } := by
    simp only [microStep, hj, beginCommand, hd]
  refine ⟨fun ha => ?_, fun rest ha => ?_, fun rest ha => ⟨fun t ht => ?_, fun f hf => ?_⟩⟩
  · rw [step_of_agenda_nil ha, runTurn_issued hb hj hd]
  · exact (step_of_run ha).trans (runTurn_issued (s := { s with agenda := rest }) hb hj hd)
  · exact (step_of_core ha).trans (coreTurn_of_microStep (s := { s with agenda := rest }) hb ((hmicro rest).trans ht))
  · exact (step_of_core ha).trans (coreTurn_of_broken (s := { s with agenda := rest }) hb ((hmicro rest).trans hf))

/-- The 64 bits of a command word, from their number. -/
theorem tableWord_toNat (c : Command) : tableWord 64 c.toNat = c := by
  rw [tableWord, Nat.mod_eq_of_lt c.isLt, BitVec.ofNat_toNat, BitVec.setWidth_eq]

/-- Settles O7: the word placed for the next step is issued, and a run turn stands first. -/
theorem fetchWordRunsNext : Obligations.FetchWordRunsNext := by
  intro s i
  rw [State.withFetchWord, tableWord_toNat]
  exact (step_of_run (s := issueNext (encode i) s) rfl).trans (runTurn_issued rfl rfl (decode_encode i))

/-! ## A hold on input, given its bytes -/

/-- The state with more bytes behind those of INQ. -/
def moreInput (q : List Byte) (s : State) : State := { s with inq := s.inq ++ q }

/-- The command reads on. -/
def readsOn (s : State) : Prop := ∃ r k, s.job = some (.read r k)

theorem readsOn_of_holdIn {s : State} (h : holdIn s = true) : readsOn s := by
  simp only [holdIn, atInPop, Bool.and_eq_true] at h
  obtain ⟨⟨⟨-, hat⟩, -⟩, -⟩ := h
  split at hat
  · exact ⟨_, _, ‹_›⟩
  · cases hat

/-- A micro-step after which the command reads on is one of a command that reads. -/
theorem readsOn_of_advance {j : Job} {s t : State} (hj : s.job = some j) (ha : advance j s = .moved t)
    (ht : readsOn t) : readsOn s := by
  obtain ⟨r', k', hj'⟩ := ht
  have hp := pieces_of_advanced hj (advanced_of_advance ha) hj'
  cases j with
  | read r k => exact ⟨r, k, hj⟩
  | put bits => cases congrArg Pieces.writer hp
  | push bits => cases congrArg Pieces.writer hp
  | emptyInput => cases congrArg Pieces.inClosed hp
  | reopenInput => cases congrArg Pieces.inClosed hp

theorem moreInput_eq_withChannels (q : List Byte) (s : State) :
    moreInput q s = s.withChannels { s.channels with inq := s.inq ++ q } := rfl

/-- States with the same channels get the same channels from more bytes. -/
theorem moreInput_of_channels {s t : State} (q : List Byte) (h : t.channels = s.channels) :
    moreInput q t = t.withChannels { s.channels with inq := s.inq ++ q } := by
  rw [moreInput_eq_withChannels, h, show t.inq = s.inq from congrArg Channels.inq h]

theorem deliver_moreInput {r : Reader} {b : Bool} {k : Nat} {s t : State} (q : List Byte)
    (h : deliver r b k s = .moved t) : deliver r b k (moreInput q s) = .moved (moreInput q t) := by
  rw [moreInput_of_channels q (channels_of_delivered (delivered_of_deliver h)), moreInput_eq_withChannels,
    deliver_withChannels, h]
  rfl

/-- A micro-step after which the command reads on is taken alike with more bytes. -/
theorem readBit_moreInput {r : Reader} {k : Nat} {s t : State} (q : List Byte) (ha : readBit r k s = .moved t)
    (ht : readsOn t) : readBit r k (moreInput q s) = .moved (moreInput q t) := by
  rcases readBit_cases r k s with ⟨b, q', hr, hq, e⟩ | ⟨-, -, -, e⟩ | ⟨-, -, -, e⟩ | ⟨c, hr, e⟩
  · cases e.symm.trans ha
    exact readBit_refill (s := moreInput q s) (q := q' ++ q) hr (by simp [moreInput, hq]) r k
  · cases e.symm.trans ha
    obtain ⟨r', k', hj⟩ := ht
    rw [endOfStream_eq] at hj
    cases hj
  · cases e.symm.trans ha
  · have hd := e.symm.trans ha
    rw [readBit_bit (s := moreInput q s) hr]
    exact deliver_moreInput q hd

/-- A command that comes to hold on input gets there alike with more bytes, and they are left. -/
theorem runJob_moreInput {s t : State} (q : List Byte) (h : runJob s = .next t) (ht : holdIn t = true) :
    readsOn s ∧ runJob (moreInput q s) = runJob (moreInput q t) := by
  refine runJob_induction
    (P := fun s t => holdIn t = true → readsOn s ∧ runJob (moreInput q s) = runJob (moreInput q t))
    (fun s _ ht => ⟨readsOn_of_holdIn ht, rfl⟩) (fun s _ _ _ ht => ⟨readsOn_of_holdIn ht, rfl⟩)
    (fun s j u t hj ha _ ih ht => ?_) h ht
  obtain ⟨hu, hrun⟩ := ih ht
  obtain ⟨r, k, hs⟩ := readsOn_of_advance hj ha hu
  cases hj.symm.trans hs
  refine ⟨⟨r, k, hs⟩, ?_⟩
  rw [runJob_eq]
  simp only [show (moreInput q s).job = some (.read r k) from hs, advance, readBit_moreInput q ha hu, hrun]

theorem startInstr_moreInput {i : Instr} {s u : State} (q : List Byte) (hi : i ≠ .rrst)
    (h : startInstr i s = .moved u) : startInstr i (moreInput q s) = .moved (moreInput q u) := by
  rw [moreInput_of_channels q (channels_of_startInstr hi h), moreInput_eq_withChannels, startInstr_withChannels _ hi, h]
  rfl

theorem busy_and_inq_nil_of_holdIn {s : State} (h : holdIn s = true) : s.mode = .busy ∧ s.inq = [] := by
  simp only [holdIn, isBusy, Bool.and_eq_true, decide_eq_true_eq, List.isEmpty_iff] at h
  obtain ⟨⟨⟨hb, -⟩, hq⟩, -⟩ := h
  exact ⟨hb, hq⟩

/-- Settles O10: the command takes the same micro-steps up to the hold with the bytes there, which then stand in INQ. -/
theorem heldReadsResume : Obligations.HeldReadsResume := by
  intro i s t q _ h ht
  obtain ⟨u, hu, hrun⟩ := exec_next h
  obtain ⟨hb, hq⟩ := busy_and_inq_nil_of_holdIn ht
  have hi : i ≠ .rrst := by
    rintro rfl
    cases (exec_rrst s).symm.trans h
    exact finish_not_busy _ hb
  obtain ⟨-, hmore⟩ := runJob_moreInput q hrun ht
  obtain ⟨r, k, hj⟩ := readsOn_of_holdIn ht
  calc runTurn { t with inq := q }
      = runJob { t with inq := q } := runTurn_begun (s := { t with inq := q }) hb hj
    _ = runJob (moreInput q t) := by rw [moreInput, hq, List.nil_append]
    _ = runJob (moreInput q u) := hmore.symm
    _ = exec i (moreInput q s) := (exec_of_startInstr (startInstr_moreInput q hi hu)).symm

end Sys2Proof.Machine
end

section
/-! PROOF. The bit commands: what FLUSH pushes, the bits of several WBITS read back, RBITS, and a code word, when the
input ends, closed (spec/40_bit_io.md R135 to R138; spec/42_encode_decode.md R201, R202; spec/60_exceptions.md R263). -/

namespace Sys2Proof.Machine

/-! ## FLUSH -/

/-- FLUSH by the writer's state and the room in OUTQ (R135). -/
theorem exec_flush (s : State) : exec .flush s =
    if s.wn = 0 then .next (finish s)
    else if s.outq.length < s.params.outDepth then
      .next (finish { s with outq := s.outq ++ [s.wbuf], wbuf := 0, wn := 0 })
    else .next { s with job := some (.push []) } := by
  by_cases hwn : s.wn = 0
  · have hstart : startInstr .flush s = .moved (finish s) := if_pos hwn
    rw [if_pos hwn, exec_of_startInstr hstart, runJob_finish]
  · have hstart : startInstr .flush s = .moved { s with job := some (.push []) } := if_neg hwn
    rw [if_neg hwn, exec_of_startInstr hstart, runJob_push_nil]

/-- Bits of value 0 are zero bits. -/
theorem eq_replicate_false_of_bitsValue {bits : List Bool} (h : bitsValue bits = 0) :
    bits = List.replicate bits.length false := by
  rw [← msbBits_bitsValue bits, h, msbBits_eq_map]
  simp

/-- With the unused bits of WBUF 0, its byte is its written bits and then zero bits. -/
theorem byteBits_eq_take_append_zeros {b : Byte} {k : Nat} (h : b.toNat % 2 ^ (8 - k) = 0) :
    byteBits b = (byteBits b).take k ++ List.replicate (8 - k) false := by
  have hzero := eq_replicate_false_of_bitsValue ((bitsValue_drop_byteBits b k).trans h)
  rw [List.length_drop, byteBits_length] at hzero
  rw [← hzero, List.take_append_drop]

/-- Settles O13, by the three ways of FLUSH. -/
theorem flushPushesThePartialByte : Obligations.FlushPushesThePartialByte := by
  intro s
  refine ⟨fun hwn => ?_, fun hwn hroom => ?_, byteBits_eq_take_append_zeros⟩
  · rw [exec_flush, if_pos hwn]
  · rw [exec_flush, if_neg hwn, if_pos hroom]

/-! ## RRST -/

/-- Settles O16. -/
theorem rrstOpensANewStream : Obligations.RrstOpensANewStream := exec_rrst

/-! ## Written bits read back -/

theorem padded_of_runJob {s t : State} (h : runJob s = .next t) : padded s = true → padded t = true :=
  runJob_induction (P := fun s t => padded s = true → padded t = true) (fun _ _ h => h) (fun _ _ _ _ h => h)
    (fun _ _ _ _ hj ha _ ih hp => ih (padded_of_advanced hj hp (advanced_of_advance ha))) h

/-- WBITS comes to its end with its bits written, the unused bits of WBUF still 0. -/
theorem exec_wbits_idle {n : BitVec 16} {v : Word} {s t : State} (hz : unusedBitsZero s)
    (hexec : exec (.wbits n v) (s.issuing (.wbits n v)) = .next t) (hm : t.mode = .idle) :
    outBits t = outBits s ++ fieldBits n v ∧ unusedBitsZero t := by
  obtain ⟨u, hu, hrun, hjob⟩ := exec_idle hexec hm
  have hp := (padded_of_job_none (s := s.issuing (.wbits n v)) rfl).mpr hz
  have hpu := padded_of_started rfl hp (started_of_startInstr hu)
  refine ⟨?_, (padded_of_job_none hjob).mp (padded_of_runJob hrun hpu)⟩
  cases hok : bitCountOk n with
  | false =>
    cases (startInstr_outOfRange (i := .wbits n v) (s := s.issuing (.wbits n v)) hok).symm.trans hu
    exact absurd hm (not_idle_of_raise hrun)
  | true =>
    simp only [startInstr, startWbits, hok, checkRange_true, CoreStep.moved.injEq] at hu
    rw [← hu] at hrun
    obtain ⟨hout, -⟩ := runJob_onlyWrites hrun (.inr ⟨_, .inl rfl⟩)
    exact (bitsOut_of_job_none hjob).symm.trans hout

/-- FLUSH comes to its end with every output bit in OUTQ, and fewer than 8 zero bits behind them. -/
theorem exec_flush_idle_zeros {s t : State} (hz : unusedBitsZero s) (hexec : exec .flush (s.issuing .flush) = .next t)
    (hm : t.mode = .idle) : ∃ k < 8, t.outq.flatMap byteBits = outBits s ++ List.replicate k false := by
  rw [exec_flush] at hexec
  split at hexec
  · rename_i hwn
    cases hexec
    exact ⟨0, by omega, by rw [finish_outq, List.replicate_zero, List.append_nil]; exact (outBits_of_wn_zero hwn).symm⟩
  · rename_i hwn
    split at hexec <;> cases hexec
    · refine ⟨8 - s.wn.val, by have : s.wn.val ≠ 0 := fun h => hwn (Fin.ext h); omega, ?_⟩
      rw [finish_outq, List.flatMap_append, List.flatMap_singleton, outBits, List.append_assoc,
        ← byteBits_eq_take_append_zeros hz]
      rfl
    · cases hm

/-- The bits of the fields, one field after the other. -/
def allFieldBits (fields : List (BitVec 16 × Word)) : List Bool := fields.flatMap fun f => fieldBits f.1 f.2

/-- Several WBITS and a FLUSH leave the fields' bits in OUTQ, and fewer than 8 zero bits behind them. -/
theorem runCommands_wbits_flush {fields : List (BitVec 16 × Word)} : ∀ {s t : State}, unusedBitsZero s →
    runCommands (fields.map (fun f => .wbits f.1 f.2) ++ [.flush]) s = some t →
    ∃ k < 8, t.outq.flatMap byteBits = outBits s ++ allFieldBits fields ++ List.replicate k false := by
  induction fields with
  | nil =>
    intro s t hz hrun
    obtain ⟨u, hexec, hm, hu⟩ := runCommands_cons_some hrun
    cases hu
    simpa [allFieldBits] using exec_flush_idle_zeros hz hexec hm
  | cons f fields ih =>
    intro s t hz hrun
    obtain ⟨u, hexec, hm, hu⟩ := runCommands_cons_some hrun
    obtain ⟨hout, hz'⟩ := exec_wbits_idle hz hexec hm
    obtain ⟨k, hk, hbits⟩ := ih hz' hu
    exact ⟨k, hk, by simp [hbits, hout, allFieldBits]⟩

/-- Settles O19: the bits in OUTQ, a multiple of 8, are the fields' bits and fewer than 8 zero bits. -/
theorem writtenBitsReadBack : Obligations.WrittenBitsReadBack := by
  intro s t u fields hwn hbuf hq hrcur hrun
  have hz : unusedBitsZero s := by simp [unusedBitsZero, hbuf]
  have hempty : outBits s = [] := by rw [outBits_of_wn_zero hwn, hq]; rfl
  obtain ⟨k, hk, hbits⟩ := runCommands_wbits_flush hz hrun
  rw [hempty, List.nil_append, allFieldBits] at hbits
  have hin : inBits { u with inq := t.outq } = t.outq.flatMap byteBits := by simp [inBits, unreadBits, hrcur]
  have hlen := congrArg List.length hbits
  rw [flatMap_byteBits_length, List.length_append, List.length_replicate] at hlen
  refine ⟨by omega, ?_⟩
  rw [hin, hbits, hlen, Nat.add_sub_cancel_left]

/-! ## A command on a closed input that ends -/

theorem job_of_deliverBits {bits : List Bool} {s w : State} (h : deliverBits bits s = some w) (hj : s.job = none) :
    w.job = none := by
  cases bits with
  | nil => cases h; exact hj
  | cons b bits =>
    obtain ⟨r, k, t, hr, -, -⟩ := deliverBits_cons_some h
    cases hj.symm.trans hr

/-- Of RBITS and DEC, bits after which the command reads on change the transient state alone, and are counted. -/
theorem reading_of_deliverBits {bits : List Bool} {r r' : Reader} {k k' : Nat} {s w : State} (hr : r.isRecon = false)
    (h : deliverBits bits (s.reading r k) = some w) (hj : w.job = some (.read r' k')) :
    r'.isRecon = false ∧ w = s.reading r' (k + bits.length) := by
  induction bits generalizing r k with
  | nil => cases h; cases hj; exact ⟨hr, rfl⟩
  | cons b bits ih =>
    obtain ⟨_, _, t, hread, hd, hbits⟩ := deliverBits_cons_some h
    cases hread
    rcases returns_or_reads_of_deliver hr hd with ⟨v, rfl⟩ | ⟨r₁, rfl⟩
    · cases (job_of_deliverBits hbits (finish_job _)).symm.trans hj
    · obtain ⟨-, hrecon, -⟩ := reading_of_deliver hd rfl
      obtain ⟨hr', hw⟩ := ih (hrecon.trans hr) hbits
      exact ⟨hr', hw.trans (by rw [List.length_cons, Nat.add_assoc, Nat.add_comm 1])⟩

/-- RBITS or DEC that wants more than the bits of a closed input raises END_OF_STREAM with their number (R136, R202). -/
theorem runJob_reading_ends {r : Reader} {s v : State} {more : List Bool} (hr : r.isRecon = false)
    (h : deliverBits (inBits s ++ more) (s.reading r 0) = some v) (hmore : more ≠ []) (hc : s.inClosed = true) :
    ∃ b : Byte, runJob (s.reading r 0) = .next (takeError .endOfStream (BitVec.ofNat 32 (inBits s).length) s.cmd
      { s with rbuf := b, rcur := none, inq := [] }) := by
  obtain ⟨r', k', w, b, hw, hj, hrun⟩ := runJob_deliverBits_short h hmore rfl hc
  obtain ⟨hr', rfl⟩ := reading_of_deliverBits hr hw hj
  cases hj
  refine ⟨b, hrun.trans ?_⟩
  rw [endOfStream_eq, if_neg (by simp [hr']), Nat.zero_add]
  rfl

/-! ## RBITS -/

/-- The first micro-step of RBITS on a number of bits in its range leaves the field to read. -/
theorem startInstr_rbits {n : BitVec 16} (s : State) (h1 : 1 ≤ n.toNat) (h32 : n.toNat ≤ 32) :
    startInstr (.rbits n) s = .moved (s.reading (.field n.toNat 0) 0) := by
  have hok : bitCountOk n = true := decide_eq_true ⟨h1, h32⟩
  simp only [startInstr, startRbits, hok, checkRange_true]
  rfl

/-- Settles O14: the field's bits are delivered one by one, and shifted together they are the answer. -/
theorem rbitsReadsTheField : Obligations.RbitsReadsTheField := by
  intro s n h1 h32 hlen
  have htake : ((inBits s).take n.toNat).length = n.toNat := List.length_take_of_le hlen
  have hne : (inBits s).take n.toNat ≠ [] := List.ne_nil_of_length_pos (by omega)
  have hd := deliverBits_field s hne 0 0
  rw [htake] at hd
  obtain ⟨i, hrun, hrest, hbytes⟩ := runJob_deliverBits hd (List.take_append_drop n.toNat (inBits s)).symm
  rw [htake] at hbytes
  refine ⟨i.rbuf, i.rcur, i.inq, ?_, hrest, hbytes⟩
  have hvalue : ((inBits s).take n.toNat).foldl shiftIn 0 = BitVec.ofNat 32 (bitsValue ((inBits s).take n.toNat)) := by
    rw [← foldl_shiftIn_zero_toNat (w := 32) _ (by omega), BitVec.ofNat_toNat, BitVec.setWidth_eq]
  rw [exec_of_startInstr (startInstr_rbits s h1 h32), hrun, hvalue, finishWith, ← finish_withInput, runJob_finish]
  rfl

/-- Settles O15: with the bits that are there and any more RBITS would end. -/
theorem rbitsRaisesAtEndOfStream : Obligations.RbitsRaisesAtEndOfStream := by
  intro s n h1 h32 hlen hc
  let more := List.replicate (n.toNat - (inBits s).length) false
  have htotal : (inBits s ++ more).length = n.toNat := by simp [more]; omega
  have hd := deliverBits_field s (List.ne_nil_of_length_pos (l := inBits s ++ more) (by omega)) 0 0
  rw [htotal] at hd
  rw [exec_of_startInstr (startInstr_rbits s h1 h32)]
  exact runJob_reading_ends rfl hd (by simp [more]; omega) hc

/-! ## ENC and DEC -/

/-- Settles O26: the code word is what ENC has to write, and there is room. -/
theorem encAppendsTheCodeWord : Obligations.EncAppendsTheCodeWord := by
  intro s p x bits h hx hcode hroom
  obtain ⟨i, hleaf, hword⟩ := codeWord_of_code h hcode
  have hstart : startInstr (.enc x) s = .moved { s with job := some (.put bits) } := by
    simp only [startInstr, startEnc, symbolOk, hx, decide_true, checkRange_true, encBody, hleaf, hword]
  obtain ⟨hwn, houtq⟩ := putBits_counts bits s
  refine ⟨(putBits bits s).outq, (putBits bits s).wbuf, (putBits bits s).wn, ?_⟩
  rw [← putBits_frame]
  exact ⟨(exec_of_startInstr hstart).trans (runJob_put hroom), outBits_putBits .., hwn, houtq⟩

theorem PTree.path_node_zero {i : Nat} {z o : PTree} {x : Symbol} {bits : List Bool} (h : z.path x = some bits) :
    (PTree.node i z o).path x = some (false :: bits) := by simp only [PTree.path, h]

/-- A symbol of the one side is not of the zero side, where the symbols are distinct. -/
theorem PTree.path_node_one {i : Nat} {z o : PTree} {x : Symbol} {bits : List Bool}
    (hnodup : (PTree.node i z o).symbols.Nodup) (h : o.path x = some bits) :
    (PTree.node i z o).path x = some (true :: bits) := by
  rw [PTree.symbols_node] at hnodup
  have hz : z.path x = none := Option.eq_none_iff_forall_ne_some.mpr fun bits' hz =>
    List.disjoint_of_nodup_append hnodup (PTree.mem_symbols_of_path hz) (PTree.mem_symbols_of_path h)
  simp only [PTree.path, hz, h, Option.map_some]

/-- Bits walk a tree to a leaf, or end on the way to one. -/
theorem PTree.path_prefix_or_extends {p : PTree} (hnodup : p.symbols.Nodup) (bits : List Bool) :
    (∃ x path, p.path x = some path ∧ path <+: bits) ∨ ∃ x more, p.path x = some (bits ++ more) ∧ more ≠ [] := by
  induction p generalizing bits with
  | leaf i x => exact .inl ⟨x, [], by simp [PTree.path], List.nil_prefix⟩
  | node i z o ihz iho =>
    have hsides := PTree.symbols_node i z o ▸ hnodup
    cases bits with
    | nil =>
      obtain ⟨x, hx⟩ := List.exists_mem_of_length_pos z.symbols_length_pos
      obtain ⟨path, hpath⟩ := PTree.path_of_mem_symbols hx
      exact .inr ⟨x, false :: path, PTree.path_node_zero hpath, by simp⟩
    | cons b bits =>
      cases b with
      | false =>
        exact (ihz hsides.of_append_left bits).imp
          (fun ⟨x, path, hx, hpre⟩ => ⟨x, _, PTree.path_node_zero hx, List.cons_prefix_cons.mpr ⟨rfl, hpre⟩⟩)
          (fun ⟨x, more, hx, hmore⟩ => ⟨x, more, PTree.path_node_zero hx, hmore⟩)
      | true =>
        exact (iho hsides.of_append_right bits).imp
          (fun ⟨x, path, hx, hpre⟩ => ⟨x, _, PTree.path_node_one hnodup hx, List.cons_prefix_cons.mpr ⟨rfl, hpre⟩⟩)
          (fun ⟨x, more, hx, hmore⟩ => ⟨x, more, PTree.path_node_one hnodup hx, hmore⟩)

/-- Settles O30: the bits there begin with no code word, so they are the beginning of one. -/
theorem decRaisesAtEndOfStream : Obligations.DecRaisesAtEndOfStream := by
  intro s p h hp hc hno
  rcases PTree.path_prefix_or_extends (symbols_nodup_of_isTree h) (inBits s) with
    ⟨x, path, hx, hpre⟩ | ⟨x, more, hx, hmore⟩
  · exact absurd hpre (hno x path ((PTree.code_eq_path hp x).trans hx))
  · have hd := deliverBits_arriveAt hx 0 (isTree_spells h)
    rw [exec_of_startInstr (i := .dec) (startDec_arriveAt h)]
    cases p with
    | leaf i y => cases hp
    | node i z o => exact runJob_reading_ends (r := .walk i) rfl hd hmore hc

end Sys2Proof.Machine
end

section
/-! PROOF. FREQ and its commands, the error entry and the return, and the host's writes to the registers
(spec/41_table_build.md R160 to R162; spec/60_exceptions.md R262, R266; spec/20_memory.md R64; spec/10_state.md
R23, R33, R49). -/

namespace Sys2Proof.Machine

/-! ## FREQ -/

theorem exec_clrf (s : State) : exec .clrf s = .next (finish { s with freq := [] }) :=
  (exec_of_startInstr (i := .clrf) rfl).trans (runJob_finish _)

theorem exec_setf {x : Symbol} {s : State} (hx : x.toNat < s.params.width.alphabet) (c : Word) :
    exec (.setf x c) s = .next (finish { s with freq := setFreq s.freq x c }) := by
  have hok : symbolOk s.params.width x = true := decide_eq_true hx
  rw [exec_of_startInstr (i := .setf x c) (by rw [startInstr, startSetf, hok, checkRange_true]), runJob_finish]

theorem exec_getf {x : Symbol} {s : State} (hx : x.toNat < s.params.width.alphabet) :
    exec (.getf x) s = .next (finishWith (getFreq s.freq x) s) := by
  have hok : symbolOk s.params.width x = true := decide_eq_true hx
  rw [exec_of_startInstr (i := .getf x) (by rw [startInstr, startGetf, hok, checkRange_true]), finishWith,
    runJob_finish]

theorem getFreq_setFreq {w : Width} {f : Table Word} (h : freqWf w f = true) (x y : Symbol) (c : Word) :
    getFreq (setFreq f x c) y = if y = x then c else getFreq f y := by
  split
  · subst y
    exact getFreq_setFreq_same h x c
  · exact getFreq_setFreq_other f ‹_› c

/-- Settles O20, command by command. -/
theorem frequencyCommandsReadAndWriteEntries : Obligations.FrequencyCommandsReadAndWriteEntries := by
  intro s hf
  refine ⟨⟨[], exec_clrf s, getFreq_nil⟩, fun x hx => ⟨fun c => ?_, exec_getf hx⟩⟩
  exact ⟨setFreq s.freq x c, exec_setf hx c, freqWf_setFreq hf hx c, fun y => getFreq_setFreq hf x y c⟩

/-! ## The error entry and the return -/

/-- Settles O43, by MODE and PEND. -/
theorem errorEntryAndReturn : Obligations.ErrorEntryAndReturn := by
  refine ⟨fun code info cmd s => ⟨rfl, fun hm => ?_, fun hm => ?_, fun hm hp => ?_, fun hm hp => ?_⟩,
    fun s => ⟨finish_of_not_pend, finish_of_pend⟩⟩
  · simp only [hostProtocolError, hm]
  · simp only [hostProtocolError, hm]
  · simp only [hostProtocolError, hm, hp, if_true]
  · simp only [hostProtocolError, hm, hp, Bool.false_eq_true, if_false]

/-! ## H_PUSH -/

/-- INPUT_PROTOCOL's cause is one that holds: 1 for a full INQ, 2 for a closed one (R261; log 7). -/
theorem pushCause_cases {s : State} (h : ¬ (s.inq.length < s.params.inDepth ∧ s.inClosed = false)) :
    pushCause s = 1 ∧ s.params.inDepth ≤ s.inq.length ∨ pushCause s = 2 ∧ s.inClosed = true := by
  unfold pushCause
  split
  · rename_i hc
    split
    · exact .inr ⟨rfl, hc⟩
    · split
      · exact .inl ⟨rfl, by omega⟩
      · exact .inr ⟨rfl, hc⟩
  · rename_i hc
    exact .inl ⟨rfl, Nat.not_lt.mp fun hlt => h ⟨hlt, Bool.eq_false_iff.mpr hc⟩⟩

/-- Settles O49: IN_DATA's write appends, or is charged to a cause that holds. -/
theorem pushAppendsOrRaises : Obligations.PushAppendsOrRaises := by
  intro s rest v ha
  have hstep : step s = .next (pushByte (v.setWidth 8) { s with agenda := rest }) :=
    step_hostWrite (off := 0x28) (r := .inData) rfl ha
  refine ⟨fun hroom hopen => ?_, fun hrefused => ?_⟩
  · rw [hstep, pushByte, if_pos ⟨hroom, hopen⟩]
  · have hno : ¬ (s.inq.length < s.params.inDepth ∧ s.inClosed = false) := by
      rintro ⟨hlt, hopen⟩
      rcases hrefused with h | h
      · omega
      · cases hopen.symm.trans h
    refine ⟨pushCause { s with agenda := rest }, pushCause_cases (s := { s with agenda := rest }) hno, ?_⟩
    rw [hstep, pushByte, if_neg hno, BitVec.toNat_setWidth]
    rfl

/-! ## The registers that ignore writes -/

/-- Settles O51, register by register. -/
theorem ignoredWritesAndZeroReads : Obligations.IgnoredWritesAndZeroReads := by
  intro s rest off v ha
  refine ⟨fun hoff => ?_, fun hoff hv => ?_, fun hoff hv => ?_, fun off' hoff' => ?_⟩
  · simp only [List.mem_cons, List.not_mem_nil, or_false] at hoff
    rcases hoff with rfl | rfl | rfl | rfl | rfl | rfl | rfl | rfl | rfl | rfl | rfl <;> exact step_hostWrite rfl ha
  · simp only [List.mem_cons, List.not_mem_nil, or_false] at hoff
    rcases hoff with rfl | rfl <;> rw [step_hostWrite rfl ha] <;> simp only [writeReg, hv, Bool.false_eq_true, if_false]
  · subst off
    rw [step_hostWrite rfl ha]
    simp only [writeReg, hv, if_true]
  · simp only [List.mem_cons, List.not_mem_nil, or_false] at hoff'
    rcases hoff' with rfl | rfl | rfl | rfl | rfl <;> exact ⟨_, rfl, rfl⟩

end Sys2Proof.Machine
end
